-- ==== Sys2Proof/Word.lean ====
section
/-! DEFINITION. The few plain types every other file uses: bytes on the bus, and the numbers that
name a delivery point, a product, a tally register and a set of products. -/

namespace Sys2Proof

/-- One byte on the two-wire bus (R176). -/
abbrev Byte := BitVec 8

/-- A delivery point, 0 to 3 (R2). -/
abbrev PointNo := Fin 4

/-- A product, 0 to 5 (R48). -/
abbrev ProductNo := Fin 6

/-- A tally register, 0 to 63 (R79). -/
abbrev RegNo := Fin 64

/-- A set of products, sent as a mask in which bit k stands for product k (R176). -/
abbrev ProductSet := BitVec 6

end Sys2Proof
end

