-- ==== Sys2Proof/Config.lean ====
section
/-! DEFINITION. The constants that the TD440 fixes. The spec leaves no value of the part open, so no
free value stands here. -/

namespace Sys2Proof.Config

/-- The part revision that STATUS reports (Section 0.1, R161). -/
def revision : Nat := 3

/-- The bus address with both straps low (R145). -/
def busBase : BitVec 7 := 0x2C

/-- Bytes that the request slot holds (R148). -/
def requestSlotBytes : Nat := 52

/-- Bytes that the general-call buffer holds (R157). -/
def generalCallBytes : Nat := 3

/-- The general-call address (R145). -/
def generalCallAddress : BitVec 7 := 0x00

/-- The greatest payload length of a request frame (R150). -/
def maxRequestPayload : Nat := 48

/-- The stop limit timer, in seconds (R18). -/
def stopLimitSeconds : Nat := 30

/-- Saturation of the reverse and creep counts (R36, R39). -/
def count16Max : Nat := 65535

/-- Saturation of the phase-error count (R37). -/
def count8Max : Nat := 255

/-- Saturation of the suspension count (R96, R119). -/
def suspensionMax : Nat := 255

/-- The live values are limited to 8 digits: the first magnitude that does not fit (R43, R60). -/
def liveLimit : Nat := 10 ^ 8

/-- Digits of a TOTAL or SHIFT register (R77). -/
def accountDigits : Nat := 16

/-- Default rounding digit of a TOTAL or SHIFT register and of a cold GENERAL register (R77, R78). -/
def defaultRounding : Nat := 5

/-- VS and MS after a cold start (Section 5.5). -/
def coldScale : Nat := 2

/-- The greatest sale number (R134). -/
def saleNumberMax : Nat := 65535

/-- The limit of uncleared sales of one point (R9, R135). -/
def salesPerPoint : Nat := 2

/-- What the link sends for a byte clocked beyond a reply or a marker (R152, R154). -/
def idleByte : Byte := 0xFF

/-- The PENDING marker (R176, Table 11-3). -/
def pendingMarker : List Byte := [0x7F, 0x01]

/-- The NO-REPLY marker (R176, Table 11-3). -/
def noReplyMarker : List Byte := [0x7F, 0x00]

end Sys2Proof.Config
end

