-- ==== Sys2Proof/Syntax.lean ====
section
/-! DEFINITION. The commands that reach the part: one constructor per row of spec/opcode_table.json.
The first 34 are the request kinds of Table 0-2, each a write transaction to the own address whose
frame passes R150 and carries the payload given; the others are the link, pin, timer and decimal-unit
events. The table gives its rows no operands, so the operands are the ones the rules name. -/

namespace Sys2Proof

/-- How far a posting commit had come when a loss of main power, RESETn or RESTART stopped the work in
hand (R124, R164). `none`: no commit record was whole. `some j`: the record was whole in the journal and
the first j of the commit's retained writes had been made. -/
abbrev CommitCut := Option Nat

/-- What the surroundings give a start (R145, R173): the strap levels (AD1 AD0) it finds, and, when the
start is itself interrupted, how many switches of its sequence it had made. `none` runs to RUNNING. -/
structure StartEnv where
  straps : BitVec 2
  upTo   : Option Nat
  deriving DecidableEq, Repr

/-- The events of a general-call write (R146, R157). -/
inductive GeneralCall where
  /-- The general-call address is received. -/
  | address
  /-- One data byte is received. -/
  | data (byte : Byte)
  /-- The host ends the write. -/
  | ending
  deriving DecidableEq, Repr

/-- A write transaction: its 7-bit address and the data bytes it ends with (R145, R148). -/
structure BusWrite where
  address : BitVec 7
  bytes   : List Byte
  deriving DecidableEq, Repr

/-- A read transaction: its 7-bit address and how many data bytes the host clocks (R145, R152). -/
structure BusRead where
  address : BitVec 7
  count   : Nat
  deriving DecidableEq, Repr

/-- One command. -/
inductive Instr where
  -- requests answered by LKI and RCU
  | status (payload : List Byte)
  | getEvents (payload : List Byte)
  | restart (payload : List Byte) (cut : CommitCut) (env : StartEnv)
  | clearRetained (payload : List Byte) (env : StartEnv)
  -- requests answered by the point controllers
  | definePoint (payload : List Byte)
  | modifyPoint (payload : List Byte)
  | releasePoint (payload : List Byte)
  | authorize (payload : List Byte)
  | cancel (payload : List Byte)
  | pause (payload : List Byte)
  | resume (payload : List Byte)
  | stop (payload : List Byte)
  | stopAll (payload : List Byte)
  | readPoint (payload : List Byte)
  | clearFault (payload : List Byte)
  | clearCreep (payload : List Byte)
  -- requests answered by the Product Table and the Sale Queue
  | setProduct (payload : List Byte)
  | setPrice (payload : List Byte)
  | collectSale (payload : List Byte)
  | clearSale (payload : List Byte)
  -- requests answered by the decimal unit
  | setSite (payload : List Byte)
  | declare (payload : List Byte)
  | load (payload : List Byte)
  | move (payload : List Byte)
  | add (payload : List Byte)
  | subtract (payload : List Byte)
  | multiply (payload : List Byte)
  | divide (payload : List Byte)
  | rescale (payload : List Byte)
  | compare (payload : List Byte)
  | sumList (payload : List Byte)
  | readRegister (payload : List Byte)
  | hold (payload : List Byte)
  | releaseHold (payload : List Byte)
  -- the link
  | frameError (write : BusWrite)
  | readTransaction (read : BusRead)
  | clockStretchEnd
  /-- One event of a write to the general-call address (notes/assumptions/27.md). -/
  | generalCallStopAll (event : GeneralCall)
  -- the field side
  | liftEdge (p : PointNo)
  | lowerEdge (p : PointNo)
  /-- The levels of PAp and PBp become these. -/
  | changeOfThePair (p : PointNo) (a b : Bool)
  | authorizationTimerExpiry (p : PointNo)
  | noFlowTimerExpiry (p : PointNo)
  | settleTimerExpiry (p : PointNo)
  | stopLimitTimerExpiry (p : PointNo)
  | estopnAsserted
  | estopnReleased
  | pfailnFall
  | pfailnRise
  -- the decimal unit
  | holdTimerExpiry
  | postingCommit
  | suspension
  | hostJobCompletion
  -- power and starts
  | mainPowerLoss (cut : CommitCut)
  /-- VDD returns; `retentionHeld` says whether retained memory held its contents (R165). -/
  | mainPowerReturn (retentionHeld : Bool) (env : StartEnv)
  | resetnAsserted (cut : CommitCut)
  | resetnReleased (env : StartEnv)
  deriving DecidableEq, Repr

end Sys2Proof
end

