-- ==== Sys2Proof/Decode.lean ====
section
/-! DEFINITION. What the link makes of the bytes of a write: the frame check of R150. The opcode table
gives its rows no bits, so `decodeTableWord` reads no command from a word. -/

namespace Sys2Proof

/-- The sum of bytes modulo 256 (R150). -/
def byteSum : List Byte → Byte
  | [] => 0
  | b :: r => b + byteSum r

/-! The kind codes of Table 11-5 (R179). -/

abbrev Kind.status : Byte := 0x01
abbrev Kind.getEvents : Byte := 0x02
abbrev Kind.restart : Byte := 0x0E
abbrev Kind.clearRetained : Byte := 0x0F
abbrev Kind.definePoint : Byte := 0x10
abbrev Kind.modifyPoint : Byte := 0x11
abbrev Kind.releasePoint : Byte := 0x12
abbrev Kind.authorize : Byte := 0x13
abbrev Kind.cancel : Byte := 0x14
abbrev Kind.pause : Byte := 0x15
abbrev Kind.resume : Byte := 0x16
abbrev Kind.stop : Byte := 0x17
abbrev Kind.stopAll : Byte := 0x18
abbrev Kind.readPoint : Byte := 0x19
abbrev Kind.clearFault : Byte := 0x1A
abbrev Kind.clearCreep : Byte := 0x1B
abbrev Kind.setProduct : Byte := 0x20
abbrev Kind.setPrice : Byte := 0x21
abbrev Kind.collectSale : Byte := 0x28
abbrev Kind.clearSale : Byte := 0x29
abbrev Kind.setSite : Byte := 0x30
abbrev Kind.declare : Byte := 0x31
abbrev Kind.load : Byte := 0x32
abbrev Kind.move : Byte := 0x33
abbrev Kind.add : Byte := 0x34
abbrev Kind.subtract : Byte := 0x35
abbrev Kind.multiply : Byte := 0x36
abbrev Kind.divide : Byte := 0x37
abbrev Kind.rescale : Byte := 0x38
abbrev Kind.compare : Byte := 0x39
abbrev Kind.sumList : Byte := 0x3A
abbrev Kind.readRegister : Byte := 0x3B
abbrev Kind.hold : Byte := 0x3C
abbrev Kind.releaseHold : Byte := 0x3D

/-- The 34 kind codes, which are the codes of the request kinds (R179). -/
def kindCodes : List Byte :=
  [Kind.status, Kind.getEvents, Kind.restart, Kind.clearRetained, Kind.definePoint,
   Kind.modifyPoint, Kind.releasePoint, Kind.authorize, Kind.cancel, Kind.pause, Kind.resume,
   Kind.stop, Kind.stopAll, Kind.readPoint, Kind.clearFault, Kind.clearCreep, Kind.setProduct,
   Kind.setPrice, Kind.collectSale, Kind.clearSale, Kind.setSite, Kind.declare, Kind.load,
   Kind.move, Kind.add, Kind.subtract, Kind.multiply, Kind.divide, Kind.rescale, Kind.compare,
   Kind.sumList, Kind.readRegister, Kind.hold, Kind.releaseHold]

/-- What the frame check of R150 says of the bytes received. -/
inductive FrameVerdict where
  | frameError
  | unknownKind
  | request (kind : Byte) (payload : List Byte)
  deriving DecidableEq, Repr

/-- The frame check of R150, in its order: byte count and payload length, check byte, kind. -/
def frameCheck (bytes : List Byte) : FrameVerdict :=
  match bytes with
  | kind :: len :: rest =>
    if bytes.length < 3 ∨ Config.maxRequestPayload < len.toNat ∨ bytes.length ≠ len.toNat + 3 then
      .frameError
    else if byteSum bytes ≠ 0 then .frameError
    else if kind ∈ kindCodes then .request kind (rest.take len.toNat)
    else .unknownKind
  | _ => .frameError

/-- The request frame of a kind and payload, with the check byte that makes the sum zero (Table 11-1). -/
def requestFrame (kind : Byte) (payload : List Byte) : List Byte :=
  let head := kind :: BitVec.ofNat 8 payload.length :: payload
  head ++ [-(byteSum head)]

/-- The rows of the table give no bits, so no word spells a command. -/
def decodeTableWord (_nbits _w : Nat) : Option Instr := none

end Sys2Proof
end

