-- ==== Sys2Proof/Machine/State.lean ====
section
/-! DEFINITION. The state of the TD440 as plain data, block by block as Table 0-1 names the blocks, with
the queue of commands waiting, and the state after reset. -/

namespace Sys2Proof.Machine

/-! ## The field side -/

/-- Point states (Table 1-1). -/
inductive PtState where
  | undefined | idle | calling | authorized | delivering | paused | stopping | settling | faulted
  deriving DecidableEq, Repr

/-- Pulse modes (Table 2-2). -/
inductive PulseMode where
  | single | directed | dual | quad1 | quad4
  deriving DecidableEq, Repr

/-- End reasons (Table 8-2). -/
inductive EndReason where
  | handle | preset | stopRequest | emergency | noFlow | fault | limit | power
  deriving DecidableEq, Repr

/-- The kinds of fault a meter input reports (Section 1.6). -/
inductive FaultKind where
  | creep | reverse | pulser
  deriving DecidableEq, Repr

/-- A fault set (Section 1.6). -/
structure FaultSet where
  creep   : Bool
  reverse : Bool
  pulser  : Bool
  deriving DecidableEq, Repr

/-- The sale flags (R132). -/
structure SaleFlags where
  overrun       : Bool
  reverseSeen   : Bool
  flowAfterStop : Bool
  deriving DecidableEq, Repr

/-- The per-point event flags (Table 9-3). -/
structure PointFlags where
  call     : Bool
  started  : Bool
  slowdown : Bool
  stopped  : Bool
  sale     : Bool
  lapsed   : Bool
  fault    : Bool
  creep    : Bool
  reverse  : Bool
  deriving DecidableEq, Repr

/-- The point definition record (Table 1-2). The K-factor counts thousandths; the margin and the
tolerance count units of 10^-VS. -/
structure PointDef where
  mode        : PulseMode
  kFactor     : Nat
  allowed     : ProductSet
  margin      : Nat
  tolerance   : Nat
  authTimeout : Nat
  noFlow      : Nat
  settleTime  : Nat
  creepLimit  : Nat
  reverseLimit : Nat
  phaseLimit  : Nat
  deriving DecidableEq, Repr

/-- Preset kinds (Table 1-3). -/
inductive PresetKind where
  | volume | money
  deriving DecidableEq, Repr

/-- A preset (R63): the amount counts units of 10^-VS or 10^-MS by its kind, the target units of 10^-VS. -/
structure Preset where
  kind   : PresetKind
  amount : Nat
  target : Nat
  deriving DecidableEq, Repr

/-- The authorization record (Table 1-3), with the latched unit price at its price scale. -/
structure AuthRecord where
  product    : ProductNo
  price      : Nat
  priceScale : Nat
  preset     : Option Preset
  tag        : Option (BitVec 32)
  deriving DecidableEq, Repr

/-- The frozen sale (R132). -/
structure FrozenSale where
  point     : PointNo
  auth      : AuthRecord
  volume    : Nat
  money     : Nat
  endReason : EndReason
  faults    : FaultSet
  flags     : SaleFlags
  deriving DecidableEq, Repr

/-- A pair of levels, A then B (Chapter 2). -/
structure PhasePair where
  a : Bool
  b : Bool
  deriving DecidableEq, Repr

/-- Meter Input MTIp (Table 2-1). The last phase state is absent while the pins are not watched (R47). -/
structure Meter where
  lastPhase   : Option PhasePair
  net         : Nat
  reverse     : Nat
  phaseErrors : Nat
  creep       : Nat
  deriving DecidableEq, Repr

/-- The timers of a point: `none` stopped, `some n` running, started at n (R11, R15, R19). -/
structure Timers where
  authorization : Option Nat
  noFlow        : Option Nat
  settle        : Option Nat
  stopLimit     : Option Nat
  deriving DecidableEq, Repr

/-- Point Controller PTCp with its Meter Input. -/
structure Point where
  st         : PtState
  defn       : Option PointDef
  auth       : Option AuthRecord
  liveVolume : Nat
  liveMoney  : Nat
  slowDown   : Bool
  endReason  : Option EndReason
  faults     : FaultSet
  saleFlags  : SaleFlags
  frozen     : Option FrozenSale
  handleUp   : Bool
  timers     : Timers
  flags      : PointFlags
  meter      : Meter
  deriving DecidableEq, Repr

/-- An ACTIVE product record (Table 3-1); an UNDEFINED product holds none. Prices count units of 10^-PS. -/
structure Product where
  priceScale : Nat
  rounding   : Nat
  current    : Nat
  staged     : Option Nat
  deriving DecidableEq, Repr

/-! ## The tally store and the decimal unit -/

/-- A tally register (R75). Its value counts units of 10^-scale; an integer has no negative zero, as
R76 asks of a stored value. -/
structure TallyReg where
  digits   : Nat
  scale    : Nat
  rounding : Nat
  value    : Int
  deriving DecidableEq, Repr

/-- The tally store (Chapter 5). -/
structure Tally where
  vs   : Nat
  ms   : Nat
  regs : Vector TallyReg 64
  deriving DecidableEq, Repr

/-- What the decimal unit is working on (R114). -/
inductive DcuUnit where
  | free | posting | host
  deriving DecidableEq, Repr

/-- A posting (Section 7.2), TAKEN or WAITING (R116). -/
structure Posting where
  point   : PointNo
  product : ProductNo
  volume  : Nat
  money   : Nat
  taken   : Bool
  deriving DecidableEq, Repr

/-- A sale record (Table 8-2): the sale number and the frozen sale's contents. -/
structure SaleRecord where
  number : Nat
  sale   : FrozenSale
  deriving DecidableEq, Repr

/-- One register write of a commit: the register and its new value. -/
structure RegWrite where
  reg   : RegNo
  value : Int
  deriving DecidableEq, Repr

/-- The commit record of the posting journal (R124). -/
structure CommitRecord where
  point    : PointNo
  writes   : List RegWrite
  rollover : Bool
  nextSale : Nat
  record   : SaleRecord
  deriving DecidableEq, Repr

/-- The requests that become host jobs (R79), with the operands of Chapters 5 to 7. -/
inductive JobReq where
  | setSite (scales : Option (Nat × Nat)) (generalCall : Option Bool)
  | declare (r : RegNo) (digits scale rounding : Nat)
  | load (d : RegNo) (value : Int) (scale : Nat) (rounding : Option Nat)
  | move (d src : RegNo) (rounding : Option Nat)
  | add (d s1 s2 : RegNo) (rounding : Option Nat)
  | subtract (d s1 s2 : RegNo) (rounding : Option Nat)
  | multiply (d s1 s2 : RegNo) (rounding : Option Nat)
  | divide (d s1 s2 : RegNo) (rounding : Option Nat)
  | rescale (d src : RegNo) (k : Int) (rounding : Option Nat)
  | compare (s1 s2 : RegNo)
  | sumList (d : RegNo) (sources : List RegNo) (rounding : Option Nat)
  | readRegister (r : RegNo)
  | hold (registers : List RegNo) (seconds : Nat)
  | releaseHold
  deriving DecidableEq, Repr

/-- The states of a host job (R115). -/
inductive JobPhase where
  | waiting | active | suspended
  deriving DecidableEq, Repr

/-- An operand's register as the job's first step found it (R93). -/
structure Operand where
  reg  : RegNo
  held : TallyReg
  deriving DecidableEq, Repr

/-- The host job (R115) with its operand set, fixed at acceptance, and the operand values that its
digit steps work on. -/
structure HostJob where
  req         : JobReq
  phase       : JobPhase
  operandSet  : List RegNo
  values      : List Operand
  suspensions : Nat
  deriving DecidableEq, Repr

/-- The decimal unit (Table 7-1). A journal of `none` is EMPTY, of `some r` BEGUN with record r. -/
structure Dcu where
  unit      : DcuUnit
  postings  : List Posting
  journal   : Option CommitRecord
  job       : Option HostJob
  context   : Option (List Operand)
  held      : List RegNo
  holdTimer : Option Nat
  deriving DecidableEq, Repr

/-- The Sale Queue (Table 8-1). -/
structure SaleQueue where
  records  : List SaleRecord
  nextSale : Nat
  deriving DecidableEq, Repr

/-! ## The link, retention control and the pins -/

/-- Reply statuses (Table 9-2). -/
inductive Status where
  | ok | frameError | unknownKind | badField | wrongState | pointUndefined | alreadyDefined
  | stopActive | pricePending | salesUncleared | noSuchSale | protectedReg | held
  deriving DecidableEq, Repr

/-- A reply (R155): status, PRIOR-REPLY-LOST mark, kind echo and payload. -/
structure Reply where
  status  : Status
  lost    : Bool
  kind    : Byte
  payload : List Byte
  deriving DecidableEq, Repr

/-- The reply slot (R147); READY holds the reply and its read position. -/
inductive ReplySlot where
  | empty
  | pending
  | ready (reply : Reply) (position : Nat)
  deriving DecidableEq, Repr

/-- What the last bus transaction showed the host: the model's own record of the bus, so that what a
read sends is in the state. -/
inductive BusView where
  | nothing
  | notAcknowledged
  | wrote (acknowledged : Nat)
  | stretching
  | sent (bytes : List Byte)
  deriving DecidableEq, Repr

/-- The part event flags (Table 9-3), with the product set of PRICE-ACTIVE (R56). -/
structure PartFlags where
  restarted    : Bool
  retainLost   : Bool
  holdExpired  : Bool
  priceActive  : Bool
  rollover     : Bool
  estop        : Bool
  activated    : ProductSet
  deriving DecidableEq, Repr

/-- The Link Interface (Table 9-1). `generalCall` is the general-call write in progress, whose address was
acknowledged, with the count of its data bytes so far (R146, R157); `stretch` is the clock stretch in
progress, with the count of bytes the host wants to read (R153). -/
structure Link where
  busAddress        : BitVec 7
  requestSlot       : List Byte
  replySlot         : ReplySlot
  priorReplyLost    : Bool
  generalCallBuffer : List Byte
  generalCallEnable : Bool
  generalCall       : Option Nat
  flags             : PartFlags
  stretch           : Option Nat
  bus               : BusView
  deriving DecidableEq, Repr

/-- Retention Control (Chapter 10). `mainPowerHigh` is the main-power status, the level of PFAILn as RCU
last took it (R166). -/
structure Rcu where
  running        : Bool
  checkGood      : Bool
  retainLostMark : Bool
  mainPowerHigh  : Bool
  deriving DecidableEq, Repr

/-- The levels of the input pins (Table 0-3), true for high; `vdd` is true while VDD is in its range. -/
structure Pins where
  straps : BitVec 2
  resetn : Bool
  pfailn : Bool
  estopn : Bool
  vdd    : Bool
  pa     : Vector Bool 4
  pb     : Vector Bool 4
  hs     : Vector Bool 4
  deriving DecidableEq, Repr

/-- The state of the part, and the commands that wait for it, oldest first. -/
structure State where
  pins     : Pins
  link     : Link
  rcu      : Rcu
  points   : Vector Point 4
  products : Vector (Option Product) 6
  tally    : Tally
  dcu      : Dcu
  sales    : SaleQueue
  pending  : List Instr
  deriving DecidableEq, Repr

/-- What can stop the machine: nothing. The spec describes no event that stops the part; its faults are
entries of a fault set and its refusals are reply statuses, both of them next states. -/
inductive Fault where
  deriving DecidableEq, Repr

/-- Why a command has no meaning. Safe: a refused command proves nothing. -/
inductive Refusal where
  /-- An arm of exec whose command has no meaning yet; no arm is such. -/
  | notModelled (mnemonic : String)
  deriving DecidableEq, Repr

/-! ## Cold defaults and reset (Table 10-2) -/

/-- The empty fault set. -/
def FaultSet.none : FaultSet := ⟨false, false, false⟩

/-- Sale flags all clear. -/
def SaleFlags.clear : SaleFlags := ⟨false, false, false⟩

/-- Per-point event flags all clear. -/
def PointFlags.clear : PointFlags := ⟨false, false, false, false, false, false, false, false, false⟩

/-- Part event flags all clear, with an empty product set. -/
def PartFlags.clear : PartFlags := ⟨false, false, false, false, false, false, 0⟩

/-- Every timer of a point stopped (R169). -/
def Timers.stopped : Timers := ⟨.none, .none, .none, .none⟩

/-- A Meter Input after a cold start (R47). -/
def Meter.cold : Meter := ⟨.none, 0, 0, 0, 0⟩

/-- A point after a cold start (R26, R47, R74). -/
def Point.cold : Point where
  st := .undefined
  defn := .none
  auth := .none
  liveVolume := 0
  liveMoney := 0
  slowDown := false
  endReason := .none
  faults := FaultSet.none
  saleFlags := SaleFlags.clear
  frozen := .none
  handleUp := false
  timers := Timers.stopped
  flags := PointFlags.clear
  meter := Meter.cold

/-- An accounting register at zero, at the scale given (R77). -/
def TallyReg.account (scale : Nat) : TallyReg :=
  ⟨Config.accountDigits, scale, Config.defaultRounding, 0⟩

/-- A GENERAL register after a cold start (R78). -/
def TallyReg.general : TallyReg := ⟨20, 0, Config.defaultRounding, 0⟩

/-- Registers 0 to 19 at zero, volume registers at vs and money registers at ms (R77, Table 5-1). -/
def accountList (vs ms : Nat) : List TallyReg :=
  (List.replicate 10 [TallyReg.account vs, TallyReg.account ms]).flatten

/-- The tally store after a cold start (R91). -/
def Tally.cold : Tally where
  vs := Config.coldScale
  ms := Config.coldScale
  regs := ⟨⟨accountList Config.coldScale Config.coldScale ++ List.replicate 44 TallyReg.general⟩, rfl⟩

/-- The decimal unit after a cold start (R131). -/
def Dcu.cold : Dcu := ⟨.free, [], .none, .none, .none, [], .none⟩

/-- The Sale Queue after a cold start (R144). -/
def SaleQueue.cold : SaleQueue := ⟨[], 1⟩

/-- The pins at reset: straps low, RESETn, PFAILn and ESTOPn high, main power on, every meter and handle
pin low. DESIGN CHOICE (notes/assumptions/2.md): unsafe. -/
def Pins.reset : Pins where
  straps := 0
  resetn := true
  pfailn := true
  estopn := true
  vdd := true
  pa := Vector.replicate 4 false
  pb := Vector.replicate 4 false
  hs := Vector.replicate 4 false

/-- The link at the end of a cold start that found a bad check word (R162, R172). -/
def Link.reset : Link where
  busAddress := Config.busBase
  requestSlot := []
  replySlot := .empty
  priorReplyLost := false
  generalCallBuffer := []
  generalCallEnable := false
  generalCall := .none
  flags := { PartFlags.clear with restarted := true, retainLost := true }
  stretch := .none
  bus := .nothing

/-- The part at RUNNING after its first power-up, which finds the check word bad (R165) and takes the
cold path (R170, R172, Table 10-2); no command waits. DESIGN CHOICE (notes/assumptions/1.md) of this start
among the kinds of Section 0.6.5. -/
def State.reset : State where
  pins := Pins.reset
  link := Link.reset
  rcu := ⟨true, true, false, true⟩
  points := Vector.replicate 4 Point.cold
  products := Vector.replicate 6 .none
  tally := Tally.cold
  dcu := Dcu.cold
  sales := SaleQueue.cold
  pending := []

end Sys2Proof.Machine
end

