-- ==== Sys2Proof/Machine/Flags.lean ====
section
/-! DEFINITION. The flags of the part: fault sets and sale flags, the event flags and the ATTN they hold
low (R158, R160), and the result flags of a decimal-unit reply (R82, R109), each with its mask
(Table 11-7, Table 11-10, Table 11-11). -/

namespace Sys2Proof.Machine

/-- A mask in which bit i stands for member i (R176). -/
def maskOf : List Bool → Nat
  | [] => 0
  | b :: r => (if b then 1 else 0) + 2 * maskOf r

/-- A kind joins the fault set; one already present leaves it as it was (Section 1.6). -/
def FaultSet.insert (f : FaultSet) : FaultKind → FaultSet
  | .creep => { f with creep := true }
  | .reverse => { f with reverse := true }
  | .pulser => { f with pulser := true }

/-- No fault is recorded. -/
def FaultSet.isEmpty (f : FaultSet) : Bool := !f.creep && !f.reverse && !f.pulser

/-- The fault set mask (Table 11-7). -/
def FaultSet.mask (f : FaultSet) : Nat := maskOf [f.creep, f.reverse, f.pulser]

/-- The sale flags mask (Table 11-7). -/
def SaleFlags.mask (f : SaleFlags) : Nat := maskOf [f.overrun, f.reverseSeen, f.flowAfterStop]

/-- The per-point flags mask (Table 11-10). -/
def PointFlags.mask (f : PointFlags) : Nat :=
  maskOf [f.call, f.started, f.slowdown, f.stopped, f.sale, f.lapsed, f.fault, f.creep, f.reverse]

/-- Any per-point flag is set. -/
def PointFlags.any (f : PointFlags) : Bool :=
  f.call || f.started || f.slowdown || f.stopped || f.sale || f.lapsed || f.fault || f.creep || f.reverse

/-- The part flags mask (Table 11-10). -/
def PartFlags.mask (f : PartFlags) : Nat :=
  maskOf [f.restarted, f.retainLost, f.holdExpired, f.priceActive, f.rollover, f.estop]

/-- Any part flag is set. -/
def PartFlags.any (f : PartFlags) : Bool :=
  f.restarted || f.retainLost || f.holdExpired || f.priceActive || f.rollover || f.estop

/-- A product joins a product set (R56). -/
def ProductSet.insert (m : ProductSet) (k : ProductNo) : ProductSet := m ||| BitVec.twoPow 6 k

/-- A product stands in a product set. -/
def ProductSet.has (m : ProductSet) (k : ProductNo) : Bool := m.getLsbD k

/-- The activation of product k's staged price sets PRICE-ACTIVE and adds the product to its set (R56). -/
def PartFlags.activate (f : PartFlags) (k : ProductNo) : PartFlags :=
  { f with priceActive := true, activated := ProductSet.insert f.activated k }

/-- The result flags of a reply of the decimal unit (R82, Table 6-2). -/
structure ResultFlags where
  negative : Bool
  zero     : Bool
  overflow : Bool
  rounded  : Bool
  divzero  : Bool
  deriving DecidableEq, Repr

/-- The result flags mask (Table 11-11). -/
def ResultFlags.mask (f : ResultFlags) : Nat :=
  maskOf [f.negative, f.zero, f.overflow, f.rounded, f.divzero]

/-- NEGATIVE and ZERO as a value has them, with what was lost (R82). -/
def ResultFlags.describe (v : Int) (overflow rounded divzero : Bool) : ResultFlags :=
  ⟨decide (v < 0), decide (v = 0), overflow, rounded, divzero⟩

end Sys2Proof.Machine
end

