-- ==== Sys2Proof/Machine/Decimal.lean ====
section
/-! DEFINITION. Exact decimal arithmetic: rounding by a rounding digit (Section 0.6.2), the storing step
(R81, R82), the exact results of Chapter 6, and the live volume, live money and preset target of Chapters
2 to 4. Everything is computed exactly in integers and narrowed once, at the end. -/

namespace Sys2Proof.Machine

/-! ## Rounding and the storing step -/

/-- A magnitude loses its `drop` low-order digits: the rounding digit is added to the most significant
dropped digit, and a sum of 10 or more raises the retained magnitude by one (Section 0.6.2). The Boolean
says whether a nonzero digit was dropped (R81). -/
def roundOff (magnitude drop rounding : Nat) : Nat × Bool :=
  if drop = 0 then (magnitude, false)
  else
    let dropped := magnitude % 10 ^ drop
    let first := dropped / 10 ^ (drop - 1)
    (magnitude / 10 ^ drop + (if 10 ≤ first + rounding then 1 else 0), decide (dropped ≠ 0))

/-- A magnitude brought from one scale to another: rounded when digits are dropped, zeros appended
otherwise (R81). -/
def bringTo (magnitude fromScale toScale rounding : Nat) : Nat × Bool :=
  if toScale < fromScale then roundOff magnitude (fromScale - toScale) rounding
  else (magnitude * 10 ^ (toScale - fromScale), false)

/-- A magnitude fitted to a digit count: the low-order digits, and whether any were lost (R82). -/
def fitDigits (magnitude digits : Nat) : Nat × Bool :=
  (magnitude % 10 ^ digits, decide (10 ^ digits ≤ magnitude))

/-- A sign and magnitude as a value; a zero magnitude is positive (R82). -/
def withSign (neg : Bool) (magnitude : Nat) : Int :=
  if neg then -(magnitude : Int) else (magnitude : Int)

/-- An exact value at a scale, before the storing step (R94). -/
structure Exact where
  value : Int
  scale : Nat
  deriving DecidableEq, Repr

/-- The effective rounding digit: the request's own, else the destination's default (R81, R95). -/
def effectiveRounding (carried : Option Nat) (d : TallyReg) : Nat := carried.getD d.rounding

/-- A register takes a value; its format stays. -/
def TallyReg.withValue (r : TallyReg) (v : Int) : TallyReg := { r with value := v }

/-- What is left of the storing step once the magnitude stands at the destination's scale: fit it, give
it its sign, and describe it (R82). -/
def fitStore (d : TallyReg) (neg : Bool) (scaled : Nat × Bool) : Int × ResultFlags :=
  let fitted := fitDigits scaled.1 d.digits
  let v := withSign neg fitted.1
  (v, ResultFlags.describe v fitted.2 scaled.2 false)

/-- The storing step: the value as register d holds it, and the result flags (R81, R82). -/
def storingStep (d : TallyReg) (x : Exact) (rounding : Nat) : Int × ResultFlags :=
  fitStore d (decide (x.value < 0)) (bringTo x.value.natAbs x.scale d.scale rounding)

/-! ## Exact results (R94) -/

/-- A value with zeros appended to reach a larger scale. -/
def alignTo (v : Int) (fromScale toScale : Nat) : Int := v * (10 ^ (toScale - fromScale) : Nat)

/-- source2 + source1 at the larger scale (R97). -/
def exactAdd (r1 r2 : TallyReg) : Exact :=
  let w := max r1.scale r2.scale
  ⟨alignTo r2.value r2.scale w + alignTo r1.value r1.scale w, w⟩

/-- source2 - source1: the ADD with source1's sign reversed (R98). -/
def exactSubtract (r1 r2 : TallyReg) : Exact := exactAdd (r1.withValue (-r1.value)) r2

/-- source2 × source1 at the sum of the scales (R99). -/
def exactMultiply (r1 r2 : TallyReg) : Exact := ⟨r2.value * r1.value, r1.scale + r2.scale⟩

/-- source × 10^k: the decimal point moves, the digits stay (R104). -/
def exactRescale (r : TallyReg) (k : Int) : Exact :=
  if k ≤ r.scale then ⟨r.value, (r.scale - k).toNat⟩
  else ⟨r.value * (10 ^ (k - r.scale).toNat : Nat), 0⟩

/-- The largest scale among listed registers (R107). -/
def maxScale : List TallyReg → Nat
  | [] => 0
  | r :: rest => max r.scale (maxScale rest)

/-- The sum of listed registers, each aligned to a working scale. -/
def sumAt (w : Nat) : List TallyReg → Int
  | [] => 0
  | r :: rest => alignTo r.value r.scale w + sumAt w rest

/-- The signed sum of a list, each entry once for each time it appears (R107). -/
def exactSum (rs : List TallyReg) : Exact := ⟨sumAt (maxScale rs) rs, maxScale rs⟩

/-- The quotient of two magnitudes truncated to d + 1 digits after the point, and whether a remainder is
left (R101): `dividend` at scale s2, `divisor` at scale s1. -/
def longDivision (dividend divisor s1 s2 d : Nat) : Nat × Bool :=
  let num := dividend * 10 ^ (s1 + d + 1)
  let den := divisor * 10 ^ s2
  (num / den, decide (num % den ≠ 0))

/-- The quotient rounded to scale d by its guard digit, and the ROUNDED flag (R102). -/
def roundQuotient (q : Nat × Bool) (rounding : Nat) : Nat × Bool :=
  (q.1 / 10 + (if 10 ≤ q.1 % 10 + rounding then 1 else 0), decide (q.1 % 10 ≠ 0) || q.2)

/-- source2 ÷ source1 into register d, for a nonzero divisor (R101 to R103). -/
def divideStep (d r1 r2 : TallyReg) (rounding : Nat) : Int × ResultFlags :=
  fitStore d (decide (r1.value < 0) != decide (r2.value < 0))
    (roundQuotient (longDivision r2.value.natAbs r1.value.natAbs r1.scale r2.scale d.scale) rounding)

/-- COMPARE: both values at the larger of their scales (R106). -/
def compareFlags (r1 r2 : TallyReg) : ResultFlags :=
  let w := max r1.scale r2.scale
  let a := alignTo r1.value r1.scale w
  let b := alignTo r2.value r2.scale w
  ⟨decide (a < b), decide (a = b), false, false, false⟩

/-- A posting's addition into an accounting register: the low 16 digits of the sum with its sign, and
whether the sum passed 16 digits (R89, R90). -/
def postingSum (v : Int) (amount : Nat) : Int × Bool :=
  let sum := v + amount
  let fitted := fitDigits sum.natAbs Config.accountDigits
  (withSign (decide (sum < 0)) fitted.1, fitted.2)

/-! ## Live volume, live money and the preset target -/

/-- The live volume in units of 10^-VS (R42); the K-factor counts thousandths. -/
def liveVolumeOf (net kFactor vs : Nat) : Nat := net * 1000 * 10 ^ vs / kFactor

/-- The live money in units of 10^-MS (R59): volume at VS times price at PS, brought to MS with the
product's rounding digit. -/
def liveMoneyOf (volume price vs ps ms rounding : Nat) : Nat :=
  (bringTo (volume * price) (vs + ps) ms rounding).1

/-- The quotient of a money amount by a price, at VS, with any remainder rounded up (R65). -/
def quotientUp (amount price vs ps ms : Nat) : Nat :=
  let num := amount * 10 ^ (vs + ps)
  let den := price * 10 ^ ms
  (num + den - 1) / den

/-- A volume moves down one unit at a time while the money of the lower volume is still at least the
amount (R65). -/
def moveDown (money : Nat → Nat) (amount : Nat) : Nat → Nat
  | 0 => 0
  | v + 1 => if amount ≤ money v then moveDown money amount v else v + 1

/-- The target volume of a MONEY preset (R65). -/
def moneyTarget (amount price vs ps ms rounding : Nat) : Nat :=
  moveDown (fun v => liveMoneyOf v price vs ps ms rounding) amount (quotientUp amount price vs ps ms)

end Sys2Proof.Machine
end

