-- ==== Sys2Proof/Machine/Operands.lean ====
section
/-! DEFINITION. The operand forms of the requests: how the link reads a payload field by field in the
order of Table 11-5 and which fields it refuses (R151, R177 to R180). A reader answers `none` where the
link answers BAD-FIELD. -/

namespace Sys2Proof.Machine

/-- A reader of one field: the field read and the bytes after it. -/
abbrev Reader (α : Type) := List Byte → Option (α × List Byte)

/-- One byte as a binary number. -/
def readByte : Reader Nat
  | [] => none
  | b :: r => some (b.toNat, r)

/-- One byte that must lie from lo to hi (R180). -/
def readRange (lo hi : Nat) : Reader Nat
  | [] => none
  | b :: r => if lo ≤ b.toNat ∧ b.toNat ≤ hi then some (b.toNat, r) else none

/-- One byte that names one of n things, numbered from 0 (R2, R48, R79). -/
def readFin (n : Nat) : Reader (Fin n)
  | [] => none
  | b :: r => if h : b.toNat < n then some (⟨b.toNat, h⟩, r) else none

/-- A delivery point number (R2). -/
def readPoint : Reader PointNo := readFin 4

/-- A product number (R48). -/
def readProduct : Reader ProductNo := readFin 6

/-- A register number (R79). -/
def readReg : Reader RegNo := readFin 64

/-- Two bytes, most significant first (R176). -/
def readNat16 : Reader Nat
  | a :: b :: r => some (a.toNat * 256 + b.toNat, r)
  | _ => none

/-- A host tag: four bytes, most significant first (R179). -/
def readTag : Reader (BitVec 32)
  | a :: b :: c :: d :: r => some (a ++ b ++ c ++ d, r)
  | _ => none

/-- A presence byte none of whose spare bits is set (R180). -/
def readPresence (spare : Nat) : Reader Nat
  | [] => none
  | b :: r => if b.toNat &&& spare = 0 then some (b.toNat, r) else none

/-- A field that a presence bit marks: read in its place when present, not looked for otherwise (R180). -/
def readIf {α : Type} (present : Bool) (f : Reader α) : Reader (Option α)
  | bs => if present then (f bs).map (fun x => (some x.1, x.2)) else some (none, bs)

/-- The same field n times over. -/
def readMany {α : Type} (f : Reader α) : Nat → Reader (List α)
  | 0, bs => some ([], bs)
  | n + 1, bs => do
    let (x, bs) ← f bs
    let (xs, bs) ← readMany f n bs
    return (x :: xs, bs)

/-- The payload ends here: bytes left over fail (R180). -/
def readEnd : List Byte → Option Unit
  | [] => some ()
  | _ :: _ => none

/-! ## Decimal value fields (R177, R178) -/

/-- A decimal value as a request field gives it. -/
structure DecimalField where
  neg       : Bool
  scale     : Nat
  digits    : Nat
  magnitude : Nat
  deriving DecidableEq, Repr

/-- n bytes of packed BCD, most significant first, onto the digits read so far; a nibble above 9 fails. -/
def readBcd : Nat → Nat → Reader Nat
  | 0, acc, bs => some (acc, bs)
  | _ + 1, _, [] => none
  | n + 1, acc, b :: r =>
    let hi := b.toNat / 16
    let lo := b.toNat % 16
    if hi ≤ 9 ∧ lo ≤ 9 then readBcd n (acc * 100 + hi * 10 + lo) r else none

/-- A decimal value field with the encoding checks of R178. With an odd digit count the pad nibble is
zero exactly when the magnitude stays below 10 to the digit count. -/
def readDecimal : Reader DecimalField
  | h :: n :: r =>
    let scale := h.toNat / 16 % 8
    let digits := n.toNat
    if scale = 7 ∨ h.toNat % 16 ≠ 0 then none
    else if digits = 0 ∨ 20 < digits ∨ digits < scale then none
    else do
      let (magnitude, r) ← readBcd ((digits + 1) / 2) 0 r
      if magnitude < 10 ^ digits then
        return (⟨decide (128 ≤ h.toNat), scale, digits, magnitude⟩, r)
      else none
  | _ => none

/-- A decimal field of the form its place calls for: positive, of so many digits, at a scale within
bounds (R178, second table). -/
def readUnsigned (digits maxScale : Nat) : Reader DecimalField
  | bs => do
    let (d, r) ← readDecimal bs
    if d.neg = false ∧ d.digits = digits ∧ d.scale ≤ maxScale then return (d, r) else none

/-- The K-factor in thousandths: 7 digits at scale 3, at least 1.000 (R178). -/
def readKFactor : Reader Nat
  | bs => do
    let (d, r) ← readUnsigned 7 3 bs
    if d.scale = 3 ∧ 1000 ≤ d.magnitude then return (d.magnitude, r) else none

/-- The slow-down margin (R178). -/
def readMargin : Reader DecimalField := readUnsigned 4 3

/-- The overrun tolerance (R178). -/
def readTolerance : Reader DecimalField := readUnsigned 3 3

/-- A unit price (R178). -/
def readPrice : Reader DecimalField := readUnsigned 6 4

/-- A preset amount (R178). -/
def readAmount : Reader DecimalField := readUnsigned 8 3

/-! ## Single-byte codes (R179) -/

/-- A pulse mode. -/
def readMode : Reader PulseMode
  | bs => do
    let (n, r) ← readRange 0 4 bs
    return (match n with
      | 0 => .single
      | 1 => .directed
      | 2 => .dual
      | 3 => .quad1
      | _ => .quad4, r)

/-- A preset kind. -/
def readPresetKind : Reader PresetKind
  | bs => do
    let (n, r) ← readRange 0 1 bs
    return (if n = 0 then .volume else .money, r)

/-- An allowed-products mask: not empty, bits 6 and 7 clear (R180). -/
def readAllowed : Reader ProductSet
  | bs => do
    let (n, r) ← readRange 1 63 bs
    return (BitVec.ofNat 6 n, r)

/-- A rounding digit. -/
def readRounding : Reader Nat := readRange 0 9

/-! ## Payloads of the point requests -/

/-- No field at all (Table 11-5). -/
def parseNone (bs : List Byte) : Option Unit := readEnd bs

/-- A point number alone. -/
def parsePoint (bs : List Byte) : Option PointNo := do
  let (p, bs) ← readPoint bs
  readEnd bs
  return p

/-- DEFINE POINT: the record, and the scales at which its margin and tolerance are given. -/
structure DefineReq where
  p              : PointNo
  defn           : PointDef
  marginScale    : Nat
  toleranceScale : Nat
  deriving DecidableEq, Repr

def parseDefinePoint (bs : List Byte) : Option DefineReq := do
  let (p, bs) ← readPoint bs
  let (mode, bs) ← readMode bs
  let (kFactor, bs) ← readKFactor bs
  let (allowed, bs) ← readAllowed bs
  let (margin, bs) ← readMargin bs
  let (tolerance, bs) ← readTolerance bs
  let (authTimeout, bs) ← readByte bs
  let (noFlow, bs) ← readByte bs
  let (settleTime, bs) ← readRange 1 255 bs
  let (creepLimit, bs) ← readNat16 bs
  let (reverseLimit, bs) ← readNat16 bs
  let (phaseLimit, bs) ← readByte bs
  readEnd bs
  return {
    p := p
    defn := {
      mode := mode, kFactor := kFactor, allowed := allowed
      margin := margin.magnitude, tolerance := tolerance.magnitude
      authTimeout := authTimeout, noFlow := noFlow, settleTime := settleTime
      creepLimit := creepLimit, reverseLimit := reverseLimit, phaseLimit := phaseLimit }
    marginScale := margin.scale
    toleranceScale := tolerance.scale }

/-- MODIFY POINT: the fields present (R4). -/
structure ModifyReq where
  p            : PointNo
  allowed      : Option ProductSet
  margin       : Option DecimalField
  tolerance    : Option DecimalField
  authTimeout  : Option Nat
  noFlow       : Option Nat
  settleTime   : Option Nat
  creepLimit   : Option Nat
  reverseLimit : Option Nat
  phaseLimit   : Option Nat
  deriving DecidableEq, Repr

/-- The two presence bytes of MODIFY POINT, one 16-bit mask; bits 0, 1 and 11 to 15 are spare (R179).
Which of the two bytes holds the spare bit makes no difference to the answer. -/
def readModifyMask : Reader Nat
  | bs => do
    let (mask, r) ← readNat16 bs
    if mask &&& 0xF803 = 0 then return (mask, r) else none

def parseModifyPoint (bs : List Byte) : Option ModifyReq := do
  let (p, bs) ← readPoint bs
  let (mask, bs) ← readModifyMask bs
  let (allowed, bs) ← readIf (mask.testBit 2) readAllowed bs
  let (margin, bs) ← readIf (mask.testBit 3) readMargin bs
  let (tolerance, bs) ← readIf (mask.testBit 4) readTolerance bs
  let (authTimeout, bs) ← readIf (mask.testBit 5) readByte bs
  let (noFlow, bs) ← readIf (mask.testBit 6) readByte bs
  let (settleTime, bs) ← readIf (mask.testBit 7) (readRange 1 255) bs
  let (creepLimit, bs) ← readIf (mask.testBit 8) readNat16 bs
  let (reverseLimit, bs) ← readIf (mask.testBit 9) readNat16 bs
  let (phaseLimit, bs) ← readIf (mask.testBit 10) readByte bs
  readEnd bs
  return {
    p := p, allowed := allowed, margin := margin, tolerance := tolerance
    authTimeout := authTimeout, noFlow := noFlow, settleTime := settleTime
    creepLimit := creepLimit, reverseLimit := reverseLimit, phaseLimit := phaseLimit }

/-- A preset as AUTHORIZE gives it: its amount and the scale of the amount. -/
structure PresetReq where
  kind   : PresetKind
  amount : Nat
  scale  : Nat
  deriving DecidableEq, Repr

/-- AUTHORIZE (Table 11-5). -/
structure AuthorizeReq where
  p       : PointNo
  product : ProductNo
  preset  : Option PresetReq
  tag     : Option (BitVec 32)
  deriving DecidableEq, Repr

/-- The preset of AUTHORIZE: kind, then amount. -/
def readPreset : Reader PresetReq
  | bs => do
    let (kind, bs) ← readPresetKind bs
    let (amount, bs) ← readAmount bs
    return (⟨kind, amount.magnitude, amount.scale⟩, bs)

def parseAuthorize (bs : List Byte) : Option AuthorizeReq := do
  let (p, bs) ← readPoint bs
  let (product, bs) ← readProduct bs
  let (presence, bs) ← readPresence 0xFC bs
  let (preset, bs) ← readIf (presence.testBit 0) readPreset bs
  let (tag, bs) ← readIf (presence.testBit 1) readTag bs
  readEnd bs
  return ⟨p, product, preset, tag⟩

/-! ## Payloads of the Product Table and the Sale Queue -/

/-- SET PRODUCT (R50). -/
structure SetProductReq where
  product    : ProductNo
  priceScale : Nat
  rounding   : Nat
  price      : DecimalField
  deriving DecidableEq, Repr

def parseSetProduct (bs : List Byte) : Option SetProductReq := do
  let (product, bs) ← readProduct bs
  let (priceScale, bs) ← readRange 0 4 bs
  let (rounding, bs) ← readRounding bs
  let (price, bs) ← readPrice bs
  readEnd bs
  return ⟨product, priceScale, rounding, price⟩

/-- SET PRICE (R52). -/
structure SetPriceReq where
  product : ProductNo
  price   : DecimalField
  deriving DecidableEq, Repr

def parseSetPrice (bs : List Byte) : Option SetPriceReq := do
  let (product, bs) ← readProduct bs
  let (price, bs) ← readPrice bs
  readEnd bs
  return ⟨product, price⟩

/-- COLLECT SALE: an optional point number (R139). -/
def parseCollectSale (bs : List Byte) : Option (Option PointNo) := do
  let (presence, bs) ← readPresence 0xFE bs
  let (p, bs) ← readIf (presence.testBit 0) readPoint bs
  readEnd bs
  return p

/-- CLEAR SALE: a sale number from 1 (R140). -/
def parseClearSale (bs : List Byte) : Option Nat := do
  let (n, bs) ← readNat16 bs
  readEnd bs
  if n = 0 then none else return n

/-! ## Payloads of the decimal unit -/

/-- The scale part of SET SITE: VS, then MS (R87). -/
def readScales : Reader (Nat × Nat)
  | bs => do
    let (vs, bs) ← readRange 0 3 bs
    let (ms, bs) ← readRange 0 3 bs
    return ((vs, ms), bs)

def parseSetSite (bs : List Byte) : Option JobReq := do
  let (presence, bs) ← readPresence 0xFC bs
  let (scales, bs) ← readIf (presence.testBit 0) readScales bs
  let (gc, bs) ← readIf (presence.testBit 1) (readRange 0 1) bs
  readEnd bs
  return .setSite scales (gc.map (· == 1))

def parseDeclare (bs : List Byte) : Option JobReq := do
  let (r, bs) ← readReg bs
  let (digits, bs) ← readRange 1 20 bs
  let (scale, bs) ← readRange 0 6 bs
  let (rounding, bs) ← readRounding bs
  readEnd bs
  return .declare r digits scale rounding

/-- The presence byte and optional rounding digit that end LOAD, MOVE and the arithmetic requests. -/
def readEffectiveRounding : Reader (Option Nat)
  | bs => do
    let (presence, bs) ← readPresence 0xFE bs
    readIf (presence.testBit 0) readRounding bs

/-- LOAD: a literal with a minus sign and a zero magnitude is positive zero (R83). -/
def parseLoad (bs : List Byte) : Option JobReq := do
  let (d, bs) ← readReg bs
  let (literal, bs) ← readDecimal bs
  let (rounding, bs) ← readEffectiveRounding bs
  readEnd bs
  return .load d (withSign literal.neg literal.magnitude) literal.scale rounding

def parseMove (bs : List Byte) : Option JobReq := do
  let (d, bs) ← readReg bs
  let (src, bs) ← readReg bs
  let (rounding, bs) ← readEffectiveRounding bs
  readEnd bs
  return .move d src rounding

/-- The common form of ADD, SUBTRACT, MULTIPLY and DIVIDE (Table 11-5). -/
def parseArith (op : RegNo → RegNo → RegNo → Option Nat → JobReq) (bs : List Byte) : Option JobReq := do
  let (d, bs) ← readReg bs
  let (s1, bs) ← readReg bs
  let (s2, bs) ← readReg bs
  let (rounding, bs) ← readEffectiveRounding bs
  readEnd bs
  return op d s1 s2 rounding

/-- The RESCALE factor: a signed byte from -20 to +20 (R92, R179). -/
def readFactor : Reader Int
  | [] => none
  | b :: r => if -20 ≤ b.toInt ∧ b.toInt ≤ 20 then some (b.toInt, r) else none

def parseRescale (bs : List Byte) : Option JobReq := do
  let (d, bs) ← readReg bs
  let (src, bs) ← readReg bs
  let (k, bs) ← readFactor bs
  let (rounding, bs) ← readEffectiveRounding bs
  readEnd bs
  return .rescale d src k rounding

/-- COMPARE: every bit of its presence byte is spare (R92, R179). -/
def parseCompare (bs : List Byte) : Option JobReq := do
  let (s1, bs) ← readReg bs
  let (s2, bs) ← readReg bs
  let (_, bs) ← readPresence 0xFF bs
  readEnd bs
  return .compare s1 s2

def parseSumList (bs : List Byte) : Option JobReq := do
  let (d, bs) ← readReg bs
  let (n, bs) ← readRange 1 16 bs
  let (sources, bs) ← readMany readReg n bs
  let (rounding, bs) ← readEffectiveRounding bs
  readEnd bs
  return .sumList d sources rounding

def parseReadRegister (bs : List Byte) : Option JobReq := do
  let (r, bs) ← readReg bs
  readEnd bs
  return .readRegister r

def parseHold (bs : List Byte) : Option JobReq := do
  let (n, bs) ← readRange 1 8 bs
  let (registers, bs) ← readMany readReg n bs
  let (seconds, bs) ← readRange 1 60 bs
  readEnd bs
  return .hold registers seconds

def parseReleaseHold (bs : List Byte) : Option JobReq := do
  readEnd bs
  return .releaseHold

end Sys2Proof.Machine
end

