-- ==== Sys2Proof/Machine/Ops.lean ====
section
/-! DEFINITION. The named operations on the state that the meanings share: reading and updating a block,
when the part is operating, the reply slot, the Product Table's activations, the transitions of a point
and their report to the Product Table, and the tally registers. -/

namespace Sys2Proof.Machine

/-! ## Reading and updating the blocks -/

/-- Point controller p. -/
def State.point (s : State) (p : PointNo) : Point := s.points[p]

/-- Point controller p becomes x. -/
def State.setPoint (s : State) (p : PointNo) (x : Point) : State := { s with points := s.points.set p x }

/-- Point controller p changes by f. -/
def State.modPoint (s : State) (p : PointNo) (f : Point → Point) : State := s.setPoint p (f (s.point p))

/-- Product record k. -/
def State.product (s : State) (k : ProductNo) : Option Product := s.products[k]

/-- Product record k becomes x. -/
def State.setProduct (s : State) (k : ProductNo) (x : Option Product) : State :=
  { s with products := s.products.set k x }

/-- The link changes by f. -/
def State.modLink (s : State) (f : Link → Link) : State := { s with link := f s.link }

/-- The pins change by f. -/
def State.modPins (s : State) (f : Pins → Pins) : State := { s with pins := f s.pins }

/-- Retention Control changes by f. -/
def State.modRcu (s : State) (f : Rcu → Rcu) : State := { s with rcu := f s.rcu }

/-- The decimal unit changes by f. -/
def State.modDcu (s : State) (f : Dcu → Dcu) : State := { s with dcu := f s.dcu }

/-- The tally store changes by f. -/
def State.modTally (s : State) (f : Tally → Tally) : State := { s with tally := f s.tally }

/-- The Sale Queue changes by f. -/
def State.modSales (s : State) (f : SaleQueue → SaleQueue) : State := { s with sales := f s.sales }

/-- Tally register r. -/
def State.reg (s : State) (r : RegNo) : TallyReg := s.tally.regs[r]

/-- Tally register r becomes x, whole (R76). -/
def State.setReg (s : State) (r : RegNo) (x : TallyReg) : State :=
  s.modTally (fun t => { t with regs := t.regs.set r x })

/-- Tally register r takes a value at its format. -/
def State.writeReg (s : State) (r : RegNo) (v : Int) : State := s.setReg r ((s.reg r).withValue v)

/-- The four points in increasing number. -/
def allPoints : List PointNo := [0, 1, 2, 3]

/-- The six products in increasing number. -/
def allProducts : List ProductNo := [0, 1, 2, 3, 4, 5]

/-- The 64 registers in increasing number. -/
def allRegs : List RegNo := List.finRange 64

/-- The register classes by number (Table 5-1). -/
def isTotal (r : RegNo) : Bool := decide (r.val < 8)

/-- A SHIFT register (Table 5-1). -/
def isShift (r : RegNo) : Bool := decide (8 ≤ r.val) && decide (r.val < 20)

/-- Register 2p, the volume totalizer of point p (Table 5-1). -/
def volumeTotal (p : PointNo) : RegNo := ⟨2 * p.val, by omega⟩

/-- Register 2p+1, the money totalizer of point p (Table 5-1). -/
def moneyTotal (p : PointNo) : RegNo := ⟨2 * p.val + 1, by omega⟩

/-- Register 8+2k, the volume shift total of product k (Table 5-1). -/
def volumeShift (k : ProductNo) : RegNo := ⟨8 + 2 * k.val, by omega⟩

/-- Register 9+2k, the money shift total of product k (Table 5-1). -/
def moneyShift (k : ProductNo) : RegNo := ⟨9 + 2 * k.val, by omega⟩

/-! ## When the part is operating -/

/-- The part takes events: main power is on, RESETn is high and RCU is RUNNING (R146, R167, R168, R169). -/
def State.operating (s : State) : Bool := s.pins.vdd && s.pins.resetn && s.rcu.running

/-- An event that only an operating part takes; otherwise nothing changes. -/
def State.whenOperating (s : State) (f : State → State) : State := if s.operating then f s else s

/-- The outcome of every command: the part always goes on. -/
abbrev Result := Host.Outcome State Fault Refusal

/-! ## The request and reply slots (R147 to R149, R155) -/

/-- What the host sees on the bus becomes v. -/
def State.setBus (s : State) (v : BusView) : State := s.modLink (fun l => { l with bus := v })

/-- The reply that the owner's answer forms: the mark of R149 with the status, kind echo and payload. -/
def State.replyFor (s : State) (status : Status) (kind : Byte) (payload : List Byte) : Reply :=
  ⟨status, s.link.priorReplyLost, kind, payload⟩

/-- The owner of the request answers: the slot goes READY with its read position at the first byte, the
mark is used up, and the request slot is free (R147, R149). -/
def State.answer (s : State) (status : Status) (kind : Byte) (payload : List Byte) : State :=
  s.modLink (fun l => { l with
    replySlot := .ready (s.replyFor status kind payload) 0
    priorReplyLost := false
    requestSlot := [] })

/-- A refused request carries no payload (R155). -/
def State.refuse (s : State) (status : Status) (kind : Byte) : State := s.answer status kind []

/-- A reply with status OK (R155). -/
def State.ok (s : State) (kind : Byte) (payload : List Byte) : State := s.answer .ok kind payload

/-- The slot holds a reply that has not been read to its end. -/
def ReplySlot.isReady : ReplySlot → Bool
  | .ready _ _ => true
  | _ => false

/-- A write to the own address is acknowledged unless the part is not operating or the slot is PENDING
(R146). -/
def State.acceptsWrite (s : State) : Bool := s.operating && decide (s.link.replySlot ≠ .pending)

/-- The link takes the request at the end of its write: the slot goes PENDING, an unread reply is
discarded and remembered, and at most 52 bytes are kept and acknowledged (R147 to R149). -/
def State.takeWrite (s : State) (bytes : List Byte) : State :=
  s.modLink (fun l => { l with
    requestSlot := bytes.take Config.requestSlotBytes
    replySlot := .pending
    priorReplyLost := l.priorReplyLost || l.replySlot.isReady
    bus := .wrote (min bytes.length Config.requestSlotBytes) })

/-- A request whose fields the link has read goes to its owner, and one whose fields fail is answered
BAD-FIELD and reaches no owner (R151, R156). -/
def dispatch {α : Type} (kind : Byte) (fields : Option α) (owner : α → State → State) (s : State) : State :=
  match fields with
  | none => s.refuse .badField kind
  | some x => owner x s

/-- A request of a kind and payload arrives as a write to the own address. Not acknowledged, it changes
nothing. Taken, a payload too long for a frame fails R150, and the fields of the others are read and
dispatched (R146, R148, R150, R151, R156). -/
def request {α : Type} (kind : Byte) (payload : List Byte) (parse : List Byte → Option α)
    (owner : α → State → State) (s : State) : Result :=
  .next (if s.acceptsWrite then
    let t := s.takeWrite (requestFrame kind payload)
    if Config.maxRequestPayload < payload.length then t.refuse .frameError kind
    else dispatch kind (parse payload) owner t
  else s.setBus .notAcknowledged)

/-! ## The Product Table's sets and activations (R49, R55) -/

/-- The product in whose holding set the point stands (R49). -/
def Point.holding (x : Point) : Option ProductNo :=
  match x.st with
  | .authorized | .delivering | .paused | .stopping | .settling => x.auth.map (·.product)
  | _ => none

/-- The product in whose delivering set the point stands (R49). -/
def Point.delivers (x : Point) : Option ProductNo :=
  match x.st with
  | .authorized | .delivering | .paused | .stopping => x.auth.map (·.product)
  | _ => none

/-- The holding set of product k is empty (R49). -/
def State.holdingEmpty (s : State) (k : ProductNo) : Bool :=
  allPoints.all (fun p => decide ((s.point p).holding ≠ some k))

/-- The delivering set of product k is empty (R49). -/
def State.deliveringEmpty (s : State) (k : ProductNo) : Bool :=
  allPoints.all (fun p => decide ((s.point p).delivers ≠ some k))

/-- A staged price becomes current, with PRICE-ACTIVE and the product in its set (R55, R56). -/
def State.activate (s : State) (k : ProductNo) : State :=
  match s.product k with
  | some r =>
    match r.staged with
    | some price =>
      (s.setProduct k (some { r with current := price, staged := none })).modLink
        (fun l => { l with flags := l.flags.activate k })
    | none => s
  | none => s

/-- A report from a point controller that leaves the delivering set of k empty activates a staged price
(R55). -/
def State.reportLeft (s : State) (k : ProductNo) : State :=
  if s.deliveringEmpty k then s.activate k else s

/-- A transition of point p, reported to the Product Table when it takes the point out of a delivering
set (R49, R55). -/
def State.movePoint (s : State) (p : PointNo) (f : Point → Point) : State :=
  let t := s.modPoint p f
  match (s.point p).delivers with
  | none => t
  | some k => if (t.point p).delivers = some k then t else t.reportLeft k

/-! ## Transitions of a point (Chapter 1) -/

/-- Whether the no-flow timer runs, and from what (R13, R15). -/
def Point.noFlowStart (x : Point) : Option Nat :=
  match x.defn with
  | some d => if d.noFlow = 0 then none else some d.noFlow
  | none => none

/-- The settle time of the point (R18). -/
def Point.settleStart (x : Point) : Option Nat := x.defn.map (·.settleTime)

/-- Whether the authorization timer runs, and from what (R10). -/
def Point.authStart (x : Point) : Option Nat :=
  match x.defn with
  | some d => if d.authTimeout = 0 then none else some d.authTimeout
  | none => none

/-- The authorization record and its timer are dropped, and the point goes to a state that holds none
(R8). -/
def Point.dropTo (x : Point) (st : PtState) : Point :=
  { x with st := st, auth := none, timers := { x.timers with authorization := none } }

/-- An authorization lapses: the point goes to IDLE with LAPSED (R11, R23). -/
def Point.lapse (x : Point) : Point :=
  { x.dropTo .idle with flags := { x.flags with lapsed := true } }

/-- The point enters STOPPING from DELIVERING or PAUSED (R18). -/
def Point.enterStopping (x : Point) (reason : EndReason) : Point :=
  { x with
    st := .stopping
    endReason := some reason
    timers := { x.timers with
      noFlow := none, settle := x.settleStart, stopLimit := some Config.stopLimitSeconds }
    flags := { x.flags with stopped := true } }

/-- The preset of the delivery, with the margin and tolerance of the definition (R63). -/
def Point.presetMarks (x : Point) : Option (Nat × Nat × Nat) :=
  match x.auth, x.defn with
  | some a, some d => a.preset.map (fun q => (q.target, d.margin, d.tolerance))
  | _, _ => none

/-- The slow-down status latches, with SLOWDOWN, when the live volume is at or past the slow-down point
and the status is not yet latched (R67). -/
def Point.checkSlowDown (x : Point) : Point :=
  match x.presetMarks with
  | some (target, margin, _) =>
    if !x.slowDown && decide (target ≤ x.liveVolume + margin) then
      { x with slowDown := true, flags := { x.flags with slowdown := true } }
    else x
  | none => x

/-- The target comparison in DELIVERING or PAUSED (R68). -/
def Point.checkTarget (x : Point) : Point :=
  match x.presetMarks with
  | some (target, _, _) => if target ≤ x.liveVolume then x.enterStopping .preset else x
  | none => x

/-- OVERRUN follows whether the live volume is greater than target plus tolerance (R69, R70). -/
def Point.updateOverrun (x : Point) : Point :=
  match x.presetMarks with
  | some (target, _, tolerance) =>
    { x with saleFlags := { x.saleFlags with overrun := decide (target + tolerance < x.liveVolume) } }
  | none => x

/-- The delivery start (R13, R34): counts and live values at zero, fault set empty, end reason absent,
slow-down status and sale flags clear, the no-flow timer started, STARTED, and a slow-down point already
passed latched after it (R67). -/
def Point.startDelivery (x : Point) : Point :=
  Point.checkSlowDown
    { x with
      st := .delivering
      liveVolume := 0
      liveMoney := 0
      slowDown := false
      endReason := none
      faults := FaultSet.none
      saleFlags := SaleFlags.clear
      timers := { x.timers with authorization := none, noFlow := x.noFlowStart }
      flags := { x.flags with started := true }
      meter := { x.meter with net := 0, reverse := 0, phaseErrors := 0 } }

/-- MTIp reports a fault: it joins the fault set with FAULT in every state, and the state changes by the
table of R21. -/
def Point.reportFault (x : Point) (k : FaultKind) : Point :=
  let y := { x with faults := x.faults.insert k, flags := { x.flags with fault := true } }
  match x.st with
  | .idle | .calling => { y with st := .faulted }
  | .authorized => { y.dropTo .faulted with flags := { y.flags with lapsed := true } }
  | .delivering | .paused => y.enterStopping .fault
  | _ => y

/-- STOP ALL and ESTOPn at one point (R23). -/
def Point.emergency (x : Point) : Point :=
  match x.st with
  | .delivering | .paused => x.enterStopping .emergency
  | .authorized => x.lapse
  | _ => x

/-- STOP ALL and ESTOPn at all four points (R23, R24). -/
def State.stopEveryPoint (s : State) : State :=
  allPoints.foldl (fun t p => t.movePoint p Point.emergency) s

/-! ## The Sale Queue -/

/-- How many records of point p the queue holds (R135). -/
def State.salesOf (s : State) (p : PointNo) : Nat :=
  (s.sales.records.filter (fun r => r.sale.point = p)).length

end Sys2Proof.Machine
end

