-- ==== Sys2Proof/Machine/Layout.lean ====
section
/-! DEFINITION. The bytes of replies: codes (Table 11-6, Table 11-7, Table 11-11), decimal values (R177),
records and payloads (R181 to R183), the reply frame and the markers (R176). -/

namespace Sys2Proof.Machine

/-- A binary number in one byte. -/
def byteOf (n : Nat) : Byte := BitVec.ofNat 8 n

/-- A Boolean code: 1 or 0. -/
def byteOfBool (b : Bool) : Byte := if b then 1 else 0

/-- A binary number in two bytes, most significant first (R176). -/
def bytes16 (n : Nat) : List Byte := [byteOf (n / 256), byteOf n]

/-- A host tag in four bytes, most significant first (R176). -/
def bytes32 (v : BitVec 32) : List Byte :=
  [v.extractLsb' 24 8, v.extractLsb' 16 8, v.extractLsb' 8 8, v.extractLsb' 0 8]

/-- The low digits of a magnitude as n bytes of packed BCD, most significant first (R177). -/
def bcdBytes : Nat → Nat → List Byte
  | 0, _ => []
  | n + 1, m => bcdBytes n (m / 100) ++ [byteOf (m / 10 % 10 * 16 + m % 10)]

/-- A decimal value field (R177). -/
def decimalField (neg : Bool) (scale digits magnitude : Nat) : List Byte :=
  byteOf ((if neg then 128 else 0) + scale * 16) :: byteOf digits :: bcdBytes ((digits + 1) / 2) magnitude

/-- A decimal value that is never negative. -/
def unsignedField (scale digits magnitude : Nat) : List Byte := decimalField false scale digits magnitude

/-- A signed value of so many digits at a scale; the sign bit is clear for zero (R178). -/
def valueField (scale digits : Nat) (v : Int) : List Byte :=
  decimalField (decide (v < 0)) scale digits v.natAbs

/-- An item that stands in the reply only when present. -/
def optionalBytes {α : Type} (x : Option α) (f : α → List Byte) : List Byte :=
  match x with
  | some a => f a
  | none => []

/-- A register list: a count byte, then the register numbers (R183). -/
def registerList (rs : List RegNo) : List Byte := byteOf rs.length :: rs.map (fun r => byteOf r.val)

/-! ## Codes -/

/-- Status codes (Table 11-6). -/
def Status.code : Status → Nat
  | .ok => 0x00
  | .frameError => 0x01
  | .unknownKind => 0x02
  | .badField => 0x03
  | .wrongState => 0x04
  | .pointUndefined => 0x05
  | .alreadyDefined => 0x06
  | .stopActive => 0x07
  | .pricePending => 0x08
  | .salesUncleared => 0x09
  | .noSuchSale => 0x0A
  | .protectedReg => 0x0B
  | .held => 0x0C

/-- Point state codes (Table 11-7). -/
def PtState.code : PtState → Nat
  | .undefined => 0
  | .idle => 1
  | .calling => 2
  | .authorized => 3
  | .delivering => 4
  | .paused => 5
  | .stopping => 6
  | .settling => 7
  | .faulted => 8

/-- End reason codes (Table 11-7). -/
def EndReason.code : EndReason → Nat
  | .handle => 1
  | .preset => 2
  | .stopRequest => 3
  | .emergency => 4
  | .noFlow => 5
  | .fault => 6
  | .limit => 7
  | .power => 8

/-- Preset kind codes (R179). -/
def PresetKind.code : PresetKind → Nat
  | .volume => 0
  | .money => 1

/-- Register class codes (Table 11-11). -/
def classCode (r : RegNo) : Nat := if isTotal r then 0 else if isShift r then 1 else 2

/-- The unit state as STATUS codes it: 0 FREE, 1 POSTING (R181). A STATUS never meets HOST (R161). -/
def DcuUnit.code : DcuUnit → Nat
  | .posting => 1
  | .free | .host => 0

/-! ## Frames (R176, R181) -/

/-- The bytes of a reply frame. -/
def Reply.frame (r : Reply) : List Byte :=
  let head := byteOf (r.status.code + if r.lost then 128 else 0) :: r.kind :: byteOf r.payload.length :: r.payload
  head ++ [-(byteSum head)]

/-- What the host receives when it clocks n bytes of a reply or marker: its bytes, then 0xFF (R152, R154). -/
def clocked (bytes : List Byte) (n : Nat) : List Byte :=
  bytes.take n ++ List.replicate (n - bytes.length) Config.idleByte

/-! ## Records -/

/-- A preset: kind, amount at VS or MS by its kind, target at VS (Table 11-8). -/
def presetBytes (vs ms : Nat) (q : Preset) : List Byte :=
  byteOf q.kind.code ::
    (unsignedField (match q.kind with | .volume => vs | .money => ms) 8 q.amount ++
      unsignedField vs 8 q.target)

/-- A sale record (Table 11-8). -/
def saleBytes (vs ms : Nat) (r : SaleRecord) : List Byte :=
  let f := r.sale
  bytes16 r.number ++ [byteOf f.point.val, byteOf f.auth.product.val] ++
  unsignedField f.auth.priceScale 6 f.auth.price ++
  unsignedField vs 8 f.volume ++ unsignedField ms 8 f.money ++
  [byteOf (maskOf [f.auth.preset.isSome, f.auth.tag.isSome])] ++
  optionalBytes f.auth.preset (presetBytes vs ms) ++ optionalBytes f.auth.tag bytes32 ++
  [byteOf f.endReason.code, byteOf f.faults.mask, byteOf f.flags.mask]

/-- The end reason that READ POINT shows: in STOPPING and SETTLING only (R25). -/
def Point.shownReason (x : Point) : Option EndReason :=
  match x.st with
  | .stopping | .settling => x.endReason
  | _ => none

/-- The authorization record that READ POINT shows: in AUTHORIZED through SETTLING (R25). -/
def Point.shownAuth (x : Point) : Option AuthRecord :=
  match x.st with
  | .authorized | .delivering | .paused | .stopping | .settling => x.auth
  | _ => none

/-- The READ POINT reply (Table 11-9). -/
def pointBytes (vs ms : Nat) (p : PointNo) (x : Point) : List Byte :=
  [byteOf p.val, byteOf x.st.code] ++
  (if x.st = .undefined then [] else
    let auth := x.shownAuth
    let preset := auth.bind (·.preset)
    let tag := auth.bind (·.tag)
    [byteOf (maskOf [auth.isSome, preset.isSome, tag.isSome, x.shownReason.isSome])] ++
    unsignedField vs 8 x.liveVolume ++ unsignedField ms 8 x.liveMoney ++
    [byteOf x.faults.mask] ++ bytes16 x.meter.creep ++
    optionalBytes auth (fun a => byteOf a.product.val :: unsignedField a.priceScale 6 a.price) ++
    optionalBytes preset (presetBytes vs ms) ++ optionalBytes tag bytes32 ++
    optionalBytes x.shownReason (fun r => [byteOf r.code]))

/-- The GET EVENTS reply (Table 11-10). -/
def eventBytes (s : State) : List Byte :=
  (allPoints.map (fun p => bytes16 (s.point p).flags.mask)).flatten ++
  [byteOf s.link.flags.mask,
   if s.link.flags.priceActive then byteOf s.link.flags.activated.toNat else 0]

/-- A posting list entry of STATUS (Table 11-11). -/
def postingByte (q : Posting) : Byte := byteOf (q.point.val + if q.taken then 128 else 0)

/-- The STATUS reply (R161, Table 11-12). -/
def statusBytes (s : State) : List Byte :=
  allPoints.map (fun p => byteOf (s.point p).st.code) ++
  [byteOf s.sales.records.length] ++ bytes16 s.sales.nextSale ++
  registerList s.dcu.held ++
  [byteOf s.dcu.unit.code, byteOf s.dcu.postings.length] ++ s.dcu.postings.map postingByte ++
  [byteOfBool s.pins.estopn, byteOfBool s.rcu.mainPowerHigh, byteOf s.tally.vs, byteOf s.tally.ms,
   byteOfBool s.link.generalCallEnable, byteOf Config.revision]

/-- The product record of a SET PRODUCT reply (Table 11-12); an UNDEFINED product has only its state. -/
def productBytes (k : ProductNo) : Option Product → List Byte
  | some r =>
    [byteOf k.val, 1, byteOf r.priceScale, byteOf r.rounding] ++
    unsignedField r.priceScale 6 r.current ++ [byteOfBool r.staged.isSome] ++
    optionalBytes r.staged (unsignedField r.priceScale 6)
  | none => [byteOf k.val, 0]

/-- The DECLARE and READ REGISTER replies (Table 11-12). -/
def registerBytes (r : RegNo) (x : TallyReg) (f : ResultFlags) (suspensions : Nat) : List Byte :=
  [byteOf (classCode r), byteOf x.digits, byteOf x.scale, byteOf x.rounding] ++
  valueField x.scale x.digits x.value ++ [byteOf f.mask, byteOf suspensions]

/-- The reply of LOAD, MOVE and the arithmetic requests that store (Table 11-12). -/
def resultBytes (x : TallyReg) (f : ResultFlags) (suspensions : Nat) : List Byte :=
  [byteOf f.mask, byteOf suspensions] ++ valueField x.scale x.digits x.value

end Sys2Proof.Machine
end

