-- ==== Sys2Proof/Machine/Schedule.lean ====
section
/-! DEFINITION. The scheduling of the decimal unit: eligibility of postings (R117), the choice of the next
piece of work (R118), the freezing of a sale and the submission of its posting (R20, R132, R133), the
numbering of sales (R137), and the posting commit through its journal (R122 to R124). -/

namespace Sys2Proof.Machine

/-! ## Postings and their eligibility -/

/-- The four target registers of a posting (Section 7.2). -/
def Posting.targets (q : Posting) : List RegNo :=
  [volumeTotal q.point, moneyTotal q.point, volumeShift q.product, moneyShift q.product]

/-- The operand set of the host job, while one exists (R115). -/
def Dcu.operandSet (d : Dcu) : List RegNo :=
  match d.job with
  | some j => j.operandSet
  | none => []

/-- A WAITING posting none of whose targets is held or an operand of the host job (R117). -/
def Dcu.eligible (d : Dcu) (q : Posting) : Bool :=
  !q.taken && q.targets.all (fun r => decide (r ∉ d.held) && decide (r ∉ d.operandSet))

/-- Mark the posting of point p TAKEN (R116). -/
def markTaken (p : PointNo) (qs : List Posting) : List Posting :=
  qs.map (fun q => if q.point = p then { q with taken := true } else q)

/-- The operand values that a job takes with its first step (R93). -/
def State.operandValues (s : State) (rs : List RegNo) : List Operand :=
  rs.map (fun r => ⟨r, s.reg r⟩)

/-- The unit takes the host job: WAITING takes its first step, SUSPENDED is resumed from its context
(R118, R120). -/
def State.takeJob (s : State) (j : HostJob) : State :=
  match j.phase with
  | .waiting => s.modDcu (fun d => { d with
      unit := .host
      job := some { j with phase := .active, values := s.operandValues j.operandSet } })
  | .suspended => s.modDcu (fun d => { d with
      unit := .host
      job := some { j with phase := .active, values := d.context.getD [] }
      context := none })
  | .active => s.modDcu (fun d => { d with unit := .host })

/-- The choice of a unit in FREE: the oldest eligible posting, else the host job, else nothing (R118). -/
def State.chooseFree (s : State) : State :=
  match s.dcu.postings.find? s.dcu.eligible with
  | some q => s.modDcu (fun d => { d with unit := .posting, postings := markTaken q.point d.postings })
  | none =>
    match s.dcu.job with
    | some j => s.takeJob j
    | none => s

/-- The DCU chooses its next piece of work if the unit is FREE and RCU is RUNNING (R114, R118, R131). -/
def State.choose (s : State) : State :=
  if s.rcu.running && decide (s.dcu.unit = .free) then s.chooseFree else s

/-! ## Settlement -/

/-- The frozen sale of a point, from its values as they stand (R132). A point that enters SETTLING holds
an end reason; where none stands, POWER is written, which no reachable state shows. -/
def Point.saleOf (x : Point) (p : PointNo) (a : AuthRecord) : FrozenSale where
  point := p
  auth := a
  volume := x.liveVolume
  money := x.liveMoney
  endReason := x.endReason.getD .power
  faults := x.faults
  flags := x.saleFlags

/-- The point enters SETTLING: the timers are dropped and the sale is frozen (R19, R20, R132). -/
def Point.enterSettling (x : Point) (p : PointNo) : Point :=
  { x with
    st := .settling
    timers := { x.timers with settle := none, stopLimit := none }
    frozen := x.auth.map (x.saleOf p) }

/-- The posting of a frozen sale: a copy of four of its fields (R133). -/
def FrozenSale.posting (f : FrozenSale) : Posting :=
  ⟨f.point, f.auth.product, f.volume, f.money, false⟩

/-- Point p submits the posting of its frozen sale behind every posting already queued (R116, R133). -/
def State.submit (s : State) (p : PointNo) : State :=
  match (s.point p).frozen with
  | some f => s.modDcu (fun d => { d with postings := d.postings ++ [f.posting] })
  | none => s

/-- A STOPPING point enters SETTLING in one event: freeze, submission, the report to the Product Table and
the choice of a unit in FREE (R20, R49, R114). -/
def State.settlePoint (s : State) (p : PointNo) (f : Point → Point) : State :=
  ((s.movePoint p (fun x => (f x).enterSettling p)).submit p).choose

/-! ## Sale numbers -/

/-- The number after a sale number: one more, or 1 after 65535 (R137). -/
def succNumber (n : Nat) : Nat := if Config.saleNumberMax ≤ n then 1 else n + 1

/-- The first number from n, going upward and from 65535 to 1, that no record holds; at most as many
numbers are skipped as there are records (R137). -/
def freeNumber (records : List SaleRecord) : Nat → Nat → Nat
  | 0, n => n
  | fuel + 1, n =>
    if records.any (fun r => decide (r.number = n)) then freeNumber records fuel (succNumber n) else n

/-- The sale number that the next commit assigns (R137). -/
def SaleQueue.assign (q : SaleQueue) : Nat := freeNumber q.records q.records.length q.nextSale

/-! ## The posting commit -/

/-- The new values of a posting's four targets, and whether any sum passed 16 digits (R89, R90, R122). -/
def State.postingSums (s : State) (q : Posting) : List (RegNo × (Int × Bool)) :=
  [(volumeTotal q.point, postingSum (s.reg (volumeTotal q.point)).value q.volume),
   (moneyTotal q.point, postingSum (s.reg (moneyTotal q.point)).value q.money),
   (volumeShift q.product, postingSum (s.reg (volumeShift q.product)).value q.volume),
   (moneyShift q.product, postingSum (s.reg (moneyShift q.product)).value q.money)]

/-- The commit record of a posting whose sale is f (R124). -/
def State.commitRecord (s : State) (q : Posting) (f : FrozenSale) : CommitRecord :=
  let sums := s.postingSums q
  let n := s.sales.assign
  { point := q.point
    writes := sums.map (fun x => ⟨x.1, x.2.1⟩)
    rollover := sums.any (fun x => x.2.2)
    nextSale := succNumber n
    record := ⟨n, f⟩ }

/-- The sale record joins the end of the queue unless its number is already there (R124, R136). -/
def SaleQueue.append (q : SaleQueue) (r : SaleRecord) : SaleQueue :=
  if q.records.any (fun x => decide (x.number = r.number)) then q
  else { q with records := q.records ++ [r] }

/-- The commit takes the point out of SETTLING, to IDLE or FAULTED by its fault set, with SALE; the record
and the frozen sale have gone to the Sale Queue (R20, R123, R132). -/
def Point.leaveSettling (x : Point) : Point :=
  match x.st with
  | .settling =>
    { x with
      st := if x.faults.isEmpty then .idle else .faulted
      auth := none
      frozen := none
      flags := { x.flags with sale := true } }
  | _ => x

/-- The posting of point p leaves the queue, wherever it stands (R116). -/
def Dcu.removePosting (d : Dcu) (p : PointNo) : Dcu :=
  { d with postings := d.postings.filter (fun q => decide (q.point ≠ p)) }

/-- The retained writes of a commit, in the order of R123: the four registers, the next sale number, the
append, the point, the posting. -/
def commitSteps (r : CommitRecord) : List (State → State) :=
  r.writes.map (fun w s => s.writeReg w.reg w.value) ++
  [fun s => s.modSales (fun q => { q with nextSale := r.nextSale }),
   fun s => s.modSales (fun q => q.append r.record),
   fun s => s.modPoint r.point Point.leaveSettling,
   fun s => s.modDcu (fun d => d.removePosting r.point)]

/-- The steps of a list applied in order. -/
def runSteps (fs : List (State → State)) (s : State) : State := fs.foldl (fun t f => f t) s

/-- A commit is completed from its record: every retained write, then ROLLOVER if the record notes one,
then the journal is emptied (R123, R124). -/
def State.completeCommit (s : State) (r : CommitRecord) : State :=
  ((runSteps (commitSteps r) s).modLink (fun l =>
    { l with flags := { l.flags with rollover := l.flags.rollover || r.rollover } })).modDcu
      (fun d => { d with journal := none })

/-- The commit of a posting begins when its record is whole in the journal (R124). -/
def State.beginCommit (s : State) (r : CommitRecord) : State :=
  s.modDcu (fun d => { d with journal := some r })

/-- The posting that the unit has TAKEN, with the frozen sale of its point (R116, R123). -/
def State.takenSale (s : State) : Option (Posting × FrozenSale) :=
  match s.dcu.postings.find? (·.taken) with
  | some q => (s.point q.point).frozen.map (fun f => (q, f))
  | none => none

/-- The work in hand stops where it stands. With the commit record of the TAKEN posting whole, the journal
stays BEGUN with the first j of the commit's writes made (R124, R164, R167). -/
def State.cutCommit (s : State) (cut : CommitCut) : State :=
  match cut, s.takenSale with
  | some j, some (q, f) =>
    let r := s.commitRecord q f
    runSteps ((commitSteps r).take j) (s.beginCommit r)
  | _, _ => s

end Sys2Proof.Machine
end

