-- ==== Sys2Proof/Machine/Jobs.lean ====
section
/-! DEFINITION. The requests of the decimal unit (Chapters 5 to 7). A request that passes the unit's own
checks becomes the host job and leaves the reply slot PENDING (R79, R115); HOST_JOB_COMPLETION gives it its
effect. -/

namespace Sys2Proof.Machine

/-- The registers in a list, each once (R92). -/
def distinct : List RegNo → List RegNo
  | [] => []
  | r :: rest => if r ∈ rest then distinct rest else r :: distinct rest

/-- The operand set of a job: its destination and every register it reads (R79, R92, R115). -/
def JobReq.operands : JobReq → List RegNo
  | .setSite _ _ => []
  | .declare r _ _ _ => [r]
  | .load d _ _ _ => [d]
  | .move d src _ => distinct [d, src]
  | .add d s1 s2 _ => distinct [d, s1, s2]
  | .subtract d s1 s2 _ => distinct [d, s1, s2]
  | .multiply d s1 s2 _ => distinct [d, s1, s2]
  | .divide d s1 s2 _ => distinct [d, s1, s2]
  | .rescale d src _ _ => distinct [d, src]
  | .compare s1 s2 => distinct [s1, s2]
  | .sumList d sources _ => distinct (d :: sources)
  | .readRegister r => [r]
  | .hold _ _ => []
  | .releaseHold => []

/-- The register that a LOAD, MOVE or arithmetic request stores into. -/
def JobReq.destination : JobReq → Option RegNo
  | .load d _ _ _ => some d
  | .move d _ _ => some d
  | .add d _ _ _ => some d
  | .subtract d _ _ _ => some d
  | .multiply d _ _ _ => some d
  | .divide d _ _ _ => some d
  | .rescale d _ _ _ => some d
  | .sumList d _ _ => some d
  | _ => none

/-- SET SITE's scale part is accepted only while every point is UNDEFINED, registers 0 to 19 hold zero
and the Sale Queue is empty (R87). -/
def State.siteIdle (s : State) : Bool :=
  allPoints.all (fun p => decide ((s.point p).st = .undefined)) &&
  allRegs.all (fun r => decide (20 ≤ r.val) || decide ((s.reg r).value = 0)) &&
  s.sales.records.isEmpty

/-- The unit's own checks: the refusal of the first that fails (R80, R86, R87, R92). -/
def jobRefusal (req : JobReq) (s : State) : Option Status :=
  match req with
  | .declare r digits scale _ =>
    if isTotal r || isShift r then some .protectedReg
    else if digits < scale then some .badField
    else if r ∈ s.dcu.held then some .held
    else none
  | .setSite (some _) _ => if s.siteIdle then none else some .wrongState
  | _ =>
    match req.destination with
    | some d => if isTotal d then some .protectedReg else none
    | none => none

/-- An accepted request becomes the host job in WAITING with its operand set fixed, and a unit in FREE
chooses (R79, R115, R118). -/
def State.acceptJob (s : State) (req : JobReq) : State :=
  (s.modDcu (fun d => { d with job := some ⟨req, .waiting, req.operands, [], 0⟩ })).choose

/-- A decimal-unit request of a kind: refused in the event of its taking, or accepted with the slot left
PENDING (R79, R156). -/
def jobRequest (kind : Byte) (req : JobReq) (s : State) : State :=
  match jobRefusal req s with
  | some e => s.refuse e kind
  | none => s.acceptJob req

/-- SET_SITE. -/
def execSetSite (payload : List Byte) (s : State) : Result :=
  request Kind.setSite payload parseSetSite (jobRequest Kind.setSite) s

/-- DECLARE. -/
def execDeclare (payload : List Byte) (s : State) : Result :=
  request Kind.declare payload parseDeclare (jobRequest Kind.declare) s

/-- LOAD. -/
def execLoad (payload : List Byte) (s : State) : Result :=
  request Kind.load payload parseLoad (jobRequest Kind.load) s

/-- MOVE. -/
def execMove (payload : List Byte) (s : State) : Result :=
  request Kind.move payload parseMove (jobRequest Kind.move) s

/-- ADD. -/
def execAdd (payload : List Byte) (s : State) : Result :=
  request Kind.add payload (parseArith .add) (jobRequest Kind.add) s

/-- SUBTRACT. -/
def execSubtract (payload : List Byte) (s : State) : Result :=
  request Kind.subtract payload (parseArith .subtract) (jobRequest Kind.subtract) s

/-- MULTIPLY. -/
def execMultiply (payload : List Byte) (s : State) : Result :=
  request Kind.multiply payload (parseArith .multiply) (jobRequest Kind.multiply) s

/-- DIVIDE. -/
def execDivide (payload : List Byte) (s : State) : Result :=
  request Kind.divide payload (parseArith .divide) (jobRequest Kind.divide) s

/-- RESCALE. -/
def execRescale (payload : List Byte) (s : State) : Result :=
  request Kind.rescale payload parseRescale (jobRequest Kind.rescale) s

/-- COMPARE. -/
def execCompare (payload : List Byte) (s : State) : Result :=
  request Kind.compare payload parseCompare (jobRequest Kind.compare) s

/-- SUM_LIST. -/
def execSumList (payload : List Byte) (s : State) : Result :=
  request Kind.sumList payload parseSumList (jobRequest Kind.sumList) s

/-- READ_REGISTER. -/
def execReadRegister (payload : List Byte) (s : State) : Result :=
  request Kind.readRegister payload parseReadRegister (jobRequest Kind.readRegister) s

/-- HOLD. -/
def execHold (payload : List Byte) (s : State) : Result :=
  request Kind.hold payload parseHold (jobRequest Kind.hold) s

/-- RELEASE_HOLD. -/
def execReleaseHold (payload : List Byte) (s : State) : Result :=
  request Kind.releaseHold payload parseReleaseHold (jobRequest Kind.releaseHold) s

end Sys2Proof.Machine
end

