-- ==== Sys2Proof/Machine/Arbiter.lean ====
section
/-! DEFINITION. The events of the decimal unit: the completion of the host job (R96 and the requests' own
rules), its suspension (R119), the commit of a posting (R123) and the expiry of the hold timer (R128). -/

namespace Sys2Proof.Machine

/-! ## Reading the reply slot -/

/-- The reply in the slot is sent from its read position, n bytes clocked: read to its last byte it leaves
the slot, else the position returns to the first byte (R152). -/
def State.sendReply (s : State) (n : Nat) : State :=
  match s.link.replySlot with
  | .ready r pos =>
    let bytes := r.frame.drop pos
    s.modLink (fun l => { l with
      stretch := none
      bus := .sent (clocked bytes n)
      replySlot := if bytes.length ≤ n then .empty else .ready r 0 })
  | _ => s

/-- A reply that becomes READY during a clock stretch is sent in that event (R153). -/
def State.endStretch (s : State) : State :=
  match s.link.stretch with
  | some n => s.sendReply n
  | none => s

/-! ## Completion of the host job -/

/-- The value of an operand: what its register held when the job took its first step (R93). -/
def State.operand (s : State) (j : HostJob) (r : RegNo) : TallyReg :=
  match j.values.find? (fun o => decide (o.reg = r)) with
  | some o => o.held
  | none => s.reg r

/-- A result is written into register d, and the reply carries the flags, the suspension count and the
value as it stands (R96). -/
def State.finishStore (s : State) (kind : Byte) (j : HostJob) (d : RegNo) (res : Int × ResultFlags) :
    State :=
  let x := (s.reg d).withValue res.1
  (s.setReg d x).ok kind (resultBytes x res.2 j.suspensions)

/-- An exact result passes through the storing step into register d (R95). -/
def State.storeExact (s : State) (kind : Byte) (j : HostJob) (d : RegNo) (x : Exact)
    (rounding : Option Nat) : State :=
  s.finishStore kind j d (storingStep (s.reg d) x (effectiveRounding rounding (s.reg d)))

/-- The value of a register as an exact result (R84). -/
def TallyReg.exact (r : TallyReg) : Exact := ⟨r.value, r.scale⟩

/-- A DIVIDE whose divisor is zero leaves its destination and reports DIVZERO and OVERFLOW (R100). -/
def State.divideByZero (s : State) (j : HostJob) (d : RegNo) : State :=
  s.ok Kind.divide
    (resultBytes (s.reg d) (ResultFlags.describe (s.reg d).value true false true) j.suspensions)

/-- The 64 registers as a function of their number gives them. -/
def regsOf (f : RegNo → TallyReg) : Vector TallyReg 64 := ⟨⟨List.ofFn f⟩, by simp⟩

/-- The site scales change, and registers 0 to 19 become zero at their new scales (R77, R88). -/
def Tally.rescaleSite (t : Tally) (vs ms : Nat) : Tally :=
  { vs := vs
    ms := ms
    regs := regsOf (fun r =>
      if r.val < 20 then TallyReg.account (if r.val % 2 = 0 then vs else ms) else t.regs[r]) }

/-- The parts of a SET SITE are applied (R88). -/
def State.applySite (s : State) (scales : Option (Nat × Nat)) (gc : Option Bool) : State :=
  let t := match scales with
    | some (vs, ms) => s.modTally (fun x => x.rescaleSite vs ms)
    | none => s
  t.modLink (fun l => { l with generalCallEnable := gc.getD l.generalCallEnable })

/-- The held set of a list, each register once and in increasing order (R126). -/
def heldSet (rs : List RegNo) : List RegNo := allRegs.filter (fun r => decide (r ∈ rs))

/-- The effect of a host job and its reply, by kind (R83 to R88, R96 to R108, R126, R127). -/
def State.applyJob (s : State) (j : HostJob) : State :=
  let v := s.operand j
  match j.req with
  | .setSite scales gc =>
    let t := s.applySite scales gc
    t.ok Kind.setSite [byteOf t.tally.vs, byteOf t.tally.ms, byteOfBool t.link.generalCallEnable]
  | .declare r digits scale rounding =>
    let x : TallyReg := ⟨digits, scale, rounding, 0⟩
    (s.setReg r x).ok Kind.declare
      (registerBytes r x (ResultFlags.describe 0 false false false) j.suspensions)
  | .load d value scale rounding => s.storeExact Kind.load j d ⟨value, scale⟩ rounding
  | .move d src rounding => s.storeExact Kind.move j d (v src).exact rounding
  | .add d s1 s2 rounding => s.storeExact Kind.add j d (exactAdd (v s1) (v s2)) rounding
  | .subtract d s1 s2 rounding => s.storeExact Kind.subtract j d (exactSubtract (v s1) (v s2)) rounding
  | .multiply d s1 s2 rounding => s.storeExact Kind.multiply j d (exactMultiply (v s1) (v s2)) rounding
  | .divide d s1 s2 rounding =>
    if (v s1).value = 0 then s.divideByZero j d
    else s.finishStore Kind.divide j d
      (divideStep (s.reg d) (v s1) (v s2) (effectiveRounding rounding (s.reg d)))
  | .rescale d src k rounding => s.storeExact Kind.rescale j d (exactRescale (v src) k) rounding
  | .compare s1 s2 =>
    s.ok Kind.compare [byteOf (compareFlags (v s1) (v s2)).mask, byteOf j.suspensions]
  | .sumList d sources rounding =>
    s.storeExact Kind.sumList j d (exactSum (sources.map v)) rounding
  | .readRegister r =>
    s.ok Kind.readRegister
      (registerBytes r (v r) (ResultFlags.describe (v r).value false false false) j.suspensions)
  | .hold rs seconds =>
    let t := s.modDcu (fun d => { d with held := heldSet rs, holdTimer := some seconds })
    t.ok Kind.hold (registerList t.dcu.held ++ [byteOf seconds, byteOf j.suspensions])
  | .releaseHold =>
    (s.modDcu (fun d => { d with held := [], holdTimer := none })).ok Kind.releaseHold
      (registerList s.dcu.held)

/-- The job ceases to exist and the unit is FREE (R114, R120). -/
def State.endJob (s : State) : State :=
  s.modDcu (fun d => { d with unit := .free, job := none, context := none })

/-- The host job that the unit is working on (R115). -/
def State.activeJob (s : State) : Option HostJob :=
  match s.dcu.unit, s.dcu.job with
  | .host, some j => if j.phase = .active then some j else none
  | _, _ => none

/-- The active host job completes: effect and reply, the end of the job, the end of a clock stretch, and
the choice of the next work, all in one event (R96, R120, R153). -/
def State.completeJob (s : State) (j : HostJob) : State := ((s.applyJob j).endJob.endStretch).choose

/-- HOST_JOB_COMPLETION. -/
def execHostJobCompletion (s : State) : Result :=
  .next (s.whenOperating (fun t =>
    match t.activeJob with
    | some j => t.completeJob j
    | none => t))

/-! ## Suspension -/

/-- A job whose first digit step is also its last has no boundary at which it could be suspended (R115). -/
def State.oneStep (s : State) (j : HostJob) : Bool :=
  match j.req with
  | .hold _ _ | .releaseHold | .setSite _ _ => true
  | .divide _ s1 _ _ => decide ((s.operand j s1).value = 0)
  | _ => false

/-- The job is set aside: its operand values go into the suspended context, its count rises, and the unit
chooses (R119). -/
def State.suspendJob (s : State) (j : HostJob) : State :=
  (s.modDcu (fun d => { d with
    unit := .free
    context := some j.values
    job := some { j with
      phase := .suspended
      values := []
      suspensions := min Config.suspensionMax (j.suspensions + 1) } })).choose

/-- A digit-step boundary at which the job is suspended: an eligible posting waits and the job has a
further step (R115, R119). -/
def State.suspendable (s : State) (j : HostJob) : Bool :=
  s.dcu.postings.any s.dcu.eligible && !s.oneStep j

/-- SUSPENSION. -/
def execSuspension (s : State) : Result :=
  .next (s.whenOperating (fun t =>
    match t.activeJob with
    | some j => if t.suspendable j then t.suspendJob j else t
    | none => t))

/-! ## The posting commit -/

/-- The TAKEN posting commits through the journal, and the unit, now FREE, chooses again (R123, R124). -/
def State.commitPosting (s : State) (q : Posting) (f : FrozenSale) : State :=
  let r := s.commitRecord q f
  (((s.beginCommit r).completeCommit r).modDcu (fun d => { d with unit := .free })).choose

/-- POSTING_COMMIT. -/
def execPostingCommit (s : State) : Result :=
  .next (s.whenOperating (fun t =>
    match t.takenSale with
    | some (q, f) => t.commitPosting q f
    | none => t))

/-! ## The hold timer -/

/-- The hold ends by its timer: the set is emptied with HOLD-EXPIRED, and a unit in FREE chooses (R128). -/
def State.expireHold (s : State) : State :=
  ((s.modDcu (fun d => { d with held := [], holdTimer := none })).modLink (fun l =>
    { l with flags := { l.flags with holdExpired := true } })).choose

/-- HOLD_TIMER_EXPIRY. -/
def execHoldTimerExpiry (s : State) : Result :=
  .next (s.whenOperating (fun t => if t.dcu.holdTimer.isSome then t.expireHold else t))

end Sys2Proof.Machine
end

