-- ==== Sys2Proof/Machine/Catalog.lean ====
section
/-! DEFINITION. The requests of the Product Table (Chapter 3) and of the Sale Queue (Chapter 8). Each is
answered in the event in which it is taken (R48, R139). -/

namespace Sys2Proof.Machine

/-! ## The Product Table -/

/-- SET PRODUCT (R50). -/
def setProductRequest (q : SetProductReq) (s : State) : State :=
  if s.holdingEmpty q.product = false then s.refuse .wrongState Kind.setProduct
  else if q.price.scale ≠ q.priceScale then s.refuse .badField Kind.setProduct
  else
    let r : Product := ⟨q.priceScale, q.rounding, q.price.magnitude, none⟩
    (s.setProduct q.product (some r)).ok Kind.setProduct (productBytes q.product (some r))

/-- The reply of an accepted SET PRICE: the record as it stands, then the outcome, 0 CURRENT or 1 STAGED
(R48, R181). -/
def setPriceReply (k : ProductNo) (r : Product) (outcome : Nat) : List Byte :=
  productBytes k (some r) ++ [byteOf outcome]

/-- SET PRICE: current at once while the delivering set is empty, staged otherwise (R52, R53). -/
def setPriceRequest (q : SetPriceReq) (s : State) : State :=
  match s.product q.product with
  | none => s.refuse .badField Kind.setPrice
  | some r =>
    if q.price.scale ≠ r.priceScale then s.refuse .badField Kind.setPrice
    else if s.deliveringEmpty q.product then
      let r' := { r with current := q.price.magnitude, staged := none }
      (s.setProduct q.product (some r')).ok Kind.setPrice (setPriceReply q.product r' 0)
    else
      let r' := { r with staged := some q.price.magnitude }
      (s.setProduct q.product (some r')).ok Kind.setPrice (setPriceReply q.product r' 1)

/-! ## The Sale Queue -/

/-- The record that COLLECT SALE returns: the oldest, or the oldest of the named point (R139). -/
def SaleQueue.oldest (q : SaleQueue) : Option PointNo → Option SaleRecord
  | none => q.records.head?
  | some p => q.records.find? (fun r => decide (r.sale.point = p))

/-- COLLECT SALE (R139). -/
def collectSaleRequest (p : Option PointNo) (s : State) : State :=
  match s.sales.oldest p with
  | none => s.refuse .noSuchSale Kind.collectSale
  | some r => s.ok Kind.collectSale
      (saleBytes s.tally.vs s.tally.ms r ++ [byteOf s.sales.records.length])

/-- The record with a number leaves the queue, and those behind it close up (R140). -/
def SaleQueue.remove (q : SaleQueue) (n : Nat) : SaleQueue :=
  { q with records := q.records.filter (fun r => decide (r.number ≠ n)) }

/-- A record in the queue holds the number (R140). -/
def SaleQueue.holds (q : SaleQueue) (n : Nat) : Bool := q.records.any (fun r => decide (r.number = n))

/-- CLEAR SALE (R140). -/
def clearSaleRequest (n : Nat) (s : State) : State :=
  if s.sales.holds n then
    let t := s.modSales (fun q => q.remove n)
    t.ok Kind.clearSale (bytes16 n ++ [byteOf t.sales.records.length])
  else s.refuse .noSuchSale Kind.clearSale

/-! ## The meanings -/

/-- SET_PRODUCT. -/
def execSetProduct (payload : List Byte) (s : State) : Result :=
  request Kind.setProduct payload parseSetProduct setProductRequest s

/-- SET_PRICE. -/
def execSetPrice (payload : List Byte) (s : State) : Result :=
  request Kind.setPrice payload parseSetPrice setPriceRequest s

/-- COLLECT_SALE. -/
def execCollectSale (payload : List Byte) (s : State) : Result :=
  request Kind.collectSale payload parseCollectSale collectSaleRequest s

/-- CLEAR_SALE. -/
def execClearSale (payload : List Byte) (s : State) : Result :=
  request Kind.clearSale payload parseClearSale clearSaleRequest s

end Sys2Proof.Machine
end

