-- ==== Sys2Proof/Machine/Measure.lean ====
section
/-! DEFINITION. Meter Input: how a change of the pin pair becomes a pulse or a phase error (R27 to R33),
and what a pulse or phase error does to its point (R35 to R44, R66 to R70). -/

namespace Sys2Proof.Machine

/-- What a change of the pair is (R27). -/
inductive Change where
  | forward | reverse | phaseError | neither
  deriving DecidableEq, Repr

/-- The next pair of forward rotation: 00, 10, 11, 01 and back to 00 (R32). -/
def PhasePair.next (x : PhasePair) : PhasePair :=
  match x.a, x.b with
  | false, false => ⟨true, false⟩
  | true, false => ⟨true, true⟩
  | true, true => ⟨false, true⟩
  | false, true => ⟨false, false⟩

/-- A QUAD4 change: a step of the cycle either way, or a double change (R32, R33). -/
def quad4Change (old new : PhasePair) : Change :=
  if new = old then .neither
  else if new = old.next then .forward
  else if old = new.next then .reverse
  else .phaseError

/-- A QUAD1 change: as QUAD4, but only the steps between 00 and 10 count (R32, R33). -/
def quad1Change (old new : PhasePair) : Change :=
  match quad4Change old new with
  | .forward => if old = ⟨false, false⟩ then .forward else .neither
  | .reverse => if new = ⟨false, false⟩ then .reverse else .neither
  | c => c

/-- The change decoded by the pulse mode from the old and new pairs (R29 to R33). -/
def decodeChange (mode : PulseMode) (old new : PhasePair) : Change :=
  let aRises := !old.a && new.a
  let bRises := !old.b && new.b
  match mode with
  | .single => if aRises then .forward else .neither
  | .directed => if aRises then (if old.b then .forward else .reverse) else .neither
  | .dual =>
    if aRises && !bRises then .forward
    else if bRises && !aRises then .reverse
    else .neither
  | .quad1 => quad1Change old new
  | .quad4 => quad4Change old new

/-- What the measurement of a point needs from its surroundings: VS, MS and the rounding digit of the
authorization's product (R59). -/
structure Rates where
  vs       : Nat
  ms       : Nat
  rounding : Nat
  deriving DecidableEq, Repr

/-- The rates of a point (R59). -/
def State.rates (s : State) (x : Point) : Rates :=
  ⟨s.tally.vs, s.tally.ms,
    match x.auth with
    | some a => match s.product a.product with
      | some r => r.rounding
      | none => 0
    | none => 0⟩

/-- The live volume that a net count gives at this point (R42). -/
def Point.volumeAt (x : Point) (e : Rates) (net : Nat) : Nat :=
  match x.defn with
  | some d => liveVolumeOf net d.kFactor e.vs
  | none => 0

/-- The live money that a volume gives at this point (R59). -/
def Point.moneyAt (x : Point) (e : Rates) (volume : Nat) : Nat :=
  match x.auth with
  | some a => liveMoneyOf volume a.price e.vs a.priceScale e.ms e.rounding
  | none => 0

/-- The net count changes and the live values are recomputed from it, with OVERRUN (R42, R44, R59, R69). -/
def Point.recount (x : Point) (e : Rates) (net : Nat) : Point :=
  let v := x.volumeAt e net
  Point.updateOverrun
    { x with meter := { x.meter with net := net }, liveVolume := v, liveMoney := x.moneyAt e v }

/-- The comparisons after a recomputation, in DELIVERING and PAUSED only: the slow-down point, then the
target (R66). -/
def Point.compareMarks (x : Point) : Point :=
  match x.st with
  | .delivering | .paused => x.checkSlowDown.checkTarget
  | _ => x

/-- In STOPPING a counted pulse restarts the settle timer (R19). -/
def Point.restartSettle (x : Point) : Point :=
  match x.st with
  | .stopping => { x with timers := { x.timers with settle := x.settleStart } }
  | _ => x

/-- In DELIVERING a forward pulse restarts the no-flow timer (R15). -/
def Point.restartNoFlow (x : Point) : Point :=
  match x.st with
  | .delivering => { x with timers := { x.timers with noFlow := x.noFlowStart } }
  | _ => x

/-- The live values of one more forward pulse fit 8 digits (R43, R60). -/
def Point.fitsLimit (x : Point) (e : Rates) : Bool :=
  let v := x.volumeAt e (x.meter.net + 1)
  decide (v < Config.liveLimit) && decide (x.moneyAt e v < Config.liveLimit)

/-- A forward pulse that fails the limits is discarded: the delivery ends with LIMIT, or in STOPPING the
settle timer restarts (R43). -/
def Point.discardPulse (x : Point) : Point :=
  match x.st with
  | .delivering | .paused => x.enterStopping .limit
  | _ => x.restartSettle

/-- A forward pulse of a delivery (R35). -/
def Point.forwardPulse (x : Point) (e : Rates) : Point :=
  if x.fitsLimit e then
    (((x.recount e (x.meter.net + 1)).restartNoFlow).restartSettle).compareMarks
  else x.discardPulse

/-- The reverse count rises, with REVERSE and REVERSE-SEEN at the first pulse of the delivery (R36). -/
def Point.countReverse (x : Point) : Point :=
  let y := { x with meter := { x.meter with
    reverse := min Config.count16Max (x.meter.reverse + 1) } }
  if x.meter.reverse = 0 then
    { y with flags := { y.flags with reverse := true }
             saleFlags := { y.saleFlags with reverseSeen := true } }
  else y

/-- The net count falls by one if it is above zero (R36). -/
def Point.lowerNet (x : Point) (e : Rates) : Point :=
  if 0 < x.meter.net then (x.recount e (x.meter.net - 1)).compareMarks else x

/-- The limits of the definition (Table 1-2). -/
def Point.reverseLimit (x : Point) : Option Nat := x.defn.map (·.reverseLimit)

def Point.phaseLimit (x : Point) : Option Nat := x.defn.map (·.phaseLimit)

/-- A count has gone from a limit to one more than it (R36, R37). -/
def passedLimit (limit : Option Nat) (before after : Nat) : Bool :=
  decide (limit = some before) && decide (after = before + 1)

/-- A reverse pulse of a delivery (R36). -/
def Point.reversePulse (x : Point) (e : Rates) : Point :=
  let y := (x.countReverse.lowerNet e).restartSettle
  if passedLimit x.reverseLimit x.meter.reverse y.meter.reverse then y.reportFault .reverse else y

/-- A phase error of a delivery (R37). -/
def Point.phaseError (x : Point) : Point :=
  let y := { x with meter := { x.meter with
    phaseErrors := min Config.count8Max (x.meter.phaseErrors + 1) } }
  if passedLimit x.phaseLimit x.meter.phaseErrors y.meter.phaseErrors then y.reportFault .pulser else y

/-- A stray pulse, with the event CREEP when the count leaves zero (R39) and the fault CREEP at every
stray pulse that finds the count at or above a nonzero limit (R40). -/
def Point.strayPulse (x : Point) : Point :=
  let n := min Config.count16Max (x.meter.creep + 1)
  let y := { x with
    meter := { x.meter with creep := n }
    flags := { x.flags with creep := x.flags.creep || decide (x.meter.creep = 0) } }
  match x.defn with
  | some d => if d.creepLimit ≠ 0 ∧ d.creepLimit ≤ n then y.reportFault .creep else y
  | none => y

/-- A delivery is in progress, so that pulses and phase errors are counted into it (R28). -/
def PtState.counting : PtState → Bool
  | .delivering | .paused | .stopping => true
  | _ => false

/-- What a decoded change does in a defined point (R28). -/
def Point.applyChange (x : Point) (e : Rates) : Change → Point
  | .forward => if x.st.counting then x.forwardPulse e else x.strayPulse
  | .reverse => if x.st.counting then x.reversePulse e else x.strayPulse
  | .phaseError => if x.st.counting then x.phaseError else x
  | .neither => x

/-- A watched pin pair differs from the last phase state: the change is decoded, the new pair becomes the
last phase state, and only then is it applied (R27). -/
def Point.takeChange (x : Point) (e : Rates) (new : PhasePair) : Point :=
  match x.defn, x.meter.lastPhase with
  | some d, some old =>
    if new = old then x
    else ({ x with meter := { x.meter with lastPhase := some new } }).applyChange e
      (decodeChange d.mode old new)
  | _, _ => x

end Sys2Proof.Machine
end

