-- ==== Sys2Proof/Machine/Points.lean ====
section
/-! DEFINITION. The requests that the point controllers answer (Chapter 1, Chapter 2, Chapter 4). Each
owner function takes the fields the link has read and the state in which the request is taken, and
answers in the same event (R2). -/

namespace Sys2Proof.Machine

/-- The levels of PAp and PBp. -/
def State.pinPair (s : State) (p : PointNo) : PhasePair := ⟨s.pins.pa[p], s.pins.pb[p]⟩

/-- A request that names an UNDEFINED point is refused with POINT-UNDEFINED (R2). -/
def onDefined (kind : Byte) (p : PointNo) (f : State → State) (s : State) : State :=
  if (s.point p).st = .undefined then s.refuse .pointUndefined kind else f s

/-- A request that an owner carries out with an empty reply. -/
def doneWith (kind : Byte) (s : State) : State := s.ok kind []

/-! ## DEFINE POINT, MODIFY POINT, RELEASE POINT -/

/-- The record is stored and the point enters IDLE with its meter started (R3, R45). -/
def Point.define (x : Point) (d : PointDef) (pair : PhasePair) : Point :=
  { x with
    st := .idle
    defn := some d
    liveVolume := 0
    liveMoney := 0
    slowDown := false
    endReason := none
    faults := FaultSet.none
    saleFlags := SaleFlags.clear
    meter := ⟨some pair, 0, 0, 0, 0⟩ }

/-- DEFINE POINT (R3). In SETTLING too it is refused with ALREADY-DEFINED, as R3 and Table 9-2 have it for
every defined point, where R20 and R133 ask WRONG-STATE of every point request but READ POINT: DESIGN
CHOICE (notes/assumptions/31.md). -/
def defineRequest (q : DefineReq) (s : State) : State :=
  if (s.point q.p).st ≠ .undefined then s.refuse .alreadyDefined Kind.definePoint
  else if q.marginScale ≠ s.tally.vs ∨ q.toleranceScale ≠ s.tally.vs then
    s.refuse .badField Kind.definePoint
  else doneWith Kind.definePoint (s.modPoint q.p (fun x => x.define q.defn (s.pinPair q.p)))

/-- The definition with the present fields replaced (R4). -/
def ModifyReq.apply (q : ModifyReq) (d : PointDef) : PointDef :=
  { d with
    allowed := q.allowed.getD d.allowed
    margin := (q.margin.map (·.magnitude)).getD d.margin
    tolerance := (q.tolerance.map (·.magnitude)).getD d.tolerance
    authTimeout := q.authTimeout.getD d.authTimeout
    noFlow := q.noFlow.getD d.noFlow
    settleTime := q.settleTime.getD d.settleTime
    creepLimit := q.creepLimit.getD d.creepLimit
    reverseLimit := q.reverseLimit.getD d.reverseLimit
    phaseLimit := q.phaseLimit.getD d.phaseLimit }

/-- A margin or tolerance that is present is at VS (R4). -/
def ModifyReq.scalesAt (q : ModifyReq) (vs : Nat) : Bool :=
  q.margin.all (fun f => decide (f.scale = vs)) && q.tolerance.all (fun f => decide (f.scale = vs))

/-- The states in which a definition may change or be released (R4, R5). -/
def PtState.changeable : PtState → Bool
  | .idle | .calling | .faulted => true
  | _ => false

/-- MODIFY POINT (R4). -/
def modifyRequest (q : ModifyReq) : State → State :=
  onDefined Kind.modifyPoint q.p (fun s =>
    if (s.point q.p).st.changeable = false then s.refuse .wrongState Kind.modifyPoint
    else if q.scalesAt s.tally.vs = false then s.refuse .badField Kind.modifyPoint
    else doneWith Kind.modifyPoint
      (s.modPoint q.p (fun x => { x with defn := x.defn.map q.apply })))

/-- The definition, the live values, the fault set, the end reason and the meter counts are discarded
(R5, R45). -/
def Point.release (x : Point) : Point :=
  { x with
    st := .undefined
    defn := none
    liveVolume := 0
    liveMoney := 0
    faults := FaultSet.none
    endReason := none
    meter := Meter.cold }

/-- RELEASE POINT (R5). -/
def releaseRequest (p : PointNo) : State → State :=
  onDefined Kind.releasePoint p (fun s =>
    if (s.point p).st.changeable = false then s.refuse .wrongState Kind.releasePoint
    else doneWith Kind.releasePoint (s.modPoint p Point.release))

/-! ## AUTHORIZE -/

/-- The preset that a request gives, with its target, or nothing where it fails check 7 (R9, R64, R65). -/
def presetFor (vs ms : Nat) (r : Product) (q : PresetReq) : Option Preset :=
  if q.amount = 0 then none
  else match q.kind with
    | .volume => if q.scale = vs then some ⟨.volume, q.amount, q.amount⟩ else none
    | .money =>
      if q.scale ≠ ms ∨ r.current = 0 then none
      else
        let target := moneyTarget q.amount r.current vs r.priceScale ms r.rounding
        if target < Config.liveLimit then some ⟨.money, q.amount, target⟩ else none

/-- Check 7 on an optional preset: `none` where it fails (R9). -/
def presetCheck (vs ms : Nat) (r : Product) : Option PresetReq → Option (Option Preset)
  | none => some none
  | some q => (presetFor vs ms r q).map some

/-- The point may sell the product (R9, check 4). -/
def Point.allows (x : Point) (k : ProductNo) : Bool :=
  match x.defn with
  | some d => ProductSet.has d.allowed k
  | none => false

/-- The seven checks of R9 in their order: the refusal of the first that fails, or the authorization
record (R10). -/
def authorizeVerdict (q : AuthorizeReq) (s : State) : Except Status AuthRecord :=
  let x := s.point q.p
  if x.st = .undefined then .error .pointUndefined
  else if x.st ≠ .idle ∧ x.st ≠ .calling then .error .wrongState
  else if s.pins.estopn = false ∨ s.rcu.mainPowerHigh = false then .error .stopActive
  else if x.allows q.product = false then .error .badField
  else match s.product q.product with
    | none => .error .badField
    | some r =>
      if r.staged.isSome then .error .pricePending
      else if Config.salesPerPoint ≤ s.salesOf q.p then .error .salesUncleared
      else match presetCheck s.tally.vs s.tally.ms r q.preset with
        | none => .error .badField
        | some preset => .ok ⟨q.product, r.current, r.priceScale, preset, q.tag⟩

/-- The accepted authorization: from CALLING the delivery starts at once, from IDLE the point waits in
AUTHORIZED with its timer (R10). -/
def Point.authorize (x : Point) (a : AuthRecord) : Point :=
  match x.st with
  | .calling => Point.startDelivery { x with auth := some a }
  | _ => { x with
      st := .authorized
      auth := some a
      timers := { x.timers with authorization := x.authStart } }

/-- AUTHORIZE (R9, R10). -/
def authorizeRequest (q : AuthorizeReq) (s : State) : State :=
  match authorizeVerdict q s with
  | .error e => s.refuse e Kind.authorize
  | .ok a => doneWith Kind.authorize (s.movePoint q.p (fun x => x.authorize a))

/-! ## CANCEL, PAUSE, RESUME, STOP, STOP ALL -/

/-- CANCEL (R12). -/
def cancelRequest (p : PointNo) : State → State :=
  onDefined Kind.cancel p (fun s =>
    if (s.point p).st ≠ .authorized then s.refuse .wrongState Kind.cancel
    else doneWith Kind.cancel (s.movePoint p (fun x => x.dropTo .idle)))

/-- The point pauses: the no-flow timer stops (R16). -/
def Point.pause (x : Point) : Point :=
  { x with st := .paused, timers := { x.timers with noFlow := none } }

/-- PAUSE (R16). -/
def pauseRequest (p : PointNo) : State → State :=
  onDefined Kind.pause p (fun s =>
    if (s.point p).st ≠ .delivering then s.refuse .wrongState Kind.pause
    else doneWith Kind.pause (s.movePoint p Point.pause))

/-- The delivery goes on with the no-flow timer at its full timeout (R16). -/
def Point.resume (x : Point) : Point :=
  { x with st := .delivering, timers := { x.timers with noFlow := x.noFlowStart } }

/-- RESUME: outside PAUSED WRONG-STATE, with PFAILn low STOP-ACTIVE (R16). -/
def resumeRequest (p : PointNo) : State → State :=
  onDefined Kind.resume p (fun s =>
    if (s.point p).st ≠ .paused then s.refuse .wrongState Kind.resume
    else if s.rcu.mainPowerHigh = false then s.refuse .stopActive Kind.resume
    else doneWith Kind.resume (s.movePoint p Point.resume))

/-- STOP by the table of R17. -/
def stopRequest (p : PointNo) (s : State) : State :=
  match (s.point p).st with
  | .undefined => s.refuse .pointUndefined Kind.stop
  | .idle | .calling | .faulted => s.refuse .wrongState Kind.stop
  | .authorized => doneWith Kind.stop (s.movePoint p (fun x => x.dropTo .idle))
  | .delivering | .paused => doneWith Kind.stop (s.movePoint p (fun x => x.enterStopping .stopRequest))
  | .stopping | .settling => doneWith Kind.stop s

/-- STOP ALL as an addressed request: always OK (R23). -/
def stopAllRequest (s : State) : State := doneWith Kind.stopAll s.stopEveryPoint

/-! ## READ POINT, CLEAR FAULT, CLEAR CREEP -/

/-- READ POINT, answered in every state (R25). -/
def readPointRequest (p : PointNo) (s : State) : State :=
  s.ok Kind.readPoint (pointBytes s.tally.vs s.tally.ms p (s.point p))

/-- The fault set is emptied and the point enters IDLE (R22). -/
def Point.clearFault (x : Point) : Point := { x with st := .idle, faults := FaultSet.none }

/-- CLEAR FAULT (R22). -/
def clearFaultRequest (p : PointNo) : State → State :=
  onDefined Kind.clearFault p (fun s =>
    if (s.point p).st ≠ .faulted then s.refuse .wrongState Kind.clearFault
    else doneWith Kind.clearFault (s.movePoint p Point.clearFault))

/-- The creep count is zeroed (R41). -/
def Point.clearCreep (x : Point) : Point := { x with meter := { x.meter with creep := 0 } }

/-- CLEAR CREEP (R41). -/
def clearCreepRequest (p : PointNo) : State → State :=
  onDefined Kind.clearCreep p (fun s => doneWith Kind.clearCreep (s.movePoint p Point.clearCreep))

/-! ## The meanings -/

/-- DEFINE_POINT. -/
def execDefinePoint (payload : List Byte) (s : State) : Result :=
  request Kind.definePoint payload parseDefinePoint defineRequest s

/-- MODIFY_POINT. -/
def execModifyPoint (payload : List Byte) (s : State) : Result :=
  request Kind.modifyPoint payload parseModifyPoint modifyRequest s

/-- RELEASE_POINT. -/
def execReleasePoint (payload : List Byte) (s : State) : Result :=
  request Kind.releasePoint payload parsePoint releaseRequest s

/-- AUTHORIZE. -/
def execAuthorize (payload : List Byte) (s : State) : Result :=
  request Kind.authorize payload parseAuthorize authorizeRequest s

/-- CANCEL. -/
def execCancel (payload : List Byte) (s : State) : Result :=
  request Kind.cancel payload parsePoint cancelRequest s

/-- PAUSE. -/
def execPause (payload : List Byte) (s : State) : Result :=
  request Kind.pause payload parsePoint pauseRequest s

/-- RESUME. -/
def execResume (payload : List Byte) (s : State) : Result :=
  request Kind.resume payload parsePoint resumeRequest s

/-- STOP. -/
def execStop (payload : List Byte) (s : State) : Result :=
  request Kind.stop payload parsePoint stopRequest s

/-- STOP_ALL. -/
def execStopAll (payload : List Byte) (s : State) : Result :=
  request Kind.stopAll payload parseNone (fun _ => stopAllRequest) s

/-- READ_POINT. -/
def execReadPoint (payload : List Byte) (s : State) : Result :=
  request Kind.readPoint payload parsePoint readPointRequest s

/-- CLEAR_FAULT. -/
def execClearFault (payload : List Byte) (s : State) : Result :=
  request Kind.clearFault payload parsePoint clearFaultRequest s

/-- CLEAR_CREEP. -/
def execClearCreep (payload : List Byte) (s : State) : Result :=
  request Kind.clearCreep payload parsePoint clearCreepRequest s

end Sys2Proof.Machine
end

