-- ==== Sys2Proof/Machine/Field.lean ====
section
/-! DEFINITION. The events of the field side: handle edges (R6, R7, R11, R14), changes of the meter pins
(R27), the expiries of the point timers (R11, R15, R19), ESTOPn (R24) and PFAILn (R72, R166). A pin always
takes its new level; the part takes the event only while it operates (R167, R168). -/

namespace Sys2Proof.Machine

/-! ## The handle -/

/-- A recognized rise of the handle. A handle already recognized as lifted gives no edge (R6). -/
def Point.lift (x : Point) : Point :=
  if x.handleUp then x
  else
    let y := { x with handleUp := true }
    match y.st with
    | .idle => { y with st := .calling, flags := { y.flags with call := true } }
    | .authorized => y.startDelivery
    | _ => y

/-- A recognized fall of the handle. A handle already recognized as down gives no edge (R6). -/
def Point.lower (x : Point) : Point :=
  if x.handleUp then
    let y := { x with handleUp := false }
    match y.st with
    | .calling => { y with st := .idle }
    | .delivering | .paused => y.enterStopping .handle
    | _ => y
  else x

/-- HSp takes a level. -/
def State.setHandlePin (s : State) (p : PointNo) (up : Bool) : State :=
  s.modPins (fun n => { n with hs := n.hs.set p up })

/-- LIFT_EDGE. -/
def execLiftEdge (p : PointNo) (s : State) : Result :=
  .next ((s.setHandlePin p true).whenOperating (fun t => t.movePoint p Point.lift))

/-- LOWER_EDGE. -/
def execLowerEdge (p : PointNo) (s : State) : Result :=
  .next ((s.setHandlePin p false).whenOperating (fun t => t.movePoint p Point.lower))

/-! ## The meter pins -/

/-- PAp and PBp take levels. -/
def State.setMeterPins (s : State) (p : PointNo) (pair : PhasePair) : State :=
  s.modPins (fun n => { n with pa := n.pa.set p pair.a, pb := n.pb.set p pair.b })

/-- CHANGE_OF_THE_PAIR. -/
def execChangeOfThePair (p : PointNo) (a b : Bool) (s : State) : Result :=
  .next ((s.setMeterPins p ⟨a, b⟩).whenOperating (fun t =>
    t.movePoint p (fun x => x.takeChange (t.rates x) ⟨a, b⟩)))

/-! ## Timer expiries -/

/-- The authorization timer of an AUTHORIZED point expires (R11). -/
def Point.authorizationExpiry (x : Point) : Point :=
  if x.st = .authorized ∧ x.timers.authorization.isSome then x.lapse else x

/-- The no-flow timer of a DELIVERING point expires (R15). -/
def Point.noFlowExpiry (x : Point) : Point :=
  if x.st = .delivering ∧ x.timers.noFlow.isSome then x.enterStopping .noFlow else x

/-- The settle timer of a STOPPING point runs, so that it can expire (R19). -/
def Point.settleRuns (x : Point) : Bool := decide (x.st = .stopping) && x.timers.settle.isSome

/-- The stop limit timer of a STOPPING point runs (R19). -/
def Point.stopLimitRuns (x : Point) : Bool := decide (x.st = .stopping) && x.timers.stopLimit.isSome

/-- FLOW-AFTER-STOP is set (R19). -/
def Point.flowAfterStop (x : Point) : Point :=
  { x with saleFlags := { x.saleFlags with flowAfterStop := true } }

/-- AUTHORIZATION_TIMER_EXPIRY. -/
def execAuthorizationTimerExpiry (p : PointNo) (s : State) : Result :=
  .next (s.whenOperating (fun t => t.movePoint p Point.authorizationExpiry))

/-- NO_FLOW_TIMER_EXPIRY. -/
def execNoFlowTimerExpiry (p : PointNo) (s : State) : Result :=
  .next (s.whenOperating (fun t => t.movePoint p Point.noFlowExpiry))

/-- SETTLE_TIMER_EXPIRY. -/
def execSettleTimerExpiry (p : PointNo) (s : State) : Result :=
  .next (s.whenOperating (fun t => if (t.point p).settleRuns then t.settlePoint p id else t))

/-- STOP_LIMIT_TIMER_EXPIRY. -/
def execStopLimitTimerExpiry (p : PointNo) (s : State) : Result :=
  .next (s.whenOperating (fun t =>
    if (t.point p).stopLimitRuns then t.settlePoint p Point.flowAfterStop else t))

/-! ## ESTOPn and PFAILn -/

/-- ESTOP is set at each change of the level of ESTOPn (R24). -/
def State.flagEstop (s : State) : State :=
  s.modLink (fun l => { l with flags := { l.flags with estop := true } })

/-- ESTOPn takes a level. -/
def State.setEstopPin (s : State) (high : Bool) : State := s.modPins (fun n => { n with estopn := high })

/-- ESTOPN_ASSERTED: a pin already low does not change (R24). -/
def execEstopnAsserted (s : State) : Result :=
  .next (if s.pins.estopn then
    (s.setEstopPin false).whenOperating (fun t => t.stopEveryPoint.flagEstop)
  else s)

/-- ESTOPN_RELEASED: no point changes (R24). -/
def execEstopnReleased (s : State) : Result :=
  .next (if s.pins.estopn then s else (s.setEstopPin true).whenOperating State.flagEstop)

/-- PFAILn takes a level, and RCU holds it as the main-power status while the part operates (R166). -/
def State.setPfail (s : State) (high : Bool) : State :=
  (s.modPins (fun n => { n with pfailn := high })).whenOperating (fun t =>
    t.modRcu (fun r => { r with mainPowerHigh := high }))

/-- PFAILN_FALL: the valve outputs follow from the status (R71, R72, R166). -/
def execPfailnFall (s : State) : Result := .next (s.setPfail false)

/-- PFAILN_RISE (R72, R166). -/
def execPfailnRise (s : State) : Result := .next (s.setPfail true)

end Sys2Proof.Machine
end

