-- ==== Sys2Proof/Machine/Power.lean ====
section
/-! DEFINITION. Retention Control: the loss and return of main power, RESETn, and the start-up sequence
with its cold and warm paths (Chapter 10); and its two requests, RESTART and CLEAR RETAINED. -/

namespace Sys2Proof.Machine

/-! ## The first step -/

/-- Every point controller changes by f, in increasing number. -/
def State.modAllPoints (s : State) (f : PointNo → Point → Point) : State :=
  allPoints.foldl (fun t p => t.modPoint p (f p)) s

/-- The link's volatile state at the first step. A read cut off in a clock stretch clocks 0xFF for the
rest, and a general-call write in progress is abandoned (R163, R169). The bus address, volatile too, has no
value in R169; it stays as it was until the final step samples the straps: DESIGN CHOICE
(notes/assumptions/30.md). -/
def Link.firstStep (l : Link) : Link :=
  { l with
    requestSlot := []
    replySlot := .empty
    priorReplyLost := false
    generalCallBuffer := []
    generalCall := none
    flags := PartFlags.clear
    stretch := none
    bus := match l.stretch with
      | some n => .sent (List.replicate n Config.idleByte)
      | none => l.bus }

/-- The decimal unit's volatile state at the first step; a posting that was TAKEN is WAITING at its old
place (R131, R169). -/
def Dcu.firstStep (d : Dcu) : Dcu :=
  { d with
    unit := .free
    postings := d.postings.map (fun q => { q with taken := false })
    job := none
    context := none
    held := []
    holdTimer := none }

/-- A point's volatile state at the first step: every timer stopped, every event flag clear (R169). Its
recognized handle level and its last phase state (R47), volatile too, have no value in R169; they stay as
they were until the final step takes the levels: DESIGN CHOICE (notes/assumptions/30.md). -/
def Point.firstStep (x : Point) : Point :=
  { x with timers := Timers.stopped, flags := PointFlags.clear }

/-- The first step of every start-up sequence (R169), which is also what a loss of main power leaves (R167;
notes/assumptions/14.md). The volatile items that R169 gives no value, the bus address, the main-power
status, the recognized handle levels and the last phase states, stay as they were until the final step:
DESIGN CHOICE (notes/assumptions/30.md). -/
def State.firstStep (s : State) : State :=
  ((((s.modLink Link.firstStep).modDcu Dcu.firstStep).modRcu (fun r => { r with running := false })).modAllPoints
    (fun _ => Point.firstStep))

/-! ## The cold path -/

/-- RCU marks the check word (R170, R175). -/
def State.setCheck (s : State) (good : Bool) : State := s.modRcu (fun r => { r with checkGood := good })

/-- Every block's retained state takes its cold default, and the retain-lost mark is as given (R170,
Table 10-2). A start interrupted among these leaves the defaults written in part (R173). One switch a
block, in the order of Table 10-1, with each point's input in its point's switch: DESIGN CHOICE
(notes/assumptions/28.md). -/
def coldWrites (mark : Bool) : List (State → State) :=
  (fun s : State => s.modLink (fun l => { l with generalCallEnable := false })) ::
  allPoints.map (fun p s => s.setPoint p Point.cold) ++
  [fun s => { s with products := Vector.replicate 6 none },
   fun s => s.modTally (fun _ => Tally.cold),
   fun s => s.modDcu (fun _ => Dcu.cold),
   fun s => s.modSales (fun _ => SaleQueue.cold),
   fun s => s.modRcu (fun r => { r with retainLostMark := mark })]

/-- The cold path of a start that found a bad check word (R170). -/
def coldPath : List (State → State) :=
  (fun s : State => s.setCheck false) :: coldWrites true ++ [fun s => s.setCheck true]

/-- The cold path of CLEAR RETAINED. The check word is already bad (R175), and the retain-lost mark is left
clear, so that RETAIN-LOST is not set: R175 and Table 10-2 say so, though R156 has the host learn of a
CLEAR RETAINED from RETAIN-LOST too. DEDUCED (notes/assumptions/32.md). -/
def clearPath : List (State → State) := coldWrites false ++ [fun s => s.setCheck true]

/-! ## The warm path -/

/-- Warm step 1: a BEGUN journal is completed (R171), whole in one switch: DESIGN CHOICE
(notes/assumptions/34.md). -/
def State.warmJournal (s : State) : State :=
  match s.dcu.journal with
  | some r => s.completeCommit r
  | none => s

/-- A point settled at the start records POWER, with FLOW-AFTER-STOP clear (R26, R171). -/
def Point.powerEnd (x : Point) : Point :=
  { x with
    endReason := some .power
    saleFlags := { x.saleFlags with flowAfterStop := false } }

/-- Warm step 2 at one point (R26, R171). -/
def State.warmPoint (p : PointNo) (s : State) : State :=
  match (s.point p).st with
  | .calling => s.modPoint p (fun x => { x with st := .idle })
  | .authorized => s.modPoint p Point.lapse
  | .delivering | .paused | .stopping =>
    (s.modPoint p (fun x => x.powerEnd.enterSettling p)).submit p
  | _ => s

/-- Warm step 3 at one product: a staged price activates, since no delivering set holds a point (R61,
R171). -/
def State.warmPrice (k : ProductNo) (s : State) : State := s.reportLeft k

/-- The warm path (R171). Step 1 is one switch, as R171 calls it, so that an interruption leaves all of the
completion or none; R173 would let one fall among its writes: DESIGN CHOICE (notes/assumptions/34.md). Step
2 is one switch a point, as R173 has it. Step 3 is one switch a product, so that the next start makes the
activations not yet made (R173); R171 would allow one switch for them all: DESIGN CHOICE
(notes/assumptions/29.md). -/
def warmPath : List (State → State) :=
  State.warmJournal :: allPoints.map State.warmPoint ++ allProducts.map State.warmPrice

/-! ## The final step and the whole sequence -/

/-- Each MTIp of a defined point samples its pins, and each PTC takes its handle level (R172). -/
def Point.sample (x : Point) (pair : PhasePair) (up : Bool) : Point :=
  { x with
    handleUp := up
    meter := { x.meter with lastPhase := if x.st = .undefined then none else some pair } }

/-- The bus address of the straps (R145). -/
def busAddressOf (straps : BitVec 2) : BitVec 7 := Config.busBase + straps.setWidth 7

/-- The final step of every start: straps, PFAILn and pins sampled, RETAIN-LOST from its mark, RESTARTED,
RUNNING; then the decimal unit chooses (R172). -/
def State.finalStep (s : State) : State :=
  (((s.modAllPoints (fun p x => x.sample (s.pinPair p) s.pins.hs[p])).modLink (fun l =>
    { l with
      busAddress := busAddressOf s.pins.straps
      flags := { l.flags with
        retainLost := l.flags.retainLost || s.rcu.retainLostMark
        restarted := true } })).modRcu (fun r =>
    { r with running := true, retainLostMark := false, mainPowerHigh := s.pins.pfailn })).choose

/-- The sequence from its second step on a path, to RUNNING, or to the switch at which it is interrupted
(R170, R173). -/
def State.runPath (s : State) (path : List (State → State)) (upTo : Option Nat) : State :=
  match upTo with
  | none => (runSteps path s).finalStep
  | some n => runSteps (path.take n) s

/-- The second step tests the check word and takes the warm or the cold path (R170). -/
def State.testAndRun (s : State) (upTo : Option Nat) : State :=
  s.runPath (if s.rcu.checkGood then warmPath else coldPath) upTo

/-- The straps stand at these levels when the start samples them (R145). -/
def State.setStraps (s : State) (straps : BitVec 2) : State := s.modPins (fun n => { n with straps := straps })

/-! ## Power and RESETn -/

/-- MAIN_POWER_LOSS: the work in hand ends, volatile state is lost, retained memory stays (R167). -/
def execMainPowerLoss (cut : CommitCut) (s : State) : Result :=
  .next (if s.pins.vdd then
    ((if s.operating then s.cutCommit cut else s).firstStep).modPins (fun n => { n with vdd := false })
  else s)

/-- MAIN_POWER_RETURN: a start begins; with retained memory lost the check word is bad, and with RESETn
low the start stays at its first step (R165, R168, R169). -/
def execMainPowerReturn (held : Bool) (env : StartEnv) (s : State) : Result :=
  .next (if s.pins.vdd then s
  else
    let t := (((s.modPins (fun n => { n with vdd := true })).setStraps env.straps).modRcu (fun r =>
      { r with checkGood := r.checkGood && held })).firstStep
    if s.pins.resetn then t.testAndRun env.upTo else t)

/-- RESETN_ASSERTED: a start begins and stays at its first step; unpowered, only the pin changes (R168). -/
def execResetnAsserted (cut : CommitCut) (s : State) : Result :=
  .next (if s.pins.resetn then
    let t := s.modPins (fun n => { n with resetn := false })
    if s.pins.vdd then (if s.operating then t.cutCommit cut else t).firstStep else t
  else s)

/-- RESETN_RELEASED: the sequence continues from its second step (R168). -/
def execResetnReleased (env : StartEnv) (s : State) : Result :=
  .next (if s.pins.resetn then s
  else
    let t := (s.modPins (fun n => { n with resetn := true })).setStraps env.straps
    if s.pins.vdd then t.testAndRun env.upTo else t)

/-! ## RESTART and CLEAR RETAINED -/

/-- RESTART (R174). -/
def restartRequest (cut : CommitCut) (env : StartEnv) (s : State) : State :=
  if allPoints.any (fun p => (s.point p).st.counting) then s.refuse .wrongState Kind.restart
  else ((s.cutCommit cut).setStraps env.straps).firstStep.testAndRun env.upTo

/-- CLEAR RETAINED (R175). -/
def clearRetainedRequest (env : StartEnv) (s : State) : State :=
  if allPoints.all (fun p => decide ((s.point p).st = .undefined)) then
    (((s.setStraps env.straps).firstStep).setCheck false).runPath clearPath env.upTo
  else s.refuse .wrongState Kind.clearRetained

/-- RESTART. -/
def execRestart (payload : List Byte) (cut : CommitCut) (env : StartEnv) (s : State) : Result :=
  request Kind.restart payload parseNone (fun _ => restartRequest cut env) s

/-- CLEAR_RETAINED. -/
def execClearRetained (payload : List Byte) (env : StartEnv) (s : State) : Result :=
  request Kind.clearRetained payload parseNone (fun _ => clearRetainedRequest env) s

end Sys2Proof.Machine
end

