-- ==== Sys2Proof/Machine/Wire.lean ====
section
/-! DEFINITION. The host link (Chapter 9): its own requests STATUS and GET EVENTS, the general call, the
writes whose frame fails, the read transaction and the clock stretch. -/

namespace Sys2Proof.Machine

/-! ## STATUS and GET EVENTS -/

/-- STATUS: one instant of the whole part (R161). -/
def statusRequest (s : State) : State := s.ok Kind.status (statusBytes s)

/-- Every event flag of the part is cleared, with the product set (R159). -/
def State.clearEvents (s : State) : State :=
  (s.modAllPoints (fun _ x => { x with flags := PointFlags.clear })).modLink (fun l =>
    { l with flags := PartFlags.clear })

/-- GET EVENTS: the flags that are set are returned and cleared in one event (R159). -/
def getEventsRequest (s : State) : State := s.clearEvents.ok Kind.getEvents (eventBytes s)

/-- STATUS. -/
def execStatus (payload : List Byte) (s : State) : Result :=
  request Kind.status payload parseNone (fun _ => statusRequest) s

/-- GET_EVENTS. -/
def execGetEvents (payload : List Byte) (s : State) : Result :=
  request Kind.getEvents payload parseNone (fun _ => getEventsRequest) s

/-! ## The general call -/

/-- A general-call buffer holds a valid STOP ALL: its code, a payload length of 0, a check byte that makes
the sum zero, and nothing more (R157). -/
def isBroadcastStop (bytes : List Byte) : Bool :=
  match bytes with
  | [kind, len, check] =>
    decide (kind = Kind.stopAll) && decide (len = 0) && decide (byteSum [kind, len, check] = 0)
  | _ => false

/-- The host ends the general-call write in progress, if one is: a valid STOP ALL in the buffer acts on
every point, and any other write is ignored. Neither slot changes (R157). -/
def State.endGeneralCall (s : State) : State :=
  match s.link.generalCall with
  | some n =>
    let t := s.modLink (fun l => { l with generalCall := none, generalCallBuffer := [] })
    if n = Config.generalCallBytes ∧ isBroadcastStop s.link.generalCallBuffer then t.stopEveryPoint else t
  | none => s

/-- The general-call address is received: acknowledged while the general-call enable is set, which is
tested here and not again (R146). A write still in progress ends first, by the repeated start. -/
def State.admitGeneralCall (s : State) : State :=
  if s.link.generalCallEnable then
    s.modLink (fun l => { l with generalCall := some 0, generalCallBuffer := [], bus := .wrote 0 })
  else s.setBus .notAcknowledged

/-- A data byte of the general-call write in progress: the first three are kept and acknowledged (R157). A
byte of a write whose address was not acknowledged is not taken. -/
def State.takeGeneralCall (byte : Byte) (s : State) : State :=
  match s.link.generalCall with
  | some n => s.modLink (fun l => { l with
      generalCall := some (n + 1)
      generalCallBuffer := if n < Config.generalCallBytes then l.generalCallBuffer ++ [byte]
        else l.generalCallBuffer
      bus := .wrote (min (n + 1) Config.generalCallBytes) })
  | none => s

/-- One event of a write to the general-call address: the enable is tested at the address, and the write is
carried to its end under the enable that admitted it (R146, R157). A part that does not operate
acknowledges no address (R146) and holds no write in progress (R163). -/
def State.onGeneralCall (event : GeneralCall) (s : State) : State :=
  match event with
  | .address => if s.operating then s.endGeneralCall.admitGeneralCall else s.setBus .notAcknowledged
  | .data byte => s.whenOperating (State.takeGeneralCall byte)
  | .ending => s.whenOperating State.endGeneralCall

/-- A whole write to the general-call address, from its address to its end (R157). -/
def State.generalCallWrite (bytes : List Byte) (s : State) : State :=
  (GeneralCall.address :: bytes.map GeneralCall.data ++ [GeneralCall.ending]).foldl
    (fun t event => t.onGeneralCall event) s

/-- GENERAL_CALL_STOP_ALL, event by event (notes/assumptions/27.md). -/
def execGeneralCallStopAll (event : GeneralCall) (s : State) : Result := .next (s.onGeneralCall event)

/-! ## Writes -/

/-- A frame that passed R150 goes the way of its kind. A RESTART or CLEAR RETAINED that arrives so finds
no commit cut, the straps as they stand and a start that runs to its end. -/
def execByKind (kind : Byte) (payload : List Byte) (s : State) : Result :=
  let env : StartEnv := ⟨s.pins.straps, none⟩
  if kind = Kind.status then execStatus payload s
  else if kind = Kind.getEvents then execGetEvents payload s
  else if kind = Kind.restart then execRestart payload none env s
  else if kind = Kind.clearRetained then execClearRetained payload env s
  else if kind = Kind.definePoint then execDefinePoint payload s
  else if kind = Kind.modifyPoint then execModifyPoint payload s
  else if kind = Kind.releasePoint then execReleasePoint payload s
  else if kind = Kind.authorize then execAuthorize payload s
  else if kind = Kind.cancel then execCancel payload s
  else if kind = Kind.pause then execPause payload s
  else if kind = Kind.resume then execResume payload s
  else if kind = Kind.stop then execStop payload s
  else if kind = Kind.stopAll then execStopAll payload s
  else if kind = Kind.readPoint then execReadPoint payload s
  else if kind = Kind.clearFault then execClearFault payload s
  else if kind = Kind.clearCreep then execClearCreep payload s
  else if kind = Kind.setProduct then execSetProduct payload s
  else if kind = Kind.setPrice then execSetPrice payload s
  else if kind = Kind.collectSale then execCollectSale payload s
  else if kind = Kind.clearSale then execClearSale payload s
  else if kind = Kind.setSite then execSetSite payload s
  else if kind = Kind.declare then execDeclare payload s
  else if kind = Kind.load then execLoad payload s
  else if kind = Kind.move then execMove payload s
  else if kind = Kind.add then execAdd payload s
  else if kind = Kind.subtract then execSubtract payload s
  else if kind = Kind.multiply then execMultiply payload s
  else if kind = Kind.divide then execDivide payload s
  else if kind = Kind.rescale then execRescale payload s
  else if kind = Kind.compare then execCompare payload s
  else if kind = Kind.sumList then execSumList payload s
  else if kind = Kind.readRegister then execReadRegister payload s
  else if kind = Kind.hold then execHold payload s
  else execReleaseHold payload s

/-- A write to the own address ends with these bytes. With no data byte it is ignored (R148). A frame that
fails R150 is answered with the status of the failed check and the first byte as the kind echo, and
reaches no owner. A frame that passes R150 is its kind's own request. -/
def takeOwnWrite (bytes : List Byte) (s : State) : Result :=
  if s.acceptsWrite then
    match bytes with
    | [] => .next (s.setBus (.wrote 0))
    | kind :: _ =>
      match frameCheck (bytes.take Config.requestSlotBytes) with
      | .frameError => .next ((s.takeWrite bytes).refuse .frameError kind)
      | .unknownKind => .next ((s.takeWrite bytes).refuse .unknownKind kind)
      | .request k payload => execByKind k payload s
  else .next (s.setBus .notAcknowledged)

/-- FRAME_ERROR: a write transaction. The part takes one to its own address, and one to the
general-call address by R157; it leaves every other address unacknowledged (R145, R146). -/
def execFrameError (write : BusWrite) (s : State) : Result :=
  if write.address = s.link.busAddress then takeOwnWrite write.bytes s
  else .next (if write.address = Config.generalCallAddress then s.generalCallWrite write.bytes
    else s.setBus .notAcknowledged)

/-! ## Reads -/

/-- READ_TRANSACTION: a READY reply is sent (R152), a PENDING slot stretches the clock (R153), an EMPTY
slot sends NO-REPLY (R154). A part that does not operate acknowledges no read, and an operating one no read
but from its own address, the general-call address among the others (R145, R146). -/
def execReadTransaction (read : BusRead) (s : State) : Result :=
  .next (if s.operating && decide (read.address = s.link.busAddress) then
    match s.link.replySlot with
    | .ready _ _ => s.sendReply read.count
    | .pending => s.modLink (fun l => { l with stretch := some read.count, bus := .stretching })
    | .empty => s.setBus (.sent (clocked Config.noReplyMarker read.count))
  else s.setBus .notAcknowledged)

/-- CLOCK_STRETCH_END: 5 ms have passed with the slot still PENDING, and the marker is sent (R153). -/
def execClockStretchEnd (s : State) : Result :=
  .next (s.whenOperating (fun t =>
    match t.link.stretch, t.link.replySlot with
    | some n, .pending => t.modLink (fun l => { l with
        stretch := none
        bus := .sent (clocked Config.pendingMarker n) })
    | _, _ => t))

end Sys2Proof.Machine
end

