-- ==== Sys2Proof/Machine/Dispatch.lean ====
section
/-! DEFINITION. One arm per command: the direct call of its meaning. -/

namespace Sys2Proof.Machine

def exec (i : Instr) (s : State) : Host.Outcome State Fault Refusal :=
  match i with
  | .status payload => Sys2Proof.Machine.execStatus payload s
  | .getEvents payload => Sys2Proof.Machine.execGetEvents payload s
  | .restart payload cut env => Sys2Proof.Machine.execRestart payload cut env s
  | .clearRetained payload env => Sys2Proof.Machine.execClearRetained payload env s
  | .definePoint payload => Sys2Proof.Machine.execDefinePoint payload s
  | .modifyPoint payload => Sys2Proof.Machine.execModifyPoint payload s
  | .releasePoint payload => Sys2Proof.Machine.execReleasePoint payload s
  | .authorize payload => Sys2Proof.Machine.execAuthorize payload s
  | .cancel payload => Sys2Proof.Machine.execCancel payload s
  | .pause payload => Sys2Proof.Machine.execPause payload s
  | .resume payload => Sys2Proof.Machine.execResume payload s
  | .stop payload => Sys2Proof.Machine.execStop payload s
  | .stopAll payload => Sys2Proof.Machine.execStopAll payload s
  | .readPoint payload => Sys2Proof.Machine.execReadPoint payload s
  | .clearFault payload => Sys2Proof.Machine.execClearFault payload s
  | .clearCreep payload => Sys2Proof.Machine.execClearCreep payload s
  | .setProduct payload => Sys2Proof.Machine.execSetProduct payload s
  | .setPrice payload => Sys2Proof.Machine.execSetPrice payload s
  | .collectSale payload => Sys2Proof.Machine.execCollectSale payload s
  | .clearSale payload => Sys2Proof.Machine.execClearSale payload s
  | .setSite payload => Sys2Proof.Machine.execSetSite payload s
  | .declare payload => Sys2Proof.Machine.execDeclare payload s
  | .load payload => Sys2Proof.Machine.execLoad payload s
  | .move payload => Sys2Proof.Machine.execMove payload s
  | .add payload => Sys2Proof.Machine.execAdd payload s
  | .subtract payload => Sys2Proof.Machine.execSubtract payload s
  | .multiply payload => Sys2Proof.Machine.execMultiply payload s
  | .divide payload => Sys2Proof.Machine.execDivide payload s
  | .rescale payload => Sys2Proof.Machine.execRescale payload s
  | .compare payload => Sys2Proof.Machine.execCompare payload s
  | .sumList payload => Sys2Proof.Machine.execSumList payload s
  | .readRegister payload => Sys2Proof.Machine.execReadRegister payload s
  | .hold payload => Sys2Proof.Machine.execHold payload s
  | .releaseHold payload => Sys2Proof.Machine.execReleaseHold payload s
  | .frameError write => Sys2Proof.Machine.execFrameError write s
  | .readTransaction read => Sys2Proof.Machine.execReadTransaction read s
  | .clockStretchEnd => Sys2Proof.Machine.execClockStretchEnd s
  | .generalCallStopAll event => Sys2Proof.Machine.execGeneralCallStopAll event s
  | .liftEdge p => Sys2Proof.Machine.execLiftEdge p s
  | .lowerEdge p => Sys2Proof.Machine.execLowerEdge p s
  | .changeOfThePair p a b => Sys2Proof.Machine.execChangeOfThePair p a b s
  | .authorizationTimerExpiry p => Sys2Proof.Machine.execAuthorizationTimerExpiry p s
  | .noFlowTimerExpiry p => Sys2Proof.Machine.execNoFlowTimerExpiry p s
  | .settleTimerExpiry p => Sys2Proof.Machine.execSettleTimerExpiry p s
  | .stopLimitTimerExpiry p => Sys2Proof.Machine.execStopLimitTimerExpiry p s
  | .estopnAsserted => Sys2Proof.Machine.execEstopnAsserted s
  | .estopnReleased => Sys2Proof.Machine.execEstopnReleased s
  | .pfailnFall => Sys2Proof.Machine.execPfailnFall s
  | .pfailnRise => Sys2Proof.Machine.execPfailnRise s
  | .holdTimerExpiry => Sys2Proof.Machine.execHoldTimerExpiry s
  | .postingCommit => Sys2Proof.Machine.execPostingCommit s
  | .suspension => Sys2Proof.Machine.execSuspension s
  | .hostJobCompletion => Sys2Proof.Machine.execHostJobCompletion s
  | .mainPowerLoss cut => Sys2Proof.Machine.execMainPowerLoss cut s
  | .mainPowerReturn retentionHeld env => Sys2Proof.Machine.execMainPowerReturn retentionHeld env s
  | .resetnAsserted cut => Sys2Proof.Machine.execResetnAsserted cut s
  | .resetnReleased env => Sys2Proof.Machine.execResetnReleased env s

end Sys2Proof.Machine
end

