-- ==== Sys2Proof/Machine/Outputs.lean ====
section
/-! DEFINITION. The output pins, which are no state of their own but follow from the state: the valve
outputs (R71, R74) and ATTN (R160). -/

namespace Sys2Proof.Machine

/-- The valve is open: the part operates, the point is DELIVERING and the main-power status is high
(R71, R74, R167, R168). -/
def State.valveOpen (s : State) (p : PointNo) : Bool :=
  s.operating && s.rcu.mainPowerHigh && decide ((s.point p).st = .delivering)

/-- MVp, the main valve stage: on while the valve is open and slow-down is not latched (R71). -/
def State.mv (s : State) (p : PointNo) : Bool := s.valveOpen p && !(s.point p).slowDown

/-- SVp, the slow valve stage (R71). -/
def State.sv (s : State) (p : PointNo) : Bool := s.valveOpen p

/-- Any event flag of the part is set, per point or part-wide (R160). -/
def State.anyFlag (s : State) : Bool :=
  s.link.flags.any || allPoints.any (fun p => (s.point p).flags.any)

/-- ATTN is driven low while any event flag is set; it is not driven while RESETn is low or main power is
off (R160). -/
def State.attnLow (s : State) : Bool := s.pins.vdd && s.pins.resetn && s.anyFlag

/-- SCL is held low by the part while a clock stretch is in progress (R153). -/
def State.sclHeld (s : State) : Bool := s.link.stretch.isSome

end Sys2Proof.Machine
end

