-- ==== Sys2Proof/Safety.lean ====
section
/-! DEFINITION. The words that statements about the machine use: the request rows and the fields they
carry, the link after an answer, what each pulse and start leaves, and the laws that every step keeps. -/

namespace Sys2Proof

/-! ## The request rows -/

/-- The kind code and payload of a request row (Table 0-2, Table 11-5). -/
def Instr.request? : Instr → Option (Byte × List Byte)
  | .status b => some (Kind.status, b)
  | .getEvents b => some (Kind.getEvents, b)
  | .restart b _ _ => some (Kind.restart, b)
  | .clearRetained b _ => some (Kind.clearRetained, b)
  | .definePoint b => some (Kind.definePoint, b)
  | .modifyPoint b => some (Kind.modifyPoint, b)
  | .releasePoint b => some (Kind.releasePoint, b)
  | .authorize b => some (Kind.authorize, b)
  | .cancel b => some (Kind.cancel, b)
  | .pause b => some (Kind.pause, b)
  | .resume b => some (Kind.resume, b)
  | .stop b => some (Kind.stop, b)
  | .stopAll b => some (Kind.stopAll, b)
  | .readPoint b => some (Kind.readPoint, b)
  | .clearFault b => some (Kind.clearFault, b)
  | .clearCreep b => some (Kind.clearCreep, b)
  | .setProduct b => some (Kind.setProduct, b)
  | .setPrice b => some (Kind.setPrice, b)
  | .collectSale b => some (Kind.collectSale, b)
  | .clearSale b => some (Kind.clearSale, b)
  | .setSite b => some (Kind.setSite, b)
  | .declare b => some (Kind.declare, b)
  | .load b => some (Kind.load, b)
  | .move b => some (Kind.move, b)
  | .add b => some (Kind.add, b)
  | .subtract b => some (Kind.subtract, b)
  | .multiply b => some (Kind.multiply, b)
  | .divide b => some (Kind.divide, b)
  | .rescale b => some (Kind.rescale, b)
  | .compare b => some (Kind.compare, b)
  | .sumList b => some (Kind.sumList, b)
  | .readRegister b => some (Kind.readRegister, b)
  | .hold b => some (Kind.hold, b)
  | .releaseHold b => some (Kind.releaseHold, b)
  | _ => none

/-- The request that a decimal-unit row carries, read from its fields (Table 11-5). -/
def Instr.jobReq? : Instr → Option Machine.JobReq
  | .setSite b => Machine.parseSetSite b
  | .declare b => Machine.parseDeclare b
  | .load b => Machine.parseLoad b
  | .move b => Machine.parseMove b
  | .add b => Machine.parseArith .add b
  | .subtract b => Machine.parseArith .subtract b
  | .multiply b => Machine.parseArith .multiply b
  | .divide b => Machine.parseArith .divide b
  | .rescale b => Machine.parseRescale b
  | .compare b => Machine.parseCompare b
  | .sumList b => Machine.parseSumList b
  | .readRegister b => Machine.parseReadRegister b
  | .hold b => Machine.parseHold b
  | .releaseHold b => Machine.parseReleaseHold b
  | _ => none

/-- The fields of a request row pass the link's checks (R151). -/
def Instr.fieldsOk : Instr → Bool
  | .status b | .getEvents b | .restart b _ _ | .clearRetained b _ | .stopAll b =>
    (Machine.parseNone b).isSome
  | .definePoint b => (Machine.parseDefinePoint b).isSome
  | .modifyPoint b => (Machine.parseModifyPoint b).isSome
  | .authorize b => (Machine.parseAuthorize b).isSome
  | .releasePoint b | .cancel b | .pause b | .resume b | .stop b | .readPoint b | .clearFault b
  | .clearCreep b => (Machine.parsePoint b).isSome
  | .setProduct b => (Machine.parseSetProduct b).isSome
  | .setPrice b => (Machine.parseSetPrice b).isSome
  | .collectSale b => (Machine.parseCollectSale b).isSome
  | .clearSale b => (Machine.parseClearSale b).isSome
  | i => i.jobReq?.isSome

/-- The commands that can bring a start to RUNNING: the four that begin one (Section 10.3), and a write
whose bytes are a good frame (notes/assumptions/7.md). -/
def Instr.mayStart : Instr → Bool
  | .restart _ _ _ | .clearRetained _ _ | .mainPowerReturn _ _ | .resetnReleased _ | .frameError _ => true
  | _ => false

end Sys2Proof

namespace Sys2Proof.Machine

/-- The outcome of the commands in turn, each on the state that the one before it goes on to. -/
def execAll : List Instr → State → Result
  | [], s => .next s
  | c :: rest, s =>
    match exec c s with
    | .next t => execAll rest t
    | stopped => stopped

/-! ## The link after an answer -/

/-- A request of n payload bytes is taken now: the write is acknowledged and its frame fits (R146, R150). -/
def State.takes (s : State) (payload : List Byte) : Prop :=
  s.acceptsWrite = true ∧ payload.length ≤ Config.maxRequestPayload

/-- The state with a request of n payload bytes taken and answered: the reply READY at its first byte with
the mark of R149, the request slot free, the frame's n + 3 bytes acknowledged (R147 to R149). -/
def State.answeredTo (s : State) (n : Nat) (status : Status) (kind : Byte) (reply : List Byte) : State :=
  { s with link := { s.link with
      requestSlot := []
      replySlot := .ready ⟨status, s.link.priorReplyLost || s.link.replySlot.isReady, kind, reply⟩ 0
      priorReplyLost := false
      bus := .wrote (n + 3) } }

/-- The state with a request taken and not yet answered: its frame kept, the slot PENDING (R147). -/
def State.awaiting (s : State) (kind : Byte) (payload : List Byte) : State :=
  { s with link := { s.link with
      requestSlot := requestFrame kind payload
      replySlot := .pending
      priorReplyLost := s.link.priorReplyLost || s.link.replySlot.isReady
      bus := .wrote (payload.length + 3) } }

/-- The state at the completion of the host job: the reply READY, the job gone, the unit FREE (R96, R120). -/
def State.completedWith (s : State) (kind : Byte) (reply : List Byte) : State :=
  { s with
    link := { s.link with
      requestSlot := []
      replySlot := .ready ⟨.ok, s.link.priorReplyLost, kind, reply⟩ 0
      priorReplyLost := false }
    dcu := { s.dcu with unit := .free, job := none, context := none } }

/-! ## Points -/

/-- Only the pins and point p may differ. -/
def State.onlyPoint (s t : State) (p : PointNo) : Prop :=
  t = { s with pins := t.pins, points := t.points } ∧ ∀ q, q ≠ p → t.point q = s.point q

/-- The slow-down point is already passed at the delivery start (R13, R67). -/
def startsSlow (a : AuthRecord) (d : PointDef) : Bool :=
  match a.preset with
  | some q => decide (q.target ≤ d.margin)
  | none => false

/-- The point after the delivery start (R13, R34, R67). -/
def Point.started (x : Point) (a : AuthRecord) (d : PointDef) : Point :=
  { x with
    st := .delivering
    auth := some a
    liveVolume := 0
    liveMoney := 0
    slowDown := startsSlow a d
    endReason := none
    faults := ⟨false, false, false⟩
    saleFlags := ⟨false, false, false⟩
    timers := { x.timers with
      authorization := none
      noFlow := if d.noFlow = 0 then none else some d.noFlow }
    flags := { x.flags with started := true, slowdown := x.flags.slowdown || startsSlow a d }
    meter := { x.meter with net := 0, reverse := 0, phaseErrors := 0 } }

/-- The point after STOP ALL or the assertion of ESTOPn (R23). -/
def Point.stoppedBy (x : Point) : Point :=
  match x.st with
  | .delivering | .paused => x.enterStopping .emergency
  | .authorized =>
    { x with
      st := .idle
      auth := none
      timers := { x.timers with authorization := none }
      flags := { x.flags with lapsed := true } }
  | _ => x

/-- Product k loses its last delivering point when every point is stopped: some point is AUTHORIZED for it
and none delivers it (R23, R49). -/
def State.stopFrees (s : State) (k : ProductNo) : Bool :=
  allPoints.any (fun p => decide ((s.point p).st = .authorized ∧ (s.point p).delivers = some k)) &&
  allPoints.all (fun p => decide ((s.point p).st = .authorized ∨ (s.point p).delivers ≠ some k))

/-- A product record with its staged price, if it holds one, made current (R55). -/
def Product.withStaged (r : Product) : Product :=
  match r.staged with
  | some price => { r with current := price, staged := none }
  | none => r

/-- A staged price waits at product k. -/
def State.isStaged (s : State) (k : ProductNo) : Bool :=
  match s.product k with
  | some r => r.staged.isSome
  | none => false

/-- In t the staged prices of just the products that `frees` picks have activated (R55, R56). -/
structure Activated (frees : ProductNo → Bool) (s t : State) : Prop where
  products : ∀ k, t.product k = if frees k then (s.product k).map Product.withStaged else s.product k
  flag : t.link.flags.priceActive =
    (s.link.flags.priceActive || allProducts.any (fun k => frees k && s.isStaged k))
  set : ∀ k : ProductNo, t.link.flags.activated.getLsbD k.val =
    (s.link.flags.activated.getLsbD k.val || (frees k && s.isStaged k))

/-- Every point of t is as the table of R23 leaves it, the staged prices this frees are active, and
nothing else differs, but what the caller says of the link. -/
structure StoppedAll (s t : State) : Prop where
  points : ∀ p, t.point p = (s.point p).stoppedBy
  prices : Activated s.stopFrees s t
  rest : t = { s with link := t.link, points := t.points, products := t.products }

/-- Money for a volume of product r at the site's scales (R59). -/
def State.moneyOf (s : State) (r : Product) (volume : Nat) : Nat :=
  liveMoneyOf volume r.current s.tally.vs r.priceScale s.tally.ms r.rounding

/-- The preset that an accepted AUTHORIZE stores (R9 check 7, R64, R65). -/
def State.presetStored (s : State) (r : Product) : Option PresetReq → Option Preset → Prop
  | none, stored => stored = none
  | some q, stored =>
    q.amount ≠ 0 ∧
    match q.kind with
    | .volume => q.scale = s.tally.vs ∧ stored = some ⟨.volume, q.amount, q.amount⟩
    | .money => q.scale = s.tally.ms ∧ r.current ≠ 0 ∧ ∃ target, target < Config.liveLimit ∧
        q.amount ≤ s.moneyOf r target ∧ (∀ v, v < target → s.moneyOf r v < q.amount) ∧
        stored = some ⟨.money, q.amount, target⟩

/-- AUTHORIZE q passes the seven checks of R9 and gives the record a (R9, R10). -/
structure AuthorizePasses (s : State) (q : AuthorizeReq) (a : AuthRecord) : Prop where
  state : (s.point q.p).st = .idle ∨ (s.point q.p).st = .calling
  estopHigh : s.pins.estopn = true
  powerHigh : s.rcu.mainPowerHigh = true
  allowed : (s.point q.p).allows q.product = true
  unstaged : s.isStaged q.product = false
  room : s.salesOf q.p < 2
  record : ∃ r, s.product q.product = some r ∧ s.presetStored r q.preset a.preset ∧
    a = ⟨q.product, r.current, r.priceScale, a.preset, q.tag⟩

/-! ## Meter changes -/

/-- The levels of PAp and PBp have become these. -/
def State.pinsAt (s : State) (p : PointNo) (a b : Bool) : State :=
  { s with pins := { s.pins with pa := s.pins.pa.set p a, pb := s.pins.pb.set p b } }

/-- The point with a new last phase state (R27). -/
def Point.sawPair (x : Point) (pair : PhasePair) : Point :=
  { x with meter := { x.meter with lastPhase := some pair } }

/-- The pins of a watched point, defined as d, leave the last phase state, and the pulse mode makes this
change of it (R27 to R33). -/
structure ChangeTaken (s : State) (p : PointNo) (a b : Bool) (d : PointDef) (change : Change) : Prop where
  operating : s.operating = true
  defined : (s.point p).defn = some d
  decoded : ∃ old, (s.point p).meter.lastPhase = some old ∧ (⟨a, b⟩ : PhasePair) ≠ old ∧
    decodeChange d.mode old ⟨a, b⟩ = change

/-- A point holds authorization a for an ACTIVE product with record r, and a delivery is in progress. -/
structure Delivering (s : State) (p : PointNo) (a : AuthRecord) (r : Product) : Prop where
  state : (s.point p).st = .delivering ∨ (s.point p).st = .paused ∨ (s.point p).st = .stopping
  auth : (s.point p).auth = some a
  product : s.product a.product = some r

/-- The money of a delivery at the latched price (R59). -/
def State.chargeOf (s : State) (a : AuthRecord) (r : Product) (volume : Nat) : Nat :=
  liveMoneyOf volume a.price s.tally.vs a.priceScale s.tally.ms r.rounding

/-- The point with a net count and the live values that it gives, OVERRUN following them (R42, R59, R69). -/
def Point.countedTo (x : Point) (a : AuthRecord) (d : PointDef) (net volume money : Nat) : Point :=
  { x with
    liveVolume := volume
    liveMoney := money
    saleFlags := { x.saleFlags with overrun := match a.preset with
      | some q => decide (q.target + d.tolerance < volume)
      | none => x.saleFlags.overrun }
    meter := { x.meter with net := net } }

/-- The settle timer restarts in STOPPING alone (R19). -/
def Point.settleAgain (x : Point) (d : PointDef) : Point :=
  if x.st = .stopping then { x with timers := { x.timers with settle := some d.settleTime } } else x

/-- The no-flow timer restarts in DELIVERING alone (R15). -/
def Point.noFlowAgain (x : Point) (d : PointDef) : Point :=
  if x.st = .delivering then
    { x with timers := { x.timers with noFlow := if d.noFlow = 0 then none else some d.noFlow } }
  else x

/-! ## Values and results of the decimal unit -/

/-- The number that an exact result stands for. -/
def Exact.rat (x : Exact) : ℚ := x.value / 10 ^ x.scale

/-- The number that a register holds. -/
def TallyReg.rat (x : TallyReg) : ℚ := x.value / 10 ^ x.scale

/-- What a request that stores an exact result stores: its kind, its destination, the exact result from
the registers as f gives them, and the rounding digit it carries (R83, R84, R97 to R99, R104, R107). -/
def JobReq.exact? (f : RegNo → TallyReg) : JobReq → Option (Byte × RegNo × Exact × Option Nat)
  | .load d value scale rounding => some (Kind.load, d, ⟨value, scale⟩, rounding)
  | .move d src rounding => some (Kind.move, d, ⟨(f src).value, (f src).scale⟩, rounding)
  | .add d s1 s2 rounding => some (Kind.add, d, exactAdd (f s1) (f s2), rounding)
  | .subtract d s1 s2 rounding => some (Kind.subtract, d, exactSubtract (f s1) (f s2), rounding)
  | .multiply d s1 s2 rounding => some (Kind.multiply, d, exactMultiply (f s1) (f s2), rounding)
  | .rescale d src k rounding => some (Kind.rescale, d, exactRescale (f src) k, rounding)
  | .sumList d sources rounding => some (Kind.sumList, d, exactSum (sources.map f), rounding)
  | _ => none

/-- The unit is working on this host job, whose operand values are those its registers hold (R93). -/
structure Working (s : State) (j : HostJob) : Prop where
  operating : s.operating = true
  unit : s.dcu.unit = .host
  job : s.dcu.job = some j
  active : j.phase = .active
  operands : j.operandSet = j.req.operands
  values : j.values = j.operandSet.map (fun r => ⟨r, s.reg r⟩)

/-- The unit's own checks pass (R80, R86, R87, R92). -/
def JobReq.admitted (s : State) : JobReq → Prop
  | .setSite (some _) _ => (∀ p, (s.point p).st = .undefined) ∧
      (∀ r : RegNo, r.val < 20 → (s.reg r).value = 0) ∧ s.sales.records = []
  | .declare r digits scale _ => 20 ≤ r.val ∧ scale ≤ digits ∧ r ∉ s.dcu.held
  | req => ∀ d, req.destination = some d → 8 ≤ d.val

/-! ## Starts -/

/-- A point as the final step of a start leaves it (R172). -/
def Point.atRunning (x : Point) (pair : PhasePair) (up : Bool) : Point :=
  { x with
    handleUp := up
    meter := { x.meter with lastPhase := if x.st = .undefined then none else some pair } }

/-- A point as the warm path leaves it (R26, R132, R171). -/
def Point.warmed (x : Point) (p : PointNo) : Point :=
  match x.st with
  | .calling => { x with st := .idle }
  | .authorized =>
    { x with
      st := .idle
      auth := none
      timers := { x.timers with authorization := none }
      flags := { x.flags with lapsed := true } }
  | .delivering | .paused | .stopping =>
    { x with
      st := .settling
      endReason := some .power
      saleFlags := { x.saleFlags with flowAfterStop := false }
      timers := { x.timers with settle := none, stopLimit := none }
      frozen := x.auth.map (fun a =>
        ⟨p, a, x.liveVolume, x.liveMoney, .power, x.faults, { x.saleFlags with flowAfterStop := false }⟩) }
  | _ => x

/-- The posting that a point settled at a start submits (R133, R171). -/
def Point.powerPosting (x : Point) (p : PointNo) : Option Posting :=
  if x.st.counting then x.auth.map (fun a => ⟨p, a.product, x.liveVolume, x.liveMoney, false⟩) else none

/-- A start that took the warm path on an EMPTY journal, from s with its volatile state already at its
first values, has come to RUNNING in t; the decimal unit has chosen (R171, R172). -/
structure WarmStarted (s t : State) : Prop where
  points : ∀ p, t.point p = ((s.point p).warmed p).atRunning ⟨s.pins.pa[p], s.pins.pb[p]⟩ s.pins.hs[p]
  prices : ∀ k, t.product k = (s.product k).map Product.withStaged
  postings : (t.dcu.postings.map (fun q => { q with taken := false })) =
    s.dcu.postings ++ allPoints.filterMap (fun p => (s.point p).powerPosting p)
  taken : ∀ i q, t.dcu.postings[i]? = some q → q.taken = decide (i = 0)
  unit : t.dcu.unit = if t.dcu.postings = [] then .free else .posting
  dcu : t.dcu = { s.dcu with unit := t.dcu.unit, postings := t.dcu.postings }
  rcu : t.rcu = ⟨true, s.rcu.checkGood, false, s.pins.pfailn⟩
  address : t.link.busAddress = 0x2C + s.pins.straps.setWidth 7
  flags : t.link.flags =
    { s.link.flags with
      restarted := true
      retainLost := s.link.flags.retainLost || s.rcu.retainLostMark
      priceActive := s.link.flags.priceActive || allProducts.any s.isStaged
      activated := t.link.flags.activated }
  activated : ∀ k : ProductNo, t.link.flags.activated.getLsbD k.val =
    (s.link.flags.activated.getLsbD k.val || s.isStaged k)
  rest : t = { s with
    points := t.points, products := t.products, dcu := t.dcu, rcu := t.rcu
    link := { s.link with busAddress := t.link.busAddress, flags := t.link.flags } }

/-- The part after a cold start from s at its first step, with RETAIN-LOST as the path gives it (R170,
R172, R175, Table 10-2). -/
def State.coldStarted (s : State) (retainLost : Bool) : State :=
  { s with
    link := { s.link with
      busAddress := 0x2C + s.pins.straps.setWidth 7
      generalCallEnable := false
      flags := { s.link.flags with restarted := true, retainLost := retainLost } }
    rcu := ⟨true, true, false, s.pins.pfailn⟩
    points := Vector.ofFn (fun p => { Point.cold with handleUp := s.pins.hs[p] })
    products := Vector.replicate 6 none
    tally := Tally.cold
    dcu := Dcu.cold
    sales := SaleQueue.cold }

/-- The retained state of a point (Table 10-1): what is left when the volatile items are set aside. -/
def Point.retained (x : Point) : Point :=
  { x with
    handleUp := false
    timers := Timers.stopped
    flags := PointFlags.clear
    meter := { x.meter with lastPhase := none } }

/-- The same retained state (Table 10-1), the check word and the retain-lost mark apart. -/
structure SameRetained (s t : State) : Prop where
  points : ∀ p, (s.point p).retained = (t.point p).retained
  products : s.products = t.products
  tally : s.tally = t.tally
  postings : s.dcu.postings.map (fun q => { q with taken := false }) =
    t.dcu.postings.map (fun q => { q with taken := false })
  journal : s.dcu.journal = t.dcu.journal
  sales : s.sales = t.sales
  generalCall : s.link.generalCallEnable = t.link.generalCallEnable

/-! ## The laws that every step keeps -/

/-- RCU is RUNNING only while main power is on and RESETn is high (R167, R168). -/
def RunsPowered (s : State) : Prop :=
  s.rcu.running = true → s.pins.vdd = true ∧ s.pins.resetn = true

/-- The reply slot is PENDING exactly while a host job exists (R147). -/
def PendingExactlyWithJob (s : State) : Prop := s.link.replySlot = .pending ↔ s.dcu.job.isSome = true

/-- What a host job's request carries lies in the ranges that its acceptance checked. -/
def JobReq.inRange : JobReq → Prop
  | .setSite (some (vs, ms)) _ => vs ≤ 3 ∧ ms ≤ 3
  | .declare r digits scale rounding =>
    20 ≤ r.val ∧ 1 ≤ digits ∧ digits ≤ 20 ∧ scale ≤ 6 ∧ scale ≤ digits ∧ rounding ≤ 9
  | req => ∀ d, req.destination = some d → 8 ≤ d.val

/-- Register r holds a value at its format, the format of its class (R75 to R78). -/
structure RegisterLaw (vs ms : Nat) (r : RegNo) (x : TallyReg) : Prop where
  digits : 1 ≤ x.digits ∧ x.digits ≤ 20
  scale : x.scale ≤ 6 ∧ x.scale ≤ x.digits
  rounding : x.rounding ≤ 9
  fits : x.value.natAbs < 10 ^ x.digits
  accounting : r.val < 20 →
    x.digits = 16 ∧ x.rounding = 5 ∧ x.scale = if r.val % 2 = 0 then vs else ms
  total : r.val < 8 → 0 ≤ x.value

/-- The law of the tally store (R76, R77), with what a later event needs for it. -/
structure TallyLaw (s : State) : Prop where
  scales : s.tally.vs ≤ 3 ∧ s.tally.ms ≤ 3
  registers : ∀ r, RegisterLaw s.tally.vs s.tally.ms r (s.reg r)
  job : ∀ j, s.dcu.job = some j → j.req.inRange
  journal : ∀ c, s.dcu.journal = some c → ∀ w, w ∈ c.writes →
    w.reg.val < 20 ∧ w.value.natAbs < 10 ^ 16 ∧ (w.reg.val < 8 → 0 ≤ w.value)

/-- The states in which a point holds an authorization record (R8). -/
def PtState.holdsAuth : PtState → Bool
  | .authorized | .delivering | .paused | .stopping | .settling => true
  | _ => false

/-- The law of a point (R8, R11, R15, R19, R36, R37, R39, R132). -/
structure PointLaw (p : PointNo) (x : Point) : Prop where
  defined : x.defn.isSome = true ↔ x.st ≠ .undefined
  auth : x.auth.isSome = true ↔ x.st.holdsAuth = true
  frozen : x.frozen.isSome = true ↔ x.st = .settling
  frozenPoint : ∀ f, x.frozen = some f → f.point = p
  reason : (x.st = .stopping ∨ x.st = .settling) → x.endReason.isSome = true
  authTimer : x.timers.authorization.isSome = true → x.st = .authorized
  noFlowTimer : x.timers.noFlow.isSome = true → x.st = .delivering
  settleTimer : x.timers.settle.isSome = true → x.st = .stopping
  stopLimitTimer : x.timers.stopLimit.isSome = true → x.st = .stopping
  counts : x.meter.reverse ≤ 65535 ∧ x.meter.phaseErrors ≤ 255 ∧ x.meter.creep ≤ 65535

/-- The timers that a point's state starts are running (R10, R13, R16, R18). -/
structure TimersRun (x : Point) : Prop where
  authorization : x.st = .authorized → ∀ d, x.defn = some d → d.authTimeout ≠ 0 →
    x.timers.authorization.isSome = true
  noFlow : x.st = .delivering → ∀ d, x.defn = some d → d.noFlow ≠ 0 → x.timers.noFlow.isSome = true
  settle : x.st = .stopping → x.timers.settle.isSome = true
  stopLimit : x.st = .stopping → x.timers.stopLimit.isSome = true

/-- The law of the four points: while the part is RUNNING the timers of each point's state run, and while
it is not every timer is stopped (R169). -/
structure PointsLaw (s : State) : Prop where
  powered : RunsPowered s
  points : ∀ p, PointLaw p (s.point p)
  timers : s.rcu.running = true → ∀ p, TimersRun (s.point p)
  stopped : s.rcu.running = false → ∀ p, (s.point p).timers = Timers.stopped

/-- A commit of point p stands in the journal (R124). -/
def State.journaled (s : State) (p : PointNo) : Prop := ∃ c, s.dcu.journal = some c ∧ c.point = p

/-- The law of the posting queue (R116, R133): at most one posting per point, one exactly while the point
is in SETTLING, each a copy of its point's frozen sale. What one block holds agrees with what another holds
while the check word is good, which it is in a RUNNING part (R165); a cold path that is writing its
defaults block by block has marked it bad (R170, R173). -/
structure PostingLaw (s : State) : Prop where
  points : PointsLaw s
  trusted : s.rcu.running = true → s.rcu.checkGood = true
  journal : s.rcu.running = true → s.dcu.journal = none
  once : (s.dcu.postings.map (·.point)).Nodup
  settling : s.rcu.checkGood = true → ∀ p, ¬ s.journaled p →
    ((∃ q, q ∈ s.dcu.postings ∧ q.point = p) ↔ (s.point p).st = .settling)
  copies : ∀ q, q ∈ s.dcu.postings → ∀ f, (s.point q.point).frozen = some f →
    q.product = f.auth.product ∧ q.volume = f.volume ∧ q.money = f.money
  pointOfJournal : s.rcu.checkGood = true → ∀ c, s.dcu.journal = some c →
    (s.point c.point).st = .settling ∨ (s.point c.point).st = .idle ∨ (s.point c.point).st = .faulted

/-- The law of the Sale Queue (R135 to R137): at most 8 records, at most 2 of a point, numbers distinct
and from 1 to 65535, and, while the check word is good, room for the sale of every point that holds an
authorization record. -/
structure SalesLaw (s : State) : Prop where
  postings : PostingLaw s
  eight : s.sales.records.length ≤ 8
  two : ∀ p, s.salesOf p ≤ 2
  room : s.rcu.checkGood = true → ∀ p, (s.point p).st.holdsAuth = true → ¬ s.journaled p → s.salesOf p ≤ 1
  numbers : (s.sales.records.map (·.number)).Nodup
  range : ∀ r, r ∈ s.sales.records → 1 ≤ r.number ∧ r.number ≤ 65535
  next : 1 ≤ s.sales.nextSale ∧ s.sales.nextSale ≤ 65535
  journal : ∀ c, s.dcu.journal = some c →
    c.record.sale.point = c.point ∧ (1 ≤ c.record.number ∧ c.record.number ≤ 65535) ∧
    (1 ≤ c.nextSale ∧ c.nextSale ≤ 65535) ∧
    ((∀ r, r ∈ s.sales.records → r.number ≠ c.record.number) → s.salesOf c.point ≤ 1)

/-- A running part holds a staged price only while some point of the delivering set remains (R53). -/
structure StagedLaw (s : State) : Prop where
  powered : RunsPowered s
  staged : s.rcu.running = true → ∀ k, s.isStaged k = true → ∃ p, (s.point p).delivers = some k

/-- The operand values of a job are those that its registers hold (R93, R120). -/
def State.operandsHeld (s : State) (values : List Operand) (set : List RegNo) : Prop :=
  values = set.map (fun r => ⟨r, s.reg r⟩)

/-- The law of the decimal unit (R93, R114 to R120): it works on one piece of work at a time, and nothing
moves an operand of a job that has begun. The held set has at most 8 registers, each once, none of them a
target of a TAKEN posting, and the hold timer runs exactly while the set is not empty (R125, R128). -/
structure UnitLaw (s : State) : Prop where
  postings : PostingLaw s
  slot : PendingExactlyWithJob s
  idle : s.rcu.running = false → s.dcu.unit = .free ∧ s.dcu.job = none
  posting : s.dcu.unit = .posting ↔ ∃ q, q ∈ s.dcu.postings ∧ q.taken = true
  oneTaken : ∀ q r, q ∈ s.dcu.postings → r ∈ s.dcu.postings → q.taken = true → r.taken = true → q = r
  host : s.dcu.unit = .host ↔ ∃ j, s.dcu.job = some j ∧ j.phase = .active
  active : ∀ j, s.dcu.job = some j → j.phase = .active → s.operandsHeld j.values j.operandSet
  suspended : ∀ j, s.dcu.job = some j → j.phase = .suspended →
    ∃ c, s.dcu.context = some c ∧ s.operandsHeld c j.operandSet
  apart : ∀ j q, s.dcu.job = some j → j.phase = .suspended → q ∈ s.dcu.postings → q.taken = true →
    ∀ r, r ∈ q.targets → r ∉ j.operandSet
  heldOnce : s.dcu.held.Pairwise (· < ·)
  heldEight : s.dcu.held.length ≤ 8
  heldApart : ∀ q, q ∈ s.dcu.postings → q.taken = true → ∀ r, r ∈ q.targets → r ∉ s.dcu.held
  holdTimer : s.dcu.holdTimer.isSome = true ↔ s.dcu.held ≠ []
  holdJob : ∀ j, s.dcu.job = some j → ∀ rs n, j.req = .hold rs n → 1 ≤ rs.length ∧ rs.length ≤ 8

/-- The law of measurement and charge (R42, R43, R44, R59, R60, R87, R132): the live volume is what the
net count gives, the live money of a delivery is what the volume costs at the latched price, both fit 8
digits, and the frozen sale carries them. Where this ties one block to another it holds while the check
word is good, as in a RUNNING part (R165, R173). -/
structure ChargeLaw (s : State) : Prop where
  powered : RunsPowered s
  slot : PendingExactlyWithJob s
  idle : s.rcu.running = false → s.dcu.job = none
  site : ∀ j, s.dcu.job = some j → ∀ v gc, j.req = .setSite (some v) gc →
    ∀ p, (s.point p).st = .undefined
  defined : ∀ p, (s.point p).defn.isSome = true ↔ (s.point p).st ≠ .undefined
  auth : ∀ p, (s.point p).auth.isSome = true ↔ (s.point p).st.holdsAuth = true
  products : ∀ k r, s.product k = some r → r.rounding ≤ 9
  trusted : s.rcu.running = true → s.rcu.checkGood = true
  volume : s.rcu.checkGood = true → ∀ p d, (s.point p).defn = some d →
    (s.point p).liveVolume = liveVolumeOf (s.point p).meter.net d.kFactor s.tally.vs ∧
    (s.point p).liveVolume < 10 ^ 8
  priced : s.rcu.checkGood = true → ∀ p a, (s.point p).auth = some a → ∃ r, s.product a.product = some r
  money : s.rcu.checkGood = true → ∀ p a r, (s.point p).auth = some a → (s.point p).st ≠ .authorized →
    s.product a.product = some r →
    (s.point p).liveMoney = liveMoneyOf (s.point p).liveVolume a.price s.tally.vs a.priceScale
      s.tally.ms r.rounding ∧ (s.point p).liveMoney < 10 ^ 8
  frozen : ∀ p f, (s.point p).frozen = some f → (s.point p).st = .settling ∧
    (s.point p).auth = some f.auth ∧ f.volume = (s.point p).liveVolume ∧ f.money = (s.point p).liveMoney

end Sys2Proof.Machine
end

