-- ==== Sys2Proof/Certificates/Slice0/Obligations.lean ====
section
/-! DEFINITION. The statements for the provers. Each is about the machine of Sys2Proof/Machine; the words
they use are in Sys2Proof/Safety.lean. -/

section

open Sys2Proof Sys2Proof.Machine

/-! ## The machine -/

/-- A step takes the command at the front of the queue and runs it with the queue's rest; on an empty
queue the part idles, which is the model's choice (notes/assumptions/4.md). -/
def Obligations.StepRunsFrontCommandOrIdles : Prop :=
  (∀ (c : Instr) (s : State), step { s with pending := c :: s.pending } = exec c s) ∧
  ∀ s : State, s.pending = [] → step s = .next s

/-- No command stops the part (Section 0.6.4), and none touches the queue, which is the model's own
(notes/assumptions/4.md). The bus address moves in a start alone, which takes 0x2C plus the straps (R145). -/
def Obligations.EveryCommandGoesOn : Prop :=
  ∀ (c : Instr) (s : State), ∃ t, exec c s = .next t ∧ t.pending = s.pending ∧
    (t.link.busAddress = s.link.busAddress ∨
      c.mayStart = true ∧ t.link.busAddress = 0x2C + t.pins.straps.setWidth 7)

/-! ## The link -/

/-- A transaction that is not acknowledged changes nothing but what the bus shows (R146); such is every read
from an address not the part's own, and every write to one but the general call, whose bytes are its row's
events in turn (R145, R157). A request whose fields fail is answered BAD-FIELD and reaches no owner (R151).
A write with its address is the model's row FRAME_ERROR (notes/assumptions/6.md, notes/assumptions/7.md). -/
def Obligations.TurnedAwayRequestReachesNoOwner : Prop :=
  (∀ (c : Instr) (kind : Byte) (payload : List Byte) (s : State),
    c.request? = some (kind, payload) → s.acceptsWrite = false →
    exec c s = .next { s with link := { s.link with bus := .notAcknowledged } }) ∧
  (∀ (bytes : List Byte) (s : State), s.acceptsWrite = false →
    exec (.frameError ⟨s.link.busAddress, bytes⟩) s =
      .next { s with link := { s.link with bus := .notAcknowledged } }) ∧
  (∀ (address : BitVec 7) (s : State), address ≠ s.link.busAddress →
    let ignored : State := { s with link := { s.link with bus := .notAcknowledged } }
    (∀ n, exec (.readTransaction ⟨address, n⟩) s = .next ignored) ∧
    (address ≠ 0x00 → ∀ bytes, exec (.frameError ⟨address, bytes⟩) s = .next ignored) ∧
    (address = 0x00 → ∀ bytes, exec (.frameError ⟨address, bytes⟩) s = execAll
      (.generalCallStopAll .address :: bytes.map (fun byte => .generalCallStopAll (.data byte)) ++
        [.generalCallStopAll .ending]) s)) ∧
  ∀ (c : Instr) (kind : Byte) (payload : List Byte) (s : State),
    c.request? = some (kind, payload) → s.takes payload → c.fieldsOk = false →
    exec c s = .next (s.answeredTo payload.length .badField kind [])

/-- A reply other than OK carries no payload, and its request changed nothing outside the two slots, the
mark of R149 and what the bus shows (R155). -/
def Obligations.RefusedRequestChangesOnlyTheSlots : Prop :=
  ∀ (c : Instr) (kind : Byte) (payload : List Byte) (s t : State) (r : Reply) (pos : Nat),
    c.request? = some (kind, payload) → s.takes payload → exec c s = .next t →
    t.link.replySlot = .ready r pos → r.status ≠ .ok →
    r.payload = [] ∧ t = s.answeredTo payload.length r.status kind []

/-- A request taken while a reply stands unread discards it and marks the next reply; the mark is used up
as the reply is formed (R147, R149). -/
def Obligations.TakenRequestMarksLostReply : Prop :=
  ∀ (c : Instr) (kind : Byte) (payload : List Byte) (s : State),
    c.request? = some (kind, payload) → s.takes payload →
    ∃ t, exec c s = .next t ∧
      (∀ r pos, t.link.replySlot = .ready r pos →
        pos = 0 ∧ r.kind = kind ∧ r.lost = (s.link.priorReplyLost || s.link.replySlot.isReady) ∧
        t.link.priorReplyLost = false ∧ t.link.requestSlot = []) ∧
      (t.link.replySlot = .pending →
        t.link.priorReplyLost = (s.link.priorReplyLost || s.link.replySlot.isReady) ∧
        t.link.requestSlot = requestFrame kind payload)

/-- A taken frame that fails the checks of R150 is answered at once with the status of the first check
that fails and its first byte as the kind echo; a write of no data byte is ignored (R148). -/
def Obligations.FaultyFrameIsAnswered : Prop :=
  (∀ s : State, s.acceptsWrite = true →
    exec (.frameError ⟨s.link.busAddress, []⟩) s = .next { s with link := { s.link with bus := .wrote 0 } }) ∧
  ∀ (first : Byte) (rest : List Byte) (s : State), s.acceptsWrite = true →
    let kept := (first :: rest).take 52
    let answer := fun status => exec (.frameError ⟨s.link.busAddress, first :: rest⟩) s = .next { s with
      link := { s.link with
        requestSlot := []
        replySlot := .ready
          ⟨status, s.link.priorReplyLost || s.link.replySlot.isReady, first, []⟩ 0
        priorReplyLost := false
        bus := .wrote kept.length } }
    (∀ len, kept[1]? = some len →
      if kept.length < 3 ∨ 48 < len.toNat ∨ kept.length ≠ len.toNat + 3 then answer .frameError
      else if byteSum kept ≠ 0 then answer .frameError
      else if first ∉ kindCodes then answer .unknownKind
      else True) ∧
    (kept[1]? = none → answer .frameError)

/-- A request frame carries its payload through the check of R150, and a reply frame sums to zero with
its payload after three bytes (R152, R176). -/
def Obligations.FramesCarryTheirPayload : Prop :=
  (∀ (kind : Byte) (payload : List Byte), kind ∈ kindCodes → payload.length ≤ 48 →
    frameCheck (requestFrame kind payload) = .request kind payload ∧
    (requestFrame kind payload).length = payload.length + 3) ∧
  ∀ r : Reply, byteSum r.frame = 0 ∧ r.frame.length = r.payload.length + 4 ∧
    r.frame.take (3 + r.payload.length) =
      BitVec.ofNat 8 (r.status.code + if r.lost then 128 else 0) :: r.kind ::
        BitVec.ofNat 8 r.payload.length :: r.payload

/-- A read from the own address sends the reply of a READY slot and empties the slot at its last byte, else
the read position returns to the first byte (R152). A read of a PENDING slot stretches the clock; the end of
the 5 ms sends the PENDING marker (Table 11-3), and a reply that becomes READY before it is sent in that
event, which ends the stretch (R153). A part that does not operate acknowledges no read (R146). -/
def Obligations.ReadsOfReadyAndPendingSlots : Prop :=
  (∀ (s : State) (r : Reply) (pos n : Nat), s.operating = true → s.link.replySlot = .ready r pos →
    exec (.readTransaction ⟨s.link.busAddress, n⟩) s = .next { s with link := { s.link with
      stretch := none
      bus := .sent ((r.frame.drop pos).take n ++
        List.replicate (n - (r.frame.drop pos).length) 0xFF)
      replySlot := if (r.frame.drop pos).length ≤ n then .empty else .ready r 0 } }) ∧
  (∀ (s : State) (n : Nat), s.operating = true → s.link.replySlot = .pending →
    exec (.readTransaction ⟨s.link.busAddress, n⟩) s =
      .next { s with link := { s.link with stretch := some n, bus := .stretching } }) ∧
  (∀ (s : State) (n : Nat), s.operating = true → s.link.replySlot = .pending →
    s.link.stretch = some n →
    exec .clockStretchEnd s = .next { s with link := { s.link with
      stretch := none
      bus := .sent (([0x7F, 0x01] : List Byte).take n ++ List.replicate (n - 2) 0xFF) } }) ∧
  (∀ (s : State) (n : Nat), s.operating = false →
    exec (.readTransaction ⟨s.link.busAddress, n⟩) s =
      .next { s with link := { s.link with bus := .notAcknowledged } }) ∧
  (∀ (s : State) (r : Reply) (n : Nat), s.link.stretch = some n → s.link.replySlot = .ready r 0 →
    s.endStretch = { s with link := { s.link with
      stretch := none
      bus := .sent (r.frame.take n ++ List.replicate (n - r.frame.length) 0xFF)
      replySlot := if r.frame.length ≤ n then .empty else .ready r 0 } }) ∧
  ∀ s : State, s.link.stretch = none ∨ s.link.replySlot.isReady = false → s.endStretch = s

/-- A read of an EMPTY slot sends the NO-REPLY marker and the slot stays EMPTY; no reply begins with the
first byte of a marker (R154). -/
def Obligations.ReadOfEmptySlotSendsNoReply : Prop :=
  (∀ (s : State) (n : Nat), s.operating = true → s.link.replySlot = .empty →
    exec (.readTransaction ⟨s.link.busAddress, n⟩) s = .next { s with link := { s.link with
      bus := .sent (([0x7F, 0x00] : List Byte).take n ++ List.replicate (n - 2) 0xFF) } }) ∧
  ∀ r : Reply, r.frame.head? ≠ some 0x7F

/-- The general-call enable is tested at the address, and an admitted write is carried to its end under it:
its first three bytes are kept and acknowledged, a valid STOP ALL then acts on every point and touches
neither slot, and every other write changes nothing (R146, R157). That a repeated address ends a write
still in progress is the model's choice (notes/assumptions/27.md). -/
def Obligations.GeneralCallStopsEveryPoint : Prop :=
  (∀ s : State,
    (s.operating = true → s.link.generalCall = none → s.link.generalCallEnable = true →
      exec (.generalCallStopAll .address) s = .next { s with link := { s.link with
        generalCall := some 0, generalCallBuffer := [], bus := .wrote 0 } }) ∧
    (s.operating = true → s.link.generalCall = none → s.link.generalCallEnable = false →
      exec (.generalCallStopAll .address) s =
        .next { s with link := { s.link with bus := .notAcknowledged } }) ∧
    (s.operating = false → exec (.generalCallStopAll .address) s =
      .next { s with link := { s.link with bus := .notAcknowledged } }) ∧
    (s.operating = true → ∀ t, exec (.generalCallStopAll .ending) s = .next t →
      exec (.generalCallStopAll .address) s = exec (.generalCallStopAll .address) t)) ∧
  (∀ (s : State) (n : Nat) (byte : Byte), s.operating = true → s.link.generalCall = some n →
    exec (.generalCallStopAll (.data byte)) s = .next { s with link := { s.link with
      generalCall := some (n + 1)
      generalCallBuffer := s.link.generalCallBuffer ++ (if n < 3 then [byte] else [])
      bus := .wrote (if n < 3 then n + 1 else 3) } }) ∧
  (∀ s : State, s.operating = true → s.link.generalCall = some 3 →
    s.link.generalCallBuffer = [0x18, 0x00, 0xE8] →
    ∃ t, exec (.generalCallStopAll .ending) s = .next t ∧ StoppedAll s t ∧
      t.link = { s.link with
        generalCall := none
        generalCallBuffer := []
        flags := { s.link.flags with
          priceActive := t.link.flags.priceActive, activated := t.link.flags.activated } }) ∧
  (∀ (s : State) (n : Nat), s.operating = true → s.link.generalCall = some n →
    n ≠ 3 ∨ s.link.generalCallBuffer ≠ [0x18, 0x00, 0xE8] →
    exec (.generalCallStopAll .ending) s =
      .next { s with link := { s.link with generalCall := none, generalCallBuffer := [] } }) ∧
  ∀ (s : State) (byte : Byte), s.operating = false ∨ s.link.generalCall = none →
    exec (.generalCallStopAll (.data byte)) s = .next s ∧
    exec (.generalCallStopAll .ending) s = .next s

/-- STATUS shows the part at one instant and changes nothing (R161, R183). The layout is Table 11-12's, of 16
to 28 bytes (notes/assumptions/33.md). -/
def Obligations.StatusShowsThePart : Prop :=
  ∀ s : State, s.takes [] →
    exec (.status []) s = .next (s.answeredTo 0 .ok Kind.status
      ([byteOf (s.point 0).st.code, byteOf (s.point 1).st.code, byteOf (s.point 2).st.code,
        byteOf (s.point 3).st.code, byteOf s.sales.records.length,
        byteOf (s.sales.nextSale / 256), byteOf s.sales.nextSale, byteOf s.dcu.held.length] ++
       s.dcu.held.map (fun r => byteOf r.val) ++
       [if s.dcu.unit = .posting then 1 else 0, byteOf s.dcu.postings.length] ++
       s.dcu.postings.map (fun q => byteOf (q.point.val + if q.taken then 128 else 0)) ++
       [if s.pins.estopn then 1 else 0, if s.rcu.mainPowerHigh then 1 else 0, byteOf s.tally.vs,
        byteOf s.tally.ms, if s.link.generalCallEnable then 1 else 0, 3]))

/-- GET EVENTS returns every flag that is set, each at its bit, and clears them all, in one event (R159,
Table 11-10). -/
def Obligations.GetEventsReturnsAndClears : Prop :=
  ∀ s : State, s.takes [] →
    let bit := fun (b : Bool) (weight : Nat) => if b then weight else 0
    let pointFlags := fun f : PointFlags =>
      bit f.call 1 + bit f.started 2 + bit f.slowdown 4 + bit f.stopped 8 + bit f.sale 16 +
        bit f.lapsed 32 + bit f.fault 64 + bit f.creep 128 + bit f.reverse 256
    let partFlags := fun f : PartFlags =>
      bit f.restarted 1 + bit f.retainLost 2 + bit f.holdExpired 4 + bit f.priceActive 8 +
        bit f.rollover 16 + bit f.estop 32
    ∃ t : State, exec (.getEvents []) s = .next (t.answeredTo 0 .ok Kind.getEvents
        ((allPoints.map (fun p =>
          [byteOf (pointFlags (s.point p).flags / 256), byteOf (pointFlags (s.point p).flags)])).flatten ++
        [byteOf (partFlags s.link.flags),
          if s.link.flags.priceActive then s.link.flags.activated.setWidth 8 else 0])) ∧
      (∀ p, t.point p = { s.point p with
        flags := ⟨false, false, false, false, false, false, false, false, false⟩ }) ∧
      t = { s with
        points := t.points
        link := { s.link with flags := ⟨false, false, false, false, false, false, 0⟩ } }

/-- ATTN is low exactly while the part drives it and some flag, per point or part-wide, is set (R160). -/
def Obligations.AttnFollowsFlags : Prop :=
  ∀ s : State, s.attnLow = true ↔
    s.pins.vdd = true ∧ s.pins.resetn = true ∧
      (s.link.flags.restarted = true ∨ s.link.flags.retainLost = true ∨
       s.link.flags.holdExpired = true ∨ s.link.flags.priceActive = true ∨
       s.link.flags.rollover = true ∨ s.link.flags.estop = true ∨
       ∃ p, (s.point p).flags ≠ ⟨false, false, false, false, false, false, false, false, false⟩)

/-- The two valve outputs of a point by its state, the main-power status and the slow-down status (R71);
both are off while the part does not operate: RESETn low, main power off or RCU STARTING (R74). -/
def Obligations.ValveLevelsFollowTheTable : Prop :=
  (∀ (s : State) (p : PointNo),
    s.pins.resetn = false ∨ s.pins.vdd = false ∨ s.rcu.running = false →
    s.mv p = false ∧ s.sv p = false) ∧
  ∀ (s : State) (p : PointNo), s.operating = true →
    ((s.point p).st ≠ .delivering → s.mv p = false ∧ s.sv p = false) ∧
    ((s.point p).st = .delivering → s.rcu.mainPowerHigh = false → s.mv p = false ∧ s.sv p = false) ∧
    ((s.point p).st = .delivering → s.rcu.mainPowerHigh = true → (s.point p).slowDown = true →
      s.mv p = false ∧ s.sv p = true) ∧
    ((s.point p).st = .delivering → s.rcu.mainPowerHigh = true → (s.point p).slowDown = false →
      s.mv p = true ∧ s.sv p = true)

/-! ## Points and their requests -/

/-- DEFINE POINT on an UNDEFINED point stores the record and puts the point in IDLE with its counts, live
values, fault set, end reason and sale flags cleared and its pins taken; a point in any other state answers
ALREADY-DEFINED (R3, R45). That a point in SETTLING does so too, where R20 and R133 ask WRONG-STATE, is the
model's choice (notes/assumptions/31.md). -/
def Obligations.DefinePointStartsThePoint : Prop :=
  ∀ (s : State) (payload : List Byte) (q : DefineReq),
    s.takes payload → parseDefinePoint payload = some q →
    ((s.point q.p).st = .undefined → q.marginScale = s.tally.vs → q.toleranceScale = s.tally.vs →
      exec (.definePoint payload) s = .next ((s.setPoint q.p { s.point q.p with
        st := .idle
        defn := some q.defn
        liveVolume := 0
        liveMoney := 0
        slowDown := false
        endReason := none
        faults := ⟨false, false, false⟩
        saleFlags := ⟨false, false, false⟩
        meter := ⟨some ⟨s.pins.pa[q.p], s.pins.pb[q.p]⟩, 0, 0, 0, 0⟩ }).answeredTo
          payload.length .ok Kind.definePoint [])) ∧
    ((s.point q.p).st ≠ .undefined →
      exec (.definePoint payload) s =
        .next (s.answeredTo payload.length .alreadyDefined Kind.definePoint [])) ∧
    ((s.point q.p).st = .undefined →
      q.marginScale ≠ s.tally.vs ∨ q.toleranceScale ≠ s.tally.vs →
      exec (.definePoint payload) s =
        .next (s.answeredTo payload.length .badField Kind.definePoint []))

/-- MODIFY POINT replaces the fields it carries and keeps the others; RELEASE POINT discards the
definition, the live values, the fault set, the end reason and the counts. Both are accepted in IDLE,
CALLING and FAULTED alone: an UNDEFINED point is POINT-UNDEFINED, any other state WRONG-STATE (R2, R4, R5,
R45). That RELEASE POINT leaves the live values at zero is the model's reading (notes/assumptions/20.md). -/
def Obligations.ModifyAndReleasePoint : Prop :=
  (∀ (s : State) (payload : List Byte) (q : ModifyReq) (d : PointDef),
    s.takes payload → parseModifyPoint payload = some q → (s.point q.p).defn = some d →
    (s.point q.p).st = .idle ∨ (s.point q.p).st = .calling ∨ (s.point q.p).st = .faulted →
    (∀ f, q.margin = some f → f.scale = s.tally.vs) →
    (∀ f, q.tolerance = some f → f.scale = s.tally.vs) →
    exec (.modifyPoint payload) s = .next ((s.setPoint q.p { s.point q.p with
      defn := some {
        mode := d.mode
        kFactor := d.kFactor
        allowed := q.allowed.getD d.allowed
        margin := (q.margin.map (·.magnitude)).getD d.margin
        tolerance := (q.tolerance.map (·.magnitude)).getD d.tolerance
        authTimeout := q.authTimeout.getD d.authTimeout
        noFlow := q.noFlow.getD d.noFlow
        settleTime := q.settleTime.getD d.settleTime
        creepLimit := q.creepLimit.getD d.creepLimit
        reverseLimit := q.reverseLimit.getD d.reverseLimit
        phaseLimit := q.phaseLimit.getD d.phaseLimit } }).answeredTo
          payload.length .ok Kind.modifyPoint [])) ∧
  (∀ (s : State) (payload : List Byte) (q : ModifyReq),
    s.takes payload → parseModifyPoint payload = some q →
    ((s.point q.p).st.holdsAuth = true →
      exec (.modifyPoint payload) s =
        .next (s.answeredTo payload.length .wrongState Kind.modifyPoint [])) ∧
    ((s.point q.p).st = .idle ∨ (s.point q.p).st = .calling ∨ (s.point q.p).st = .faulted →
      (∃ f, (q.margin = some f ∨ q.tolerance = some f) ∧ f.scale ≠ s.tally.vs) →
      exec (.modifyPoint payload) s =
        .next (s.answeredTo payload.length .badField Kind.modifyPoint [])) ∧
    ((s.point q.p).st = .undefined →
      exec (.modifyPoint payload) s =
        .next (s.answeredTo payload.length .pointUndefined Kind.modifyPoint []))) ∧
  (∀ (s : State) (p : PointNo), s.takes [byteOf p.val] →
    ((s.point p).st = .idle ∨ (s.point p).st = .calling ∨ (s.point p).st = .faulted →
      exec (.releasePoint [byteOf p.val]) s = .next ((s.setPoint p { s.point p with
        st := .undefined
        defn := none
        liveVolume := 0
        liveMoney := 0
        faults := ⟨false, false, false⟩
        endReason := none
        meter := ⟨none, 0, 0, 0, 0⟩ }).answeredTo 1 .ok Kind.releasePoint [])) ∧
    ((s.point p).st.holdsAuth = true →
      exec (.releasePoint [byteOf p.val]) s =
        .next (s.answeredTo 1 .wrongState Kind.releasePoint [])) ∧
    ((s.point p).st = .undefined →
      exec (.releasePoint [byteOf p.val]) s =
        .next (s.answeredTo 1 .pointUndefined Kind.releasePoint [])))

/-- An AUTHORIZE that passes every check takes an IDLE point to AUTHORIZED with its timer, and starts the
delivery of a CALLING one (R9, R10, R13). -/
def Obligations.AuthorizeAccepted : Prop :=
  ∀ (s : State) (payload : List Byte) (q : AuthorizeReq) (a : AuthRecord) (d : PointDef),
    s.takes payload → parseAuthorize payload = some q → AuthorizePasses s q a →
    (s.point q.p).defn = some d →
    ((s.point q.p).st = .idle →
      exec (.authorize payload) s = .next ((s.setPoint q.p { s.point q.p with
        st := .authorized
        auth := some a
        timers := { (s.point q.p).timers with
          authorization := if d.authTimeout = 0 then none else some d.authTimeout } }).answeredTo
          payload.length .ok Kind.authorize [])) ∧
    ((s.point q.p).st = .calling →
      exec (.authorize payload) s = .next ((s.setPoint q.p ((s.point q.p).started a d)).answeredTo
        payload.length .ok Kind.authorize []))

/-- The checks of R9 in their order: the first that fails gives the reply, and the part stays as it was. -/
def Obligations.AuthorizeRefusedByFirstFailingCheck : Prop :=
  ∀ (s : State) (payload : List Byte) (q : AuthorizeReq),
    s.takes payload → parseAuthorize payload = some q →
    let refused := fun status =>
      exec (.authorize payload) s = .next (s.answeredTo payload.length status Kind.authorize [])
    if (s.point q.p).st = .undefined then refused .pointUndefined
    else if (s.point q.p).st ≠ .idle ∧ (s.point q.p).st ≠ .calling then refused .wrongState
    else if s.pins.estopn = false ∨ s.rcu.mainPowerHigh = false then refused .stopActive
    else if (s.point q.p).allows q.product = false ∨ s.product q.product = none then
      refused .badField
    else if s.isStaged q.product = true then refused .pricePending
    else if 2 ≤ s.salesOf q.p then refused .salesUncleared
    else ∀ r, s.product q.product = some r → (¬ ∃ stored, s.presetStored r q.preset stored) →
      refused .badField

/-- A recognized rise or fall of the handle, by the state of the point (R6, R7, R11, R13, R14, R16). That a
level already recognized gives no edge, and that a part that does not operate only finds the level at its
next start (R167 to R169), rest on the model's log (notes/assumptions/13.md, notes/assumptions/12.md). -/
def Obligations.HandleEdges : Prop :=
  (∀ (s : State) (p : PointNo), s.operating = true →
    let lifted := fun x : Point =>
      exec (.liftEdge p) s =
        .next { s.setPoint p x with pins := { s.pins with hs := s.pins.hs.set p true } }
    let up := { s.point p with handleUp := true }
    ((s.point p).handleUp = true → lifted (s.point p)) ∧
    ((s.point p).handleUp = false → (s.point p).st = .idle →
      lifted { up with st := .calling, flags := { up.flags with call := true } }) ∧
    ((s.point p).handleUp = false → (s.point p).st = .authorized →
      ∀ a d, (s.point p).auth = some a → (s.point p).defn = some d → lifted (up.started a d)) ∧
    ((s.point p).handleUp = false → (s.point p).st ≠ .idle → (s.point p).st ≠ .authorized →
      lifted up)) ∧
  (∀ (s : State) (p : PointNo), s.operating = true →
    let lowered := fun x : Point =>
      exec (.lowerEdge p) s =
        .next { s.setPoint p x with pins := { s.pins with hs := s.pins.hs.set p false } }
    let down := { s.point p with handleUp := false }
    ((s.point p).handleUp = false → lowered (s.point p)) ∧
    ((s.point p).handleUp = true → (s.point p).st = .calling → lowered { down with st := .idle }) ∧
    ((s.point p).handleUp = true → (s.point p).st = .delivering ∨ (s.point p).st = .paused →
      lowered (down.enterStopping .handle)) ∧
    ((s.point p).handleUp = true → (s.point p).st ≠ .calling → (s.point p).st ≠ .delivering →
      (s.point p).st ≠ .paused → lowered down)) ∧
  ∀ (s : State) (p : PointNo), s.operating = false →
    exec (.liftEdge p) s = .next { s with pins := { s.pins with hs := s.pins.hs.set p true } } ∧
    exec (.lowerEdge p) s = .next { s with pins := { s.pins with hs := s.pins.hs.set p false } }

/-- CANCEL drops an authorization; PAUSE and RESUME stop and start the no-flow timer; outside their
states they are refused (R2, R12, R16). That RESUME outside PAUSED is WRONG-STATE with PFAILn low too is the
model's reading (notes/assumptions/21.md). -/
def Obligations.CancelPauseResume : Prop :=
  ∀ (s : State) (p : PointNo), s.takes [byteOf p.val] →
    let answered := fun (t : State) status kind => Host.Outcome.next (t.answeredTo 1 status kind [])
    ((s.point p).st = .authorized → ∀ a, (s.point p).auth = some a →
      exec (.cancel [byteOf p.val]) s = answered ((s.setPoint p { s.point p with
        st := .idle
        auth := none
        timers := { (s.point p).timers with authorization := none } }).reportLeft a.product)
          .ok Kind.cancel) ∧
    ((s.point p).st ≠ .authorized → (s.point p).st ≠ .undefined →
      exec (.cancel [byteOf p.val]) s = answered s .wrongState Kind.cancel) ∧
    ((s.point p).st = .delivering →
      exec (.pause [byteOf p.val]) s = answered (s.setPoint p { s.point p with
        st := .paused
        timers := { (s.point p).timers with noFlow := none } }) .ok Kind.pause) ∧
    ((s.point p).st ≠ .delivering → (s.point p).st ≠ .undefined →
      exec (.pause [byteOf p.val]) s = answered s .wrongState Kind.pause) ∧
    ((s.point p).st = .paused → s.rcu.mainPowerHigh = true → ∀ d, (s.point p).defn = some d →
      exec (.resume [byteOf p.val]) s = answered (s.setPoint p { s.point p with
        st := .delivering
        timers := { (s.point p).timers with
          noFlow := if d.noFlow = 0 then none else some d.noFlow } }) .ok Kind.resume) ∧
    ((s.point p).st = .paused → s.rcu.mainPowerHigh = false →
      exec (.resume [byteOf p.val]) s = answered s .stopActive Kind.resume) ∧
    ((s.point p).st ≠ .paused → (s.point p).st ≠ .undefined →
      exec (.resume [byteOf p.val]) s = answered s .wrongState Kind.resume) ∧
    ((s.point p).st = .undefined →
      exec (.cancel [byteOf p.val]) s = answered s .pointUndefined Kind.cancel ∧
      exec (.pause [byteOf p.val]) s = answered s .pointUndefined Kind.pause ∧
      exec (.resume [byteOf p.val]) s = answered s .pointUndefined Kind.resume)

/-- STOP by the table of R17. -/
def Obligations.StopByState : Prop :=
  ∀ (s : State) (p : PointNo), s.takes [byteOf p.val] →
    let answered := fun (t : State) status =>
      exec (.stop [byteOf p.val]) s = .next (t.answeredTo 1 status Kind.stop [])
    match (s.point p).st with
    | .authorized => ∀ a, (s.point p).auth = some a →
      answered ((s.setPoint p { s.point p with
        st := .idle
        auth := none
        timers := { (s.point p).timers with authorization := none } }).reportLeft a.product) .ok
    | .delivering | .paused => answered (s.setPoint p ((s.point p).enterStopping .stopRequest)) .ok
    | .stopping | .settling => answered s .ok
    | .idle | .calling | .faulted => answered s .wrongState
    | .undefined => answered s .pointUndefined

/-- STOP ALL and the assertion of ESTOPn act on every point by the table of R23; ESTOPn sets ESTOP at each
change of its level, and its release moves no point (R23, R24). -/
def Obligations.StopAllAndEstop : Prop :=
  (∀ s : State, s.takes [] →
    ∃ t : State, exec (.stopAll []) s = .next (t.answeredTo 0 .ok Kind.stopAll []) ∧
      StoppedAll s t ∧ t.link = { s.link with flags := { s.link.flags with
        priceActive := t.link.flags.priceActive, activated := t.link.flags.activated } }) ∧
  (∀ s : State, s.operating = true → s.pins.estopn = true →
    ∃ t, exec .estopnAsserted s = .next t ∧
      StoppedAll { s with pins := { s.pins with estopn := false } } t ∧
      t.link = { s.link with flags := { s.link.flags with
        estop := true
        priceActive := t.link.flags.priceActive, activated := t.link.flags.activated } }) ∧
  (∀ s : State, s.operating = true → s.pins.estopn = false →
    exec .estopnReleased s = .next { s with
      pins := { s.pins with estopn := true }
      link := { s.link with flags := { s.link.flags with estop := true } } }) ∧
  ∀ s : State,
    (s.pins.estopn = false → exec .estopnAsserted s = .next s) ∧
    (s.pins.estopn = true → exec .estopnReleased s = .next s)

/-- READ POINT is answered in every state and changes nothing: the state alone for an UNDEFINED point, else
the items of R25 behind their presence bits (R25, Table 11-9). The codes of the point states and end
reasons and the bits of the fault set and of the sale flags are those of Table 11-7 (R182). -/
def Obligations.ReadPointShowsThePoint : Prop :=
  (∀ st : PtState, st.code = match st with
    | .undefined => 0 | .idle => 1 | .calling => 2 | .authorized => 3 | .delivering => 4
    | .paused => 5 | .stopping => 6 | .settling => 7 | .faulted => 8) ∧
  (∀ e : EndReason, e.code = match e with
    | .handle => 1 | .preset => 2 | .stopRequest => 3 | .emergency => 4
    | .noFlow => 5 | .fault => 6 | .limit => 7 | .power => 8) ∧
  (∀ f : FaultSet, f.mask =
    (if f.creep then 1 else 0) + (if f.reverse then 2 else 0) + (if f.pulser then 4 else 0)) ∧
  (∀ f : SaleFlags, f.mask = (if f.overrun then 1 else 0) + (if f.reverseSeen then 2 else 0) +
    (if f.flowAfterStop then 4 else 0)) ∧
  ∀ (s : State) (p : PointNo), s.takes [byteOf p.val] →
    ((s.point p).st = .undefined →
      exec (.readPoint [byteOf p.val]) s =
        .next (s.answeredTo 1 .ok Kind.readPoint [byteOf p.val, 0])) ∧
    ((s.point p).st ≠ .undefined →
      let x := s.point p
      let auth := if x.st.holdsAuth then x.auth else none
      let preset := auth.bind (·.preset)
      let tag := auth.bind (·.tag)
      let reason := if x.st = .stopping ∨ x.st = .settling then x.endReason else none
      exec (.readPoint [byteOf p.val]) s = .next (s.answeredTo 1 .ok Kind.readPoint
        ([byteOf p.val, byteOf x.st.code,
          byteOf ((if auth.isSome then 1 else 0) + (if preset.isSome then 2 else 0) +
            (if tag.isSome then 4 else 0) + (if reason.isSome then 8 else 0))] ++
         decimalField false s.tally.vs 8 x.liveVolume ++
         decimalField false s.tally.ms 8 x.liveMoney ++
         [byteOf x.faults.mask, byteOf (x.meter.creep / 256), byteOf x.meter.creep] ++
         optionalBytes auth (fun a =>
           byteOf a.product.val :: decimalField false a.priceScale 6 a.price) ++
         optionalBytes preset (fun q =>
           [byteOf q.kind.code] ++
           decimalField false (if q.kind = .volume then s.tally.vs else s.tally.ms) 8 q.amount ++
           decimalField false s.tally.vs 8 q.target) ++
         optionalBytes tag bytes32 ++
         optionalBytes reason (fun r => [byteOf r.code]))))

/-- CLEAR FAULT empties the fault set of a FAULTED point and takes it to IDLE; CLEAR CREEP zeroes the creep
count of a defined point and touches nothing else (R22, R41); at an UNDEFINED point both are
POINT-UNDEFINED (R2). -/
def Obligations.ClearFaultAndClearCreep : Prop :=
  ∀ (s : State) (p : PointNo), s.takes [byteOf p.val] →
    ((s.point p).st = .faulted →
      exec (.clearFault [byteOf p.val]) s = .next ((s.setPoint p { s.point p with
        st := .idle, faults := ⟨false, false, false⟩ }).answeredTo 1 .ok Kind.clearFault [])) ∧
    ((s.point p).st ≠ .faulted → (s.point p).st ≠ .undefined →
      exec (.clearFault [byteOf p.val]) s =
        .next (s.answeredTo 1 .wrongState Kind.clearFault [])) ∧
    ((s.point p).st ≠ .undefined →
      exec (.clearCreep [byteOf p.val]) s = .next ((s.setPoint p { s.point p with
        meter := { (s.point p).meter with creep := 0 } }).answeredTo 1 .ok Kind.clearCreep [])) ∧
    ((s.point p).st = .undefined →
      exec (.clearFault [byteOf p.val]) s =
        .next (s.answeredTo 1 .pointUndefined Kind.clearFault []) ∧
      exec (.clearCreep [byteOf p.val]) s =
        .next (s.answeredTo 1 .pointUndefined Kind.clearCreep []))

/-- What entering STOPPING, a reported fault and the two marks of a preset do to a point (R18, R21, R67 to
R69). -/
def Obligations.StoppingFaultsAndMarks : Prop :=
  (∀ (x : Point) (reason : EndReason) (d : PointDef), x.defn = some d →
    x.enterStopping reason = { x with
      st := .stopping
      endReason := some reason
      timers := ⟨x.timers.authorization, none, some d.settleTime, some 30⟩
      flags := { x.flags with stopped := true } }) ∧
  (∀ (x : Point) (k : FaultKind),
    let y := { x with
      faults := ⟨x.faults.creep || decide (k = .creep), x.faults.reverse || decide (k = .reverse),
        x.faults.pulser || decide (k = .pulser)⟩
      flags := { x.flags with fault := true } }
    x.reportFault k = match x.st with
      | .idle | .calling => { y with st := .faulted }
      | .authorized => { y with
          st := .faulted
          auth := none
          timers := { y.timers with authorization := none }
          flags := { y.flags with lapsed := true } }
      | .delivering | .paused => y.enterStopping .fault
      | _ => y) ∧
  ∀ (x : Point) (a : AuthRecord) (d : PointDef), x.auth = some a → x.defn = some d →
    (a.preset = none → x.compareMarks = x) ∧
    (x.st ≠ .delivering → x.st ≠ .paused → x.compareMarks = x) ∧
    ∀ q, a.preset = some q → x.st = .delivering ∨ x.st = .paused →
      let slow := !x.slowDown && decide (q.target ≤ x.liveVolume + d.margin)
      let y := { x with
        slowDown := x.slowDown || slow, flags := { x.flags with slowdown := x.flags.slowdown || slow } }
      x.compareMarks = if q.target ≤ x.liveVolume then y.enterStopping .preset else y

/-- The authorization timer's expiry lapses the authorization; the no-flow timer's ends the delivery. The
expiry of a timer that does not run changes nothing, which is the model's reading
(notes/assumptions/5.md) (R11, R15). -/
def Obligations.AuthorizationAndNoFlowExpiry : Prop :=
  ∀ (s : State) (p : PointNo), s.operating = true →
    ((s.point p).st = .authorized → (s.point p).timers.authorization.isSome = true →
      ∀ a, (s.point p).auth = some a →
      exec (.authorizationTimerExpiry p) s = .next ((s.setPoint p { s.point p with
        st := .idle
        auth := none
        timers := { (s.point p).timers with authorization := none }
        flags := { (s.point p).flags with lapsed := true } }).reportLeft a.product)) ∧
    ((s.point p).st ≠ .authorized ∨ (s.point p).timers.authorization = none →
      exec (.authorizationTimerExpiry p) s = .next s) ∧
    ((s.point p).st = .delivering → (s.point p).timers.noFlow.isSome = true →
      exec (.noFlowTimerExpiry p) s =
        .next (s.setPoint p ((s.point p).enterStopping .noFlow))) ∧
    ((s.point p).st ≠ .delivering ∨ (s.point p).timers.noFlow = none →
      exec (.noFlowTimerExpiry p) s = .next s)

/-- The settle timer's or stop limit's expiry takes a STOPPING point to SETTLING in one event: the timers
dropped, the sale frozen, the posting behind every posting queued, the Product Table told, and a unit in
FREE choosing; the stop limit's sets FLOW-AFTER-STOP (R19, R20, R132, R133). An expiry that finds the point
in another state (R19), or its timer stopped, which is the model's reading (notes/assumptions/5.md), changes
nothing. -/
def Obligations.SettlingFreezesAndSubmits : Prop :=
  (∀ (s : State) (p : PointNo), s.operating = true →
    ((s.point p).st ≠ .stopping ∨ (s.point p).timers.settle = none →
      exec (.settleTimerExpiry p) s = .next s) ∧
    ((s.point p).st ≠ .stopping ∨ (s.point p).timers.stopLimit = none →
      exec (.stopLimitTimerExpiry p) s = .next s)) ∧
  ∀ (s : State) (p : PointNo) (a : AuthRecord) (e : EndReason), s.operating = true →
    (s.point p).st = .stopping → (s.point p).auth = some a → (s.point p).endReason = some e →
    let settled := fun (flags : SaleFlags) (t : State) => t = (State.choose
      { (s.setPoint p { s.point p with
          st := .settling
          saleFlags := flags
          timers := { (s.point p).timers with settle := none, stopLimit := none }
          frozen := some ⟨p, a, (s.point p).liveVolume, (s.point p).liveMoney, e,
            (s.point p).faults, flags⟩ }).reportLeft a.product with
        dcu := { s.dcu with postings := s.dcu.postings ++
          [⟨p, a.product, (s.point p).liveVolume, (s.point p).liveMoney, false⟩] } })
    ((s.point p).timers.settle.isSome = true →
      ∃ t, exec (.settleTimerExpiry p) s = .next t ∧ settled (s.point p).saleFlags t) ∧
    ((s.point p).timers.stopLimit.isSome = true →
      ∃ t, exec (.stopLimitTimerExpiry p) s = .next t ∧
        settled { (s.point p).saleFlags with flowAfterStop := true } t)

/-- PFAILn moves the main-power status and with it the valve outputs, and no point (R72, R166). -/
def Obligations.PowerFailMovesOnlyTheStatus : Prop :=
  ∀ s : State, s.operating = true →
    exec .pfailnFall s = .next { s with
      pins := { s.pins with pfailn := false }, rcu := { s.rcu with mainPowerHigh := false } } ∧
    exec .pfailnRise s = .next { s with
      pins := { s.pins with pfailn := true }, rcu := { s.rcu with mainPowerHigh := true } } ∧
    (∀ t p, exec .pfailnFall s = .next t → t.mv p = false ∧ t.sv p = false) ∧
    (∀ t p, exec .pfailnRise s = .next t →
      t.sv p = decide ((s.point p).st = .delivering) ∧
      t.mv p = (decide ((s.point p).st = .delivering) && !(s.point p).slowDown))

/-! ## Meter inputs -/

/-- The five pulse modes by their tables (R29 to R33): the change each makes of an old and a new pair. A
change that counts nothing moves the last phase state alone, and the pins of an UNDEFINED point or at the
last phase state only take their levels (R27, R28), as do those of a part that does not operate
(notes/assumptions/12.md, R167 to R169). -/
def Obligations.PulseModesDecodeByTheirTables : Prop :=
  (∀ old new : PhasePair,
    let aRises := old.a = false ∧ new.a = true
    let bRises := old.b = false ∧ new.b = true
    let between := fun (pairs : List ((Bool × Bool) × (Bool × Bool))) =>
      ((old.a, old.b), (new.a, new.b)) ∈ pairs
    let forwardStep := between [((false, false), (true, false)), ((true, false), (true, true)),
      ((true, true), (false, true)), ((false, true), (false, false))]
    let reverseStep := between [((true, false), (false, false)), ((true, true), (true, false)),
      ((false, true), (true, true)), ((false, false), (false, true))]
    let double := old.a ≠ new.a ∧ old.b ≠ new.b
    decodeChange .single old new = (if aRises then .forward else .neither) ∧
    decodeChange .directed old new =
      (if aRises then (if old.b = true then .forward else .reverse) else .neither) ∧
    decodeChange .dual old new =
      (if aRises ∧ ¬bRises then .forward else if bRises ∧ ¬aRises then .reverse else .neither) ∧
    decodeChange .quad4 old new =
      (if forwardStep then .forward else if reverseStep then .reverse
       else if double then .phaseError else .neither) ∧
    decodeChange .quad1 old new =
      (if between [((false, false), (true, false))] then .forward
       else if between [((true, false), (false, false))] then .reverse
       else if double then .phaseError else .neither)) ∧
  (∀ (s : State) (p : PointNo) (a b : Bool) (d : PointDef), ChangeTaken s p a b d .neither →
    exec (.changeOfThePair p a b) s =
      .next ((s.pinsAt p a b).setPoint p ((s.point p).sawPair ⟨a, b⟩))) ∧
  (∀ (s : State) (p : PointNo) (a b : Bool) (d : PointDef), ChangeTaken s p a b d .phaseError →
    (s.point p).st ≠ .delivering → (s.point p).st ≠ .paused → (s.point p).st ≠ .stopping →
    exec (.changeOfThePair p a b) s =
      .next ((s.pinsAt p a b).setPoint p ((s.point p).sawPair ⟨a, b⟩))) ∧
  ∀ (s : State) (p : PointNo) (a b : Bool),
    s.operating = false ∨ (s.point p).defn = none ∨ (s.point p).meter.lastPhase = some ⟨a, b⟩ →
    exec (.changeOfThePair p a b) s = .next (s.pinsAt p a b)

/-- A forward pulse of a delivery: the net count rises by one, volume and money follow from it, the timers
restart, and the marks of the preset are compared. A pulse whose values would need more than 8 digits is
discarded, and the delivery ends with LIMIT (R15, R19, R35, R42, R43, R59, R60). -/
def Obligations.ForwardPulseCounts : Prop :=
  ∀ (s : State) (p : PointNo) (a b : Bool) (d : PointDef) (q : AuthRecord) (r : Product),
    ChangeTaken s p a b d .forward → Delivering s p q r →
    let x := (s.point p).sawPair ⟨a, b⟩
    let net := x.meter.net + 1
    let volume := net * 1000 * 10 ^ s.tally.vs / d.kFactor
    let money := s.chargeOf q r volume
    let becomes := fun y : Point =>
      exec (.changeOfThePair p a b) s = .next ((s.pinsAt p a b).setPoint p y)
    (volume < 10 ^ 8 → money < 10 ^ 8 →
      becomes (((x.countedTo q d net volume money).noFlowAgain d).settleAgain d).compareMarks) ∧
    (10 ^ 8 ≤ volume ∨ 10 ^ 8 ≤ money →
      ((s.point p).st ≠ .stopping → becomes (x.enterStopping .limit)) ∧
      ((s.point p).st = .stopping → becomes (x.settleAgain d)))

/-- A reverse pulse of a delivery raises the reverse count, lowers a net count above zero with its volume
and money, and restarts the settle timer; past the reverse limit it is the fault REVERSE. A phase error
raises its own count, and past its limit it is the fault PULSER (R36, R37). -/
def Obligations.ReversePulsesAndPhaseErrorsCount : Prop :=
  (∀ (s : State) (p : PointNo) (a b : Bool) (d : PointDef) (q : AuthRecord) (r : Product),
    ChangeTaken s p a b d .reverse → Delivering s p q r →
    let x := (s.point p).sawPair ⟨a, b⟩
    let first := decide (x.meter.reverse = 0)
    let counted := { x with
      saleFlags := { x.saleFlags with reverseSeen := x.saleFlags.reverseSeen || first }
      flags := { x.flags with reverse := x.flags.reverse || first }
      meter := { x.meter with reverse := min 65535 (x.meter.reverse + 1) } }
    let net := x.meter.net - 1
    let volume := net * 1000 * 10 ^ s.tally.vs / d.kFactor
    let lowered :=
      if x.meter.net = 0 then counted
      else (counted.countedTo q d net volume (s.chargeOf q r volume)).compareMarks
    let y := lowered.settleAgain d
    exec (.changeOfThePair p a b) s = .next ((s.pinsAt p a b).setPoint p
      (if d.reverseLimit = x.meter.reverse ∧ x.meter.reverse < 65535 then y.reportFault .reverse
       else y))) ∧
  ∀ (s : State) (p : PointNo) (a b : Bool) (d : PointDef), ChangeTaken s p a b d .phaseError →
    (s.point p).st = .delivering ∨ (s.point p).st = .paused ∨ (s.point p).st = .stopping →
    let x := (s.point p).sawPair ⟨a, b⟩
    let y := { x with meter := { x.meter with phaseErrors := min 255 (x.meter.phaseErrors + 1) } }
    exec (.changeOfThePair p a b) s = .next ((s.pinsAt p a b).setPoint p
      (if d.phaseLimit = x.meter.phaseErrors ∧ x.meter.phaseErrors < 255 then y.reportFault .pulser
       else y))

/-- A pulse outside a delivery is stray: it raises the creep count alone, sets CREEP when the count leaves
zero, and at or above a nonzero creep limit it is the fault CREEP (R39, R40). -/
def Obligations.StrayPulsesCountAsCreep : Prop :=
  ∀ (s : State) (p : PointNo) (a b : Bool) (d : PointDef) (change : Change),
    ChangeTaken s p a b d change → change = .forward ∨ change = .reverse →
    (s.point p).st ≠ .delivering → (s.point p).st ≠ .paused → (s.point p).st ≠ .stopping →
    let x := (s.point p).sawPair ⟨a, b⟩
    let count := min 65535 (x.meter.creep + 1)
    let y := { x with
      flags := { x.flags with creep := x.flags.creep || decide (x.meter.creep = 0) }
      meter := { x.meter with creep := count } }
    (d.creepLimit = 0 ∨ count < d.creepLimit →
      exec (.changeOfThePair p a b) s = .next ((s.pinsAt p a b).setPoint p y)) ∧
    (d.creepLimit ≠ 0 → d.creepLimit ≤ count →
      ((s.point p).st ≠ .authorized →
        exec (.changeOfThePair p a b) s =
          .next ((s.pinsAt p a b).setPoint p (y.reportFault .creep))) ∧
      ∀ q, (s.point p).st = .authorized → (s.point p).auth = some q →
        exec (.changeOfThePair p a b) s =
          .next (((s.pinsAt p a b).setPoint p (y.reportFault .creep)).reportLeft q.product))

/-! ## Volume, money and targets -/

/-- The live volume is the whole part of the exact volume (R42); the money is volume times price, at scale
VS + PS, brought to MS with the product's rounding digit, and a larger volume never gives a smaller money
(R59); and the target of a MONEY preset is the least volume whose money reaches the amount (R65). -/
def Obligations.MoneyTargetIsTheLeastVolume : Prop :=
  (∀ net kFactor vs volume, 0 < kFactor →
    (volume ≤ liveVolumeOf net kFactor vs ↔ volume * kFactor ≤ net * 1000 * 10 ^ vs)) ∧
  (∀ volume price vs ps ms rounding, rounding ≤ 9 →
    (ms < vs + ps → liveMoneyOf volume price vs ps ms rounding =
      (volume * price + rounding * 10 ^ (vs + ps - ms - 1)) / 10 ^ (vs + ps - ms)) ∧
    (vs + ps ≤ ms → liveMoneyOf volume price vs ps ms rounding =
      volume * price * 10 ^ (ms - (vs + ps)))) ∧
  (∀ v w price vs ps ms rounding, v ≤ w →
    liveMoneyOf v price vs ps ms rounding ≤ liveMoneyOf w price vs ps ms rounding) ∧
  ∀ amount price vs ps ms rounding, price ≠ 0 →
    let target := moneyTarget amount price vs ps ms rounding
    amount ≤ liveMoneyOf target price vs ps ms rounding ∧
    ∀ v, v < target → liveMoneyOf v price vs ps ms rounding < amount

/-! ## The decimal unit's arithmetic -/

/-- Bringing a magnitude to a scale rounds it by the digit or appends zeros; the storing step keeps the low
digits with the sign, a zero positive, and describes them; and the rounded quotient is the exact quotient
rounded (R59, R81, R82, R101, R102). -/
def Obligations.StoringRoundsAndFits : Prop :=
  (∀ magnitude fromScale toScale rounding : Nat, rounding ≤ 9 →
    (toScale < fromScale → bringTo magnitude fromScale toScale rounding =
      ((magnitude + rounding * 10 ^ (fromScale - toScale - 1)) / 10 ^ (fromScale - toScale),
       decide (magnitude % 10 ^ (fromScale - toScale) ≠ 0))) ∧
    (fromScale ≤ toScale → bringTo magnitude fromScale toScale rounding =
      (magnitude * 10 ^ (toScale - fromScale), false))) ∧
  (∀ (d : TallyReg) (x : Exact) (rounding : Nat),
    let scaled := bringTo x.value.natAbs x.scale d.scale rounding
    let kept := scaled.1 % 10 ^ d.digits
    storingStep d x rounding =
      (if x.value < 0 then -(kept : Int) else kept,
       ⟨decide (x.value < 0 ∧ kept ≠ 0), decide (kept = 0), decide (10 ^ d.digits ≤ scaled.1),
        scaled.2, false⟩)) ∧
  ∀ dividend divisor s1 s2 d rounding : Nat, divisor ≠ 0 → rounding ≤ 9 →
    let numerator := dividend * 10 ^ (s1 + d)
    let denominator := divisor * 10 ^ s2
    roundQuotient (longDivision dividend divisor s1 s2 d) rounding =
      ((10 * numerator + rounding * denominator) / (10 * denominator),
       decide (numerator % denominator ≠ 0))

/-- Each exact result stands for the number its rule names, whatever the scales, and a posting's addition
keeps the low 16 digits of the exact sum (R89, R90, R97 to R99, R104, R107). -/
def Obligations.ExactResultsAreExact : Prop :=
  (∀ r1 r2 : TallyReg,
    (exactAdd r1 r2).rat = r2.rat + r1.rat ∧
    (exactSubtract r1 r2).rat = r2.rat - r1.rat ∧
    (exactMultiply r1 r2).rat = r2.rat * r1.rat) ∧
  (∀ (r : TallyReg) (k : Int), (exactRescale r k).rat = r.rat * (10 : ℚ) ^ k) ∧
  (∀ rs : List TallyReg, (exactSum rs).rat = (rs.map TallyReg.rat).sum) ∧
  ∀ (v : Int) (amount : Nat),
    postingSum v amount =
      (if v + amount < 0 then -(((v + amount).natAbs % 10 ^ 16 : Nat) : Int)
       else (((v + amount).natAbs % 10 ^ 16 : Nat) : Int),
       decide (10 ^ 16 ≤ (v + amount).natAbs))

/-- A decimal value field reads back as it was laid out, at every sign, scale, digit count and magnitude
the encoding admits, and so do the fields of six requests laid out in their order (R177 to R180). -/
def Obligations.PayloadsReadBack : Prop :=
  (∀ (neg : Bool) (scale digits magnitude : Nat) (rest : List Byte),
    1 ≤ digits → digits ≤ 20 → scale ≤ 6 → scale ≤ digits → magnitude < 10 ^ digits →
    readDecimal (decimalField neg scale digits magnitude ++ rest) =
      some (⟨neg, scale, digits, magnitude⟩, rest)) ∧
  (∀ (p : PointNo) (k : ProductNo) (kind : PresetKind) (amount scale : Nat) (tag : BitVec 32),
    amount < 10 ^ 8 → scale ≤ 3 →
    parseAuthorize ([byteOf p.val, byteOf k.val, 3, byteOf kind.code] ++
      decimalField false scale 8 amount ++ bytes32 tag) =
      some ⟨p, k, some ⟨kind, amount, scale⟩, some tag⟩ ∧
    parseAuthorize ([byteOf p.val, byteOf k.val, 2] ++ bytes32 tag) = some ⟨p, k, none, some tag⟩ ∧
    parseAuthorize [byteOf p.val, byteOf k.val, 0] = some ⟨p, k, none, none⟩) ∧
  (∀ (k : ProductNo) (priceScale rounding price scale : Nat),
    priceScale ≤ 4 → rounding ≤ 9 → price < 10 ^ 6 → scale ≤ 4 →
    parseSetProduct ([byteOf k.val, byteOf priceScale, byteOf rounding] ++
      decimalField false scale 6 price) =
      some ⟨k, priceScale, rounding, ⟨false, scale, 6, price⟩⟩ ∧
    parseSetPrice (byteOf k.val :: decimalField false scale 6 price) =
      some ⟨k, ⟨false, scale, 6, price⟩⟩) ∧
  (∀ (d s1 s2 : RegNo) (neg : Bool) (scale digits magnitude rounding : Nat),
    1 ≤ digits → digits ≤ 20 → scale ≤ 6 → scale ≤ digits → magnitude < 10 ^ digits →
    rounding ≤ 9 →
    parseLoad (byteOf d.val :: decimalField neg scale digits magnitude ++ [1, byteOf rounding]) =
      some (.load d (if neg then -(magnitude : Int) else magnitude) scale (some rounding)) ∧
    parseArith .divide [byteOf d.val, byteOf s1.val, byteOf s2.val, 0] =
      some (.divide d s1 s2 none)) ∧
  ∀ n : Nat, 1 ≤ n → n ≤ 65535 → parseClearSale (bytes16 n) = some n

/-! ## Products and prices -/

/-- SET PRODUCT and SET PRICE by their checks, with the record each replies (R50, R52, R53, R181). A report
that leaves the delivering set of a product empty activates its staged price, with PRICE-ACTIVE and the
product in its set; any other report changes nothing (R55, R56). -/
def Obligations.PricesSetStageAndActivate : Prop :=
  (∀ (s : State) (payload : List Byte) (q : SetProductReq),
    s.takes payload → parseSetProduct payload = some q →
    let held := ∃ p a, (s.point p).st.holdsAuth = true ∧ (s.point p).auth = some a ∧
      a.product = q.product
    (held → exec (.setProduct payload) s =
      .next (s.answeredTo payload.length .wrongState Kind.setProduct [])) ∧
    (¬held → q.price.scale ≠ q.priceScale → exec (.setProduct payload) s =
      .next (s.answeredTo payload.length .badField Kind.setProduct [])) ∧
    (¬held → q.price.scale = q.priceScale → exec (.setProduct payload) s =
      .next ((s.setProduct q.product (some
        ⟨q.priceScale, q.rounding, q.price.magnitude, none⟩)).answeredTo payload.length .ok
          Kind.setProduct ([byteOf q.product.val, 1, byteOf q.priceScale, byteOf q.rounding] ++
            decimalField false q.priceScale 6 q.price.magnitude ++ [0])))) ∧
  (∀ (s : State) (payload : List Byte) (q : SetPriceReq),
    s.takes payload → parseSetPrice payload = some q →
    (s.product q.product = none → exec (.setPrice payload) s =
      .next (s.answeredTo payload.length .badField Kind.setPrice [])) ∧
    ∀ r, s.product q.product = some r →
      (q.price.scale ≠ r.priceScale → exec (.setPrice payload) s =
        .next (s.answeredTo payload.length .badField Kind.setPrice [])) ∧
      (q.price.scale = r.priceScale → (∀ p, (s.point p).delivers ≠ some q.product) →
        exec (.setPrice payload) s = .next ((s.setProduct q.product (some
          { r with current := q.price.magnitude, staged := none })).answeredTo payload.length .ok
            Kind.setPrice ([byteOf q.product.val, 1, byteOf r.priceScale, byteOf r.rounding] ++
              decimalField false r.priceScale 6 q.price.magnitude ++ [0, 0]))) ∧
      (q.price.scale = r.priceScale → (∃ p, (s.point p).delivers = some q.product) →
        exec (.setPrice payload) s = .next ((s.setProduct q.product (some
          { r with staged := some q.price.magnitude })).answeredTo payload.length .ok
            Kind.setPrice ([byteOf q.product.val, 1, byteOf r.priceScale, byteOf r.rounding] ++
              decimalField false r.priceScale 6 r.current ++ [1] ++
              decimalField false r.priceScale 6 q.price.magnitude ++ [1])))) ∧
  ∀ (s : State) (k : ProductNo),
    ((∃ p, (s.point p).delivers = some k) → s.reportLeft k = s) ∧
    (s.isStaged k = false → s.reportLeft k = s) ∧
    ∀ r price, (∀ p, (s.point p).delivers ≠ some k) → s.product k = some r → r.staged = some price →
      ∃ t, s.reportLeft k = t ∧ t.product k = some { r with current := price, staged := none } ∧
        (∀ l, l ≠ k → t.product l = s.product l) ∧ t.link.flags.priceActive = true ∧
        (∀ l : ProductNo, t.link.flags.activated.getLsbD l.val =
          (s.link.flags.activated.getLsbD l.val || decide (l = k))) ∧
        t = { s with
          products := t.products
          link := { s.link with flags := { s.link.flags with
            priceActive := true, activated := t.link.flags.activated } } }

/-! ## The Sale Queue -/

/-- COLLECT SALE returns a copy of the oldest record, or of the named point's oldest whatever the state of
the point, with the number of records, and changes nothing (R139, Table 11-8). -/
def Obligations.CollectSaleCopiesTheOldest : Prop :=
  ∀ (s : State) (payload : List Byte) (named : Option PointNo),
    s.takes payload → parseCollectSale payload = some named →
    (∀ before r behind, s.sales.records = before ++ r :: behind →
      (∀ e, e ∈ before → ∃ p, named = some p ∧ e.sale.point ≠ p) →
      (∀ p, named = some p → r.sale.point = p) →
      let f := r.sale
      exec (.collectSale payload) s =
        .next (s.answeredTo payload.length .ok Kind.collectSale
          ([byteOf (r.number / 256), byteOf r.number, byteOf f.point.val, byteOf f.auth.product.val] ++
           decimalField false f.auth.priceScale 6 f.auth.price ++
           decimalField false s.tally.vs 8 f.volume ++ decimalField false s.tally.ms 8 f.money ++
           [byteOf ((if f.auth.preset.isSome then 1 else 0) + (if f.auth.tag.isSome then 2 else 0))] ++
           optionalBytes f.auth.preset (fun q =>
             [byteOf q.kind.code] ++
             decimalField false (if q.kind = .volume then s.tally.vs else s.tally.ms) 8 q.amount ++
             decimalField false s.tally.vs 8 q.target) ++
           optionalBytes f.auth.tag bytes32 ++
           [byteOf f.endReason.code, byteOf f.faults.mask, byteOf f.flags.mask,
            byteOf s.sales.records.length]))) ∧
    ((∀ e, e ∈ s.sales.records → ∃ p, named = some p ∧ e.sale.point ≠ p) →
      exec (.collectSale payload) s =
        .next (s.answeredTo payload.length .noSuchSale Kind.collectSale []))

/-- CLEAR SALE removes the record that holds the number, wherever it stands; a number that no record holds
is NO-SUCH-SALE, and 0 is BAD-FIELD (R140). -/
def Obligations.ClearSaleRemovesTheRecord : Prop :=
  ∀ (s : State) (payload : List Byte), s.takes payload →
    (∀ number before r behind, parseClearSale payload = some number →
      s.sales.records = before ++ r :: behind → r.number = number →
      (∀ e, e ∈ before ∨ e ∈ behind → e.number ≠ number) →
      exec (.clearSale payload) s =
        .next ({ s with sales := ⟨before ++ behind, s.sales.nextSale⟩ }.answeredTo payload.length .ok
          Kind.clearSale ([byteOf (number / 256), byteOf number] ++
            [byteOf (before.length + behind.length)]))) ∧
    (∀ number, parseClearSale payload = some number →
      (∀ e, e ∈ s.sales.records → e.number ≠ number) →
      exec (.clearSale payload) s =
        .next (s.answeredTo payload.length .noSuchSale Kind.clearSale [])) ∧
    (payload = [0, 0] → exec (.clearSale payload) s =
      .next (s.answeredTo payload.length .badField Kind.clearSale []))

/-! ## Host jobs -/

/-- An accepted decimal-unit request becomes the host job, WAITING, with its operand set fixed and the
reply slot PENDING, and a unit in FREE chooses (R79, R92, R115, R118, R147). -/
def Obligations.AcceptedRequestBecomesTheHostJob : Prop :=
  (∀ (c : Instr) (kind : Byte) (payload : List Byte) (req : JobReq) (s : State),
    c.request? = some (kind, payload) → c.jobReq? = some req → s.takes payload → req.admitted s →
    exec c s = .next (State.choose { s.awaiting kind payload with
      dcu := { s.dcu with job := some ⟨req, .waiting, req.operands, [], 0⟩ } })) ∧
  (∀ req : JobReq, req.operands.Nodup) ∧
  ∀ (r d s1 s2 : RegNo) (rounding : Option Nat) (sources : List RegNo) (k value : Int)
    (digits scale seconds : Nat),
    (r ∈ (JobReq.load d value scale rounding).operands ↔ r = d) ∧
    (r ∈ (JobReq.move d s1 rounding).operands ↔ r = d ∨ r = s1) ∧
    (r ∈ (JobReq.add d s1 s2 rounding).operands ↔ r = d ∨ r = s1 ∨ r = s2) ∧
    (r ∈ (JobReq.subtract d s1 s2 rounding).operands ↔ r = d ∨ r = s1 ∨ r = s2) ∧
    (r ∈ (JobReq.multiply d s1 s2 rounding).operands ↔ r = d ∨ r = s1 ∨ r = s2) ∧
    (r ∈ (JobReq.divide d s1 s2 rounding).operands ↔ r = d ∨ r = s1 ∨ r = s2) ∧
    (r ∈ (JobReq.rescale d s1 k rounding).operands ↔ r = d ∨ r = s1) ∧
    (r ∈ (JobReq.compare s1 s2).operands ↔ r = s1 ∨ r = s2) ∧
    (r ∈ (JobReq.sumList d sources rounding).operands ↔ r = d ∨ r ∈ sources) ∧
    (r ∈ (JobReq.readRegister d).operands ↔ r = d) ∧
    (r ∈ (JobReq.declare d digits scale seconds).operands ↔ r = d) ∧
    (JobReq.hold sources seconds).operands = [] ∧ JobReq.releaseHold.operands = []

/-- A decimal-unit request that the unit's own checks fail is refused with the first failure: PROTECTED,
BAD-FIELD or HELD for DECLARE, PROTECTED for a TOTAL destination, WRONG-STATE for SET SITE's scales (R80,
R86, R87, R92). -/
def Obligations.UnitRefusesByItsChecks : Prop :=
  ∀ (c : Instr) (kind : Byte) (payload : List Byte) (req : JobReq) (s : State),
    c.request? = some (kind, payload) → c.jobReq? = some req → s.takes payload →
    let refused := fun status => exec c s = .next (s.answeredTo payload.length status kind [])
    (∀ r digits scale rounding, req = .declare r digits scale rounding →
      if r.val < 20 then refused .protectedReg
      else if digits < scale then refused .badField
      else r ∈ s.dcu.held → refused .held) ∧
    (∀ d, req.destination = some d → d.val < 8 → refused .protectedReg) ∧
    (∀ scales gc, req = .setSite (some scales) gc →
      (∃ p, (s.point p).st ≠ .undefined) ∨ (∃ r : RegNo, r.val < 20 ∧ (s.reg r).value ≠ 0) ∨
        s.sales.records ≠ [] → refused .wrongState)

/-- A unit in FREE takes the oldest eligible posting, else the host job, which takes its operand values
with its first step or resumes with those set aside, else nothing (R117, R118, R120). -/
def Obligations.UnitTakesOldestEligibleElseHostJob : Prop :=
  (∀ (s : State) (q : Posting), s.dcu.eligible q = true ↔
    q.taken = false ∧ ∀ r, r ∈ [volumeTotal q.point, moneyTotal q.point, volumeShift q.product,
      moneyShift q.product] → r ∉ s.dcu.held ∧ ∀ j, s.dcu.job = some j → r ∉ j.operandSet) ∧
  (∀ s : State, s.rcu.running = false ∨ s.dcu.unit ≠ .free → s.choose = s) ∧
  ∀ s : State, s.rcu.running = true → s.dcu.unit = .free →
    (∀ before q behind, s.dcu.postings = before ++ q :: behind →
      (s.dcu.postings.map (·.point)).Nodup → (∀ e, e ∈ before → s.dcu.eligible e = false) →
      s.dcu.eligible q = true →
      s.choose = { s with dcu := { s.dcu with
        unit := .posting, postings := before ++ { q with taken := true } :: behind } }) ∧
    ((∀ q, q ∈ s.dcu.postings → s.dcu.eligible q = false) →
      (∀ j, s.dcu.job = some j → j.phase = .waiting →
        s.choose = { s with dcu := { s.dcu with
          unit := .host
          job := some { j with
            phase := .active, values := j.operandSet.map (fun r => ⟨r, s.reg r⟩) } } }) ∧
      (∀ j values, s.dcu.job = some j → j.phase = .suspended → s.dcu.context = some values →
        s.choose = { s with dcu := { s.dcu with
          unit := .host, job := some { j with phase := .active, values := values }, context := none } }) ∧
      (s.dcu.job = none → s.choose = s))

/-- The completion of a storing job writes the exact result through the storing step and replies the flags,
the suspension count and the value as stored; a DIVIDE stores its rounded quotient (R83, R84, R95 to R99,
R101 to R104, R107). -/
def Obligations.CompletionStoresTheResult : Prop :=
  ∀ (s : State) (j : HostJob), Working s j →
    let stores := fun (kind : Byte) (d : RegNo) (result : Int × ResultFlags) =>
      exec .hostJobCompletion s =
        .next (((s.setReg d { s.reg d with value := result.1 }).completedWith kind
          ([byteOf result.2.mask, byteOf j.suspensions] ++
            decimalField (decide (result.1 < 0)) (s.reg d).scale (s.reg d).digits
              result.1.natAbs)).endStretch).choose
    (∀ kind d x rounding, j.req.exact? s.reg = some (kind, d, x, rounding) →
      stores kind d (storingStep (s.reg d) x (rounding.getD (s.reg d).rounding))) ∧
    ∀ d s1 s2 rounding, j.req = .divide d s1 s2 rounding → (s.reg s1).value ≠ 0 →
      let quotient := roundQuotient (longDivision (s.reg s2).value.natAbs (s.reg s1).value.natAbs
        (s.reg s1).scale (s.reg s2).scale (s.reg d).scale) (rounding.getD (s.reg d).rounding)
      stores Kind.divide d (fitStore (s.reg d)
        (decide ((s.reg s1).value < 0 ↔ ¬ (s.reg s2).value < 0)) quotient)

/-- A DIVIDE by zero completes with DIVZERO and OVERFLOW, its destination and the value in the reply left
as they were (R100). -/
def Obligations.DivideByZeroLeavesTheDestination : Prop :=
  ∀ (s : State) (j : HostJob) (d s1 s2 : RegNo) (rounding : Option Nat), Working s j →
    j.req = .divide d s1 s2 rounding → (s.reg s1).value = 0 →
    exec .hostJobCompletion s =
      .next ((s.completedWith Kind.divide
        ([byteOf ((if (s.reg d).value < 0 then 1 else 0) + (if (s.reg d).value = 0 then 2 else 0) +
            4 + 16), byteOf j.suspensions] ++
          decimalField (decide ((s.reg d).value < 0)) (s.reg d).scale (s.reg d).digits
            (s.reg d).value.natAbs)).endStretch).choose

/-- COMPARE replies NEGATIVE or ZERO by the order of the numbers its sources hold, with no value, and
writes no register (R106). -/
def Obligations.CompareReportsTheOrder : Prop :=
  ∀ (s : State) (j : HostJob) (s1 s2 : RegNo), Working s j → j.req = .compare s1 s2 →
    exec .hostJobCompletion s =
      .next ((s.completedWith Kind.compare
        [if (s.reg s1).rat < (s.reg s2).rat then 1 else if (s.reg s1).rat = (s.reg s2).rat then 2 else 0,
         byteOf j.suspensions]).endStretch).choose

/-- READ REGISTER and DECLARE reply the register's class, format and value, DECLARE making it zero at its new
format; SET SITE applies the parts it carries, the scales zeroing registers 0 to 19; HOLD replaces the held
set and starts its timer; RELEASE HOLD empties it (R77, R85, R86, R88, R126, R127, Table 11-12). -/
def Obligations.OtherJobsComplete : Prop :=
  (∀ (s : State) (j : HostJob) (r : RegNo), Working s j →
    let class_ := if r.val < 8 then 0 else if r.val < 20 then 1 else 2
    (j.req = .readRegister r →
      let x := s.reg r
      exec .hostJobCompletion s =
        .next ((s.completedWith Kind.readRegister
          ([byteOf class_, byteOf x.digits, byteOf x.scale, byteOf x.rounding] ++
            decimalField (decide (x.value < 0)) x.scale x.digits x.value.natAbs ++
            [byteOf ((if x.value < 0 then 1 else 0) + (if x.value = 0 then 2 else 0)),
             byteOf j.suspensions])).endStretch).choose) ∧
    ∀ digits scale rounding, j.req = .declare r digits scale rounding →
      exec .hostJobCompletion s =
        .next (((s.setReg r ⟨digits, scale, rounding, 0⟩).completedWith Kind.declare
          ([byteOf class_, byteOf digits, byteOf scale, byteOf rounding] ++
            decimalField false scale digits 0 ++ [2, byteOf j.suspensions])).endStretch).choose) ∧
  ∀ (s : State) (j : HostJob), Working s j →
    (∀ scales gc, j.req = .setSite scales gc →
      ∃ t : State,
        (scales = none → t.tally = s.tally) ∧
        (∀ vs ms, scales = some (vs, ms) → t.tally.vs = vs ∧ t.tally.ms = ms ∧
          ∀ r : RegNo, t.reg r =
            if r.val < 20 then ⟨16, if r.val % 2 = 0 then vs else ms, 5, 0⟩ else s.reg r) ∧
        t = { s with
          tally := t.tally, link := { s.link with generalCallEnable := gc.getD s.link.generalCallEnable } } ∧
        exec .hostJobCompletion s =
          .next ((t.completedWith Kind.setSite [byteOf t.tally.vs, byteOf t.tally.ms,
            if t.link.generalCallEnable then 1 else 0]).endStretch).choose) ∧
    (∀ rs seconds, j.req = .hold rs seconds →
      ∃ held : List RegNo, (∀ r, r ∈ held ↔ r ∈ rs) ∧ held.Pairwise (· < ·) ∧
        exec .hostJobCompletion s =
          .next (((({ s with dcu := { s.dcu with held := held, holdTimer := some seconds } } :
            State).completedWith Kind.hold (byteOf held.length :: held.map (fun r => byteOf r.val) ++
              [byteOf seconds, byteOf j.suspensions])).endStretch).choose)) ∧
    (j.req = .releaseHold →
      exec .hostJobCompletion s =
        .next (((({ s with dcu := { s.dcu with held := [], holdTimer := none } } :
          State).completedWith Kind.releaseHold (byteOf s.dcu.held.length ::
            s.dcu.held.map (fun r => byteOf r.val))).endStretch).choose))

/-- The hold timer's expiry empties the held set with HOLD-EXPIRED; a boundary sets the host job aside for
an eligible posting, counting the suspension; each then lets the unit choose (R119, R128). That an expiry
without a running timer and a boundary at which nothing suspends the job change nothing rests on the model's
log (notes/assumptions/5.md, notes/assumptions/17.md). -/
def Obligations.HoldExpiryAndSuspension : Prop :=
  (∀ s : State, s.operating = true →
    (s.dcu.holdTimer.isSome = true → exec .holdTimerExpiry s = .next (State.choose { s with
      dcu := { s.dcu with held := [], holdTimer := none }
      link := { s.link with flags := { s.link.flags with holdExpired := true } } })) ∧
    (s.dcu.holdTimer = none → exec .holdTimerExpiry s = .next s)) ∧
  ∀ (s : State) (j : HostJob), Working s j →
    let oneStep := (∃ rs n, j.req = .hold rs n) ∨ j.req = .releaseHold ∨
      (∃ v gc, j.req = .setSite v gc) ∨
      ∃ d s1 s2 n, j.req = .divide d s1 s2 n ∧ (s.reg s1).value = 0
    ((∃ q, q ∈ s.dcu.postings ∧ s.dcu.eligible q = true) → ¬oneStep →
      exec .suspension s = .next (State.choose { s with dcu := { s.dcu with
        unit := .free
        context := some j.values
        job := some { j with
          phase := .suspended, values := [], suspensions := min 255 (j.suspensions + 1) } } })) ∧
    ((∀ q, q ∈ s.dcu.postings → s.dcu.eligible q = false) ∨ oneStep → exec .suspension s = .next s)

/-! ## Postings and the commit -/

/-- The commit of the TAKEN posting is one event: the four sums, the sale's number and the next, the record
at the end of the queue, the point out of SETTLING with SALE, the posting gone, ROLLOVER, the journal empty
and the unit free to choose; the number is the first from the next sale number that no record holds (R89,
R90, R123, R136, R137). -/
def Obligations.CommitIsOneEvent : Prop :=
  ∀ (s : State) (q : Posting) (f : FrozenSale), s.operating = true → SalesLaw s →
    q ∈ s.dcu.postings → q.taken = true → (∀ e, e ∈ s.dcu.postings → e.taken = true → e = q) →
    (s.point q.point).frozen = some f →
    let sum := fun (r : RegNo) (amount : Nat) => postingSum (s.reg r).value amount
    ∃ (n : Nat) (u : State), exec .postingCommit s = .next u.choose ∧
      (∃ skipped, n = (if s.sales.nextSale + skipped ≤ 65535 then s.sales.nextSale + skipped
          else s.sales.nextSale + skipped - 65535) ∧
        (∀ e, e ∈ s.sales.records → e.number ≠ n) ∧
        ∀ i, i < skipped → ∃ e, e ∈ s.sales.records ∧
          e.number = if s.sales.nextSale + i ≤ 65535 then s.sales.nextSale + i
            else s.sales.nextSale + i - 65535) ∧
      (∀ r, u.reg r =
        if r = volumeTotal q.point ∨ r = volumeShift q.product then
          { s.reg r with value := (sum r q.volume).1 }
        else if r = moneyTotal q.point ∨ r = moneyShift q.product then
          { s.reg r with value := (sum r q.money).1 }
        else s.reg r) ∧
      u = { s with
        tally := { s.tally with regs := u.tally.regs }
        sales := ⟨s.sales.records ++ [⟨n, f⟩], if n = 65535 then 1 else n + 1⟩
        points := s.points.set q.point { s.point q.point with
          st := if (s.point q.point).faults = ⟨false, false, false⟩ then .idle else .faulted
          auth := none
          frozen := none
          flags := { (s.point q.point).flags with sale := true } }
        dcu := { s.dcu with
          unit := .free, journal := none
          postings := s.dcu.postings.filter (fun e => decide (e.point ≠ q.point)) }
        link := { s.link with flags := { s.link.flags with
          rollover := s.link.flags.rollover ||
            (sum (volumeTotal q.point) q.volume).2 || (sum (moneyTotal q.point) q.money).2 ||
            (sum (volumeShift q.product) q.volume).2 || (sum (moneyShift q.product) q.money).2 } } }

/-! ## Power and starts -/

/-- A loss of main power, or the assertion of RESETn on a powered part, with no commit cut, brings the
volatile state to the values of R169 and keeps the retained state; unpowered, RESETn moves alone (R167 to
R169, Table 10-1). That an unpowered part stands at those values is notes/assumptions/14.md; the volatile
items R169 gives no value, the handle levels, the last phase states, the bus address and the main-power
status, stay by notes/assumptions/30.md; the pins and straps by notes/assumptions/12.md and
notes/assumptions/11.md. -/
def Obligations.LossOfPowerClearsVolatileState : Prop :=
  (∀ s : State,
    let first : State := { s with
      link := { s.link with
        requestSlot := []
        replySlot := .empty
        priorReplyLost := false
        generalCallBuffer := []
        generalCall := none
        flags := ⟨false, false, false, false, false, false, 0⟩
        stretch := none
        bus := match s.link.stretch with
          | some n => .sent (List.replicate n 0xFF)
          | none => s.link.bus }
      rcu := { s.rcu with running := false }
      points := s.points.map (fun x => { x with
        timers := ⟨none, none, none, none⟩
        flags := ⟨false, false, false, false, false, false, false, false, false⟩ })
      dcu := { s.dcu with
        unit := .free
        postings := s.dcu.postings.map (fun q => { q with taken := false })
        job := none
        context := none
        held := []
        holdTimer := none } }
    (s.pins.vdd = true → exec (.mainPowerLoss none) s =
      .next { first with pins := { s.pins with vdd := false } }) ∧
    (s.pins.vdd = true → s.pins.resetn = true → exec (.resetnAsserted none) s =
      .next { first with pins := { s.pins with resetn := false } })) ∧
  ∀ (s : State) (cut : CommitCut) (held : Bool) (env : StartEnv),
    (s.pins.vdd = false → exec (.mainPowerLoss cut) s = .next s) ∧
    (s.pins.vdd = true → exec (.mainPowerReturn held env) s = .next s) ∧
    (s.pins.resetn = false → exec (.resetnAsserted cut) s = .next s) ∧
    (s.pins.resetn = true → exec (.resetnReleased env) s = .next s) ∧
    (s.pins.vdd = false → s.pins.resetn = true → exec (.resetnAsserted cut) s =
      .next { s with pins := { s.pins with resetn := false } }) ∧
    (s.pins.vdd = false → s.pins.resetn = false → exec (.resetnReleased env) s =
      .next { s with pins := { s.pins with resetn := true, straps := env.straps } })

/-- A start that finds a bad check word comes to RUNNING at the cold defaults with RETAIN-LOST; CLEAR
RETAINED, taken only with every point UNDEFINED, comes there without it (R165, R170, R172, R175). That it
comes there without RETAIN-LOST, as R175 says against R156, is the model's reading
(notes/assumptions/32.md). -/
def Obligations.ColdStartComesToTheDefaults : Prop :=
  (∀ (s : State) (env : StartEnv) (held : Bool),
    s.pins.vdd = false → s.pins.resetn = true → env.upTo = none →
    s.rcu.checkGood = false ∨ held = false →
    exec (.mainPowerReturn held env) s = .next (({ s with
      pins := { s.pins with vdd := true, straps := env.straps } } : State).firstStep.coldStarted true)) ∧
  (∀ (s : State) (env : StartEnv),
    s.pins.vdd = true → s.pins.resetn = false → s.firstStep = s → env.upTo = none →
    s.rcu.checkGood = false →
    exec (.resetnReleased env) s = .next (({ s with
      pins := { s.pins with resetn := true, straps := env.straps } } : State).coldStarted true)) ∧
  ∀ (s : State) (env : StartEnv), s.takes [] →
    ((∀ p, (s.point p).st = .undefined) → env.upTo = none →
      exec (.clearRetained [] env) s = .next (({ s.awaiting Kind.clearRetained [] with
        pins := { s.pins with straps := env.straps } } : State).firstStep.coldStarted false)) ∧
    ((∃ p, (s.point p).st ≠ .undefined) →
      exec (.clearRetained [] env) s =
        .next (s.answeredTo 0 .wrongState Kind.clearRetained []))

/-- A start that finds a good check word and an EMPTY journal settles, lapses and activates by the warm
path and comes to RUNNING: at the return of power, the release of RESETn, and RESTART, which is refused
while a delivery is in progress (R26, R168 to R174). -/
def Obligations.WarmStartSettlesAndLapses : Prop :=
  (∀ (s : State) (env : StartEnv), PostingLaw s → s.dcu.journal = none → s.rcu.checkGood = true →
    env.upTo = none →
    (s.pins.vdd = false → s.pins.resetn = true →
      ∃ t, exec (.mainPowerReturn true env) s = .next t ∧
        WarmStarted ({ s with pins := { s.pins with vdd := true, straps := env.straps } } :
          State).firstStep t) ∧
    (s.pins.vdd = true → s.pins.resetn = false → s.firstStep = s →
      ∃ t, exec (.resetnReleased env) s = .next t ∧
        WarmStarted { s with pins := { s.pins with resetn := true, straps := env.straps } } t) ∧
    (s.takes [] → (∀ p, (s.point p).st ≠ .delivering ∧ (s.point p).st ≠ .paused ∧
        (s.point p).st ≠ .stopping) →
      ∃ t, exec (.restart [] none env) s = .next t ∧
        WarmStarted ({ s.awaiting Kind.restart [] with
          pins := { s.pins with straps := env.straps } } : State).firstStep t)) ∧
  ∀ (s : State) (cut : CommitCut) (env : StartEnv), s.takes [] →
    (∃ p, (s.point p).st = .delivering ∨ (s.point p).st = .paused ∨ (s.point p).st = .stopping) →
    exec (.restart [] cut env) s = .next (s.answeredTo 0 .wrongState Kind.restart [])

/-- Wherever a loss of main power, RESETn or an accepted RESTART cuts the commit of the TAKEN posting, the
next warm start leaves what the whole commit would have, if the commit record was whole in the journal: the
tally store, the Sale Queue, the point out of SETTLING, with SALE if the cut found it there still, the
posting gone, ROLLOVER and the journal EMPTY. If it was not whole, all stands as it was (R124, R164, R171,
R174). Where a cut may fall among the commit's writes, of which the point's is the seventh, is the model's
choice (notes/assumptions/10.md), and so is that warm step 1 is one switch (notes/assumptions/34.md). -/
def Obligations.CommitSurvivesAnyCut : Prop :=
  ∀ (s : State) (q : Posting) (cut : CommitCut) (env : StartEnv), UnitLaw s → SalesLaw s →
    s.operating = true → q ∈ s.dcu.postings → q.taken = true → env.upTo = none →
    let sum := fun (r : RegNo) (amount : Nat) => postingSum (s.reg r).value amount
    let rollover := (sum (volumeTotal q.point) q.volume).2 || (sum (moneyTotal q.point) q.money).2 ||
      (sum (volumeShift q.product) q.volume).2 || (sum (moneyShift q.product) q.money).2
    let survived := fun t : State =>
      t.dcu.journal = none ∧
      (cut = none → t.tally = s.tally ∧ t.sales = s.sales ∧ t.link.flags.rollover = false ∧
        (t.point q.point).st = .settling ∧ (t.point q.point).frozen = (s.point q.point).frozen ∧
        (t.point q.point).flags.sale = false ∧ ∃ e, e ∈ t.dcu.postings ∧ e.point = q.point) ∧
      ∀ made, cut = some made → ∃ z, exec .postingCommit s = .next z ∧
        t.tally = z.tally ∧ t.sales = z.sales ∧ t.link.flags.rollover = rollover ∧
        (t.point q.point).st = (z.point q.point).st ∧ (t.point q.point).auth = none ∧
        (t.point q.point).frozen = none ∧ (t.point q.point).flags.sale = decide (made < 7) ∧
        ∀ e, e ∈ t.dcu.postings → e.point ≠ q.point
    (∃ t u, exec (.mainPowerLoss cut) s = .next t ∧ exec (.mainPowerReturn true env) t = .next u ∧
      survived u) ∧
    (∃ t u, exec (.resetnAsserted cut) s = .next t ∧ exec (.resetnReleased env) t = .next u ∧
      survived u) ∧
    (s.takes [] → (∀ p, (s.point p).st ≠ .delivering ∧ (s.point p).st ≠ .paused ∧
        (s.point p).st ≠ .stopping) →
      ∃ u, exec (.restart [] cut env) s = .next u ∧ survived u)

/-- A start interrupted at any switch of its sequence, by a loss of main power or by RESETn, and followed by
a start that runs to its end, leaves the retained state that the uninterrupted start leaves. It reports
RETAIN-LOST when it finds the check word still bad or the retain-lost mark set (R173). The start interrupted
is any of the four: the return of main power, RESETn from its second step, RESTART, and CLEAR RETAINED
(R168, R174, R175). Where the switches fall is the model's choice (notes/assumptions/28.md,
notes/assumptions/29.md, notes/assumptions/34.md), and a CLEAR RETAINED leaves the mark clear by
notes/assumptions/32.md. -/
def Obligations.InterruptedStartIsTakenUp : Prop :=
  ∀ (s : State) (straps : BitVec 2) (switches : Nat),
    let takenUp := fun start : StartEnv → Instr =>
      ∃ t whole, exec (start ⟨straps, some switches⟩) s = .next t ∧
        exec (start ⟨straps, none⟩) s = .next whole ∧
        (∃ u v, exec (.mainPowerLoss none) t = .next u ∧
          exec (.mainPowerReturn true ⟨straps, none⟩) u = .next v ∧ SameRetained v whole ∧
          v.link.flags.retainLost = (!t.rcu.checkGood || t.rcu.retainLostMark)) ∧
        ∃ u v, exec (.resetnAsserted none) t = .next u ∧
          exec (.resetnReleased ⟨straps, none⟩) u = .next v ∧ SameRetained v whole ∧
          v.link.flags.retainLost = (!t.rcu.checkGood || t.rcu.retainLostMark)
    (s.pins.vdd = false → s.pins.resetn = true → ∀ held, takenUp (.mainPowerReturn held)) ∧
    (s.pins.vdd = true → s.pins.resetn = false → s.firstStep = s → takenUp .resetnReleased) ∧
    (s.takes [] → (∀ p, (s.point p).st ≠ .delivering ∧ (s.point p).st ≠ .paused ∧
        (s.point p).st ≠ .stopping) → takenUp (.restart [] none)) ∧
    (s.takes [] → (∀ p, (s.point p).st = .undefined) → takenUp (.clearRetained []))

/-! ## The laws that every step keeps -/

/-- The laws hold at reset, which finds every point UNDEFINED, the tally store and the Sale Queue at their
cold defaults, and RESTARTED and RETAIN-LOST set. That reset is the first power-up is the model's choice
(notes/assumptions/1.md). -/
def Obligations.LawsHoldAtReset : Prop :=
  TallyLaw State.reset ∧ PointsLaw State.reset ∧ PostingLaw State.reset ∧ SalesLaw State.reset ∧
  StagedLaw State.reset ∧ UnitLaw State.reset ∧ ChargeLaw State.reset ∧
  State.reset.tally = Tally.cold ∧ State.reset.sales = ⟨[], 1⟩ ∧
  State.reset.link.flags = ⟨true, true, false, false, false, false, 0⟩ ∧
  ∀ p, (State.reset.point p).st = .undefined

/-- Every register keeps its digits and scale, and no TOTAL register is negative (R76, R77). -/
def Obligations.StepKeepsTallyLaw : Prop :=
  ∀ s t : State, TallyLaw s → step s = .next t → TallyLaw t

/-- A point holds the records of its state and no others, and its timers run in their states alone, while
the part is RUNNING always there (R8, R10, R11, R13, R15, R18, R19, R132, R169); and a staged
price waits only while its delivering set holds a point (R53). -/
def Obligations.StepKeepsPointsAndStagedLaws : Prop :=
  (∀ s t : State, PointsLaw s → step s = .next t → PointsLaw t) ∧
  ∀ s t : State, StagedLaw s → step s = .next t → StagedLaw t

/-- A point has one posting exactly while it is in SETTLING, as long as the check word is good; and it is
good in a RUNNING part (R116, R133, R165). -/
def Obligations.StepKeepsPostingLaw : Prop :=
  ∀ s t : State, PostingLaw s → step s = .next t → PostingLaw t

/-- The Sale Queue keeps within its bounds, and its numbers stay distinct; while the check word is good it
keeps room for every authorization (R135 to R137, R165). -/
def Obligations.StepKeepsSalesLaw : Prop :=
  ∀ s t : State, SalesLaw s → step s = .next t → SalesLaw t

/-- The decimal unit works on one piece of work at a time, and no operand of a job that has begun moves
(R93, R110, R114 to R120). The held set has at most 8 registers, each once, no target of a TAKEN posting is
held, and the hold timer runs exactly while the set is not empty (R125, R128). -/
def Obligations.StepKeepsUnitLaw : Prop :=
  ∀ s t : State, UnitLaw s → step s = .next t → UnitLaw t

/-- While the check word is good, as it is in a RUNNING part, the live volume is what the net count gives and
the money what the volume costs; the frozen sale carries both (R42, R44, R59, R132, R165). -/
def Obligations.StepKeepsChargeLaw : Prop :=
  ∀ s t : State, ChargeLaw s → step s = .next t → ChargeLaw t

end
end

