-- ==== Sys2Proof/Laws/State.lean ====
section
/-! SUPPORT. What each update of the state leaves in each field, true by rfl, so that no proof unfolds a
record update; and the reading of a point, product or register after a write. -/

namespace Sys2Proof.Machine

/-! `State.setPoint` -/

@[simp] theorem State.setPoint_pins (s : State) (p : PointNo) (x : Point) : (s.setPoint p x).pins = s.pins := rfl
@[simp] theorem State.setPoint_link (s : State) (p : PointNo) (x : Point) : (s.setPoint p x).link = s.link := rfl
@[simp] theorem State.setPoint_rcu (s : State) (p : PointNo) (x : Point) : (s.setPoint p x).rcu = s.rcu := rfl
@[simp] theorem State.setPoint_points (s : State) (p : PointNo) (x : Point) : (s.setPoint p x).points = s.points.set p x := rfl
@[simp] theorem State.setPoint_products (s : State) (p : PointNo) (x : Point) : (s.setPoint p x).products = s.products := rfl
@[simp] theorem State.setPoint_tally (s : State) (p : PointNo) (x : Point) : (s.setPoint p x).tally = s.tally := rfl
@[simp] theorem State.setPoint_dcu (s : State) (p : PointNo) (x : Point) : (s.setPoint p x).dcu = s.dcu := rfl
@[simp] theorem State.setPoint_sales (s : State) (p : PointNo) (x : Point) : (s.setPoint p x).sales = s.sales := rfl
@[simp] theorem State.setPoint_pending (s : State) (p : PointNo) (x : Point) : (s.setPoint p x).pending = s.pending := rfl

/-! `State.setProduct` -/

@[simp] theorem State.setProduct_pins (s : State) (k : ProductNo) (x : Option Product) : (s.setProduct k x).pins = s.pins := rfl
@[simp] theorem State.setProduct_link (s : State) (k : ProductNo) (x : Option Product) : (s.setProduct k x).link = s.link := rfl
@[simp] theorem State.setProduct_rcu (s : State) (k : ProductNo) (x : Option Product) : (s.setProduct k x).rcu = s.rcu := rfl
@[simp] theorem State.setProduct_points (s : State) (k : ProductNo) (x : Option Product) : (s.setProduct k x).points = s.points := rfl
@[simp] theorem State.setProduct_products (s : State) (k : ProductNo) (x : Option Product) : (s.setProduct k x).products = s.products.set k x := rfl
@[simp] theorem State.setProduct_tally (s : State) (k : ProductNo) (x : Option Product) : (s.setProduct k x).tally = s.tally := rfl
@[simp] theorem State.setProduct_dcu (s : State) (k : ProductNo) (x : Option Product) : (s.setProduct k x).dcu = s.dcu := rfl
@[simp] theorem State.setProduct_sales (s : State) (k : ProductNo) (x : Option Product) : (s.setProduct k x).sales = s.sales := rfl
@[simp] theorem State.setProduct_pending (s : State) (k : ProductNo) (x : Option Product) : (s.setProduct k x).pending = s.pending := rfl

/-! `State.modLink` -/

@[simp] theorem State.modLink_pins (s : State) (f : Link → Link) : (s.modLink f).pins = s.pins := rfl
@[simp] theorem State.modLink_link (s : State) (f : Link → Link) : (s.modLink f).link = f s.link := rfl
@[simp] theorem State.modLink_rcu (s : State) (f : Link → Link) : (s.modLink f).rcu = s.rcu := rfl
@[simp] theorem State.modLink_points (s : State) (f : Link → Link) : (s.modLink f).points = s.points := rfl
@[simp] theorem State.modLink_products (s : State) (f : Link → Link) : (s.modLink f).products = s.products := rfl
@[simp] theorem State.modLink_tally (s : State) (f : Link → Link) : (s.modLink f).tally = s.tally := rfl
@[simp] theorem State.modLink_dcu (s : State) (f : Link → Link) : (s.modLink f).dcu = s.dcu := rfl
@[simp] theorem State.modLink_sales (s : State) (f : Link → Link) : (s.modLink f).sales = s.sales := rfl
@[simp] theorem State.modLink_pending (s : State) (f : Link → Link) : (s.modLink f).pending = s.pending := rfl

/-! `State.modPins` -/

@[simp] theorem State.modPins_pins (s : State) (f : Pins → Pins) : (s.modPins f).pins = f s.pins := rfl
@[simp] theorem State.modPins_link (s : State) (f : Pins → Pins) : (s.modPins f).link = s.link := rfl
@[simp] theorem State.modPins_rcu (s : State) (f : Pins → Pins) : (s.modPins f).rcu = s.rcu := rfl
@[simp] theorem State.modPins_points (s : State) (f : Pins → Pins) : (s.modPins f).points = s.points := rfl
@[simp] theorem State.modPins_products (s : State) (f : Pins → Pins) : (s.modPins f).products = s.products := rfl
@[simp] theorem State.modPins_tally (s : State) (f : Pins → Pins) : (s.modPins f).tally = s.tally := rfl
@[simp] theorem State.modPins_dcu (s : State) (f : Pins → Pins) : (s.modPins f).dcu = s.dcu := rfl
@[simp] theorem State.modPins_sales (s : State) (f : Pins → Pins) : (s.modPins f).sales = s.sales := rfl
@[simp] theorem State.modPins_pending (s : State) (f : Pins → Pins) : (s.modPins f).pending = s.pending := rfl

/-! `State.modRcu` -/

@[simp] theorem State.modRcu_pins (s : State) (f : Rcu → Rcu) : (s.modRcu f).pins = s.pins := rfl
@[simp] theorem State.modRcu_link (s : State) (f : Rcu → Rcu) : (s.modRcu f).link = s.link := rfl
@[simp] theorem State.modRcu_rcu (s : State) (f : Rcu → Rcu) : (s.modRcu f).rcu = f s.rcu := rfl
@[simp] theorem State.modRcu_points (s : State) (f : Rcu → Rcu) : (s.modRcu f).points = s.points := rfl
@[simp] theorem State.modRcu_products (s : State) (f : Rcu → Rcu) : (s.modRcu f).products = s.products := rfl
@[simp] theorem State.modRcu_tally (s : State) (f : Rcu → Rcu) : (s.modRcu f).tally = s.tally := rfl
@[simp] theorem State.modRcu_dcu (s : State) (f : Rcu → Rcu) : (s.modRcu f).dcu = s.dcu := rfl
@[simp] theorem State.modRcu_sales (s : State) (f : Rcu → Rcu) : (s.modRcu f).sales = s.sales := rfl
@[simp] theorem State.modRcu_pending (s : State) (f : Rcu → Rcu) : (s.modRcu f).pending = s.pending := rfl

/-! `State.modDcu` -/

@[simp] theorem State.modDcu_pins (s : State) (f : Dcu → Dcu) : (s.modDcu f).pins = s.pins := rfl
@[simp] theorem State.modDcu_link (s : State) (f : Dcu → Dcu) : (s.modDcu f).link = s.link := rfl
@[simp] theorem State.modDcu_rcu (s : State) (f : Dcu → Dcu) : (s.modDcu f).rcu = s.rcu := rfl
@[simp] theorem State.modDcu_points (s : State) (f : Dcu → Dcu) : (s.modDcu f).points = s.points := rfl
@[simp] theorem State.modDcu_products (s : State) (f : Dcu → Dcu) : (s.modDcu f).products = s.products := rfl
@[simp] theorem State.modDcu_tally (s : State) (f : Dcu → Dcu) : (s.modDcu f).tally = s.tally := rfl
@[simp] theorem State.modDcu_dcu (s : State) (f : Dcu → Dcu) : (s.modDcu f).dcu = f s.dcu := rfl
@[simp] theorem State.modDcu_sales (s : State) (f : Dcu → Dcu) : (s.modDcu f).sales = s.sales := rfl
@[simp] theorem State.modDcu_pending (s : State) (f : Dcu → Dcu) : (s.modDcu f).pending = s.pending := rfl

/-! `State.modTally` -/

@[simp] theorem State.modTally_pins (s : State) (f : Tally → Tally) : (s.modTally f).pins = s.pins := rfl
@[simp] theorem State.modTally_link (s : State) (f : Tally → Tally) : (s.modTally f).link = s.link := rfl
@[simp] theorem State.modTally_rcu (s : State) (f : Tally → Tally) : (s.modTally f).rcu = s.rcu := rfl
@[simp] theorem State.modTally_points (s : State) (f : Tally → Tally) : (s.modTally f).points = s.points := rfl
@[simp] theorem State.modTally_products (s : State) (f : Tally → Tally) : (s.modTally f).products = s.products := rfl
@[simp] theorem State.modTally_tally (s : State) (f : Tally → Tally) : (s.modTally f).tally = f s.tally := rfl
@[simp] theorem State.modTally_dcu (s : State) (f : Tally → Tally) : (s.modTally f).dcu = s.dcu := rfl
@[simp] theorem State.modTally_sales (s : State) (f : Tally → Tally) : (s.modTally f).sales = s.sales := rfl
@[simp] theorem State.modTally_pending (s : State) (f : Tally → Tally) : (s.modTally f).pending = s.pending := rfl

/-! `State.modSales` -/

@[simp] theorem State.modSales_pins (s : State) (f : SaleQueue → SaleQueue) : (s.modSales f).pins = s.pins := rfl
@[simp] theorem State.modSales_link (s : State) (f : SaleQueue → SaleQueue) : (s.modSales f).link = s.link := rfl
@[simp] theorem State.modSales_rcu (s : State) (f : SaleQueue → SaleQueue) : (s.modSales f).rcu = s.rcu := rfl
@[simp] theorem State.modSales_points (s : State) (f : SaleQueue → SaleQueue) : (s.modSales f).points = s.points := rfl
@[simp] theorem State.modSales_products (s : State) (f : SaleQueue → SaleQueue) : (s.modSales f).products = s.products := rfl
@[simp] theorem State.modSales_tally (s : State) (f : SaleQueue → SaleQueue) : (s.modSales f).tally = s.tally := rfl
@[simp] theorem State.modSales_dcu (s : State) (f : SaleQueue → SaleQueue) : (s.modSales f).dcu = s.dcu := rfl
@[simp] theorem State.modSales_sales (s : State) (f : SaleQueue → SaleQueue) : (s.modSales f).sales = f s.sales := rfl
@[simp] theorem State.modSales_pending (s : State) (f : SaleQueue → SaleQueue) : (s.modSales f).pending = s.pending := rfl

/-! `State.setReg` -/

@[simp] theorem State.setReg_pins (s : State) (r : RegNo) (x : TallyReg) : (s.setReg r x).pins = s.pins := rfl
@[simp] theorem State.setReg_link (s : State) (r : RegNo) (x : TallyReg) : (s.setReg r x).link = s.link := rfl
@[simp] theorem State.setReg_rcu (s : State) (r : RegNo) (x : TallyReg) : (s.setReg r x).rcu = s.rcu := rfl
@[simp] theorem State.setReg_points (s : State) (r : RegNo) (x : TallyReg) : (s.setReg r x).points = s.points := rfl
@[simp] theorem State.setReg_products (s : State) (r : RegNo) (x : TallyReg) : (s.setReg r x).products = s.products := rfl
@[simp] theorem State.setReg_tally (s : State) (r : RegNo) (x : TallyReg) : (s.setReg r x).tally = { s.tally with regs := s.tally.regs.set r x } := rfl
@[simp] theorem State.setReg_dcu (s : State) (r : RegNo) (x : TallyReg) : (s.setReg r x).dcu = s.dcu := rfl
@[simp] theorem State.setReg_sales (s : State) (r : RegNo) (x : TallyReg) : (s.setReg r x).sales = s.sales := rfl
@[simp] theorem State.setReg_pending (s : State) (r : RegNo) (x : TallyReg) : (s.setReg r x).pending = s.pending := rfl

/-! `State.setBus` -/

@[simp] theorem State.setBus_pins (s : State) (v : BusView) : (s.setBus v).pins = s.pins := rfl
@[simp] theorem State.setBus_link (s : State) (v : BusView) : (s.setBus v).link = { s.link with bus := v } := rfl
@[simp] theorem State.setBus_rcu (s : State) (v : BusView) : (s.setBus v).rcu = s.rcu := rfl
@[simp] theorem State.setBus_points (s : State) (v : BusView) : (s.setBus v).points = s.points := rfl
@[simp] theorem State.setBus_products (s : State) (v : BusView) : (s.setBus v).products = s.products := rfl
@[simp] theorem State.setBus_tally (s : State) (v : BusView) : (s.setBus v).tally = s.tally := rfl
@[simp] theorem State.setBus_dcu (s : State) (v : BusView) : (s.setBus v).dcu = s.dcu := rfl
@[simp] theorem State.setBus_sales (s : State) (v : BusView) : (s.setBus v).sales = s.sales := rfl
@[simp] theorem State.setBus_pending (s : State) (v : BusView) : (s.setBus v).pending = s.pending := rfl

/-! ## Reading after a write -/

@[simp] theorem State.point_setPoint (s : State) (p : PointNo) (x : Point) :
    (s.setPoint p x).point p = x := by
  simp [State.point]

theorem State.point_setPoint_of_ne (s : State) {p q : PointNo} (x : Point) (h : q ≠ p) :
    (s.setPoint p x).point q = s.point q := by
  have : (p : Nat) ≠ q := fun e => h (Fin.ext e.symm)
  simp [State.point, Vector.getElem_set_ne, this]

/-- Reading any point after a write, by cases on its number. -/
theorem State.point_setPoint_ite (s : State) (p q : PointNo) (x : Point) :
    (s.setPoint p x).point q = if q = p then x else s.point q := by
  split
  · next h => subst h; simp
  · next h => exact s.point_setPoint_of_ne x h

@[simp] theorem State.product_setProduct (s : State) (k : ProductNo) (x : Option Product) :
    (s.setProduct k x).product k = x := by
  simp [State.product]

theorem State.product_setProduct_ite (s : State) (k l : ProductNo) (x : Option Product) :
    (s.setProduct k x).product l = if l = k then x else s.product l := by
  by_cases h : l = k
  · subst h; simp
  · have : (k : Nat) ≠ l := fun e => h (Fin.ext e.symm)
    simp [State.product, h, Vector.getElem_set_ne, this]

@[simp] theorem State.reg_setReg (s : State) (r : RegNo) (x : TallyReg) : (s.setReg r x).reg r = x := by
  simp [State.reg]

theorem State.reg_setReg_ite (s : State) (r q : RegNo) (x : TallyReg) :
    (s.setReg r x).reg q = if q = r then x else s.reg q := by
  by_cases h : q = r
  · subst h; simp
  · have : (r : Nat) ≠ q := fun e => h (Fin.ext e.symm)
    simp [State.reg, h, Vector.getElem_set_ne, this]

/-! ## The projections that read a block -/

@[simp] theorem State.product_setPoint (s : State) (p : PointNo) (x : Point) (l : ProductNo) : (s.setPoint p x).product l = s.product l := rfl
@[simp] theorem State.reg_setPoint (s : State) (p : PointNo) (x : Point) (r : RegNo) : (s.setPoint p x).reg r = s.reg r := rfl
@[simp] theorem State.point_setProduct (s : State) (k : ProductNo) (x : Option Product) (q : PointNo) : (s.setProduct k x).point q = s.point q := rfl
@[simp] theorem State.reg_setProduct (s : State) (k : ProductNo) (x : Option Product) (r : RegNo) : (s.setProduct k x).reg r = s.reg r := rfl
@[simp] theorem State.point_modLink (s : State) (f : Link → Link) (q : PointNo) : (s.modLink f).point q = s.point q := rfl
@[simp] theorem State.product_modLink (s : State) (f : Link → Link) (l : ProductNo) : (s.modLink f).product l = s.product l := rfl
@[simp] theorem State.reg_modLink (s : State) (f : Link → Link) (r : RegNo) : (s.modLink f).reg r = s.reg r := rfl
@[simp] theorem State.point_modPins (s : State) (f : Pins → Pins) (q : PointNo) : (s.modPins f).point q = s.point q := rfl
@[simp] theorem State.product_modPins (s : State) (f : Pins → Pins) (l : ProductNo) : (s.modPins f).product l = s.product l := rfl
@[simp] theorem State.reg_modPins (s : State) (f : Pins → Pins) (r : RegNo) : (s.modPins f).reg r = s.reg r := rfl
@[simp] theorem State.point_modRcu (s : State) (f : Rcu → Rcu) (q : PointNo) : (s.modRcu f).point q = s.point q := rfl
@[simp] theorem State.product_modRcu (s : State) (f : Rcu → Rcu) (l : ProductNo) : (s.modRcu f).product l = s.product l := rfl
@[simp] theorem State.reg_modRcu (s : State) (f : Rcu → Rcu) (r : RegNo) : (s.modRcu f).reg r = s.reg r := rfl
@[simp] theorem State.point_modDcu (s : State) (f : Dcu → Dcu) (q : PointNo) : (s.modDcu f).point q = s.point q := rfl
@[simp] theorem State.product_modDcu (s : State) (f : Dcu → Dcu) (l : ProductNo) : (s.modDcu f).product l = s.product l := rfl
@[simp] theorem State.reg_modDcu (s : State) (f : Dcu → Dcu) (r : RegNo) : (s.modDcu f).reg r = s.reg r := rfl
@[simp] theorem State.point_modTally (s : State) (f : Tally → Tally) (q : PointNo) : (s.modTally f).point q = s.point q := rfl
@[simp] theorem State.product_modTally (s : State) (f : Tally → Tally) (l : ProductNo) : (s.modTally f).product l = s.product l := rfl
@[simp] theorem State.point_modSales (s : State) (f : SaleQueue → SaleQueue) (q : PointNo) : (s.modSales f).point q = s.point q := rfl
@[simp] theorem State.product_modSales (s : State) (f : SaleQueue → SaleQueue) (l : ProductNo) : (s.modSales f).product l = s.product l := rfl
@[simp] theorem State.reg_modSales (s : State) (f : SaleQueue → SaleQueue) (r : RegNo) : (s.modSales f).reg r = s.reg r := rfl
@[simp] theorem State.point_setReg (s : State) (r : RegNo) (x : TallyReg) (q : PointNo) : (s.setReg r x).point q = s.point q := rfl
@[simp] theorem State.product_setReg (s : State) (r : RegNo) (x : TallyReg) (l : ProductNo) : (s.setReg r x).product l = s.product l := rfl
@[simp] theorem State.point_setBus (s : State) (v : BusView) (q : PointNo) : (s.setBus v).point q = s.point q := rfl
@[simp] theorem State.product_setBus (s : State) (v : BusView) (l : ProductNo) : (s.setBus v).product l = s.product l := rfl
@[simp] theorem State.reg_setBus (s : State) (v : BusView) (r : RegNo) : (s.setBus v).reg r = s.reg r := rfl

/-- A state is its fields. -/
theorem State.eq_of_fields {s t : State} (h1 : s.pins = t.pins) (h2 : s.link = t.link) (h3 : s.rcu = t.rcu)
    (h4 : s.points = t.points) (h5 : s.products = t.products) (h6 : s.tally = t.tally)
    (h7 : s.dcu = t.dcu) (h8 : s.sales = t.sales) (h9 : s.pending = t.pending) : s = t := by
  cases s; cases t; simp_all

/-- The points agree when every point does. -/
theorem State.points_eq {s t : State} (h : ∀ p, s.point p = t.point p) : s.points = t.points := by
  apply Vector.ext
  intro i hi
  exact h ⟨i, hi⟩

/-- The registers agree when every register does. -/
theorem State.regs_eq {s t : State} (h : ∀ r, s.reg r = t.reg r) : s.tally.regs = t.tally.regs := by
  apply Vector.ext
  intro i hi
  exact h ⟨i, hi⟩

/-- The products agree when every product does. -/
theorem State.products_eq {s t : State} (h : ∀ k, s.product k = t.product k) :
    s.products = t.products := by
  apply Vector.ext
  intro i hi
  exact h ⟨i, hi⟩

end Sys2Proof.Machine
end

