-- ==== Sys2Proof/Laws/Link.lean ====
section
/-! SUPPORT. What the link does with a request, once for all kinds: turned away, refused for its fields, or
handed to its owner with its frame kept; and how an owner's effect and answer combine. -/

namespace Sys2Proof.Machine

/-! ## Frames -/

theorem byteSum_append (a b : List Byte) : byteSum (a ++ b) = byteSum a + byteSum b := by
  induction a with
  | nil => simp [byteSum]
  | cons x r ih => simp [byteSum, ih, BitVec.add_assoc]

/-- A list followed by the negation of its sum sums to zero, which is how every check byte is made. -/
theorem byteSum_closed (l : List Byte) : byteSum (l ++ [-(byteSum l)]) = 0 := by
  rw [byteSum_append]
  show byteSum l + (-(byteSum l) + 0#8) = 0
  rw [BitVec.add_zero, BitVec.add_right_neg]
  rfl

@[simp] theorem requestFrame_length (kind : Byte) (payload : List Byte) :
    (requestFrame kind payload).length = payload.length + 3 := by
  simp [requestFrame]

theorem byteSum_requestFrame (kind : Byte) (payload : List Byte) :
    byteSum (requestFrame kind payload) = 0 := by
  exact byteSum_closed _

/-! ## The state that an owner finds -/

theorem State.takeWrite_requestFrame (s : State) (kind : Byte) (payload : List Byte)
    (h : payload.length ≤ Config.maxRequestPayload) :
    s.takeWrite (requestFrame kind payload) = s.awaiting kind payload := by
  have h1 : payload.length + 3 ≤ Config.requestSlotBytes := by
    simp only [Config.maxRequestPayload, Config.requestSlotBytes] at *; omega
  simp [State.takeWrite, State.awaiting, State.modLink, List.take_of_length_le, h1]

@[simp] theorem State.awaiting_point (s : State) (k : Byte) (b : List Byte) (p : PointNo) :
    (s.awaiting k b).point p = s.point p := rfl
@[simp] theorem State.awaiting_product (s : State) (k : Byte) (b : List Byte) (p : ProductNo) :
    (s.awaiting k b).product p = s.product p := rfl
@[simp] theorem State.awaiting_reg (s : State) (k : Byte) (b : List Byte) (r : RegNo) :
    (s.awaiting k b).reg r = s.reg r := rfl
@[simp] theorem State.awaiting_pins (s : State) (k : Byte) (b : List Byte) :
    (s.awaiting k b).pins = s.pins := rfl
@[simp] theorem State.awaiting_rcu (s : State) (k : Byte) (b : List Byte) :
    (s.awaiting k b).rcu = s.rcu := rfl
@[simp] theorem State.awaiting_points (s : State) (k : Byte) (b : List Byte) :
    (s.awaiting k b).points = s.points := rfl
@[simp] theorem State.awaiting_products (s : State) (k : Byte) (b : List Byte) :
    (s.awaiting k b).products = s.products := rfl
@[simp] theorem State.awaiting_tally (s : State) (k : Byte) (b : List Byte) :
    (s.awaiting k b).tally = s.tally := rfl
@[simp] theorem State.awaiting_dcu (s : State) (k : Byte) (b : List Byte) :
    (s.awaiting k b).dcu = s.dcu := rfl
@[simp] theorem State.awaiting_sales (s : State) (k : Byte) (b : List Byte) :
    (s.awaiting k b).sales = s.sales := rfl
@[simp] theorem State.awaiting_pending (s : State) (k : Byte) (b : List Byte) :
    (s.awaiting k b).pending = s.pending := rfl
@[simp] theorem State.awaiting_flags (s : State) (k : Byte) (b : List Byte) :
    (s.awaiting k b).link.flags = s.link.flags := rfl

/-! ## An owner's effect passes the kept frame by -/

@[simp] theorem State.awaiting_setPoint (s : State) (k : Byte) (b : List Byte) (p : PointNo) (x : Point) :
    (s.awaiting k b).setPoint p x = (s.setPoint p x).awaiting k b := rfl
@[simp] theorem State.awaiting_modPoint (s : State) (k : Byte) (b : List Byte) (p : PointNo)
    (f : Point → Point) : (s.awaiting k b).modPoint p f = (s.modPoint p f).awaiting k b := rfl
@[simp] theorem State.awaiting_setProduct (s : State) (k : Byte) (b : List Byte) (l : ProductNo)
    (x : Option Product) : (s.awaiting k b).setProduct l x = (s.setProduct l x).awaiting k b := rfl
@[simp] theorem State.awaiting_modSales (s : State) (k : Byte) (b : List Byte)
    (f : SaleQueue → SaleQueue) : (s.awaiting k b).modSales f = (s.modSales f).awaiting k b := rfl
@[simp] theorem State.awaiting_modDcu (s : State) (k : Byte) (b : List Byte) (f : Dcu → Dcu) :
    (s.awaiting k b).modDcu f = (s.modDcu f).awaiting k b := rfl

@[simp] theorem State.awaiting_deliveringEmpty (s : State) (k : Byte) (b : List Byte) (l : ProductNo) :
    (s.awaiting k b).deliveringEmpty l = s.deliveringEmpty l := rfl
@[simp] theorem State.awaiting_holdingEmpty (s : State) (k : Byte) (b : List Byte) (l : ProductNo) :
    (s.awaiting k b).holdingEmpty l = s.holdingEmpty l := rfl
@[simp] theorem State.awaiting_salesOf (s : State) (k : Byte) (b : List Byte) (p : PointNo) :
    (s.awaiting k b).salesOf p = s.salesOf p := rfl

theorem State.awaiting_activate (s : State) (k : Byte) (b : List Byte) (l : ProductNo) :
    (s.awaiting k b).activate l = (s.activate l).awaiting k b := by
  simp only [State.activate, State.awaiting_product]
  split
  · split <;> rfl
  · rfl

theorem State.awaiting_reportLeft (s : State) (k : Byte) (b : List Byte) (l : ProductNo) :
    (s.awaiting k b).reportLeft l = (s.reportLeft l).awaiting k b := by
  simp only [State.reportLeft, State.awaiting_deliveringEmpty, State.awaiting_activate]
  split <;> rfl

theorem State.awaiting_movePoint (s : State) (k : Byte) (b : List Byte) (p : PointNo)
    (f : Point → Point) : (s.awaiting k b).movePoint p f = (s.movePoint p f).awaiting k b := by
  simp only [State.movePoint, State.awaiting_point, State.awaiting_modPoint, State.awaiting_reportLeft]
  split
  · rfl
  · split <;> rfl

theorem State.awaiting_stopEveryPoint (s : State) (k : Byte) (b : List Byte) :
    (s.awaiting k b).stopEveryPoint = s.stopEveryPoint.awaiting k b := by
  simp only [State.stopEveryPoint, allPoints, List.foldl_cons, List.foldl_nil,
    State.awaiting_movePoint]

theorem State.awaiting_chooseFree (s : State) (k : Byte) (b : List Byte) :
    (s.awaiting k b).chooseFree = s.chooseFree.awaiting k b := by
  simp only [State.chooseFree, State.awaiting_dcu]
  split
  · rfl
  · split
    · simp only [State.takeJob]; split <;> rfl
    · rfl

theorem State.awaiting_choose (s : State) (k : Byte) (b : List Byte) :
    (s.awaiting k b).choose = s.choose.awaiting k b := by
  show (if (s.rcu.running && decide (s.dcu.unit = .free)) = true then (s.awaiting k b).chooseFree
    else s.awaiting k b) = _
  rw [State.awaiting_chooseFree, State.choose]
  cases s.rcu.running && decide (s.dcu.unit = .free) <;> rfl

/-! ## Answers -/

@[simp] theorem State.awaiting_answer (s : State) (k : Byte) (b : List Byte) (st : Status)
    (reply : List Byte) : (s.awaiting k b).answer st k reply = s.answeredTo b.length st k reply := rfl

@[simp] theorem State.awaiting_refuse (s : State) (k : Byte) (b : List Byte) (st : Status) :
    (s.awaiting k b).refuse st k = s.answeredTo b.length st k [] := rfl

@[simp] theorem State.awaiting_ok (s : State) (k : Byte) (b : List Byte) (reply : List Byte) :
    (s.awaiting k b).ok k reply = s.answeredTo b.length .ok k reply := rfl

@[simp] theorem State.awaiting_doneWith (s : State) (k : Byte) (b : List Byte) :
    doneWith k (s.awaiting k b) = s.answeredTo b.length .ok k [] := rfl

/-- A request naming a point goes on only where the point is defined (R2). -/
theorem awaiting_onDefined (s : State) (k : Byte) (b : List Byte) (p : PointNo) (f : State → State) :
    onDefined k p f (s.awaiting k b) =
      if (s.point p).st = .undefined then s.answeredTo b.length .pointUndefined k []
      else f (s.awaiting k b) := rfl

/-! ## The three outcomes of a request -/

/-- Not acknowledged, a request changes only what the bus shows (R146). -/
theorem request_unacknowledged {α : Type} {kind : Byte} {payload : List Byte}
    {parse : List Byte → Option α} {owner : α → State → State} {s : State}
    (h : s.acceptsWrite = false) :
    request kind payload parse owner s = .next (s.setBus .notAcknowledged) := by
  simp [request, h]

/-- Taken, a request whose fields fail is answered BAD-FIELD (R151). -/
theorem request_badField {α : Type} {kind : Byte} {payload : List Byte}
    {parse : List Byte → Option α} {owner : α → State → State} {s : State}
    (h : s.takes payload) (hf : parse payload = none) :
    request kind payload parse owner s = .next (s.answeredTo payload.length .badField kind []) := by
  simp [request, h.1, State.takeWrite_requestFrame _ _ _ h.2, Nat.not_lt.mpr h.2, dispatch, hf]

/-- Taken, a request whose fields pass goes to its owner with its frame kept (R156). -/
theorem request_owner {α : Type} {kind : Byte} {payload : List Byte}
    {parse : List Byte → Option α} {owner : α → State → State} {s : State} {x : α}
    (h : s.takes payload) (hf : parse payload = some x) :
    request kind payload parse owner s = .next (owner x (s.awaiting kind payload)) := by
  simp [request, h.1, State.takeWrite_requestFrame _ _ _ h.2, Nat.not_lt.mpr h.2, dispatch, hf]

/-- Every outcome of a request. -/
theorem request_cases {α : Type} (kind : Byte) (payload : List Byte)
    (parse : List Byte → Option α) (owner : α → State → State) (s : State) :
    request kind payload parse owner s = .next (s.setBus .notAcknowledged) ∨
    (∃ u, u.link.replySlot = .pending ∧ u.link.priorReplyLost =
        (s.link.priorReplyLost || s.link.replySlot.isReady) ∧
      u = { s with link := u.link } ∧ u.link.flags = s.link.flags ∧
      u.link.generalCallEnable = s.link.generalCallEnable ∧ s.acceptsWrite = true ∧
      (request kind payload parse owner s = .next (u.refuse .badField kind) ∨
       request kind payload parse owner s = .next (u.refuse .frameError kind) ∨
       ∃ x, parse payload = some x ∧ request kind payload parse owner s = .next (owner x u))) := by
  by_cases h : s.acceptsWrite = true
  · right
    refine ⟨s.takeWrite (requestFrame kind payload), rfl, rfl, rfl, rfl, rfl, h, ?_⟩
    by_cases hl : Config.maxRequestPayload < payload.length
    · right; left; simp [request, h, hl]
    · cases hp : parse payload with
      | none => left; simp [request, h, hl, dispatch, hp]
      | some x => right; right; exact ⟨x, rfl, by simp [request, h, hl, dispatch, hp]⟩
  · left; exact request_unacknowledged (by simpa using h)

end Sys2Proof.Machine
end

