-- ==== Sys2Proof/Laws/Ops.lean ====
section
/-! SUPPORT. What each shared operation can do, said once: which blocks it leaves alone, and what it does to
the block it changes. -/

namespace Sys2Proof.Machine

/-! ## Point updates and reports to the Product Table -/

theorem State.modPoint_point (s : State) (p q : PointNo) (f : Point → Point) :
    (s.modPoint p f).point q = if q = p then f (s.point p) else s.point q :=
  s.point_setPoint_ite p q (f (s.point p))

/-- The part flags after an activation at product k (R55, R56). -/
theorem State.activate_rest (s : State) (k : ProductNo) :
    s.activate k = { s with
      products := (s.activate k).products
      link := { s.link with flags := (s.activate k).link.flags } } := by
  unfold State.activate
  split
  · split <;> rfl
  · rfl

theorem State.reportLeft_rest (s : State) (k : ProductNo) :
    s.reportLeft k = { s with
      products := (s.reportLeft k).products
      link := { s.link with flags := (s.reportLeft k).link.flags } } := by
  unfold State.reportLeft
  split
  · exact s.activate_rest k
  · rfl

/-- A transition of point p changes that point, the products and the part flags alone. -/
theorem State.movePoint_rest (s : State) (p : PointNo) (f : Point → Point) :
    s.movePoint p f = { s with
      points := s.points.set p (f (s.point p))
      products := (s.movePoint p f).products
      link := { s.link with flags := (s.movePoint p f).link.flags } } := by
  unfold State.movePoint
  split
  · rfl
  · dsimp only
    split
    · rfl
    · rw [State.reportLeft_rest]; rfl

@[simp] theorem State.activate_point (s : State) (k : ProductNo) (p : PointNo) :
    (s.activate k).point p = s.point p := by rw [State.activate_rest]; rfl
@[simp] theorem State.activate_points (s : State) (k : ProductNo) :
    (s.activate k).points = s.points := by rw [State.activate_rest]
@[simp] theorem State.reportLeft_point (s : State) (k : ProductNo) (p : PointNo) :
    (s.reportLeft k).point p = s.point p := by rw [State.reportLeft_rest]; rfl
@[simp] theorem State.reportLeft_points (s : State) (k : ProductNo) :
    (s.reportLeft k).points = s.points := by rw [State.reportLeft_rest]
@[simp] theorem State.reportLeft_pins (s : State) (k : ProductNo) :
    (s.reportLeft k).pins = s.pins := by rw [State.reportLeft_rest]
@[simp] theorem State.reportLeft_rcu (s : State) (k : ProductNo) :
    (s.reportLeft k).rcu = s.rcu := by rw [State.reportLeft_rest]
@[simp] theorem State.reportLeft_tally (s : State) (k : ProductNo) :
    (s.reportLeft k).tally = s.tally := by rw [State.reportLeft_rest]
@[simp] theorem State.reportLeft_dcu (s : State) (k : ProductNo) :
    (s.reportLeft k).dcu = s.dcu := by rw [State.reportLeft_rest]
@[simp] theorem State.reportLeft_sales (s : State) (k : ProductNo) :
    (s.reportLeft k).sales = s.sales := by rw [State.reportLeft_rest]
@[simp] theorem State.reportLeft_pending (s : State) (k : ProductNo) :
    (s.reportLeft k).pending = s.pending := by rw [State.reportLeft_rest]
@[simp] theorem State.reportLeft_replySlot (s : State) (k : ProductNo) :
    (s.reportLeft k).link.replySlot = s.link.replySlot := by rw [State.reportLeft_rest]

/-- What a transition of point p leaves at every point. -/
theorem State.movePoint_point (s : State) (p q : PointNo) (f : Point → Point) :
    (s.movePoint p f).point q = if q = p then f (s.point p) else s.point q := by
  rw [State.movePoint_rest]
  exact s.point_setPoint_ite p q (f (s.point p))

@[simp] theorem State.movePoint_pins (s : State) (p : PointNo) (f : Point → Point) :
    (s.movePoint p f).pins = s.pins := by rw [State.movePoint_rest]
@[simp] theorem State.movePoint_rcu (s : State) (p : PointNo) (f : Point → Point) :
    (s.movePoint p f).rcu = s.rcu := by rw [State.movePoint_rest]
@[simp] theorem State.movePoint_tally (s : State) (p : PointNo) (f : Point → Point) :
    (s.movePoint p f).tally = s.tally := by rw [State.movePoint_rest]
@[simp] theorem State.movePoint_reg (s : State) (p : PointNo) (f : Point → Point) (r : RegNo) :
    (s.movePoint p f).reg r = s.reg r := by rw [State.movePoint_rest]; rfl
@[simp] theorem State.movePoint_dcu (s : State) (p : PointNo) (f : Point → Point) :
    (s.movePoint p f).dcu = s.dcu := by rw [State.movePoint_rest]
@[simp] theorem State.movePoint_sales (s : State) (p : PointNo) (f : Point → Point) :
    (s.movePoint p f).sales = s.sales := by rw [State.movePoint_rest]
@[simp] theorem State.movePoint_pending (s : State) (p : PointNo) (f : Point → Point) :
    (s.movePoint p f).pending = s.pending := by rw [State.movePoint_rest]
@[simp] theorem State.movePoint_replySlot (s : State) (p : PointNo) (f : Point → Point) :
    (s.movePoint p f).link.replySlot = s.link.replySlot := by rw [State.movePoint_rest]

/-- A transition that leaves the point in the delivering set it stood in, or finds it in none, is no
report (R49): only the point changes. -/
theorem State.movePoint_quiet (s : State) (p : PointNo) (f : Point → Point)
    (h : (s.point p).delivers = none ∨ (f (s.point p)).delivers = (s.point p).delivers) :
    s.movePoint p f = s.setPoint p (f (s.point p)) := by
  unfold State.movePoint State.modPoint
  rcases h with h | h
  · rw [h]
  · cases hd : (s.point p).delivers with
    | none => rfl
    | some k => simp [h, hd]

/-- A transition out of the delivering set of k is reported to the Product Table (R49, R55). -/
theorem State.movePoint_left (s : State) (p : PointNo) (f : Point → Point) (k : ProductNo)
    (h : (s.point p).delivers = some k) (h' : (f (s.point p)).delivers ≠ some k) :
    s.movePoint p f = (s.setPoint p (f (s.point p))).reportLeft k := by
  unfold State.movePoint State.modPoint
  simp [h, h']

/-! ## Every point at once -/

theorem State.stopEveryPoint_eq (s : State) :
    s.stopEveryPoint = (((s.movePoint 0 Point.emergency).movePoint 1 Point.emergency).movePoint 2
      Point.emergency).movePoint 3 Point.emergency := rfl

theorem State.stopEveryPoint_point (s : State) (p : PointNo) :
    s.stopEveryPoint.point p = (s.point p).emergency := by
  rw [State.stopEveryPoint_eq]
  simp only [State.movePoint_point]
  fin_cases p <;> simp

/-- Stopping every point changes points, products and part flags alone. -/
theorem State.stopEveryPoint_rest (s : State) :
    s.stopEveryPoint = { s with
      points := s.stopEveryPoint.points
      products := s.stopEveryPoint.products
      link := { s.link with flags := s.stopEveryPoint.link.flags } } := by
  apply State.eq_of_fields <;>
    simp only [State.stopEveryPoint_eq, State.movePoint_pins, State.movePoint_rcu,
      State.movePoint_tally, State.movePoint_dcu, State.movePoint_sales, State.movePoint_pending]
  rw [State.movePoint_rest, State.movePoint_rest, State.movePoint_rest, State.movePoint_rest]

theorem State.modAllPoints_eq (s : State) (f : PointNo → Point → Point) :
    s.modAllPoints f = (((s.modPoint 0 (f 0)).modPoint 1 (f 1)).modPoint 2 (f 2)).modPoint 3 (f 3) := rfl

theorem State.modAllPoints_point (s : State) (f : PointNo → Point → Point) (p : PointNo) :
    (s.modAllPoints f).point p = f p (s.point p) := by
  rw [State.modAllPoints_eq]
  simp only [State.modPoint_point]
  fin_cases p <;> simp

/-- A change of every point changes the points alone. -/
theorem State.modAllPoints_rest (s : State) (f : PointNo → Point → Point) :
    s.modAllPoints f = { s with points := (s.modAllPoints f).points } := rfl

/-! ## The decimal unit's choice -/

theorem State.takeJob_rest (s : State) (j : HostJob) :
    s.takeJob j = { s with dcu := (s.takeJob j).dcu } := by
  unfold State.takeJob; split <;> rfl

theorem State.chooseFree_rest (s : State) : s.chooseFree = { s with dcu := s.chooseFree.dcu } := by
  unfold State.chooseFree
  split
  · rfl
  · split
    · exact s.takeJob_rest _
    · rfl

/-- The choice changes the decimal unit alone (R118). -/
theorem State.choose_rest (s : State) : s.choose = { s with dcu := s.choose.dcu } := by
  unfold State.choose
  split
  · exact s.chooseFree_rest
  · rfl

@[simp] theorem State.choose_pins (s : State) : s.choose.pins = s.pins := by rw [State.choose_rest]
@[simp] theorem State.choose_link (s : State) : s.choose.link = s.link := by rw [State.choose_rest]
@[simp] theorem State.choose_rcu (s : State) : s.choose.rcu = s.rcu := by rw [State.choose_rest]
@[simp] theorem State.choose_points (s : State) : s.choose.points = s.points := by
  rw [State.choose_rest]
@[simp] theorem State.choose_point (s : State) (p : PointNo) : s.choose.point p = s.point p := by
  rw [State.choose_rest]; rfl
@[simp] theorem State.choose_products (s : State) : s.choose.products = s.products := by
  rw [State.choose_rest]
@[simp] theorem State.choose_product (s : State) (k : ProductNo) : s.choose.product k = s.product k := by
  rw [State.choose_rest]; rfl
@[simp] theorem State.choose_tally (s : State) : s.choose.tally = s.tally := by rw [State.choose_rest]
@[simp] theorem State.choose_reg (s : State) (r : RegNo) : s.choose.reg r = s.reg r := by
  rw [State.choose_rest]; rfl
@[simp] theorem State.choose_sales (s : State) : s.choose.sales = s.sales := by rw [State.choose_rest]
@[simp] theorem State.choose_pending (s : State) : s.choose.pending = s.pending := by
  rw [State.choose_rest]

/-- The four ways a choice can end (R118). -/
theorem State.choose_cases (s : State) :
    s.choose = s ∨
    (s.rcu.running = true ∧ s.dcu.unit = .free ∧
      ((∃ q, s.dcu.postings.find? s.dcu.eligible = some q ∧
          s.choose = s.modDcu (fun d => { d with
            unit := .posting, postings := markTaken q.point d.postings })) ∨
       (s.dcu.postings.find? s.dcu.eligible = none ∧ ∃ j, s.dcu.job = some j ∧
          s.choose = s.takeJob j))) := by
  unfold State.choose
  split
  · next h =>
    simp only [Bool.and_eq_true, decide_eq_true_eq] at h
    unfold State.chooseFree
    split
    · next q hq => exact Or.inr ⟨h.1, h.2, Or.inl ⟨q, hq, rfl⟩⟩
    · next hq =>
      split
      · next j hj => exact Or.inr ⟨h.1, h.2, Or.inr ⟨hq, j, hj, rfl⟩⟩
      · exact Or.inl rfl
  · exact Or.inl rfl

/-- A unit that is at work chooses nothing. -/
theorem State.choose_busy (s : State) (h : s.dcu.unit ≠ .free) : s.choose = s := by
  simp [State.choose, h]

@[simp] theorem State.choose_job_of_none (s : State) (h : s.dcu.job = none) :
    s.choose.dcu.job = none := by
  rcases s.choose_cases with e | ⟨-, -, ⟨q, -, e⟩ | ⟨-, j, hj, -⟩⟩
  · rw [e]; exact h
  · rw [e]; exact h
  · simp [h] at hj

/-- A choice neither makes a host job nor ends one. -/
theorem State.choose_job_isSome (s : State) : s.choose.dcu.job.isSome = s.dcu.job.isSome := by
  rcases s.choose_cases with e | ⟨-, -, ⟨q, -, e⟩ | ⟨-, j, hj, e⟩⟩
  · rw [e]
  · rw [e]; rfl
  · rw [e, hj]; unfold State.takeJob; split <;> simp [hj]

@[simp] theorem State.choose_journal (s : State) : s.choose.dcu.journal = s.dcu.journal := by
  rcases s.choose_cases with e | ⟨-, -, ⟨q, -, e⟩ | ⟨-, j, hj, e⟩⟩
  · rw [e]
  · rw [e]; rfl
  · rw [e]; unfold State.takeJob; split <;> rfl

/-! ## Submission and settlement -/

theorem State.submit_rest (s : State) (p : PointNo) :
    s.submit p = { s with dcu := { s.dcu with postings := (s.submit p).dcu.postings } } := by
  unfold State.submit; split <;> rfl

@[simp] theorem State.submit_point (s : State) (p q : PointNo) : (s.submit p).point q = s.point q := by
  rw [State.submit_rest]; rfl

theorem State.submit_postings (s : State) (p : PointNo) :
    (s.submit p).dcu.postings = s.dcu.postings ++ ((s.point p).frozen.map FrozenSale.posting).toList := by
  unfold State.submit
  cases (s.point p).frozen <;> simp

/-- Settling a point changes the points, the products, the part flags and the decimal unit alone. -/
theorem State.settlePoint_rest (s : State) (p : PointNo) (f : Point → Point) :
    s.settlePoint p f = { s with
      points := s.points.set p ((f (s.point p)).enterSettling p)
      products := (s.settlePoint p f).products
      link := { s.link with flags := (s.settlePoint p f).link.flags }
      dcu := (s.settlePoint p f).dcu } := by
  unfold State.settlePoint
  rw [State.choose_rest, State.submit_rest, State.movePoint_rest]

/-! ## The commit -/

@[simp] theorem State.writeReg_point (s : State) (r : RegNo) (v : Int) (p : PointNo) :
    (s.writeReg r v).point p = s.point p := rfl

/-- The register writes of a commit change the tally store alone. -/
theorem runSteps_writes_rest (ws : List RegWrite) (s : State) :
    runSteps (ws.map (fun w s => s.writeReg w.reg w.value)) s =
      { s with tally := (runSteps (ws.map (fun w s => s.writeReg w.reg w.value)) s).tally } := by
  induction ws generalizing s with
  | nil => rfl
  | cons w r ih =>
    have := ih (s.writeReg w.reg w.value)
    simp only [runSteps, List.map_cons, List.foldl_cons] at this ⊢
    rw [this]; rfl

theorem runSteps_append (a b : List (State → State)) (s : State) :
    runSteps (a ++ b) s = runSteps b (runSteps a s) := by
  simp [runSteps]

theorem runSteps_cons (f : State → State) (b : List (State → State)) (s : State) :
    runSteps (f :: b) s = runSteps b (f s) := rfl

@[simp] theorem runSteps_nil (s : State) : runSteps [] s = s := rfl

/-- What holds of a state and is kept by every step of a list holds at its end. -/
theorem runSteps_keeps {P : State → Prop} {fs : List (State → State)} {s : State}
    (hs : P s) (hf : ∀ f, f ∈ fs → ∀ t, P t → P (f t)) : P (runSteps fs s) := by
  induction fs generalizing s with
  | nil => exact hs
  | cons f r ih =>
    exact ih (hf f (by simp) s hs) (fun g hg => hf g (by simp [hg]))

/-- The steps of a commit in full: registers, numbering, append, point, posting. -/
theorem runSteps_commitSteps (r : CommitRecord) (s : State) :
    runSteps (commitSteps r) s =
      { s with
        tally := (runSteps (r.writes.map (fun w s => s.writeReg w.reg w.value)) s).tally
        sales := SaleQueue.append { s.sales with nextSale := r.nextSale } r.record
        points := s.points.set r.point (s.point r.point).leaveSettling
        dcu := s.dcu.removePosting r.point } := by
  unfold commitSteps
  rw [runSteps_append, runSteps_writes_rest]
  rfl

/-- A completed commit: every block it changes (R123, R124). -/
theorem State.completeCommit_eq (s : State) (r : CommitRecord) :
    s.completeCommit r =
      { s with
        tally := (runSteps (r.writes.map (fun w s => s.writeReg w.reg w.value)) s).tally
        sales := SaleQueue.append { s.sales with nextSale := r.nextSale } r.record
        points := s.points.set r.point (s.point r.point).leaveSettling
        dcu := { s.dcu.removePosting r.point with journal := none }
        link := { s.link with flags := { s.link.flags with
          rollover := s.link.flags.rollover || r.rollover } } } := by
  unfold State.completeCommit
  rw [runSteps_commitSteps]
  rfl

theorem State.completeCommit_point (s : State) (r : CommitRecord) (p : PointNo) :
    (s.completeCommit r).point p = if p = r.point then (s.point p).leaveSettling else s.point p := by
  rw [State.completeCommit_eq]
  have := s.point_setPoint_ite r.point p (s.point r.point).leaveSettling
  show (s.setPoint r.point (s.point r.point).leaveSettling).point p = _
  rw [this]; split
  · next h => rw [h]
  · rfl

/-! ## Keeping the queue of commands -/

@[simp] theorem State.answer_pending (s : State) (st : Status) (k : Byte) (b : List Byte) :
    (s.answer st k b).pending = s.pending := rfl
@[simp] theorem State.settlePoint_pending (s : State) (p : PointNo) (f : Point → Point) :
    (s.settlePoint p f).pending = s.pending := by rw [State.settlePoint_rest]
@[simp] theorem State.completeCommit_pending (s : State) (r : CommitRecord) :
    (s.completeCommit r).pending = s.pending := by rw [State.completeCommit_eq]
@[simp] theorem State.stopEveryPoint_pending (s : State) : s.stopEveryPoint.pending = s.pending := by
  rw [State.stopEveryPoint_rest]
@[simp] theorem State.modAllPoints_pending (s : State) (f : PointNo → Point → Point) :
    (s.modAllPoints f).pending = s.pending := rfl

/-! ## Keeping the bus address, which a start alone moves (R145) -/

@[simp] theorem State.answer_busAddress (s : State) (st : Status) (k : Byte) (b : List Byte) :
    (s.answer st k b).link.busAddress = s.link.busAddress := rfl
@[simp] theorem State.reportLeft_busAddress (s : State) (k : ProductNo) :
    (s.reportLeft k).link.busAddress = s.link.busAddress := by rw [State.reportLeft_rest]
@[simp] theorem State.movePoint_busAddress (s : State) (p : PointNo) (f : Point → Point) :
    (s.movePoint p f).link.busAddress = s.link.busAddress := by rw [State.movePoint_rest]
@[simp] theorem State.choose_busAddress (s : State) : s.choose.link.busAddress = s.link.busAddress := by
  rw [State.choose_rest]
@[simp] theorem State.settlePoint_busAddress (s : State) (p : PointNo) (f : Point → Point) :
    (s.settlePoint p f).link.busAddress = s.link.busAddress := by rw [State.settlePoint_rest]
@[simp] theorem State.completeCommit_busAddress (s : State) (r : CommitRecord) :
    (s.completeCommit r).link.busAddress = s.link.busAddress := by rw [State.completeCommit_eq]
@[simp] theorem State.stopEveryPoint_busAddress (s : State) :
    s.stopEveryPoint.link.busAddress = s.link.busAddress := by rw [State.stopEveryPoint_rest]

end Sys2Proof.Machine
end

