-- ==== Sys2Proof/Laws/Prices.lean ====
section
/-! SUPPORT. What an activation, a report and a stop of every point do to the products and the price flags (R23,
R49, R55, R56), said once. -/

namespace Sys2Proof.Machine

/-! ## One activation -/

/-- The products after an activation at product k (R55). -/
theorem State.activate_product (s : State) (k l : ProductNo) :
    (s.activate k).product l = if l = k then (s.product k).map Product.withStaged else s.product l := by
  unfold State.activate
  split
  · next r hr =>
    split
    · next q hq =>
      show (State.setProduct _ _ _).product l = _
      rw [State.product_setProduct_ite]
      split
      · simp [hr, Product.withStaged, hq]
      · rfl
    · next hq =>
      split
      · next h => subst h; simp [hr, Product.withStaged, hq]
      · rfl
  · next hr =>
    split
    · next h => subst h; simp [hr]
    · rfl

/-- PRICE-ACTIVE after an activation (R56). -/
theorem State.activate_priceActive (s : State) (k : ProductNo) :
    (s.activate k).link.flags.priceActive = (s.link.flags.priceActive || s.isStaged k) := by
  unfold State.activate State.isStaged
  split
  · next r hr =>
    split
    · next q hq => simp [hr, hq, PartFlags.activate]
    · next hq => simp [hr, hq]
  · next hr => simp [hr]

/-- The activated set after an activation (R56). -/
theorem State.activate_activated (s : State) (k l : ProductNo) :
    (s.activate k).link.flags.activated.getLsbD l.val = (s.link.flags.activated.getLsbD l.val ||
    (decide (l = k) && s.isStaged k)) := by
  unfold State.activate State.isStaged
  have this : (decide (l.val = k.val)) = decide (l = k) := by
    simp [Fin.ext_iff]
  split
  · next r hr =>
    split
    · next q hq =>
      show ((s.link.flags.activated ||| BitVec.twoPow 6 k.val).getLsbD l.val) = _
      simp only [hr, hq, BitVec.getLsbD_or, BitVec.getLsbD_twoPow, Option.isSome_some, Bool.and_true,
          ← this]
      have := k.2
      by_cases hh : k.val = l.val <;> simp [hh]
      intro hl; omega
    · next hq => simp [hr, hq]
  · next hr => simp [hr]

/-- An activation moves no other part flag. -/
theorem State.activate_flags (s : State) (k : ProductNo) : (s.activate k).link.flags =
    { s.link.flags with
        priceActive := (s.activate k).link.flags.priceActive
        activated := (s.activate k).link.flags.activated } := by
  unfold State.activate
  split
  · split <;> rfl
  · rfl

/-- A second activation finds nothing staged. -/
theorem Product.withStaged_withStaged (r : Product) : r.withStaged.withStaged = r.withStaged := by
  unfold Product.withStaged; cases h : r.staged <;> simp [h]

/-! ## Several activations -/

/-- A search of the list of products finds what stands at some product. -/
theorem any_allProducts (g : ProductNo → Bool) : allProducts.any g = true ↔ ∃ k, g k = true := by
  simp only [List.any_eq_true, allProducts]
  constructor
  · rintro ⟨x, -, h⟩; exact ⟨x, h⟩
  · rintro ⟨x, h⟩; exact ⟨x, by fin_cases x <;> simp, h⟩

/-- No activation. -/
theorem Activated.refl (s : State) : Activated (fun _ => false) s s := ⟨by simp, by simp, by simp⟩

/-- One more activation. -/
theorem Activated.step {f : ProductNo → Bool} {s t : State} (h : Activated f s t) (k : ProductNo) :
    Activated (fun l => f l || decide (l = k)) s (t.activate k) := by
  have hst : ∀ l, t.isStaged l = (s.isStaged l && !f l) := by
    intro l
    unfold State.isStaged
    rw [h.products]
    cases hf : f l <;> simp
    cases s.product l <;> simp [Product.withStaged]
    split <;> simp_all
  refine ⟨?_, ?_, ?_⟩
  · intro l
    rw [State.activate_product]
    by_cases hl : l = k
    · subst hl
      simp [h.products]
      cases hf : f l <;> simp
      cases s.product l <;> simp [Product.withStaged_withStaged]
    · simp [hl, h.products]
  · rw [State.activate_priceActive, h.flag, hst, Bool.eq_iff_iff]
    simp only [Bool.or_eq_true, any_allProducts, Bool.and_eq_true]
    constructor
    · rintro ((h | ⟨l, h1, h2⟩) | ⟨h1, h2⟩)
      · exact Or.inl h
      · exact Or.inr ⟨l, Or.inl h1, h2⟩
      · exact Or.inr ⟨k, Or.inr (by simp), h1⟩
    · rintro (h | ⟨l, h1 | h1, h2⟩)
      · exact Or.inl (Or.inl h)
      · exact Or.inl (Or.inr ⟨l, h1, h2⟩)
      · simp at h1; subst h1
        cases hf : f l
        · exact Or.inr ⟨h2, by simp⟩
        · exact Or.inl (Or.inr ⟨l, hf, h2⟩)
  · intro l
    rw [State.activate_activated, h.set, hst]
    by_cases hl : l = k
    · subst hl; cases f l <;> cases s.isStaged l <;> simp
    · simp [hl]

/-- The law of the activations reads the products and the part flags alone. -/
theorem Activated.congr {f g : ProductNo → Bool} {s s' t t': State} (h : Activated f s t) (hfg : ∀ k,
    f k = g k) (hs : s.products = s'.products) (ht : t.products = t'.products)
  (hs' : s.link.flags = s'.link.flags) (ht' : t.link.flags = t'.link.flags) : Activated g s' t' := by
  have : f = g := funext hfg
  subst this
  have e1 : ∀ k, s'.product k = s.product k := fun k => by show s'.products[_] = s.products[_]; rw [hs]
  have e2 : ∀ k, t'.product k = t.product k := fun k => by show t'.products[_] = t.products[_]; rw [ht]
  have e3 : ∀ k, s'.isStaged k = s.isStaged k := fun k => by unfold State.isStaged; rw [e1]
  exact ⟨fun k => by rw [e1, e2]; exact h.products k, by rw [← hs', ← ht']; simp only [e3]; exact
      h.flag, fun k => by rw [← hs', ← ht', e3]; exact h.set k⟩

/-! ## The sets of a product -/

/-- The delivering set of a product is empty when no point delivers it (R49). -/
theorem State.deliveringEmpty_iff (s : State) (k) : s.deliveringEmpty k = true ↔ ∀ p,
    (s.point p).delivers ≠ some k := by
  simp only [State.deliveringEmpty, List.all_eq_true, decide_eq_true_eq, allPoints]
  constructor
  · intro h p; exact h p (by fin_cases p <;> simp)
  · intro h p _; exact h p

/-- The holding set of a product is empty when no point holds it (R49). -/
theorem State.holdingEmpty_iff (s : State) (k) : s.holdingEmpty k = true ↔ ∀ p,
    (s.point p).holding ≠ some k := by
  simp only [State.holdingEmpty, List.all_eq_true, decide_eq_true_eq, allPoints]
  constructor
  · intro h p; exact h p (by fin_cases p <;> simp)
  · intro h p _; exact h p

/-! ## The stop of every point -/

/-- STOP ALL at one point is the table of R23. -/
theorem Point.emergency_eq_stoppedBy (x : Point) : x.emergency = x.stoppedBy := by
  unfold Point.emergency Point.stoppedBy
  split <;> simp_all [Point.lapse, Point.dropTo]

/-- Only an AUTHORIZED point leaves its delivering set by STOP ALL. -/
theorem Point.emergency_delivers (x : Point) (h : x.st ≠ .authorized) :
    x.emergency.delivers = x.delivers := by
  unfold Point.emergency
  split <;> simp_all [Point.enterStopping, Point.delivers]

theorem Point.emergency_authorized (x : Point) (h : x.st = .authorized) :
    x.emergency.delivers = none := by
  simp [Point.emergency, h, Point.lapse, Point.dropTo, Point.delivers]

/-- The activations of one more point under STOP ALL (R23, R55). -/
theorem Activated.move {f : ProductNo → Bool} {s t : State} (h : Activated f s t) (p : PointNo) :
    Activated (fun l => f l || (decide ((t.point p).st = .authorized ∧
        (t.point p).delivers = some l) && decide (∀ q, q ≠ p →
        (t.point q).delivers ≠ some l))) s (t.movePoint p Point.emergency) := by
  by_cases ha : (t.point p).st = .authorized
  · cases hd : (t.point p).delivers with
    | none =>
      rw [State.movePoint_quiet _ _ _ (Or.inl hd)]
      exact h.congr (by simp) rfl rfl rfl rfl
    | some k =>
      rw [State.movePoint_left _ _ _ k hd (by rw [Point.emergency_authorized _ ha]; simp)]
      unfold State.reportLeft
      have key : ((t.setPoint p (t.point p).emergency).deliveringEmpty k = true) ↔ (∀ q, q ≠ p →
          (t.point q).delivers ≠ some k) := by
        rw [State.deliveringEmpty_iff]
        constructor
        · intro h q hq; have := h q; rw [State.point_setPoint_ite, if_neg hq] at this; exact this
        · intro h q; rw [State.point_setPoint_ite]; split
          · rw [Point.emergency_authorized _ ha]; simp
          · exact h q (by assumption)
      have h' : Activated f s (t.setPoint p (t.point p).emergency) := h.congr (fun _ =>
          rfl) rfl rfl rfl rfl
      split
      · next he =>
        refine (h'.step k).congr ?_ rfl rfl rfl rfl
        intro l
        have := key.1 he
        by_cases hl : l = k
        · subst hl; simp [ha]; exact Or.inr (fun q hq => this q hq)
        · have : ¬ k = l := fun e => hl e.symm
          simp [ha, hl, this]
      · next he =>
        refine h'.congr ?_ rfl rfl rfl rfl
        intro l
        have := mt key.2 he
        by_cases hl : l = k
        · subst hl; simp [ha]; intro hx; exact absurd hx (by simpa using this)
        · have : ¬ k = l := fun e => hl e.symm
          simp [this]
  · rw [State.movePoint_quiet _ _ _ (Or.inr (Point.emergency_delivers _ ha))]
    exact h.congr (by simp [ha]) rfl rfl rfl rfl

/-- All that the stop of every point does (R23, R55, R56). -/
theorem State.stopEveryPoint_stoppedAll (s : State) : StoppedAll s s.stopEveryPoint := by
  refine ⟨fun p => by rw [State.stopEveryPoint_point, Point.emergency_eq_stoppedBy], ?_, ?_⟩
  · rw [State.stopEveryPoint_eq]
    refine (((((Activated.refl s).move 0).move 1).move 2).move 3).congr ?_ rfl rfl rfl rfl
    intro k
    simp only [State.movePoint_point, State.stopFrees, allPoints, List.any_cons, List.any_nil,
        List.all_cons, List.all_nil]
    have hq : ∀ P : PointNo → Prop, (∀ q, P q) ↔ P 0 ∧ P 1 ∧ P 2 ∧ P 3 := fun P => ⟨fun h => ⟨h 0,
        h 1, h 2, h 3⟩, fun ⟨a,b,c,d⟩ q => by fin_cases q <;> assumption⟩
    simp only [hq]
    have e : ∀ x : Point, x.emergency.delivers = if x.st = .authorized then none else x.delivers := by
      intro x; split
      · exact Point.emergency_authorized _ (by assumption)
      · exact Point.emergency_delivers _ (by assumption)
    rw [Bool.eq_iff_iff]
    simp [e]
    by_cases a0 : (s.point 0).st = .authorized <;> by_cases a1 :
        (s.point 1).st = .authorized <;> by_cases a2 : (s.point 2).st = .authorized <;> by_cases a3 :
        (s.point 3).st = .authorized <;> simp [a0, a1, a2, a3] <;> tauto
  · rw [State.stopEveryPoint_rest]

/-- A report moves the price flags of the link and nothing else of it. -/
theorem State.reportLeft_flags (t : State) (k) : (t.reportLeft k).link =
    { t.link with
        flags := { t.link.flags with
            priceActive := (t.reportLeft k).link.flags.priceActive
            activated := (t.reportLeft k).link.flags.activated } } := by
    unfold State.reportLeft
    split
    · rw [State.activate_rest]
      dsimp only
      conv_lhs => rw [State.activate_flags]
    · rfl

/-- The stop of every point moves the price flags of the link and nothing else of it. -/
theorem State.stopEveryPoint_flags (t : State) : t.stopEveryPoint.link =
    { t.link with
        flags := { t.link.flags with
            priceActive := t.stopEveryPoint.link.flags.priceActive
            activated := t.stopEveryPoint.link.flags.activated } } := by
  have ha : ∀ (t : State) k, (t.reportLeft k).link =
      { t.link with
          flags := { t.link.flags with
              priceActive := (t.reportLeft k).link.flags.priceActive
              activated := (t.reportLeft k).link.flags.activated } } := by
    intro t k
    unfold State.reportLeft
    split
    · rw [State.activate_rest]
      dsimp only
      conv_lhs => rw [State.activate_flags]
    · rfl
  have hm : ∀ (t : State) p f, (t.movePoint p f).link =
      { t.link with
          flags := { t.link.flags with
              priceActive := (t.movePoint p f).link.flags.priceActive
              activated := (t.movePoint p f).link.flags.activated } } := by
    intro t p f
    unfold State.movePoint
    split
    · rfl
    · dsimp only
      split
      · rfl
      · rw [ha]; rfl
  rw [State.stopEveryPoint_eq]
  conv_lhs => rw [hm, hm, hm, hm]

end Sys2Proof.Machine
end

