-- ==== Sys2Proof/Laws/Unit.lean ====
section
/-! SUPPORT. What the operations of the decimal unit and of settlement can do (R20, R96, R119, R123,
R124), said once. -/

namespace Sys2Proof.Machine

/-! ## The work in hand -/

/-- An active host job is the job, in its active phase, of a unit in HOST (R115). -/
theorem State.activeJob_some {s : State} {j} (h : s.activeJob = some j) : s.dcu.unit = .host ∧
    s.dcu.job = some j ∧ j.phase = .active := by
  unfold State.activeJob at h
  split at h
  · next j' hu hj =>
    split at h
    · next hp => cases h; exact ⟨hu, hj, hp⟩
    · cases h
  · cases h

/-- The sale that the unit commits belongs to a TAKEN posting (R116, R123). -/
theorem State.takenSale_some {s : State} {q f} (h : s.takenSale = some (q, f)) : q ∈ s.dcu.postings ∧
    q.taken = true ∧ (s.point q.point).frozen = some f := by
  unfold State.takenSale at h
  split at h
  · next r hr =>
    simp only [Option.map_eq_some_iff] at h
    obtain ⟨g, h1, h2⟩ := h
    cases h2
    exact ⟨List.mem_of_find?_eq_some hr, by simpa using List.find?_some hr, h1⟩
  · cases h

/-- A choice keeps the request and the operand set of the host job (R118). -/
theorem State.choose_req (s : State) (j) (hj : s.choose.dcu.job = some j) : ∃ i, s.dcu.job = some i ∧
    i.req = j.req ∧ i.operandSet = j.operandSet := by
  rcases s.choose_cases with e | ⟨-, -, ⟨q, -, e⟩ | ⟨-, i, hi, e⟩⟩
  · rw [e] at hj; exact ⟨j, hj, rfl, rfl⟩
  · rw [e] at hj; exact ⟨j, hj, rfl, rfl⟩
  · rw [e] at hj
    refine ⟨i, hi, ?_⟩
    unfold State.takeJob at hj
    split at hj
    · simp [State.modDcu] at hj; rw [← hj]; exact ⟨rfl, rfl⟩
    · simp [State.modDcu] at hj; rw [← hj]; exact ⟨rfl, rfl⟩
    · simp [State.modDcu, hi] at hj; rw [← hj]; exact ⟨rfl, rfl⟩

/-- SET SITE's scale part passes only with every point UNDEFINED (R87). -/
theorem State.siteIdle_undefined {s : State} (h : s.siteIdle = true) (p) :
    (s.point p).st = .undefined := by
  unfold State.siteIdle at h
  simp only [Bool.and_eq_true, List.all_eq_true, decide_eq_true_eq] at h
  exact h.1.1 p (by unfold allPoints; fin_cases p <;> simp)

/-! ## Completion -/

/-- The effect of a job stays in the link, the tally store and the unit (R96). -/
theorem State.applyJob_rest (s : State) (j : HostJob) : s.applyJob j =
    { s with
        link := (s.applyJob j).link
        tally := (s.applyJob j).tally
        dcu := (s.applyJob j).dcu } := by
  unfold State.applyJob
  cases j.req <;> dsimp only
  case divide => split <;> rfl
  case setSite sc gc => cases sc <;> rfl
  all_goals rfl

/-- The end of a clock stretch stays in the link (R153). -/
theorem State.endStretch_rest (s : State) : s.endStretch = { s with link := s.endStretch.link } := by
  unfold State.endStretch; split
  · unfold State.sendReply; split <;> rfl
  · rfl

/-- A completion stays in the link, the tally store and the unit. -/
theorem State.completeJob_rest (s : State) (j : HostJob) : s.completeJob j =
    { s with
        link := (s.completeJob j).link
        tally := (s.completeJob j).tally
        dcu := (s.completeJob j).dcu } := by
  unfold State.completeJob
  rw [State.choose_rest, State.endStretch_rest]
  show ({ ((s.applyJob j).endJob) with link := _, dcu := _} : State) = _
  unfold State.endJob State.modDcu
  rw [State.applyJob_rest]

/-! ## Settlement and commit -/

/-- The points after one has entered SETTLING (R20). -/
theorem State.settlePoint_point (s : State) (p q f) : (s.settlePoint p f).point q = if q = p then (f
    (s.point p)).enterSettling p else s.point q := by
  unfold State.settlePoint
  have : ∀ t : State, t.choose.point q = t.point q := fun t => by simp [State.point]
  rw [this]
  rw [State.submit_rest]
  show (s.movePoint p _).point q = _
  rw [State.movePoint_point]

/-- The points after a posting commit (R123). -/
theorem State.commitPosting_point (s : State) (q f p) : (s.commitPosting q f).point p = if p =
    q.point then (s.point p).leaveSettling else s.point p := by
  unfold State.commitPosting
  dsimp only
  have : ∀ t : State, t.choose.point p = t.point p := fun t => by simp [State.point]
  rw [this]
  exact State.completeCommit_point (s.beginCommit _) _ p

/-- A posting commit leaves the pins, the slots, RCU and the products alone (R123). -/
theorem State.commitPosting_rest (s : State) (q f) : s.commitPosting q f =
    { s with
        link := { s.link with flags := (s.commitPosting q f).link.flags }
        points := (s.commitPosting q f).points
        tally := (s.commitPosting q f).tally
        sales := (s.commitPosting q f).sales
        dcu := (s.commitPosting q f).dcu } := by
  unfold State.commitPosting
  dsimp only
  rw [State.choose_rest, State.completeCommit_eq]
  rfl

/-- The first writes of a commit, whichever they are, leave the rest alone (R123). -/
theorem runSteps_commitSteps_take_rest (r : CommitRecord) (n) (s : State) :
    runSteps ((commitSteps r).take n) s =
    { s with
        points := (runSteps ((commitSteps r).take n) s).points
        tally := (runSteps ((commitSteps r).take n) s).tally
        sales := (runSteps ((commitSteps r).take n) s).sales
        dcu := (runSteps ((commitSteps r).take n) s).dcu } := by
  refine runSteps_keeps (P := fun t => t =
      { s with
          points := t.points
          tally := t.tally
          sales := t.sales
          dcu := t.dcu }) rfl ?_
  intro f hf t ht
  have hf := List.mem_of_mem_take hf
  unfold commitSteps at hf
  simp only [List.mem_append, List.mem_map, List.mem_cons, List.not_mem_nil, or_false] at hf
  rcases hf with ⟨w, _, rfl⟩ | rfl | rfl | rfl | rfl <;> (rw [ht]; rfl)

/-- A cut leaves the pins, the link, RCU and the products alone (R124). -/
theorem State.cutCommit_rest (s : State) (c) : s.cutCommit c =
    { s with
        points := (s.cutCommit c).points
        tally := (s.cutCommit c).tally
        sales := (s.cutCommit c).sales
        dcu := (s.cutCommit c).dcu } := by
  unfold State.cutCommit
  split
  · dsimp only; rw [runSteps_commitSteps_take_rest]; rfl
  · rfl

/-- The ways a cut can leave the journal, the postings and the points (R124). -/
theorem State.cutCommit_cases (s : State) (c) : s.cutCommit c = s ∨ ∃ q f, s.takenSale = some (q,
    f) ∧ (s.cutCommit c).dcu.journal = some (s.commitRecord q f) ∧
    ((s.cutCommit c).dcu.postings = s.dcu.postings ∨ (s.cutCommit c).dcu.postings =
        s.dcu.postings.filter (fun e => decide (e.point ≠ q.point))) ∧
    (s.cutCommit c).rcu = s.rcu ∧ (∀ p, (s.cutCommit c).point p = s.point p ∨ (p = q.point ∧
        (s.cutCommit c).point p = (s.point p).leaveSettling)) := by
  unfold State.cutCommit
  split
  · next j q f hq =>
    refine Or.inr ⟨q, f, hq, ?_⟩
    dsimp only
    refine runSteps_keeps (P := fun t : State => t.dcu.journal = some (s.commitRecord q f) ∧
        (t.dcu.postings = s.dcu.postings ∨ t.dcu.postings = s.dcu.postings.filter (fun e =>
        decide (e.point ≠ q.point))) ∧ t.rcu = s.rcu ∧ (∀ p, t.point p = s.point p ∨ (p = q.point ∧
        t.point p = (s.point p).leaveSettling))) ⟨rfl, Or.inl rfl, rfl, fun p => Or.inl rfl⟩ ?_
    intro g hg t ht
    have hg := List.mem_of_mem_take hg
    unfold commitSteps at hg
    simp only [List.mem_append, List.mem_map, List.mem_cons, List.not_mem_nil, or_false] at hg
    rcases hg with ⟨w, _, rfl⟩ | rfl | rfl | rfl | rfl
    · exact ht
    · exact ht
    · exact ht
    · refine ⟨ht.1, ht.2.1, ht.2.2.1, fun p => ?_⟩
      show (t.modPoint q.point Point.leaveSettling).point p = _ ∨ _ ∧
          (t.modPoint q.point Point.leaveSettling).point p = _
      rw [State.modPoint_point]
      split
      · next e =>
        subst e
        refine Or.inr ⟨rfl, ?_⟩
        rcases ht.2.2.2 q.point with h | ⟨_, h⟩
        · rw [h]
        · rw [h]
          unfold Point.leaveSettling
          cases hs : (s.point q.point).st <;> simp [hs]
          split <;> rfl
      · exact ht.2.2.2 p
    · refine ⟨ht.1, ?_, ht.2.2.1, ht.2.2.2⟩
      show (t.dcu.postings.filter _ = _ ∨ t.dcu.postings.filter _ = _)
      rcases ht.2.1 with h | h
      · rw [h]; exact Or.inr rfl
      · rw [h]; refine Or.inr ?_
        rw [List.filter_filter]
        congr 1; funext e; simp [State.commitRecord]; intro h; exact decide_eq_true h
  · exact Or.inl rfl

/-- Steps that do not read the pins do the same whatever the pins are. -/
theorem runSteps_modPins (g : Pins → Pins) (fs : List (State → State)) (h : ∀ f ∈ fs, ∀ t : State,
    f (t.modPins g) = (f t).modPins g) (s : State) : runSteps fs (s.modPins g) = (runSteps fs
    s).modPins g := by
  induction fs generalizing s with
  | nil => rfl
  | cons f fs ih =>
    rw [runSteps_cons, runSteps_cons, h f (by simp), ih (fun f hf => h f (by simp [hf]))]

/-- A cut does not read the pins. -/
theorem State.cutCommit_modPins (s : State) (g : Pins → Pins) (c) :
    (s.modPins g).cutCommit c = (s.cutCommit c).modPins g := by
  unfold State.cutCommit
  have e : (s.modPins g).takenSale = s.takenSale := rfl
  rw [e]
  split
  · next j q f _ =>
    dsimp only
    have e1 : (s.modPins g).commitRecord q f = s.commitRecord q f := rfl
    rw [e1]
    have e2 : (s.modPins g).beginCommit (s.commitRecord q f) = (s.beginCommit (s.commitRecord q
        f)).modPins g := rfl
    rw [e2]
    apply runSteps_modPins
    intro F hF t
    have hF := List.mem_of_mem_take hF
    unfold commitSteps at hF
    simp only [List.mem_append, List.mem_map, List.mem_cons, List.not_mem_nil, or_false] at hF
    rcases hF with ⟨w, _, rfl⟩ | rfl | rfl | rfl | rfl <;> rfl
  · rfl

end Sys2Proof.Machine
end

