-- ==== Sys2Proof/Laws/Power.lean ====
section
/-! SUPPORT. What the steps of a start-up sequence can do (R169 to R172), said once. -/

namespace Sys2Proof.Machine

/-! ## The first step -/

/-- The points after the first step (R169). -/
theorem State.firstStep_points (s : State) : s.firstStep.points = s.points.map Point.firstStep := by
  apply Vector.ext
  intro i hi
  have : (s.firstStep.point ⟨i, hi⟩) = Point.firstStep (s.point ⟨i, hi⟩) := by
    unfold State.firstStep
    rw [State.modAllPoints_point]; rfl
  rw [Vector.getElem_map]; exact this

/-- The first step, whole (R169). -/
theorem State.firstStep_eq (s : State) : s.firstStep =
    { s with
        link := s.link.firstStep
        dcu := s.dcu.firstStep
        rcu := { s.rcu with running := false }
        points := s.points.map Point.firstStep } := by
  apply State.eq_of_fields <;> try rfl
  exact State.firstStep_points s

theorem State.firstStep_point (s : State) (p) : s.firstStep.point p = (s.point p).firstStep := by
  rw [State.firstStep_eq]; unfold State.point; simp

/-- The first step does not read the pins. -/
theorem State.firstStep_modPins (s : State) (g : Pins → Pins) :
    (s.modPins g).firstStep = (s.firstStep).modPins g := rfl

/-! ## The warm path -/

theorem State.setPoint_self (s : State) (p) : s.setPoint p (s.point p) = s := by
  apply State.eq_of_fields <;> try rfl
  apply State.points_eq; intro q; rw [State.point_setPoint_ite]; split
  · next h => rw [h]
  · rfl

/-- The warm path settles a point with a delivery in progress (R26, R171). -/
theorem Point.warmed_of_counting (x : Point) (p) (h : x.st = .delivering ∨ x.st = .paused ∨
    x.st = .stopping) : x.powerEnd.enterSettling p = x.warmed p := by
  have : x.warmed p = { x with
      st := .settling
      endReason := some .power
      saleFlags := { x.saleFlags with flowAfterStop := false }
      timers := { x.timers with settle := none, stopLimit := none }
      frozen := x.auth.map (fun a =>
        ⟨p, a, x.liveVolume, x.liveMoney, .power, x.faults,
            { x.saleFlags with
                flowAfterStop := false }⟩) } := by
    unfold Point.warmed
    rcases h with h | h | h <;> rw [h]
  rw [this]; rfl

/-- Warm step 2 at one point, whole (R26, R171). -/
theorem State.warmPoint_eq (s : State) (p : PointNo) : s.warmPoint p =
    { s.setPoint p ((s.point p).warmed p) with
        dcu := { s.dcu with postings := s.dcu.postings ++ ((s.point p).powerPosting p).toList } } := by
  have hc : ∀ x : State, x.point p = s.point p → (s.point p).st = .delivering ∨
      (s.point p).st = .paused ∨ (s.point p).st = .stopping → (s.modPoint p (fun x =>
      x.powerEnd.enterSettling p)).submit p =
      { s.setPoint p ((s.point p).warmed p) with
          dcu := { s.dcu with postings := s.dcu.postings ++ ((s.point p).powerPosting p).toList } }
              := by
    intro _ _ h
    have e : s.modPoint p (fun x => x.powerEnd.enterSettling p) = s.setPoint p ((s.point p).warmed p)
        := by
      unfold State.modPoint; exact congrArg (s.setPoint p) (Point.warmed_of_counting _ _ h)
    rw [e, State.submit_rest, State.submit_postings, State.point_setPoint]
    have : (((s.point p).warmed p).frozen.map FrozenSale.posting) = (s.point p).powerPosting p := by
      rw [← Point.warmed_of_counting _ _ h]
      have hcc : (s.point p).st.counting = true := by rcases h with h | h | h <;> rw [h] <;> rfl
      unfold Point.powerPosting; rw [hcc]
      simp only [Point.enterSettling, Point.powerEnd]
      cases (s.point p).auth <;> rfl
    rw [this]; rfl
  have hn : (s.point p).st.counting = false → (s.point p).powerPosting p = none := by
    intro h; unfold Point.powerPosting; rw [h]; rfl
  have hq : ∀ x, (s.point p).powerPosting p = none → (s.point p).warmed p = x → s.setPoint p x =
      { s.setPoint p ((s.point p).warmed p) with
          dcu := { s.dcu with postings := s.dcu.postings ++ ((s.point p).powerPosting p).toList } }
              := by
    intro x h1 h2; rw [h1, h2]; simp; rfl
  unfold State.warmPoint
  split
  · next h => exact hq _ (hn (by rw [h]; rfl)) (by unfold Point.warmed; rw [h])
  · next h => exact hq _ (hn (by rw [h]; rfl)) (by unfold Point.warmed; rw [h]; rfl)
  · next h => exact hc s rfl (by simp [h])
  · next h => exact hc s rfl (by simp [h])
  · next h => exact hc s rfl (by simp [h])
  · next h1 h2 h3 h4 h5 =>
    have hw : (s.point p).warmed p = s.point p := by
      unfold Point.warmed
      split
      · next h => exact absurd h h1
      · next h => exact absurd h h2
      · next h => exact absurd h h3
      · next h => exact absurd h h4
      · next h => exact absurd h h5
      · rfl
    have hc : (s.point p).st.counting = false := by
      cases hs : (s.point p).st <;>
        first | rfl | exact absurd hs h3 | exact absurd hs h4 | exact absurd hs h5
    have := hq (s.point p) (hn hc) hw
    rw [State.setPoint_self] at this; exact this

theorem State.warmPoint_point (s : State) (p q : PointNo) : (s.warmPoint p).point q = if q = p then
    (s.point p).warmed p else s.point q := by
  rw [State.warmPoint_eq]; exact s.point_setPoint_ite p q _

theorem State.warmPoint_rest (s : State) (p : PointNo) : s.warmPoint p =
    { s with
        points := (s.warmPoint p).points
        dcu := { s.dcu with postings := s.dcu.postings ++ ((s.point p).powerPosting p).toList } } := by
  conv_lhs => rw [State.warmPoint_eq]
  have : (s.warmPoint p).points = (s.setPoint p ((s.point p).warmed p)).points :=
      by rw [State.warmPoint_eq]
  rw [this]; rfl

/-- No point that the warm path has been over delivers a product. -/
theorem Point.warmed_delivers (x : Point) (p) : (x.warmed p).delivers = none := by
  unfold Point.warmed Point.delivers
  cases hs : x.st <;> simp [hs]

/-- The warm path has nothing to do twice. -/
theorem Point.warmed_warmed (x : Point) (p) : (x.warmed p).warmed p = x.warmed p ∧
    (x.warmed p).st.counting = false := by
  unfold Point.warmed
  cases hs : x.st <;> simp [hs, PtState.counting]

/-- Warm step 2 at every point (R171). -/
def State.warmAllPoints (s : State) : State := (((s.warmPoint 0).warmPoint 1).warmPoint 2).warmPoint 3

theorem State.warmAllPoints_point (s : State) (p) : (State.warmAllPoints s).point p = (s.point
    p).warmed p := by
  unfold State.warmAllPoints
  simp only [State.warmPoint_point]
  fin_cases p <;> simp

/-- The postings after warm step 2 (R133, R171). -/
theorem State.warmAllPoints_dcu (s : State) : (State.warmAllPoints s).dcu =
    { s.dcu with
        postings := s.dcu.postings ++ allPoints.filterMap (fun p => (s.point p).powerPosting p) } := by
  have hd : ∀ (t : State) p, (t.warmPoint p).dcu =
      { t.dcu with
          postings := t.dcu.postings ++ ((t.point p).powerPosting p).toList } := by
    intro t p; rw [State.warmPoint_eq]
  have e1 : (s.warmPoint 0).point 1 = s.point 1 := by rw [State.warmPoint_point]; rfl
  have e2 : ((s.warmPoint 0).warmPoint 1).point 2 = s.point 2 := by simp [State.warmPoint_point]
  have e3 : (((s.warmPoint 0).warmPoint 1).warmPoint 2).point 3 = s.point 3 :=
      by simp [State.warmPoint_point]
  unfold State.warmAllPoints
  rw [hd, e3, hd, e2, hd, e1, hd]
  simp only [allPoints, List.filterMap_cons, List.filterMap_nil]
  cases (s.point 0).powerPosting 0 <;> cases (s.point 1).powerPosting 1 <;> cases (s.point
      2).powerPosting 2 <;> cases (s.point 3).powerPosting 3 <;> simp

theorem State.warmAllPoints_rest (s : State) : State.warmAllPoints s =
    { s with
        points := (State.warmAllPoints s).points
        dcu := { s.dcu with
            postings := s.dcu.postings ++ allPoints.filterMap (fun p =>
                (s.point p).powerPosting p) } } := by
  rw [← State.warmAllPoints_dcu]
  have h : ∀ (t : State) p, (t.warmPoint p).pins = t.pins ∧ (t.warmPoint p).link = t.link ∧
      (t.warmPoint p).rcu = t.rcu ∧ (t.warmPoint p).products = t.products ∧
      (t.warmPoint p).tally = t.tally ∧ (t.warmPoint p).sales = t.sales ∧
      (t.warmPoint p).pending = t.pending := by
    intro t p; rw [State.warmPoint_eq]; exact ⟨rfl, rfl, rfl, rfl, rfl, rfl, rfl⟩
  unfold State.warmAllPoints
  apply State.eq_of_fields <;> try rfl
  · simp only [h]
  · simp only [h]
  · simp only [h]
  · simp only [h]
  · simp only [h]
  · simp only [h]
  · simp only [h]

/-- The points after warm step 1 (R171). -/
theorem State.warmJournal_point (s : State) (p) : s.warmJournal.point p = s.point p ∨ (∃ c,
    s.dcu.journal = some c ∧ p = c.point ∧ s.warmJournal.point p = (s.point p).leaveSettling) := by
  unfold State.warmJournal; split
  · next r hr =>
    rw [State.completeCommit_point]
    split
    · next h => exact Or.inr ⟨r, hr, h, rfl⟩
    · exact Or.inl rfl
  · exact Or.inl rfl

/-- Warm step 1 leaves the pins, the slots, RCU and the products alone. -/
theorem State.warmJournal_rest (s : State) : s.warmJournal =
    { s with
        link := { s.link with flags := s.warmJournal.link.flags }
        points := s.warmJournal.points
        tally := s.warmJournal.tally
        sales := s.warmJournal.sales
        dcu := s.warmJournal.dcu } := by
  unfold State.warmJournal; split
  · rw [State.completeCommit_eq]
  · rfl

/-- Warm step 3 at every product (R171). -/
def State.warmPrices (s : State) : State := allProducts.foldl (fun t k => t.reportLeft k) s

theorem State.warmPrices_eq (s : State) : s.warmPrices = (((((s.reportLeft 0).reportLeft
    1).reportLeft 2).reportLeft 3).reportLeft 4).reportLeft 5 := by
  simp only [State.warmPrices, allProducts, List.foldl_cons, List.foldl_nil]

theorem State.reportLeft_eq_activate (s : State) (k) (h : ∀ p k, (s.point p).delivers ≠ some k) :
    s.reportLeft k = s.activate k := by
  have := (State.deliveringEmpty_iff s k).2 (fun p => h p k)
  simp [State.reportLeft, this]

/-- Every staged price activates at warm step 3 (R171). -/
theorem State.warmPrices_activated (s : State) (h : ∀ p k, (s.point p).delivers ≠ some k) :
    Activated (fun _ => true) s s.warmPrices := by
  have e : s.warmPrices = (((((s.activate 0).activate 1).activate 2).activate 3).activate 4).activate
      5 := by
    rw [State.warmPrices_eq]
    rw [State.reportLeft_eq_activate s 0 h, State.reportLeft_eq_activate _ 1,
        State.reportLeft_eq_activate _ 2, State.reportLeft_eq_activate _ 3,
        State.reportLeft_eq_activate _ 4, State.reportLeft_eq_activate _ 5]
    all_goals (intro p k; simp only [State.activate_point]; exact h p k)
  rw [e]
  refine ((((((Activated.refl s).step 0).step 1).step 2).step 3).step 4 |>.step 5).congr ?_ rfl rfl
      rfl rfl
  intro k; fin_cases k <;> rfl

/-- Two links differ in the price flags at most. -/
def Link.PricesOnly (l m : Link) : Prop := m =
    { l with
        flags := { l.flags with priceActive := m.flags.priceActive, activated := m.flags.activated } }

theorem Link.PricesOnly.trans {a b c : Link} (h : Link.PricesOnly a b) (h' : Link.PricesOnly b c) :
    Link.PricesOnly a c := by
  unfold Link.PricesOnly at *; rw [h', h]

theorem State.warmPrices_pricesOnly (s : State) : Link.PricesOnly s.link s.warmPrices.link := by
  have h : ∀ (t : State) k, Link.PricesOnly t.link (t.reportLeft k).link := fun t k =>
      State.reportLeft_flags t k
  rw [State.warmPrices_eq]
  generalize h0 : s.reportLeft 0 = s0
  generalize h1 : s0.reportLeft 1 = s1
  generalize h2 : s1.reportLeft 2 = s2
  generalize h3 : s2.reportLeft 3 = s3
  generalize h4 : s3.reportLeft 4 = s4
  generalize h5 : s4.reportLeft 5 = s5
  have k0 := h s 0; have k1 := h s0 1; have k2 := h s1 2; have k3 := h s2 3; have k4 :=
      h s3 4; have k5 := h s4 5
  rw [h0] at k0; rw [h1] at k1; rw [h2] at k2; rw [h3] at k3; rw [h4] at k4; rw [h5] at k5
  exact k0.trans (k1.trans (k2.trans (k3.trans (k4.trans k5))))

/-- Warm step 3 leaves everything but the products and the price flags alone. -/
theorem State.warmPrices_rest (s : State) : s.warmPrices =
    { s with
        products := s.warmPrices.products
        link := { s.link with
            flags := { s.link.flags with
                priceActive := s.warmPrices.link.flags.priceActive
                activated := s.warmPrices.link.flags.activated } } } := by
  have h := State.warmPrices_pricesOnly s
  have e1 : s.warmPrices.pins = s.pins := by rw [State.warmPrices_eq]; simp
  have e2 : s.warmPrices.rcu = s.rcu := by rw [State.warmPrices_eq]; simp
  have e3 : s.warmPrices.points = s.points := by rw [State.warmPrices_eq]; simp
  have e4 : s.warmPrices.tally = s.tally := by rw [State.warmPrices_eq]; simp
  have e5 : s.warmPrices.dcu = s.dcu := by rw [State.warmPrices_eq]; simp
  have e6 : s.warmPrices.sales = s.sales := by rw [State.warmPrices_eq]; simp
  have e7 : s.warmPrices.pending = s.pending := by rw [State.warmPrices_eq]; simp
  generalize s.warmPrices = w at *
  unfold Link.PricesOnly at h
  apply State.eq_of_fields <;> first | assumption | rfl

/-- Warm step 1 leaves the journal empty (R171). -/
theorem State.warmJournal_journal (s : State) : s.warmJournal.dcu.journal = none := by
  unfold State.warmJournal; split
  · rw [State.completeCommit_eq]
  · assumption

/-- The switches of warm step 3, together. -/
theorem runSteps_warmPrices (s : State) : runSteps (allProducts.map State.warmPrice) s = s.warmPrices
    := rfl

theorem runSteps_warmPath_switches (s : State) : runSteps warmPath s =
    ((((s.warmJournal.warmPoint 0).warmPoint 1).warmPoint 2).warmPoint 3).warmPrices := by
  rw [← runSteps_warmPrices]
  simp only [warmPath, allPoints, List.map_cons, List.map_nil, List.cons_append, List.nil_append,
      runSteps_cons]

/-- The warm path as its three steps (R171). -/
theorem runSteps_warmPath (s : State) : runSteps warmPath s = (State.warmAllPoints
    s.warmJournal).warmPrices := by
  unfold State.warmAllPoints
  exact runSteps_warmPath_switches s

/-- One activation of warm step 3 leaves everything but the products and the price flags alone. -/
theorem State.warmPrice_rest (s : State) (k) : s.warmPrice k =
    { s with
        products := (s.warmPrice k).products
        link := { s.link with
            flags := { s.link.flags with
                priceActive := (s.warmPrice k).link.flags.priceActive
                activated := (s.warmPrice k).link.flags.activated } } } := by
  have h : Link.PricesOnly s.link (s.warmPrice k).link := State.reportLeft_flags s k
  have e1 : (s.warmPrice k).pins = s.pins := by unfold State.warmPrice; simp
  have e2 : (s.warmPrice k).rcu = s.rcu := by unfold State.warmPrice; simp
  have e3 : (s.warmPrice k).points = s.points := by unfold State.warmPrice; simp
  have e4 : (s.warmPrice k).tally = s.tally := by unfold State.warmPrice; simp
  have e5 : (s.warmPrice k).dcu = s.dcu := by unfold State.warmPrice; simp
  have e6 : (s.warmPrice k).sales = s.sales := by unfold State.warmPrice; simp
  have e7 : (s.warmPrice k).pending = s.pending := by unfold State.warmPrice; simp
  generalize s.warmPrice k = w at *
  unfold Link.PricesOnly at h
  apply State.eq_of_fields <;> first | assumption | rfl

/-- The steps of the warm path. -/
theorem mem_warmPath {f} (hw : f ∈ warmPath) : f = State.warmJournal ∨ (∃ p, f = State.warmPoint p) ∨
    ∃ k, f = State.warmPrice k := by
  simp only [warmPath, List.cons_append, List.mem_cons, List.mem_append, List.mem_map] at hw
  rcases hw with h | ⟨p, -, h⟩ | ⟨k, -, h⟩
  · exact Or.inl h
  · exact Or.inr (Or.inl ⟨p, h.symm⟩)
  · exact Or.inr (Or.inr ⟨k, h.symm⟩)

/-- The points after the warm path (R171). -/
theorem runSteps_warmPath_point (s : State) (p : PointNo) :
    (runSteps warmPath s).point p = (s.warmJournal.point p).warmed p := by
  have e : (runSteps warmPath s).points = (State.warmAllPoints s.warmJournal).points := by
    rw [runSteps_warmPath, State.warmPrices_rest]
  have h := State.warmAllPoints_point s.warmJournal p
  unfold State.point at *
  rw [e, h]

/-- The warm path leaves the journal empty (R171). -/
theorem runSteps_warmPath_journal (s : State) : (runSteps warmPath s).dcu.journal = none := by
  have e : (runSteps warmPath s).dcu = (State.warmAllPoints s.warmJournal).dcu := by
    rw [runSteps_warmPath, State.warmPrices_rest]
  rw [e, State.warmAllPoints_dcu]
  exact State.warmJournal_journal s

/-- A point that the warm path has been over holds no authorization without a delivery. -/
theorem Point.warmed_state (x : Point) (p : PointNo) :
    (x.warmed p).st ≠ .authorized ∧ (x.warmed p).st.counting = false := by
  refine ⟨?_, (Point.warmed_warmed x p).2⟩
  unfold Point.warmed
  cases hs : x.st <;> simp [hs]

/-- A price that has become current is staged no more. -/
theorem Product.withStaged_staged (r : Product) : r.withStaged.staged = none := by
  unfold Product.withStaged
  split
  · rfl
  · assumption

/-- The warm path leaves no staged price (R171). -/
theorem runSteps_warmPath_isStaged (s : State) (k : ProductNo) :
    (runSteps warmPath s).isStaged k = false := by
  rw [runSteps_warmPath]
  have hd : ∀ p l, ((State.warmAllPoints s.warmJournal).point p).delivers ≠ some l := by
    intro p l
    rw [State.warmAllPoints_point, Point.warmed_delivers]
    simp
  have ha := State.warmPrices_activated _ hd
  unfold State.isStaged
  rw [ha.products]
  cases (State.warmAllPoints s.warmJournal).product k with
  | none => rfl
  | some r =>
    show r.withStaged.staged.isSome = false
    rw [Product.withStaged_staged]
    rfl

/-! ## The cold path and the final step -/

/-- One write of the cold path (R170, Table 10-2). -/
inductive ColdWrite (mark : Bool) : (State → State) → Prop
  | enable : ColdWrite mark (fun s => s.modLink (fun l => { l with generalCallEnable := false }))
  | point (p : PointNo) : ColdWrite mark (fun s => s.setPoint p Point.cold)
  | products : ColdWrite mark (fun s => { s with products := Vector.replicate 6 none })
  | tally : ColdWrite mark (fun s => s.modTally (fun _ => Tally.cold))
  | dcu : ColdWrite mark (fun s => s.modDcu (fun _ => Dcu.cold))
  | sales : ColdWrite mark (fun s => s.modSales (fun _ => SaleQueue.cold))
  | mark : ColdWrite mark (fun s => s.modRcu (fun r => { r with retainLostMark := mark }))

/-- The writes of the cold path. -/
theorem mem_coldWrites {mark f} (h : f ∈ coldWrites mark) : ColdWrite mark f := by
  simp only [coldWrites, List.cons_append, List.mem_cons, List.mem_append, List.mem_map,
      List.not_mem_nil, or_false] at h
  rcases h with rfl | ⟨p, -, rfl⟩ | rfl | rfl | rfl | rfl | rfl
  · exact .enable
  · exact .point p
  · exact .products
  · exact .tally
  · exact .dcu
  · exact .sales
  · exact .mark

theorem mem_coldPath {f} (h : f ∈ coldPath) : f = (fun s => s.setCheck false) ∨ ColdWrite true f ∨
    f = (fun s => s.setCheck true) := by
  simp only [coldPath, List.cons_append, List.mem_cons, List.mem_append, List.not_mem_nil,
      or_false] at h
  rcases h with h | h | h
  · exact Or.inl h
  · exact Or.inr (Or.inl (mem_coldWrites h))
  · exact Or.inr (Or.inr h)

theorem mem_clearPath {f} (h : f ∈ clearPath) : ColdWrite false f ∨ f = (fun s => s.setCheck true) := by
  simp only [clearPath, List.mem_cons, List.mem_append, List.not_mem_nil, or_false] at h
  rcases h with h | h
  · exact Or.inl (mem_coldWrites h)
  · exact Or.inr h

/-- Every block at its cold default, the retain-lost mark as given (R170, Table 10-2). -/
def State.coldDefaults (mark : Bool) (s : State) : State :=
  { s with
    points := Vector.replicate 4 Point.cold
    products := Vector.replicate 6 none
    tally := Tally.cold
    dcu := Dcu.cold
    sales := SaleQueue.cold
    link := { s.link with generalCallEnable := false }
    rcu := { s.rcu with retainLostMark := mark } }

/-- The writes of the cold path together leave every block at its default (R170). -/
theorem runSteps_coldWrites (mark) (s : State) : runSteps (coldWrites mark) s = s.coldDefaults mark
    := by
  apply State.eq_of_fields <;> try rfl
  apply State.points_eq
  intro p
  have h : ∀ (t : State) q, (t.setPoint q Point.cold).point p = if p = q then Point.cold else t.point
      p := fun t q => State.point_setPoint_ite t q p _
  have e : (runSteps (coldWrites mark) s).point p = ((((s.setPoint 0 Point.cold).setPoint 1
      Point.cold).setPoint 2 Point.cold).setPoint 3 Point.cold).point p := rfl
  rw [e, h, h, h, h]
  have e : (s.coldDefaults mark).point p = Point.cold := by
    show (Vector.replicate 4 Point.cold)[p] = _; simp
  rw [e]; fin_cases p <;> rfl

/-- The cold path of a start that found a bad check word, whole (R170). -/
theorem runSteps_coldPath (s : State) : runSteps coldPath s = ((s.setCheck false).coldDefaults
    true).setCheck true := by
  rw [coldPath, List.cons_append, runSteps_cons, runSteps_append, runSteps_coldWrites]; rfl

/-- The cold path of CLEAR RETAINED, whole (R175). -/
theorem runSteps_clearPath (s : State) : runSteps clearPath s = (s.coldDefaults false).setCheck true
    := by
  rw [clearPath, runSteps_append, runSteps_coldWrites]; rfl

/-- What no switch of a start moves before its final step. -/
structure SameUntilFinal (s t : State) : Prop where
  pins : t.pins = s.pins
  running : t.rcu.running = s.rcu.running
  lost : t.link.flags.retainLost = s.link.flags.retainLost

/-- The steps of the warm path leave RCU alone. -/
theorem warmPath_same {f} (hf : f ∈ warmPath) (x : State) : SameUntilFinal x (f x) ∧
    (f x).rcu = x.rcu := by
  rcases mem_warmPath hf with rfl | ⟨p, rfl⟩ | ⟨k, rfl⟩
  · unfold State.warmJournal; split
    · rw [State.completeCommit_eq]; exact ⟨⟨rfl, rfl, rfl⟩, rfl⟩
    · exact ⟨⟨rfl, rfl, rfl⟩, rfl⟩
  · rw [State.warmPoint_rest]; exact ⟨⟨rfl, rfl, rfl⟩, rfl⟩
  · have e : (x.warmPrice k).rcu = x.rcu := by unfold State.warmPrice; simp
    refine ⟨⟨by unfold State.warmPrice; simp, by rw [e], ?_⟩, e⟩
    unfold State.warmPrice
    have := congrArg (fun l : Link => l.flags.retainLost) (State.reportLeft_flags x k)
    exact this

/-- The writes of the cold path leave the check word alone. -/
theorem ColdWrite.same {m f} (h : ColdWrite m f) (x : State) : SameUntilFinal x (f x) ∧
    (f x).rcu.checkGood = x.rcu.checkGood := by
  cases h <;> exact ⟨⟨rfl, rfl, rfl⟩, rfl⟩

theorem State.coldDefaults_point (s : State) (m p) : (State.coldDefaults m s).point p = Point.cold := by
  show (Vector.replicate 4 Point.cold)[p] = _; simp

/-- The final step, whole but for the points (R172). -/
theorem State.finalStep_eq (s : State) : s.finalStep = State.choose { s with
    points := s.finalStep.points
    link :=
        { s.link with
            busAddress := 0x2C + s.pins.straps.setWidth 7
            flags := { s.link.flags with
                retainLost := s.link.flags.retainLost || s.rcu.retainLostMark
                restarted := true } }
    rcu :=
        { s.rcu with
            running := true
            retainLostMark := false
            mainPowerHigh := s.pins.pfailn } } := by
  unfold State.finalStep
  rw [State.choose_points]
  congr 1

/-- The points after the final step (R172). -/
theorem State.finalStep_point (s : State) (p) : s.finalStep.point p = (s.point p).sample (s.pinPair
    p) s.pins.hs[p] := by
  unfold State.finalStep
  have : ∀ t : State, t.choose.point p = t.point p := fun t => by simp [State.point]
  rw [this]
  exact State.modAllPoints_point s (fun p x => x.sample (s.pinPair p) s.pins.hs[p]) p

end Sys2Proof.Machine
end

