-- ==== Sys2Proof/Laws/Steps.lean ====
section
/-! SUPPORT. What a command can do to the state, said once: it is made of the moves that `KeptBySteps` lists,
so what each move keeps every command keeps. -/

namespace Sys2Proof.Machine

/-! ## The moves -/

/-- The changes of a point's state that are reported to the Product Table (R49), with what holds when one
is made. -/
inductive PointMove (s : State) (p : PointNo) : (Point → Point) → Prop
  | lift : PointMove s p Point.lift
  | lower : PointMove s p Point.lower
  | take (new) : PointMove s p (fun x => x.takeChange (s.rates x) new)
  | authExp : PointMove s p Point.authorizationExpiry
  | noFlow : PointMove s p Point.noFlowExpiry
  | emergency : PointMove s p Point.emergency
  | authorize (q a) (h : authorizeVerdict q s = .ok a) (hp : q.p = p) :
    PointMove s p (fun x => x.authorize a)
  | drop (h : (s.point p).st = .authorized) : PointMove s p (fun x => x.dropTo .idle)
  | pause (h : (s.point p).st = .delivering) : PointMove s p Point.pause
  | resume (h : (s.point p).st = .paused) : PointMove s p Point.resume
  | stopReq (r) (h : (s.point p).st = .delivering ∨ (s.point p).st = .paused) :
    PointMove s p (fun x => x.enterStopping r)
  | clearFault (h : (s.point p).st = .faulted) : PointMove s p Point.clearFault
  | clearCreep (h : (s.point p).st ≠ .undefined) : PointMove s p Point.clearCreep

/-- The changes of a point's definition, with what holds when one is made (R3, R4, R5). -/
inductive PointRedefined (s : State) (p : PointNo) : (Point → Point) → Prop
  | define (d pair) (h : (s.point p).st = .undefined) : PointRedefined s p (fun x => x.define d pair)
  | modify (q : ModifyReq) (h : (s.point p).st.changeable = true) :
    PointRedefined s p (fun x => { x with defn := x.defn.map q.apply })
  | release (h : (s.point p).st.changeable = true) : PointRedefined s p Point.release

/-- What the link has checked of a request of the decimal unit (R151, Table 11-5). -/
def JobReq.parsed : JobReq → Prop
  | .setSite (some (vs, ms)) _ => vs ≤ 3 ∧ ms ≤ 3
  | .declare _ digits scale rounding => 1 ≤ digits ∧ digits ≤ 20 ∧ scale ≤ 6 ∧ rounding ≤ 9
  | .hold rs _ => 1 ≤ rs.length ∧ rs.length ≤ 8
  | _ => True

/-- P reads nothing of the link and is kept by every move that a command is made of. With J, no host job
exists when a request reaches its owner; with R, the part runs only while it is powered. The warm path runs
with the check word good and the cold path with it bad, until `good` marks it (R170, R175). -/
structure KeptBySteps (J R : Prop) (P : State → Prop) : Prop where
  link : ∀ s l, P s → P { s with link := l }
  pins : ∀ s n, n.vdd = s.pins.vdd → n.resetn = s.pins.resetn → P s → P { s with pins := n }
  power : ∀ s b, P s → P { s with rcu := { s.rcu with mainPowerHigh := b } }
  move : ∀ s p f, P s → s.rcu.running = true → PointMove s p f → P (s.movePoint p f)
  mod : ∀ s p f, P s → s.rcu.running = true → (J → s.dcu.job = none) → PointRedefined s p f →
    P (s.modPoint p f)
  flags : ∀ s, P s → P (s.modAllPoints (fun _ x => { x with flags := PointFlags.clear }))
  settle : ∀ s p f, P s → s.rcu.running = true → (s.point p).st = .stopping →
    (f = id ∨ f = Point.flowAfterStop) → P (s.settlePoint p f)
  product : ∀ s k r, P s → r.rounding ≤ 9 → s.holdingEmpty k = true → r.staged = none →
    P (s.setProduct k (some r))
  price : ∀ s k r c, P s → s.product k = some r → s.deliveringEmpty k = true →
    P (s.setProduct k (some { r with current := c, staged := none }))
  stage : ∀ s k r c, P s → s.product k = some r → s.deliveringEmpty k = false →
    P (s.setProduct k (some { r with staged := some c }))
  remove : ∀ s n, P s → s.rcu.running = true → P (s.modSales (fun q => q.remove n))
  accept : ∀ s req, P s → s.operating = true → (J → s.dcu.job = none) → jobRefusal req s = none →
    JobReq.parsed req → P (s.acceptJob req)
  complete : ∀ s j, P s → s.operating = true → s.activeJob = some j → P (s.completeJob j)
  suspend : ∀ s j, P s → s.operating = true → s.activeJob = some j → s.suspendable j = true →
    P (s.suspendJob j)
  commit : ∀ s q f, P s → s.operating = true → s.takenSale = some (q, f) → P (s.commitPosting q f)
  hold : ∀ s, P s → s.operating = true → P s.expireHold
  first : ∀ s, P s → P s.firstStep
  cut : ∀ s c, P s → s.operating = true → P (s.cutCommit c).firstStep
  dark : ∀ s n, (R → s.rcu.running = false) → P s → P { s with pins := n }
  check : ∀ s b, (R → s.rcu.running = false) → P s →
    P { s with rcu := { s.rcu with checkGood := s.rcu.checkGood && b } }
  path : ∀ s f, (R → s.rcu.running = false) → s.rcu.checkGood = true → P s → f ∈ warmPath → P (f s)
  cold : ∀ s m f, (R → s.rcu.running = false) → s.rcu.checkGood = false → P s → ColdWrite m f → P (f s)
  good : ∀ s m, (R → s.rcu.running = false) → P (State.coldDefaults m s) →
    P ((State.coldDefaults m s).setCheck true)
  final : ∀ s, (R → s.rcu.running = false ∧ s.pins.vdd = true ∧ s.pins.resetn = true) →
    s.rcu.checkGood = true → P s → s.dcu.journal = none →
    (∀ p, (s.point p).st ≠ .authorized ∧ (s.point p).st.counting = false) →
    (∀ k, s.isStaged k = false) → P s.finalStep


/-! ## What the parsers give -/

/-- A field read with a range lies in it (Table 11-2). -/
theorem readRange_bounds {lo hi bs n r} (h : readRange lo hi bs = some (n, r)) : lo ≤ n ∧ n ≤ hi := by
  unfold readRange at h; split at h
  · cases h
  · split at h
    · next hh => cases h; exact hh
    · cases h

theorem parseDeclare_parsed {b req} (h : parseDeclare b = some req) : JobReq.parsed req := by
  unfold parseDeclare at h
  simp only [Option.bind_eq_bind, Option.bind_eq_some_iff, Prod.exists] at h
  obtain ⟨r, b1, h1, d, b2, h2, s, b3, h3, n, b4, h4, -, -, h5⟩ := h
  cases h5
  exact ⟨(readRange_bounds h2).1, (readRange_bounds h2).2, (readRange_bounds h3).2,
      (readRange_bounds h4).2⟩

theorem parseSetSite_parsed {b req} (h : parseSetSite b = some req) : JobReq.parsed req := by
  unfold parseSetSite at h
  simp only [Option.bind_eq_bind, Option.bind_eq_some_iff, Prod.exists] at h
  obtain ⟨pr, b1, h1, sc, b2, h2, gc, b3, h3, -, -, h5⟩ := h
  cases h5
  unfold readIf at h2
  split at h2
  · simp only [Option.map_eq_some_iff, Prod.exists] at h2
    obtain ⟨v1, v2, c, h6, h7⟩ := h2
    cases h7
    unfold readScales at h6
    simp only [Option.bind_eq_bind, Option.bind_eq_some_iff, Prod.exists] at h6
    obtain ⟨vs, c1, g1, ms, c2, g2, g3⟩ := h6
    cases g3
    exact ⟨(readRange_bounds g1).2, (readRange_bounds g2).2⟩
  · cases h2; trivial

theorem parseLoad_parsed {b req} (h : parseLoad b = some req) : JobReq.parsed req := by
  unfold parseLoad at h
  simp only [Option.bind_eq_bind, Option.bind_eq_some_iff, Prod.exists] at h
  obtain ⟨_, _, _, _, _, _, _, _, _, _, _, h⟩ := h
  cases h
  trivial

theorem parseMove_parsed {b req} (h : parseMove b = some req) : JobReq.parsed req := by
  unfold parseMove at h
  simp only [Option.bind_eq_bind, Option.bind_eq_some_iff, Prod.exists] at h
  obtain ⟨_, _, _, _, _, _, _, _, _, _, _, h⟩ := h
  cases h
  trivial

theorem parseRescale_parsed {b req} (h : parseRescale b = some req) : JobReq.parsed req := by
  unfold parseRescale at h
  simp only [Option.bind_eq_bind, Option.bind_eq_some_iff, Prod.exists] at h
  obtain ⟨_, _, _, _, _, _, _, _, _, _, _, _, _, _, h⟩ := h
  cases h
  trivial

theorem parseCompare_parsed {b req} (h : parseCompare b = some req) : JobReq.parsed req := by
  unfold parseCompare at h
  simp only [Option.bind_eq_bind, Option.bind_eq_some_iff, Prod.exists] at h
  obtain ⟨_, _, _, _, _, _, _, _, _, _, _, h⟩ := h
  cases h
  trivial

theorem parseSumList_parsed {b req} (h : parseSumList b = some req) : JobReq.parsed req := by
  unfold parseSumList at h
  simp only [Option.bind_eq_bind, Option.bind_eq_some_iff, Prod.exists] at h
  obtain ⟨_, _, _, _, _, _, _, _, _, _, _, _, _, _, h⟩ := h
  cases h
  trivial

theorem parseReadRegister_parsed {b req} (h : parseReadRegister b = some req) : JobReq.parsed req := by
  unfold parseReadRegister at h
  simp only [Option.bind_eq_bind, Option.bind_eq_some_iff, Prod.exists] at h
  obtain ⟨_, _, _, _, _, h⟩ := h
  cases h
  trivial

theorem parseReleaseHold_parsed {b req} (h : parseReleaseHold b = some req) : JobReq.parsed req := by
  unfold parseReleaseHold at h
  simp only [Option.bind_eq_bind, Option.bind_eq_some_iff] at h
  obtain ⟨_, _, h⟩ := h
  cases h
  trivial

theorem readMany_length {α : Type} {f : Reader α} {n : Nat} : ∀ {bs xs rest},
    readMany f n bs = some (xs, rest) → xs.length = n := by
  induction n with
  | zero =>
    intro bs xs rest h
    cases h
    rfl
  | succ n ih =>
    intro bs xs rest h
    simp only [readMany, Option.bind_eq_bind, Option.bind_eq_some_iff, Prod.exists] at h
    obtain ⟨x, b1, -, ys, b2, h2, h3⟩ := h
    cases h3
    simp [ih h2]

theorem parseHold_parsed {b req} (h : parseHold b = some req) : JobReq.parsed req := by
  unfold parseHold at h
  simp only [Option.bind_eq_bind, Option.bind_eq_some_iff, Prod.exists] at h
  obtain ⟨n, _, h1, _, _, h2, _, _, _, _, _, h5⟩ := h
  cases h5
  rw [← readMany_length h2] at h1
  exact readRange_bounds h1

theorem parseArith_parsed {op b req} (hop : ∀ d x y n, JobReq.parsed (op d x y n))
    (h : parseArith op b = some req) : JobReq.parsed req := by
  unfold parseArith at h
  simp only [Option.bind_eq_bind, Option.bind_eq_some_iff, Prod.exists] at h
  obtain ⟨_, _, _, _, _, _, _, _, _, _, _, _, _, _, h⟩ := h
  cases h
  exact hop _ _ _ _

theorem parseSetProduct_rounding {b q} (h : parseSetProduct b = some q) : q.rounding ≤ 9 := by
  unfold parseSetProduct at h
  simp only [Option.bind_eq_bind, Option.bind_eq_some_iff, Prod.exists] at h
  obtain ⟨_, _, _, _, _, _, r, _, h4, _, _, _, _, _, h5⟩ := h; cases h5; exact (readRange_bounds h4).2

/-! ## What an operating part is -/

theorem State.running_of_operating {s : State} (h : s.operating = true) : s.rcu.running = true := by
  unfold State.operating at h; simp only [Bool.and_eq_true] at h; exact h.2

theorem State.powered_of_operating {u : State} (h : u.operating = true) : u.pins.vdd = true ∧
    u.pins.resetn = true := by
  unfold State.operating at h; simp only [Bool.and_eq_true] at h; exact h.1

theorem ite_cases {c : Prop} [Decidable c] {a b x : Result} {Q : Prop} (e :
    (if c then a else b) = x) (h1 : a = x → Q) (h2 : b = x → Q) : Q := by
  split at e
  · exact h1 e
  · exact h2 e

/-! ## The general call -/

/-- The end of a general-call write stays in the link, but for the stop of every point (R157). -/
theorem State.endGeneralCall_cases (s : State) : s.endGeneralCall = s ∨
    s.endGeneralCall = s.modLink (fun l => { l with generalCall := none, generalCallBuffer := [] }) ∨
    s.endGeneralCall = (s.modLink (fun l =>
        { l with
            generalCall := none
            generalCallBuffer := [] })).stopEveryPoint := by
  unfold State.endGeneralCall; split
  · dsimp only; split
    · exact Or.inr (Or.inr rfl)
    · exact Or.inr (Or.inl rfl)
  · exact Or.inl rfl

/-- The address of a general-call write stays in the link (R146). -/
theorem State.admitGeneralCall_link (s : State) : ∃ l, s.admitGeneralCall =
    { s with
        link := l } ∧ l.replySlot = s.link.replySlot := by
  unfold State.admitGeneralCall; split
  · exact ⟨_, rfl, rfl⟩
  · exact ⟨_, rfl, rfl⟩

/-- A data byte of a general-call write stays in the link (R157). -/
theorem State.takeGeneralCall_link (s : State) (b) : ∃ l, s.takeGeneralCall b =
    { s with
        link := l } ∧ l.replySlot = s.link.replySlot := by
  unfold State.takeGeneralCall; split
  · exact ⟨_, rfl, rfl⟩
  · exact ⟨_, rfl, rfl⟩

/-- What every event of a general-call write keeps, a whole write keeps (R157). -/
theorem State.generalCallWrite_keeps {P : State → Prop} {s : State} (bytes : List Byte) (h : P s)
    (hk : ∀ u event, P u → P (u.onGeneralCall event)) : P (s.generalCallWrite bytes) :=
  List.foldlRecOn _ _ h (fun u hu event _ => hk u event hu)

/-- A FRAME_ERROR row is a write to the own address, one to the general-call address, or one that stands
unacknowledged (R145). -/
theorem execFrameError_cases (write : BusWrite) (s : State) :
    execFrameError write s = takeOwnWrite write.bytes s ∨
    execFrameError write s = .next (s.generalCallWrite write.bytes) ∨
    execFrameError write s = .next (s.setBus .notAcknowledged) := by
  unfold execFrameError
  split
  · exact Or.inl rfl
  · split
    · exact Or.inr (Or.inl rfl)
    · exact Or.inr (Or.inr rfl)

/-! ## The steps -/

variable {J R : Prop} {P : State → Prop}

/-- An event that only an operating part takes. -/
theorem whenOperating_kept {s : State} (f : State → State) (h : P s) (hf : s.operating = true →
    P (f s)) : P (s.whenOperating f) := by
  unfold State.whenOperating; split
  · next ho => exact hf ho
  · exact h

variable (K : KeptBySteps J R P)
include K

/-- An answer keeps P. -/
theorem KeptBySteps.answer {s : State} (a b c) (h : P s) : P (s.answer a b c) := K.link s _ h

/-- The stop of every point keeps P (R23). -/
theorem KeptBySteps.stopEvery {s : State} (h : P s) (hr : s.rcu.running = true) :
    P s.stopEveryPoint := by
  rw [State.stopEveryPoint_eq]
  refine K.move _ _ _ (K.move _ _ _ (K.move _ _ _ (K.move _ _ _ h hr .emergency) ?_ .emergency) ?_
      .emergency) ?_ .emergency <;> simpa using hr

/-- Every event of a general-call write (R146, R157). -/
theorem KeptBySteps.onGeneralCall {s : State} (event : GeneralCall) (h : P s) :
    P (s.onGeneralCall event) := by
  have hend : s.operating = true → P s.endGeneralCall := by
    intro ho
    rcases State.endGeneralCall_cases s with e | e | e <;> rw [e]
    · exact h
    · exact K.link _ _ h
    · exact K.stopEvery (K.link _ _ h) (State.running_of_operating ho)
  unfold State.onGeneralCall
  split
  · split
    · next ho =>
      obtain ⟨l, e, -⟩ := State.admitGeneralCall_link s.endGeneralCall
      rw [e]; exact K.link _ _ (hend ho)
    · exact K.link _ _ h
  · refine whenOperating_kept _ h (fun _ => ?_)
    obtain ⟨l, e, -⟩ := State.takeGeneralCall_link s ‹_›
    rw [e]; exact K.link _ _ h
  · exact whenOperating_kept _ h hend

/-- Marking the check word bad keeps P (R170, R175). -/
theorem KeptBySteps.checkBad {s : State} (h : P s) (hr : R → s.rcu.running = false) :
    P (s.setCheck false) := by
  have := K.check s false hr h
  rw [Bool.and_false] at this; exact this

/-- The first writes of the cold path keep P (R170, R173). -/
theorem KeptBySteps.writes {s : State} (m n) (h : P s) (hg : s.rcu.checkGood = false) (hr : R →
    s.rcu.running = false) :
    P (runSteps ((coldWrites m).take n) s) := by
  have := runSteps_keeps (fs := (coldWrites m).take n) (s := s) (P := fun t => P t ∧
      t.rcu.checkGood = false ∧ (R → t.rcu.running = false)) ⟨h, hg, hr⟩ (fun f hf t ht => by
    have hw := mem_coldWrites (List.mem_of_mem_take hf)
    have hk := ColdWrite.same hw t
    exact ⟨K.cold t m f ht.2.2 ht.2.1 ht.1 hw, hk.2.trans ht.2.1, fun r =>
        hk.1.running.trans (ht.2.2 r)⟩)
  exact this.1

/-- A cold path from its writes on keeps P, interrupted or not (R170, R173, R175). -/
theorem KeptBySteps.runCold {s : State} (m) (h : P s) (hg : s.rcu.checkGood = false) (hr : R →
    s.rcu.running = false ∧ s.pins.vdd = true ∧ s.pins.resetn = true) (u : Option Nat) :
    P (s.runPath (coldWrites m ++ [fun s : State => s.setCheck true]) u) := by
  have all : P (s.coldDefaults m) := by
    have := K.writes m (coldWrites m).length h hg (fun r => (hr r).1)
    rw [List.take_length, runSteps_coldWrites] at this; exact this
  have fin : P ((s.coldDefaults m).setCheck true) := K.good s m (fun r => (hr r).1) all
  unfold State.runPath
  split
  · rw [runSteps_append, runSteps_coldWrites]
    refine K.final _ hr rfl fin rfl ?_ ?_
    · intro p
      have : ((s.coldDefaults m).setCheck true).point p = Point.cold := by
        show (Vector.replicate 4 Point.cold)[p] = _; simp
      show (((s.coldDefaults m).setCheck true).point p).st ≠ _ ∧
          (((s.coldDefaults m).setCheck true).point p).st.counting = _
      rw [this]; exact ⟨by decide, by decide⟩
    · intro k; unfold State.isStaged
      have : ((s.coldDefaults m).setCheck true).product k = none := by
        show (Vector.replicate 6 (none : Option Product))[k] = _; simp
      show (match ((s.coldDefaults m).setCheck true).product k with | some r => r.staged.isSome | none => false) = false
      rw [this]
  · next n =>
    by_cases hn : n ≤ (coldWrites m).length
    · rw [List.take_append_of_le_length hn]; exact K.writes m n h hg (fun r => (hr r).1)
    · rw [List.take_of_length_le
        (by simp at hn ⊢; omega), runSteps_append, runSteps_coldWrites]; exact fin

/-- A start from its second step keeps P (R170 to R173). -/
theorem KeptBySteps.start {s : State} (u : Option Nat) (h : P s) (hr : R → s.rcu.running = false ∧
    s.pins.vdd = true ∧ s.pins.resetn = true) : P (s.testAndRun u) := by
  cases hg : s.rcu.checkGood
  · have hb := K.checkBad h (fun r => (hr r).1)
    have e : s.testAndRun u = s.runPath coldPath u := by unfold State.testAndRun; rw [hg]; rfl
    rw [e]
    cases u with
    | none => exact K.runCold true hb rfl hr none
    | some n =>
      cases n with
      | zero => exact h
      | succ n => exact K.runCold true hb rfl hr (some n)
  · have steps : ∀ n, P (runSteps (warmPath.take n) s) ∧ SameUntilFinal s (runSteps (warmPath.take n)
      s) ∧ (runSteps (warmPath.take n) s).rcu = s.rcu := fun n =>
      runSteps_keeps (P := fun t => P t ∧ SameUntilFinal s t ∧ t.rcu = s.rcu) ⟨h, ⟨rfl, rfl, rfl⟩,
          rfl⟩ (fun f hf t ht => by
        have hw := List.mem_of_mem_take hf
        have hk := warmPath_same hw t
        exact ⟨K.path t f (fun r => by rw [ht.2.2]; exact (hr r).1) (by rw [ht.2.2]; exact hg) ht.1 hw,
          ⟨hk.1.pins.trans ht.2.1.pins, hk.1.running.trans ht.2.1.running,
              hk.1.lost.trans ht.2.1.lost⟩, hk.2.trans ht.2.2⟩)
    have e : s.testAndRun u = s.runPath warmPath u := by unfold State.testAndRun; rw [hg]; rfl
    rw [e]; unfold State.runPath
    cases u with
    | none =>
      have := steps warmPath.length
      rw [List.take_length] at this
      refine K.final _ (fun r => ?_) ?_ this.1 (runSteps_warmPath_journal s) (fun p => ?_)
        (runSteps_warmPath_isStaged s)
      · rw [this.2.2, this.2.1.pins]
        exact hr r
      · rw [this.2.2]
        exact hg
      · rw [runSteps_warmPath_point]
        exact Point.warmed_state _ p
    | some n => exact (steps n).1

/-- The start of CLEAR RETAINED keeps P (R175). -/
theorem KeptBySteps.clear {s : State} (u : Option Nat) (h : P s) (hr : R → s.rcu.running = false ∧
    s.pins.vdd = true ∧ s.pins.resetn = true) : P ((s.setCheck false).runPath clearPath u) :=
  K.runCold false (K.checkBad h (fun r => (hr r).1)) rfl hr u

/-- A request keeps P when its owner does. -/
theorem KeptBySteps.req {α : Type} (kind : Byte) (payload : List Byte) (parse : List Byte →
    Option α) (owner : α → State → State) (s t : State)
    (h : P s) (hJ : J → s.link.replySlot ≠ .pending → s.dcu.job = none)
    (ho : ∀ x u, parse payload = some x → P u → u.operating = true → (J → u.dcu.job = none) →
        P (owner x u))
    (e : request kind payload parse owner s = .next t) : P t := by
  unfold request at e
  cases e
  split
  · next ha =>
    unfold State.acceptsWrite at ha
    simp only [Bool.and_eq_true, decide_eq_true_eq] at ha
    dsimp only
    split
    · exact K.answer _ _ _ (K.link _ _ h)
    · unfold dispatch; split
      · exact K.answer _ _ _ (K.link _ _ h)
      · next x hx => exact ho x _ hx (K.link _ _ h) ha.1 (fun j => hJ j ha.2)
  · exact K.link _ _ h

/-- A request of the decimal unit keeps P. -/
theorem KeptBySteps.job (kind : Byte) (req : JobReq) (u : State) (h : P u) (ho :
    u.operating = true) (hJ : J → u.dcu.job = none) (hp : JobReq.parsed req) :
    P (jobRequest kind req u) := by
  unfold jobRequest; split
  · exact K.answer _ _ _ h
  · next hn => exact K.accept _ _ h ho hJ hn hp

theorem KeptBySteps.onDef (kind : Byte) (p : PointNo) (f : State → State) (u : State) (h : P u) (hf :
    (u.point p).st ≠ .undefined → P (f u)) : P (onDefined kind p f u) := by
  unfold onDefined; split
  · exact K.answer _ _ _ h
  · next hn => exact hf hn

/-- Every command keeps P: the whole of what a step can do, said once. -/
theorem exec_kept (c : Instr) (s t : State) (h : P s)
    (hJ : J → s.link.replySlot ≠ .pending → s.dcu.job = none) (hR : R → RunsPowered s)
    (e : exec c s = .next t) : P t := by
  have status : ∀ b t, execStatus b s = .next t → P t := fun b t e =>
      K.req _ _ _ _ s t h hJ (fun x u _ hu _ _ => K.answer _ _ _ hu) e
  have getEvents : ∀ b t, execGetEvents b s = .next t → P t := fun b t e =>
      K.req _ _ _ _ s t h hJ (fun x u _ hu _ _ => K.answer _ _ _ (K.link _ _ (K.flags u hu))) e
  have restart : ∀ b cu en t, execRestart b cu en s = .next t → P t := fun b cu en t e =>
      K.req _ _ _ _ s t h hJ (by
    intro x u _ hu ho _
    unfold restartRequest; split
    · exact K.answer _ _ _ hu
    · have hp := State.powered_of_operating ho
      refine K.start _ ?_ (fun _ => ⟨rfl, ?_⟩)
      · exact K.dark _ _ (fun _ => rfl) (K.cut u cu hu ho)
      · have : (((u.cutCommit cu).setStraps en.straps).firstStep).pins =
          { u.pins with
              straps := en.straps } := by
          show ({ (u.cutCommit cu).pins with straps := en.straps } : Pins) = _
          rw [State.cutCommit_rest]
        rw [this]; exact hp) e
  have clearRetained : ∀ b en t, execClearRetained b en s = .next t → P t := fun b en t e =>
      K.req _ _ _ _ s t h hJ (by
    intro x u _ hu ho _
    unfold clearRetainedRequest; split
    · have hp := State.powered_of_operating ho
      refine K.clear _ ?_ (fun _ => ⟨rfl, hp.1, hp.2⟩)
      exact K.dark _ _ (fun _ => rfl) (K.first u hu)
    · exact K.answer _ _ _ hu) e
  have definePoint : ∀ b t, execDefinePoint b s = .next t → P t := fun b t e =>
      K.req _ _ _ _ s t h hJ (by
    intro q u _ hu ho hj0
    unfold defineRequest; split
    · exact K.answer _ _ _ hu
    · next hn =>
      split
      · exact K.answer _ _ _ hu
      · exact K.answer _ _ _ (K.mod _ _ _ hu (State.running_of_operating ho) hj0 (.define _ _
          (by simpa using hn)))) e
  have modifyPoint : ∀ b t, execModifyPoint b s = .next t → P t := fun b t e =>
      K.req _ _ _ _ s t h hJ (by
    intro q u _ hu ho hj0
    refine K.onDef _ _ _ _ hu (fun _ => ?_)
    split
    · exact K.answer _ _ _ hu
    · next hn =>
      split
      · exact K.answer _ _ _ hu
      · exact K.answer _ _ _ (K.mod _ _ _ hu (State.running_of_operating ho) hj0 (.modify _ (by simpa
          using hn)))) e
  have releasePoint : ∀ b t, execReleasePoint b s = .next t → P t := fun b t e =>
      K.req _ _ _ _ s t h hJ (by
    intro q u _ hu ho hj0
    refine K.onDef _ _ _ _ hu (fun _ => ?_)
    split
    · exact K.answer _ _ _ hu
    · next hn => exact K.answer _ _ _ (K.mod _ _ _ hu (State.running_of_operating ho) hj0 (.release
        (by simpa using hn)))) e
  have authorize : ∀ b t, execAuthorize b s = .next t → P t := fun b t e => K.req _ _ _ _ s t h hJ (by
    intro q u _ hu ho _
    unfold authorizeRequest
    split
    · exact K.answer _ _ _ hu
    · next a ha => exact K.answer _ _ _ (K.move _ _ _ hu (State.running_of_operating ho) (.authorize
        q a ha rfl))) e
  have cancel : ∀ b t, execCancel b s = .next t → P t := fun b t e => K.req _ _ _ _ s t h hJ (by
    intro q u _ hu ho _
    refine K.onDef _ _ _ _ hu (fun _ => ?_)
    split
    · exact K.answer _ _ _ hu
    · next hn => exact K.answer _ _ _ (K.move _ _ _ hu (State.running_of_operating ho) (.drop
        (by simpa using hn)))) e
  have pause : ∀ b t, execPause b s = .next t → P t := fun b t e => K.req _ _ _ _ s t h hJ (by
    intro q u _ hu ho _
    refine K.onDef _ _ _ _ hu (fun _ => ?_)
    split
    · exact K.answer _ _ _ hu
    · next hn => exact K.answer _ _ _ (K.move _ _ _ hu (State.running_of_operating ho) (.pause
        (by simpa using hn)))) e
  have resume : ∀ b t, execResume b s = .next t → P t := fun b t e => K.req _ _ _ _ s t h hJ (by
    intro q u _ hu ho _
    refine K.onDef _ _ _ _ hu (fun _ => ?_)
    split
    · exact K.answer _ _ _ hu
    · next hn =>
      split
      · exact K.answer _ _ _ hu
      · exact K.answer _ _ _ (K.move _ _ _ hu (State.running_of_operating ho) (.resume (by simpa
          using hn)))) e
  have stop : ∀ b t, execStop b s = .next t → P t := fun b t e => K.req _ _ _ _ s t h hJ (by
    intro q u _ hu ho _
    unfold stopRequest
    split
    · exact K.answer _ _ _ hu
    · exact K.answer _ _ _ hu
    · exact K.answer _ _ _ hu
    · exact K.answer _ _ _ hu
    · next hs => exact K.answer _ _ _ (K.move _ _ _ hu (State.running_of_operating ho) (.drop hs))
    · next hs => exact K.answer _ _ _ (K.move _ _ _ hu (State.running_of_operating ho) (.stopReq _
        (Or.inl hs)))
    · next hs => exact K.answer _ _ _ (K.move _ _ _ hu (State.running_of_operating ho) (.stopReq _
        (Or.inr hs)))
    · exact K.answer _ _ _ hu
    · exact K.answer _ _ _ hu) e
  have stopAll : ∀ b t, execStopAll b s = .next t → P t := fun b t e =>
      K.req _ _ _ _ s t h hJ (fun x u _ hu ho _ => K.answer _ _ _ (K.stopEvery hu
      (State.running_of_operating ho))) e
  have readPoint : ∀ b t, execReadPoint b s = .next t → P t := fun b t e =>
      K.req _ _ _ _ s t h hJ (fun x u _ hu _ _ => K.answer _ _ _ hu) e
  have clearFault : ∀ b t, execClearFault b s = .next t → P t := fun b t e => K.req _ _ _ _ s t h hJ (by
    intro q u _ hu ho _
    refine K.onDef _ _ _ _ hu (fun _ => ?_)
    split
    · exact K.answer _ _ _ hu
    · next hn => exact K.answer _ _ _ (K.move _ _ _ hu (State.running_of_operating ho) (.clearFault
        (by simpa using hn)))) e
  have clearCreep : ∀ b t, execClearCreep b s = .next t → P t := fun b t e => K.req _ _ _ _ s t h hJ (by
    intro q u _ hu ho _
    exact K.onDef _ _ _ _ hu (fun hd => K.answer _ _ _ (K.move _ _ _ hu (State.running_of_operating
        ho) (.clearCreep hd)))) e
  have setProduct : ∀ b t, execSetProduct b s = .next t → P t := fun b t e => K.req _ _ _ _ s t h hJ (by
    intro q u hq hu ho _
    unfold setProductRequest
    split
    · exact K.answer _ _ _ hu
    · next hn =>
      split
      · exact K.answer _ _ _ hu
      · exact K.answer _ _ _ (K.product _ _ _ hu (parseSetProduct_rounding hq) (by simpa using hn)
          rfl)) e
  have setPrice : ∀ b t, execSetPrice b s = .next t → P t := fun b t e => K.req _ _ _ _ s t h hJ (by
    intro q u hq hu ho _
    unfold setPriceRequest
    split
    · exact K.answer _ _ _ hu
    · next r hr =>
      split
      · exact K.answer _ _ _ hu
      · split
        · next hd => exact K.answer _ _ _ (K.price _ _ _ _ hu hr hd)
        · next hd => exact K.answer _ _ _ (K.stage _ _ _ _ hu hr (by simpa using hd))) e
  have collectSale : ∀ b t, execCollectSale b s = .next t → P t := fun b t e =>
      K.req _ _ _ _ s t h hJ (by
    intro q u hq hu ho _
    unfold collectSaleRequest
    split
    · exact K.answer _ _ _ hu
    · exact K.answer _ _ _ hu) e
  have clearSale : ∀ b t, execClearSale b s = .next t → P t := fun b t e => K.req _ _ _ _ s t h hJ (by
    intro q u hq hu ho _
    unfold clearSaleRequest
    split
    · exact K.answer _ _ _ (K.remove _ _ hu (State.running_of_operating ho))
    · exact K.answer _ _ _ hu) e
  have jr : ∀ kind b (parse : List Byte → Option JobReq) t, (∀ req, parse b = some req →
      JobReq.parsed req) → request kind b parse (jobRequest kind) s = .next t → P t := by
    intro kind b parse t hp e
    exact K.req _ _ _ _ s t h hJ (fun req u hq hu ho hj => K.job _ _ _ hu ho hj (hp req hq)) e
  have byKind : ∀ k b t, execByKind k b s = .next t → P t := by
    intro k b t e
    unfold execByKind at e
    refine ite_cases e (fun e => status _ _ e) (fun e => ?_)
    refine ite_cases e (fun e => getEvents _ _ e) (fun e => ?_)
    refine ite_cases e (fun e => restart _ _ _ _ e) (fun e => ?_)
    refine ite_cases e (fun e => clearRetained _ _ _ e) (fun e => ?_)
    refine ite_cases e (fun e => definePoint _ _ e) (fun e => ?_)
    refine ite_cases e (fun e => modifyPoint _ _ e) (fun e => ?_)
    refine ite_cases e (fun e => releasePoint _ _ e) (fun e => ?_)
    refine ite_cases e (fun e => authorize _ _ e) (fun e => ?_)
    refine ite_cases e (fun e => cancel _ _ e) (fun e => ?_)
    refine ite_cases e (fun e => pause _ _ e) (fun e => ?_)
    refine ite_cases e (fun e => resume _ _ e) (fun e => ?_)
    refine ite_cases e (fun e => stop _ _ e) (fun e => ?_)
    refine ite_cases e (fun e => stopAll _ _ e) (fun e => ?_)
    refine ite_cases e (fun e => readPoint _ _ e) (fun e => ?_)
    refine ite_cases e (fun e => clearFault _ _ e) (fun e => ?_)
    refine ite_cases e (fun e => clearCreep _ _ e) (fun e => ?_)
    refine ite_cases e (fun e => setProduct _ _ e) (fun e => ?_)
    refine ite_cases e (fun e => setPrice _ _ e) (fun e => ?_)
    refine ite_cases e (fun e => collectSale _ _ e) (fun e => ?_)
    refine ite_cases e (fun e => clearSale _ _ e) (fun e => ?_)
    refine ite_cases e (fun e => jr _ _ _ _ (fun _ h => parseSetSite_parsed h) e) (fun e => ?_)
    refine ite_cases e (fun e => jr _ _ _ _ (fun _ h => parseDeclare_parsed h) e) (fun e => ?_)
    refine ite_cases e (fun e => jr _ _ _ _ (fun _ h => parseLoad_parsed h) e) (fun e => ?_)
    refine ite_cases e (fun e => jr _ _ _ _ (fun _ h => parseMove_parsed h) e) (fun e => ?_)
    refine ite_cases e (fun e => jr _ _ _ _ (fun _ h => parseArith_parsed (op := .add) (fun _ _ _ _ => trivial) h) e) (fun e => ?_)
    refine ite_cases e (fun e => jr _ _ _ _ (fun _ h => parseArith_parsed (op := .subtract) (fun _ _ _ _ => trivial) h) e) (fun e => ?_)
    refine ite_cases e (fun e => jr _ _ _ _ (fun _ h => parseArith_parsed (op := .multiply) (fun _ _ _ _ => trivial) h) e) (fun e => ?_)
    refine ite_cases e (fun e => jr _ _ _ _ (fun _ h => parseArith_parsed (op := .divide) (fun _ _ _ _ => trivial) h) e) (fun e => ?_)
    refine ite_cases e (fun e => jr _ _ _ _ (fun _ h => parseRescale_parsed h) e) (fun e => ?_)
    refine ite_cases e (fun e => jr _ _ _ _ (fun _ h => parseCompare_parsed h) e) (fun e => ?_)
    refine ite_cases e (fun e => jr _ _ _ _ (fun _ h => parseSumList_parsed h) e) (fun e => ?_)
    refine ite_cases e (fun e => jr _ _ _ _ (fun _ h => parseReadRegister_parsed h) e) (fun e => ?_)
    refine ite_cases e (fun e => jr _ _ _ _ (fun _ h => parseHold_parsed h) e) (fun e => ?_)
    exact jr _ _ _ _ (fun _ h => parseReleaseHold_parsed h) e
  have dark0 : s.pins.vdd = false ∨ s.pins.resetn = false → R → s.rcu.running = false := by
    intro hv r
    by_contra hn
    have := hR r (by simpa using hn)
    rcases hv with hv | hv <;> simp [hv] at this
  cases c with
  | status b => exact status _ _ e
  | getEvents b => exact getEvents _ _ e
  | restart b cu en => exact restart _ _ _ _ e
  | clearRetained b en => exact clearRetained _ _ _ e
  | definePoint b => exact definePoint _ _ e
  | modifyPoint b => exact modifyPoint _ _ e
  | releasePoint b => exact releasePoint _ _ e
  | authorize b => exact authorize _ _ e
  | cancel b => exact cancel _ _ e
  | pause b => exact pause _ _ e
  | resume b => exact resume _ _ e
  | stop b => exact stop _ _ e
  | stopAll b => exact stopAll _ _ e
  | readPoint b => exact readPoint _ _ e
  | clearFault b => exact clearFault _ _ e
  | clearCreep b => exact clearCreep _ _ e
  | setProduct b => exact setProduct _ _ e
  | setPrice b => exact setPrice _ _ e
  | collectSale b => exact collectSale _ _ e
  | clearSale b => exact clearSale _ _ e
  | setSite b => exact jr _ _ _ _ (fun _ h => parseSetSite_parsed h) e
  | declare b => exact jr _ _ _ _ (fun _ h => parseDeclare_parsed h) e
  | load b => exact jr _ _ _ _ (fun _ h => parseLoad_parsed h) e
  | move b => exact jr _ _ _ _ (fun _ h => parseMove_parsed h) e
  | add b => exact jr _ _ _ _ (fun _ h => parseArith_parsed (op := .add) (fun _ _ _ _ => trivial) h) e
  | subtract b => exact jr _ _ _ _ (fun _ h => parseArith_parsed (op := .subtract) (fun _ _ _ _ => trivial) h) e
  | multiply b => exact jr _ _ _ _ (fun _ h => parseArith_parsed (op := .multiply) (fun _ _ _ _ => trivial) h) e
  | divide b => exact jr _ _ _ _ (fun _ h => parseArith_parsed (op := .divide) (fun _ _ _ _ => trivial) h) e
  | rescale b => exact jr _ _ _ _ (fun _ h => parseRescale_parsed h) e
  | compare b => exact jr _ _ _ _ (fun _ h => parseCompare_parsed h) e
  | sumList b => exact jr _ _ _ _ (fun _ h => parseSumList_parsed h) e
  | readRegister b => exact jr _ _ _ _ (fun _ h => parseReadRegister_parsed h) e
  | hold b => exact jr _ _ _ _ (fun _ h => parseHold_parsed h) e
  | releaseHold b => exact jr _ _ _ _ (fun _ h => parseReleaseHold_parsed h) e
  | frameError w =>
    rcases execFrameError_cases w s with h1 | h1 | h1 <;> rw [show exec (.frameError w) s = _ from h1] at e
    · unfold takeOwnWrite at e
      split at e
      · split at e
        · cases e; exact K.link _ _ h
        · split at e
          · cases e; exact K.link s _ h
          · cases e; exact K.link s _ h
          · exact byKind _ _ _ e
      · cases e; exact K.link _ _ h
    · cases e; exact State.generalCallWrite_keeps _ h (fun _ event hu => K.onGeneralCall event hu)
    · cases e; exact K.link _ _ h
  | readTransaction r =>
    cases e
    split
    · split
      · unfold State.sendReply; split
        · exact K.link _ _ h
        · exact h
      · exact K.link _ _ h
      · exact K.link _ _ h
    · exact K.link _ _ h
  | clockStretchEnd =>
    cases e
    refine whenOperating_kept _ h (fun _ => ?_)
    split
    · exact K.link _ _ h
    · exact h
  | generalCallStopAll b =>
    cases e; exact K.onGeneralCall b h
  | liftEdge p =>
    cases e
    exact whenOperating_kept _ (K.pins _ _ rfl rfl h) (fun ho =>
        K.move _ _ _ (K.pins _ _ rfl rfl h) (State.running_of_operating ho) .lift)
  | lowerEdge p =>
    cases e
    exact whenOperating_kept _ (K.pins _ _ rfl rfl h) (fun ho =>
        K.move _ _ _ (K.pins _ _ rfl rfl h) (State.running_of_operating ho) .lower)
  | changeOfThePair p a b =>
    cases e
    exact whenOperating_kept _ (K.pins _ _ rfl rfl h) (fun ho =>
        K.move _ _ _ (K.pins _ _ rfl rfl h) (State.running_of_operating ho) (.take _))
  | authorizationTimerExpiry p =>
    cases e
    exact whenOperating_kept _ h (fun ho => K.move _ _ _ h (State.running_of_operating ho) .authExp)
  | noFlowTimerExpiry p =>
    cases e
    exact whenOperating_kept _ h (fun ho => K.move _ _ _ h (State.running_of_operating ho) .noFlow)
  | settleTimerExpiry p =>
    cases e
    refine whenOperating_kept _ h (fun ho => ?_)
    split
    · next hs =>
      unfold Point.settleRuns at hs; simp only [Bool.and_eq_true, decide_eq_true_eq] at hs
      exact K.settle _ _ _ h (State.running_of_operating ho) hs.1 (Or.inl rfl)
    · exact h
  | stopLimitTimerExpiry p =>
    cases e
    refine whenOperating_kept _ h (fun ho => ?_)
    split
    · next hs =>
      unfold Point.stopLimitRuns at hs; simp only [Bool.and_eq_true, decide_eq_true_eq] at hs
      exact K.settle _ _ _ h (State.running_of_operating ho) hs.1 (Or.inr rfl)
    · exact h
  | estopnAsserted =>
    cases e
    split
    · exact whenOperating_kept _ (K.pins _ _ rfl rfl h) (fun ho =>
        K.link _ _ (K.stopEvery (K.pins _ _ rfl rfl h) (State.running_of_operating ho)))
    · exact h
  | estopnReleased =>
    cases e
    split
    · exact h
    · exact whenOperating_kept _ (K.pins _ _ rfl rfl h) (fun ho => K.link _ _ (K.pins _ _ rfl rfl h))
  | pfailnFall =>
    cases e
    exact whenOperating_kept _ (K.pins _ _ rfl rfl h) (fun ho => K.power _ _ (K.pins _ _ rfl rfl h))
  | pfailnRise =>
    cases e
    exact whenOperating_kept _ (K.pins _ _ rfl rfl h) (fun ho => K.power _ _ (K.pins _ _ rfl rfl h))
  | holdTimerExpiry =>
    cases e
    refine whenOperating_kept _ h (fun ho => ?_)
    split
    · exact K.hold _ h ho
    · exact h
  | postingCommit =>
    cases e
    refine whenOperating_kept _ h (fun ho => ?_)
    split
    · next q f hq => exact K.commit _ _ _ h ho hq
    · exact h
  | suspension =>
    cases e
    refine whenOperating_kept _ h (fun ho => ?_)
    split
    · next j hj =>
      split
      · next hs => exact K.suspend _ _ h ho hj hs
      · exact h
    · exact h
  | hostJobCompletion =>
    cases e
    refine whenOperating_kept _ h (fun ho => ?_)
    split
    · next j hj => exact K.complete _ _ h ho hj
    · exact h
  | mainPowerLoss cu =>
    cases e
    split
    · refine K.dark _ _ (fun _ => rfl) ?_
      split
      · next ho => exact K.cut _ _ h ho
      · exact K.first _ h
    · exact h
  | mainPowerReturn held en =>
    cases e
    split
    · exact h
    · next hv =>
      dsimp only
      have : P ((((s.modPins (fun n => { n with vdd := true })).setStraps en.straps).modRcu (fun r =>

              { r with
                  checkGood := r.checkGood && held })).firstStep) := K.dark _ _ (fun _ =>
                      rfl) (K.check _ _ (fun _ => rfl) (K.first s h))
      split
      · next hr => exact K.start _ this (fun _ => ⟨rfl, rfl, hr⟩)
      · exact this
  | resetnAsserted cu =>
    cases e
    split
    · dsimp only
      split
      · split
        · next ho =>
          rw [State.cutCommit_modPins, State.firstStep_modPins]
          exact K.dark _ _ (fun _ => rfl) (K.cut _ _ h ho)
        · exact K.dark _ _ (fun _ => rfl) (K.first _ h)
      · next hv => exact K.dark _ _ (dark0 (Or.inl (by simpa using hv))) h
    · exact h
  | resetnReleased en =>
    cases e
    split
    · exact h
    · next hv =>
      have d := dark0 (Or.inr (by simpa using hv))
      dsimp only
      split
      · next hv => exact K.start _ (K.dark s _ d h) (fun r => ⟨d r, hv, rfl⟩)
      · exact K.dark s _ d h

omit K

/-- The part runs only while it is powered (R167, R168). -/
theorem exec_runsPowered (c : Instr) (s t : State) (h : RunsPowered s) (e : exec c s = .next t) :
    RunsPowered t := by
  refine exec_kept (J := False) (R := True) (P := RunsPowered) ?_ c s t h (fun f => f.elim) (fun _ =>
      h) e
  have cong : ∀ {a b : State}, a.pins = b.pins → a.rcu.running = b.rcu.running → RunsPowered b →
      RunsPowered a := by
    intro a b h1 h2 h3; unfold RunsPowered at *; rw [h1, h2]; exact h3
  refine ⟨?_, ?_, ?_, ?_, ?_, ?_, ?_, ?_, ?_, ?_, ?_, ?_, ?_, ?_, ?_, ?_, ?_, ?_, ?_, ?_, ?_, ?_, ?_,
      ?_⟩
  · intro s l h; exact h
  · intro s n h1 h2 h; unfold RunsPowered at *; intro hr; have := h hr; exact ⟨h1 ▸ this.1, h2 ▸ this.2⟩
  · intro s b h; exact h
  · intro s p f h _ _; exact cong (by simp) (by simp) h
  · intro s p f h _ _ _; exact h
  · intro s h; exact h
  · intro s p f h _ _ _; exact cong (by rw [State.settlePoint_rest]) (by rw [State.settlePoint_rest]) h
  · intro s k r h _ _ _; exact h
  · intro s k r c h _ _; exact h
  · intro s k r c h _ _; exact h
  · intro s n h _; exact h
  · intro s req h _ _ _ _; exact cong (by simp [State.acceptJob]) (by simp [State.acceptJob]) h
  · intro s j h ho _; exact cong (by rw [State.completeJob_rest]) (by rw [State.completeJob_rest]) h
  · intro s j h ho _ _; exact cong (by simp [State.suspendJob]) (by simp [State.suspendJob]) h
  · intro s q f h ho _; exact cong (by rw [State.commitPosting_rest]) (by rw
      [State.commitPosting_rest]) h
  · intro s h ho; exact cong (by simp [State.expireHold]) (by simp [State.expireHold]) h
  · intro s h hr; cases hr
  · intro s c h ho hr; cases hr
  · intro s n hr h hr'; rw [hr trivial] at hr'; cases hr'
  · intro s b _ h; exact h
  · intro s f hr _ h hw
    rcases mem_warmPath hw with rfl | ⟨p, rfl⟩ | ⟨k, rfl⟩
    · exact cong (by rw [State.warmJournal_rest]) (by rw [State.warmJournal_rest]) h
    · exact cong (by rw [State.warmPoint_rest]) (by rw [State.warmPoint_rest]) h
    · exact cong (by rw [State.warmPrice_rest]) (by rw [State.warmPrice_rest]) h
  · intro s m f _ _ h hw; have := (ColdWrite.same hw s).1; exact cong this.pins this.running h
  · intro s m _ h; exact h
  · intro s hr _ h _ _ _ _
    have := hr trivial
    have e : s.finalStep.pins = s.pins := by rw [State.finalStep_eq]; simp
    rw [e]; exact this.2

end Sys2Proof.Machine
end

