-- ==== Sys2Proof/Laws/Slot.lean ====
section
/-! SUPPORT. How the reply slot and the host job go together (R147), said once. -/

namespace Sys2Proof.Machine

/-- The slot is PENDING exactly while a host job exists, and a part that is not RUNNING has none (R147,
R169). -/
def SlotLaw (s : State) : Prop := PendingExactlyWithJob s ∧ (s.rcu.running = false → s.dcu.job = none)

/-- An answer without a host job. -/
theorem SlotLaw.answer {u : State} (a b c) (h : u.dcu.job = none) : SlotLaw (u.answer a b c) := by
  refine ⟨?_, fun _ => h⟩
  unfold PendingExactlyWithJob
  rw [show (u.answer a b c).dcu.job = none from h]
  simp [State.answer, State.modLink]

/-- The law reads the reply slot, whether a job exists and whether the part runs. -/
theorem SlotLaw.congr {s t : State} (h : SlotLaw s) (h1 : t.link.replySlot = s.link.replySlot) (h2 :
    t.dcu.job.isSome = s.dcu.job.isSome) (h3 : t.rcu.running = s.rcu.running) : SlotLaw t := by
  refine ⟨?_, fun hr => ?_⟩
  · unfold PendingExactlyWithJob; rw [h1, h2]; exact h.1
  · have := h.2 (h3 ▸ hr)
    rw [this] at h2; simpa using h2

theorem SlotLaw.of_none {t : State} (h : t.link.replySlot ≠ .pending) (hj : t.dcu.job = none) :
    SlotLaw t :=
  ⟨by unfold PendingExactlyWithJob; rw [hj]; simp [h], fun _ => hj⟩

theorem State.warmJournal_job (s : State) : s.warmJournal.dcu.job = s.dcu.job ∧
    s.warmJournal.link.replySlot = s.link.replySlot := by
  unfold State.warmJournal; split
  · rw [State.completeCommit_eq]; exact ⟨rfl, rfl⟩
  · exact ⟨rfl, rfl⟩

theorem State.finalStep_slot {s : State} (h : s.link.replySlot ≠ .pending) (hj : s.dcu.job = none) :
    SlotLaw s.finalStep := by
  refine SlotLaw.of_none ?_ ?_
  · rw [State.finalStep_eq]; simpa using h
  · rw [State.finalStep_eq]; exact State.choose_job_of_none _ hj

/-- No job exists and none is awaited. -/
def NoJob (t : State) : Prop := t.link.replySlot ≠ .pending ∧ t.dcu.job = none

theorem ColdWrite.noJob {m f} (h : ColdWrite m f) {t : State} (ht : NoJob t) : NoJob (f t) := by
  cases h with
  | dcu => exact ⟨ht.1, rfl⟩
  | _ => exact ht

/-- No step of a start makes a host job. -/
theorem runSteps_noJob {fs : List (State → State)} (hf : ∀ f ∈ fs, f ∈ warmPath ∨ f ∈ coldPath ∨
    f ∈ clearPath) {s : State} (h : NoJob s) : NoJob (runSteps fs s) := by
  refine runSteps_keeps (P := NoJob) h ?_
  intro f hm t ht
  rcases hf f hm with hw | hc | hc
  · rcases mem_warmPath hw with rfl | ⟨p, rfl⟩ | ⟨k, rfl⟩
    · unfold NoJob; rw [(State.warmJournal_job t).1, (State.warmJournal_job t).2]; exact ht
    · exact ⟨by rw [State.warmPoint_rest]; exact ht.1, by rw [State.warmPoint_rest]; exact ht.2⟩
    · exact ⟨by rw [State.warmPrice_rest]; exact ht.1, by rw [State.warmPrice_rest]; exact ht.2⟩
  · rcases mem_coldPath hc with rfl | hw | rfl
    · exact ht
    · exact ColdWrite.noJob hw ht
    · exact ht
  · rcases mem_clearPath hc with hw | rfl
    · exact ColdWrite.noJob hw ht
    · exact ht

theorem State.runPath_slot {s : State} (h : NoJob s) (path) (hp : path = warmPath ∨ path = coldPath ∨
    path = clearPath) (u) : SlotLaw (s.runPath path u) := by
  have hh : ∀ f ∈ path, f ∈ warmPath ∨ f ∈ coldPath ∨ f ∈ clearPath := by
    intro f hf; rcases hp with rfl | rfl | rfl
    · exact Or.inl hf
    · exact Or.inr (Or.inl hf)
    · exact Or.inr (Or.inr hf)
  unfold State.runPath; split
  · have := runSteps_noJob hh h
    exact State.finalStep_slot this.1 this.2
  · next n =>
    have := runSteps_noJob (fs := path.take n) (fun f hf => hh f (List.mem_of_mem_take hf)) h
    exact SlotLaw.of_none this.1 this.2

theorem State.testAndRun_slot {s : State} (h : NoJob s) (u) : SlotLaw (s.testAndRun u) := by
  unfold State.testAndRun
  exact State.runPath_slot h _ (by split <;> simp) u

/-- A request keeps the law when its owner does. -/
theorem request_slot {α : Type} (kind : Byte) (payload : List Byte) (parse : List Byte →
    Option α) (owner : α → State → State) (s t : State)
    (h : SlotLaw s)
    (ho : ∀ x u, parse payload = some x → u.link.replySlot = .pending → u.rcu.running = true →
        u.dcu.job = none → SlotLaw (owner x u))
    (e : request kind payload parse owner s = .next t) : SlotLaw t := by
  unfold request at e
  cases e
  split
  · next ha =>
    unfold State.acceptsWrite at ha
    simp only [Bool.and_eq_true, decide_eq_true_eq] at ha
    have hj : s.dcu.job = none := by
      have := h.1; unfold PendingExactlyWithJob at this
      by_contra hn
      exact ha.2 (this.2 (by rw [Option.isSome_iff_ne_none]; exact hn))
    dsimp only
    split
    · exact SlotLaw.answer _ _ _ hj
    · unfold dispatch; split
      · exact SlotLaw.answer _ _ _ hj
      · next x hx => exact ho x _ hx rfl (State.running_of_operating ha.1) hj
  · exact SlotLaw.congr h rfl rfl rfl

theorem onDefined_slot (kind : Byte) (p : PointNo) (f : State → State) (u : State) (h :
    u.dcu.job = none) (hf : SlotLaw (f u)) : SlotLaw (onDefined kind p f u) := by
  unfold onDefined; split
  · exact SlotLaw.answer _ _ _ h
  · exact hf

theorem State.acceptJob_slot (req : JobReq) (u : State) (hs : u.link.replySlot = .pending) (hr :
    u.rcu.running = true) : SlotLaw (u.acceptJob req) := by
  unfold State.acceptJob
  refine ⟨?_, fun hh => ?_⟩
  · unfold PendingExactlyWithJob
    rw [State.choose_job_isSome, State.choose_link]
    simp [State.modDcu, hs]
  · rw [State.choose_rcu] at hh; simp [State.modDcu, hr] at hh

theorem jobRequest_slot (kind : Byte) (req : JobReq) (u : State) (hs :
    u.link.replySlot = .pending) (hr : u.rcu.running = true) (h : u.dcu.job = none) :
    SlotLaw (jobRequest kind req u) := by
  unfold jobRequest; split
  · exact SlotLaw.answer _ _ _ h
  · exact State.acceptJob_slot _ _ hs hr

theorem State.cutCommit_job (s : State) (c) : (s.cutCommit c).dcu.job = s.dcu.job := by
  unfold State.cutCommit
  split
  · dsimp only
    refine runSteps_keeps (P := fun t => t.dcu.job = s.dcu.job) rfl ?_
    intro f hf t ht
    have hf := List.mem_of_mem_take hf
    unfold commitSteps at hf
    simp only [List.mem_append, List.mem_map, List.mem_cons, List.not_mem_nil, or_false] at hf
    rcases hf with ⟨w, _, rfl⟩ | rfl | rfl | rfl | rfl <;> exact ht
  · rfl

theorem State.settlePoint_slot (s : State) (p f) (h : SlotLaw s) : SlotLaw (s.settlePoint p f) := by
  refine SlotLaw.congr h ?_ ?_ ?_
  · rw [State.settlePoint_rest]
  · unfold State.settlePoint
    rw [State.choose_job_isSome, State.submit_rest, State.movePoint_rest]
  · rw [State.settlePoint_rest]

/-- Sending a reply keeps the law (R152). -/
theorem State.sendReply_slot (s : State) (n) (h : SlotLaw s) : SlotLaw (s.sendReply n) := by
  unfold State.sendReply; split
  · next r pos hr =>
    have hj : s.dcu.job = none := by
      have := h.1; unfold PendingExactlyWithJob at this; rw [hr] at this
      by_contra hn
      have := this.2 (by rw [Option.isSome_iff_ne_none]; exact hn)
      cases this
    refine SlotLaw.of_none ?_ hj
    simp only [State.modLink]; split <;> simp
  · exact h

theorem State.stopEveryPoint_slot (s : State) (h : SlotLaw s) : SlotLaw s.stopEveryPoint := by
  refine SlotLaw.congr h ?_ ?_ ?_ <;> rw [State.stopEveryPoint_rest]

theorem State.stopEveryPoint_job (s : State) : s.stopEveryPoint.dcu.job = s.dcu.job :=
    by rw [State.stopEveryPoint_rest]

/-- Every command keeps the law (R147). -/
theorem exec_slot (c : Instr) (s t : State) (h : SlotLaw s) (hR : RunsPowered s) (e :
    exec c s = .next t) : SlotLaw t := by
  have status : ∀ b t, execStatus b s = .next t → SlotLaw t := fun b t e => request_slot _ _ _ _ s t h (by
        intro x u _ _ _ hj; exact SlotLaw.answer (u := u) _ _ _ hj) e
  have getEvents : ∀ b t, execGetEvents b s = .next t → SlotLaw t := fun b t e => request_slot _ _ _ _ s t h (by
        intro x u _ _ _ hj; exact SlotLaw.answer (u := u.clearEvents) _ _ _ hj) e
  have restart : ∀ b cu en t, execRestart b cu en s = .next t → SlotLaw t := fun b cu en t e =>
      request_slot _ _ _ _ s t h (by
    intro x u _ hs hr hj
    unfold restartRequest; split
    · exact SlotLaw.answer _ _ _ hj
    · exact State.testAndRun_slot
        ⟨by rw [State.firstStep_eq]; simp [Link.firstStep], by rw [State.firstStep_eq]; rfl⟩ _) e
  have clearRetained : ∀ b en t, execClearRetained b en s = .next t → SlotLaw t := fun b en t e =>
      request_slot _ _ _ _ s t h (by
    intro x u _ hs hr hj
    unfold clearRetainedRequest; split
    · refine State.runPath_slot ⟨?_, ?_⟩ _ (by simp) _
      · rw [State.firstStep_eq]; simp [Link.firstStep, State.setCheck, State.modRcu]
      · rw [State.firstStep_eq]; rfl
    · exact SlotLaw.answer _ _ _ hj) e
  have definePoint : ∀ b t, execDefinePoint b s = .next t → SlotLaw t := fun b t e =>
      request_slot _ _ _ _ s t h (by
    intro q u _ hs hr hj
    unfold defineRequest; split
    · exact SlotLaw.answer _ _ _ hj
    · split
      · exact SlotLaw.answer _ _ _ hj
      · exact SlotLaw.answer _ _ _ hj) e
  have modifyPoint : ∀ b t, execModifyPoint b s = .next t → SlotLaw t := fun b t e =>
      request_slot _ _ _ _ s t h (by
    intro q u _ hs hr hj
    refine onDefined_slot _ _ _ _ hj ?_
    split
    · exact SlotLaw.answer _ _ _ hj
    · split
      · exact SlotLaw.answer _ _ _ hj
      · exact SlotLaw.answer _ _ _ hj) e
  have releasePoint : ∀ b t, execReleasePoint b s = .next t → SlotLaw t := fun b t e =>
      request_slot _ _ _ _ s t h (by
    intro q u _ hs hr hj
    refine onDefined_slot _ _ _ _ hj ?_
    split
    · exact SlotLaw.answer _ _ _ hj
    · exact SlotLaw.answer _ _ _ hj) e
  have authorize : ∀ b t, execAuthorize b s = .next t → SlotLaw t := fun b t e =>
      request_slot _ _ _ _ s t h (by
    intro q u _ hs hr hj
    unfold authorizeRequest
    split
    · exact SlotLaw.answer _ _ _ hj
    · exact SlotLaw.answer _ _ _ (by simpa using hj)) e
  have cancel : ∀ b t, execCancel b s = .next t → SlotLaw t := fun b t e =>
      request_slot _ _ _ _ s t h (by
    intro q u _ hs hr hj
    refine onDefined_slot _ _ _ _ hj ?_
    split
    · exact SlotLaw.answer _ _ _ hj
    · exact SlotLaw.answer _ _ _ (by simpa using hj)) e
  have pause : ∀ b t, execPause b s = .next t → SlotLaw t := fun b t e => request_slot _ _ _ _ s t h (by
    intro q u _ hs hr hj
    refine onDefined_slot _ _ _ _ hj ?_
    split
    · exact SlotLaw.answer _ _ _ hj
    · exact SlotLaw.answer _ _ _ (by simpa using hj)) e
  have resume : ∀ b t, execResume b s = .next t → SlotLaw t := fun b t e =>
      request_slot _ _ _ _ s t h (by
    intro q u _ hs hr hj
    refine onDefined_slot _ _ _ _ hj ?_
    split
    · exact SlotLaw.answer _ _ _ hj
    · split
      · exact SlotLaw.answer _ _ _ hj
      · exact SlotLaw.answer _ _ _ (by simpa using hj)) e
  have stop : ∀ b t, execStop b s = .next t → SlotLaw t := fun b t e => request_slot _ _ _ _ s t h (by
    intro q u _ hs hr hj
    unfold stopRequest
    split <;> exact SlotLaw.answer _ _ _ (by simpa using hj)) e
  have stopAll : ∀ b t, execStopAll b s = .next t → SlotLaw t := fun b t e =>
      request_slot _ _ _ _ s t h (by
    intro x u _ _ _ hj
    exact SlotLaw.answer (u := u.stopEveryPoint) _ _ _ (by rw [State.stopEveryPoint_job]; exact hj)) e
  have readPoint : ∀ b t, execReadPoint b s = .next t → SlotLaw t := fun b t e => request_slot _ _ _ _ s t h (by
        intro x u _ _ _ hj; exact SlotLaw.answer (u := u) _ _ _ hj) e
  have clearFault : ∀ b t, execClearFault b s = .next t → SlotLaw t := fun b t e =>
      request_slot _ _ _ _ s t h (by
    intro q u _ hs hr hj
    refine onDefined_slot _ _ _ _ hj ?_
    split
    · exact SlotLaw.answer _ _ _ hj
    · exact SlotLaw.answer _ _ _ (by simpa using hj)) e
  have clearCreep : ∀ b t, execClearCreep b s = .next t → SlotLaw t := fun b t e =>
      request_slot _ _ _ _ s t h (by
    intro q u _ hs hr hj
    exact onDefined_slot _ _ _ _ hj (SlotLaw.answer _ _ _ (by simpa using hj))) e
  have setProduct : ∀ b t, execSetProduct b s = .next t → SlotLaw t := fun b t e =>
      request_slot _ _ _ _ s t h (by
    intro q u hq hs hr hj
    unfold setProductRequest
    split
    · exact SlotLaw.answer _ _ _ hj
    · split
      · exact SlotLaw.answer _ _ _ hj
      · exact SlotLaw.answer _ _ _ hj) e
  have setPrice : ∀ b t, execSetPrice b s = .next t → SlotLaw t := fun b t e =>
      request_slot _ _ _ _ s t h (by
    intro q u hq hs hr hj
    unfold setPriceRequest
    split
    · exact SlotLaw.answer _ _ _ hj
    · split
      · exact SlotLaw.answer _ _ _ hj
      · split
        · exact SlotLaw.answer _ _ _ hj
        · exact SlotLaw.answer _ _ _ hj) e
  have collectSale : ∀ b t, execCollectSale b s = .next t → SlotLaw t := fun b t e =>
      request_slot _ _ _ _ s t h (by
    intro q u hq hs hr hj
    unfold collectSaleRequest
    split
    · exact SlotLaw.answer _ _ _ hj
    · exact SlotLaw.answer _ _ _ hj) e
  have clearSale : ∀ b t, execClearSale b s = .next t → SlotLaw t := fun b t e =>
      request_slot _ _ _ _ s t h (by
    intro q u hq hs hr hj
    unfold clearSaleRequest
    split
    · exact SlotLaw.answer _ _ _ hj
    · exact SlotLaw.answer _ _ _ hj) e
  have jr : ∀ kind b (parse : List Byte → Option JobReq) t, request kind b parse (jobRequest kind) s
      = .next t → SlotLaw t := by
    intro kind b parse t e
    exact request_slot _ _ _ _ s t h (fun req u hq hs hr hj => jobRequest_slot _ _ _ hs hr hj) e
  have byKind : ∀ k b t, execByKind k b s = .next t → SlotLaw t := by
    intro k b t e
    unfold execByKind at e
    refine ite_cases e (fun e => status _ _ e) (fun e => ?_)
    refine ite_cases e (fun e => getEvents _ _ e) (fun e => ?_)
    refine ite_cases e (fun e => restart _ _ _ _ e) (fun e => ?_)
    refine ite_cases e (fun e => clearRetained _ _ _ e) (fun e => ?_)
    refine ite_cases e (fun e => definePoint _ _ e) (fun e => ?_)
    refine ite_cases e (fun e => modifyPoint _ _ e) (fun e => ?_)
    refine ite_cases e (fun e => releasePoint _ _ e) (fun e => ?_)
    refine ite_cases e (fun e => authorize _ _ e) (fun e => ?_)
    refine ite_cases e (fun e => cancel _ _ e) (fun e => ?_)
    refine ite_cases e (fun e => pause _ _ e) (fun e => ?_)
    refine ite_cases e (fun e => resume _ _ e) (fun e => ?_)
    refine ite_cases e (fun e => stop _ _ e) (fun e => ?_)
    refine ite_cases e (fun e => stopAll _ _ e) (fun e => ?_)
    refine ite_cases e (fun e => readPoint _ _ e) (fun e => ?_)
    refine ite_cases e (fun e => clearFault _ _ e) (fun e => ?_)
    refine ite_cases e (fun e => clearCreep _ _ e) (fun e => ?_)
    refine ite_cases e (fun e => setProduct _ _ e) (fun e => ?_)
    refine ite_cases e (fun e => setPrice _ _ e) (fun e => ?_)
    refine ite_cases e (fun e => collectSale _ _ e) (fun e => ?_)
    refine ite_cases e (fun e => clearSale _ _ e) (fun e => ?_)
    refine ite_cases e (fun e => jr _ _ _ _ e) (fun e => ?_)
    refine ite_cases e (fun e => jr _ _ _ _ e) (fun e => ?_)
    refine ite_cases e (fun e => jr _ _ _ _ e) (fun e => ?_)
    refine ite_cases e (fun e => jr _ _ _ _ e) (fun e => ?_)
    refine ite_cases e (fun e => jr _ _ _ _ e) (fun e => ?_)
    refine ite_cases e (fun e => jr _ _ _ _ e) (fun e => ?_)
    refine ite_cases e (fun e => jr _ _ _ _ e) (fun e => ?_)
    refine ite_cases e (fun e => jr _ _ _ _ e) (fun e => ?_)
    refine ite_cases e (fun e => jr _ _ _ _ e) (fun e => ?_)
    refine ite_cases e (fun e => jr _ _ _ _ e) (fun e => ?_)
    refine ite_cases e (fun e => jr _ _ _ _ e) (fun e => ?_)
    refine ite_cases e (fun e => jr _ _ _ _ e) (fun e => ?_)
    refine ite_cases e (fun e => jr _ _ _ _ e) (fun e => ?_)
    exact jr _ _ _ _ e
  have dark0 : s.pins.vdd = false ∨ s.pins.resetn = false → s.rcu.running = false := by
    intro hv
    by_contra hn
    have := hR (by simpa using hn)
    rcases hv with hv | hv <;> simp [hv] at this
  have mv : ∀ (u : State) p f, SlotLaw u → SlotLaw (u.movePoint p f) := fun u p f hu =>
      SlotLaw.congr hu (by simp) (by simp) (by simp)
  have wo : ∀ (u : State) (f : State → State), SlotLaw u → (u.operating = true → SlotLaw (f u)) →
      SlotLaw (u.whenOperating f) := by
    intro u f hu hf; unfold State.whenOperating; split
    · next ho => exact hf ho
    · exact hu
  have gc : ∀ (u : State) event, SlotLaw u → SlotLaw (u.onGeneralCall event) := by
    intro u event hu
    have hend : SlotLaw u.endGeneralCall := by
      rcases State.endGeneralCall_cases u with e | e | e <;> rw [e]
      · exact hu
      · exact SlotLaw.congr hu rfl rfl rfl
      · exact State.stopEveryPoint_slot _ (SlotLaw.congr hu rfl rfl rfl)
    unfold State.onGeneralCall
    split
    · split
      · obtain ⟨l, e, hl⟩ := State.admitGeneralCall_link u.endGeneralCall
        rw [e]; exact SlotLaw.congr hend hl rfl rfl
      · exact SlotLaw.congr hu rfl rfl rfl
    · refine wo _ _ hu (fun _ => ?_)
      obtain ⟨l, e, hl⟩ := State.takeGeneralCall_link u ‹_›
      rw [e]; exact SlotLaw.congr hu hl rfl rfl
    · exact wo _ _ hu (fun _ => hend)
  have fs : ∀ (u : State), NoJob u.firstStep := fun u =>
      ⟨by rw [State.firstStep_eq]; simp [Link.firstStep], by rw [State.firstStep_eq]; rfl⟩
  cases c with
  | status b => exact status _ _ e
  | getEvents b => exact getEvents _ _ e
  | restart b cu en => exact restart _ _ _ _ e
  | clearRetained b en => exact clearRetained _ _ _ e
  | definePoint b => exact definePoint _ _ e
  | modifyPoint b => exact modifyPoint _ _ e
  | releasePoint b => exact releasePoint _ _ e
  | authorize b => exact authorize _ _ e
  | cancel b => exact cancel _ _ e
  | pause b => exact pause _ _ e
  | resume b => exact resume _ _ e
  | stop b => exact stop _ _ e
  | stopAll b => exact stopAll _ _ e
  | readPoint b => exact readPoint _ _ e
  | clearFault b => exact clearFault _ _ e
  | clearCreep b => exact clearCreep _ _ e
  | setProduct b => exact setProduct _ _ e
  | setPrice b => exact setPrice _ _ e
  | collectSale b => exact collectSale _ _ e
  | clearSale b => exact clearSale _ _ e
  | setSite b | declare b | load b | move b | add b | subtract b | multiply b | divide b | rescale b
      | compare b | sumList b | readRegister b | hold b | releaseHold b => exact jr _ _ _ _ e
  | frameError w =>
    rcases execFrameError_cases w s with h1 | h1 | h1 <;> rw [show exec (.frameError w) s = _ from h1] at e
    · unfold takeOwnWrite at e
      split at e
      · next ha =>
        unfold State.acceptsWrite at ha
        simp only [Bool.and_eq_true, decide_eq_true_eq] at ha
        have hj : s.dcu.job = none := by
          have := h.1; unfold PendingExactlyWithJob at this
          by_contra hn
          exact ha.2 (this.2 (by rw [Option.isSome_iff_ne_none]; exact hn))
        split at e
        · cases e; exact SlotLaw.congr h rfl rfl rfl
        · split at e
          · cases e; exact SlotLaw.answer _ _ _ hj
          · cases e; exact SlotLaw.answer _ _ _ hj
          · exact byKind _ _ _ e
      · cases e; exact SlotLaw.congr h rfl rfl rfl
    · cases e; exact State.generalCallWrite_keeps _ h (fun u event hu => gc u event hu)
    · cases e; exact SlotLaw.congr h rfl rfl rfl
  | readTransaction r =>
    cases e
    split
    · split
      · exact State.sendReply_slot _ _ h
      · exact SlotLaw.congr h rfl rfl rfl
      · exact SlotLaw.congr h rfl rfl rfl
    · exact SlotLaw.congr h rfl rfl rfl
  | clockStretchEnd =>
    cases e
    refine wo _ _ h (fun _ => ?_)
    split
    · exact SlotLaw.congr h rfl rfl rfl
    · exact h
  | generalCallStopAll b =>
    cases e; exact gc s b h
  | liftEdge p => cases e; exact wo _ _ (SlotLaw.congr h rfl rfl rfl) (fun _ =>
      mv _ _ _ (SlotLaw.congr h rfl rfl rfl))
  | lowerEdge p => cases e; exact wo _ _ (SlotLaw.congr h rfl rfl rfl) (fun _ =>
      mv _ _ _ (SlotLaw.congr h rfl rfl rfl))
  | changeOfThePair p a b => cases e; exact wo _ _ (SlotLaw.congr h rfl rfl rfl) (fun _ =>
      mv _ _ _ (SlotLaw.congr h rfl rfl rfl))
  | authorizationTimerExpiry p => cases e; exact wo _ _ h (fun _ => mv _ _ _ h)
  | noFlowTimerExpiry p => cases e; exact wo _ _ h (fun _ => mv _ _ _ h)
  | settleTimerExpiry p =>
    cases e
    refine wo _ _ h (fun ho => ?_)
    split
    · exact State.settlePoint_slot _ _ _ h
    · exact h
  | stopLimitTimerExpiry p =>
    cases e
    refine wo _ _ h (fun ho => ?_)
    split
    · exact State.settlePoint_slot _ _ _ h
    · exact h
  | estopnAsserted =>
    cases e
    split
    · exact wo _ _ (SlotLaw.congr h rfl rfl rfl) (fun ho => SlotLaw.congr (State.stopEveryPoint_slot
        (s.setEstopPin false) (SlotLaw.congr (s := s) h rfl rfl rfl)) rfl rfl rfl)
    · exact h
  | estopnReleased =>
    cases e
    split
    · exact h
    · exact wo _ _ (SlotLaw.congr h rfl rfl rfl) (fun ho => SlotLaw.congr h rfl rfl rfl)
  | pfailnFall => cases e; exact wo _ _ (SlotLaw.congr h rfl rfl rfl) (fun ho =>
      SlotLaw.congr h rfl rfl rfl)
  | pfailnRise => cases e; exact wo _ _ (SlotLaw.congr h rfl rfl rfl) (fun ho =>
      SlotLaw.congr h rfl rfl rfl)
  | holdTimerExpiry =>
    cases e
    refine wo _ _ h (fun ho => ?_)
    split
    · exact SlotLaw.congr h
        (by simp [State.expireHold]) (by unfold State.expireHold; rw [State.choose_job_isSome]; rfl)
        (by simp [State.expireHold])
    · exact h
  | postingCommit =>
    cases e
    refine wo _ _ h (fun ho => ?_)
    split
    · next q f hq =>
      refine SlotLaw.congr h (by rw [State.commitPosting_rest]) ?_ (by rw [State.commitPosting_rest])
      unfold State.commitPosting
      dsimp only
      rw [State.choose_job_isSome, State.completeCommit_eq]; rfl
    · exact h
  | suspension =>
    cases e
    refine wo _ _ h (fun ho => ?_)
    split
    · next j hj =>
      split
      · refine SlotLaw.congr h (by simp [State.suspendJob]) ?_ (by simp [State.suspendJob])
        unfold State.suspendJob
        rw [State.choose_job_isSome]
        unfold State.activeJob at hj; split at hj
        · next hj' => simp [State.modDcu, hj']
        · cases hj
      · exact h
    · exact h
  | hostJobCompletion =>
    cases e
    refine wo _ _ h (fun ho => ?_)
    split
    · next j hj =>
      have hsl : (s.applyJob j).link.replySlot ≠ .pending := by
        unfold State.applyJob
        cases j.req <;> dsimp only
        case divide => split <;> simp [State.divideByZero, State.finishStore, State.ok, State.answer]
        all_goals simp [State.storeExact, State.finishStore, State.ok, State.answer]
      have : SlotLaw ((s.applyJob j).endJob) := SlotLaw.of_none hsl rfl
      have h2 : SlotLaw ((s.applyJob j).endJob.endStretch) := by
        unfold State.endStretch; split
        · exact State.sendReply_slot _ _ this
        · exact this
      exact SlotLaw.congr h2 (by simp [State.completeJob]) (by unfold State.completeJob; rw
          [State.choose_job_isSome]) (by simp [State.completeJob])
    · exact h
  | mainPowerLoss cu =>
    cases e
    split
    · exact SlotLaw.of_none (fs _).1 (fs _).2
    · exact h
  | mainPowerReturn held en =>
    cases e
    split
    · exact h
    · dsimp only
      split
      · exact State.testAndRun_slot (fs _) _
      · exact SlotLaw.of_none (fs _).1 (fs _).2
  | resetnAsserted cu =>
    cases e
    split
    · dsimp only
      split
      · exact SlotLaw.of_none (fs _).1 (fs _).2
      · exact SlotLaw.congr h rfl rfl rfl
    · exact h
  | resetnReleased en =>
    cases e
    split
    · exact h
    · next hv =>
      have d := dark0 (Or.inr (by simpa using hv))
      have hj := h.2 d
      have hn : NoJob ((s.modPins (fun n => { n with resetn := true })).setStraps en.straps) := by
        refine ⟨fun hp => ?_, hj⟩
        have := h.1.1 hp
        rw [hj] at this; cases this
      dsimp only
      split
      · exact State.testAndRun_slot hn _
      · exact SlotLaw.of_none hn.1 hn.2

end Sys2Proof.Machine
end

