-- ==== Sys2Proof/Laws/WhileGood.lean ====
section
/-! SUPPORT. How a law that ties one block of retained memory to another is kept through a cold path, which
writes its defaults block by block with the check word bad, said once. -/

namespace Sys2Proof.Machine

/-! ## A law that holds while the check word is good -/

/-- What a law of retained memory needs of each move, where the check word is good: the fields of
`KeptBySteps` but for those of the cold path (R165, R173). -/
structure KeptWhileGood (J : Prop) (P : State → Prop) : Prop where
  link : ∀ s l, P s → P { s with link := l }
  pins : ∀ s n, n.vdd = s.pins.vdd → n.resetn = s.pins.resetn → P s → P { s with pins := n }
  power : ∀ s b, P s → P { s with rcu := { s.rcu with mainPowerHigh := b } }
  move : ∀ s p f, P s → s.rcu.running = true → PointMove s p f → P (s.movePoint p f)
  mod : ∀ s p f, P s → s.rcu.running = true → (J → s.dcu.job = none) → PointRedefined s p f →
    P (s.modPoint p f)
  flags : ∀ s, P s → P (s.modAllPoints (fun _ x => { x with flags := PointFlags.clear }))
  settle : ∀ s p f, P s → s.rcu.running = true → (s.point p).st = .stopping →
    (f = id ∨ f = Point.flowAfterStop) → P (s.settlePoint p f)
  product : ∀ s k r, P s → r.rounding ≤ 9 → s.holdingEmpty k = true → r.staged = none →
    P (s.setProduct k (some r))
  price : ∀ s k r c, P s → s.product k = some r → s.deliveringEmpty k = true →
    P (s.setProduct k (some { r with current := c, staged := none }))
  stage : ∀ s k r c, P s → s.product k = some r → s.deliveringEmpty k = false →
    P (s.setProduct k (some { r with staged := some c }))
  remove : ∀ s n, P s → s.rcu.running = true → P (s.modSales (fun q => q.remove n))
  accept : ∀ s req, P s → s.operating = true → (J → s.dcu.job = none) → jobRefusal req s = none →
    JobReq.parsed req → P (s.acceptJob req)
  complete : ∀ s j, P s → s.operating = true → s.activeJob = some j → P (s.completeJob j)
  suspend : ∀ s j, P s → s.operating = true → s.activeJob = some j → s.suspendable j = true →
    P (s.suspendJob j)
  commit : ∀ s q f, P s → s.operating = true → s.takenSale = some (q, f) → P (s.commitPosting q f)
  hold : ∀ s, P s → s.operating = true → P s.expireHold
  first : ∀ s, P s → P s.firstStep
  cut : ∀ s c, P s → s.operating = true → P (s.cutCommit c).firstStep
  dark : ∀ s n, s.rcu.running = false → P s → P { s with pins := n }
  path : ∀ s f, s.rcu.running = false → s.rcu.checkGood = true → P s → f ∈ warmPath → P (f s)
  final : ∀ s, s.rcu.running = false → s.pins.vdd = true → s.pins.resetn = true →
    s.rcu.checkGood = true → P s → s.dcu.journal = none →
    (∀ p, (s.point p).st ≠ .authorized ∧ (s.point p).st.counting = false) →
    (∀ k, s.isStaged k = false) → P s.finalStep

/-- What a law that each block keeps by itself needs of the moves that trust no check word. -/
structure KeptByBlocks (U : State → Prop) : Prop where
  link : ∀ s l, U s → U { s with link := l }
  pins : ∀ s n, U s → U { s with pins := n }
  rcu : ∀ s r, r.running = s.rcu.running → U s → U { s with rcu := r }
  flags : ∀ s, U s → U (s.modAllPoints (fun _ x => { x with flags := PointFlags.clear }))
  product : ∀ s k r, U s → r.rounding ≤ 9 → U (s.setProduct k (some r))
  price : ∀ s k r c, U s → s.product k = some r →
    U (s.setProduct k (some { r with current := c, staged := none }))
  stage : ∀ s k r c, U s → s.product k = some r →
    U (s.setProduct k (some { r with staged := some c }))
  first : ∀ s, U s → U s.firstStep
  cold : ∀ s m f, s.rcu.running = false → U s → ColdWrite m f → U (f s)

/-- The law P while the check word is good, as it is while the part runs; B and U always (R165, R173). -/
structure WhileGood (B U P : State → Prop) (s : State) : Prop where
  trusted : s.rcu.running = true → s.rcu.checkGood = true
  back : B s
  own : U s
  good : s.rcu.checkGood = true → P s

/-- A part that runs holds the law. -/
theorem WhileGood.run {B U P : State → Prop} {s : State} (h : WhileGood B U P s) (hr :
    s.rcu.running = true) : P s := h.good (h.trusted hr)

theorem State.firstStep_rcu (s : State) : s.firstStep.rcu = { s.rcu with running := false } := rfl

/-- A law kept while the check word is good, with the laws beside it, is kept by every move. -/
theorem KeptBySteps.whileGood {J : Prop} {B U P : State → Prop} (W : KeptWhileGood J P) (K :
    KeptBySteps False True B) (L : KeptByBlocks U) (hU : ∀ s, P s → U s)
    (hg : ∀ (s : State) m, s.rcu.running = false → B (s.coldDefaults m) →
        P ((s.coldDefaults m).setCheck true)) : KeptBySteps J True (WhileGood B U P) := by
  have same : ∀ {s t : State}, WhileGood B U P s → t.rcu = s.rcu → B t → U t → (P s → P t) →
      WhileGood B U P t := by
    intro s t h e hb hu hp
    exact ⟨by rw [e]; exact h.trusted, hb, hu, fun g => hp (h.good (e ▸ g))⟩
  have runs : ∀ {s t : State}, WhileGood B U P s → s.rcu.running = true → t.rcu = s.rcu → B t →
      (P s → P t) → WhileGood B U P t := by
    intro s t h hr e hb hp
    exact same h e hb (hU _ (hp (h.run hr))) hp
  refine ⟨?_, ?_, ?_, ?_, ?_, ?_, ?_, ?_, ?_, ?_, ?_, ?_, ?_, ?_, ?_, ?_, ?_, ?_, ?_, ?_, ?_, ?_, ?_,
      ?_⟩
  · intro s l h; exact same h rfl (K.link s l h.back) (L.link s l h.own) (W.link s l)
  · intro s n h1 h2 h; exact same h rfl (K.pins s n h1 h2 h.back) (L.pins s n h.own) (W.pins s n h1 h2)
  · intro s b h; exact ⟨h.trusted, K.power s b h.back, L.rcu s _ rfl h.own, fun g =>
      W.power s b (h.good g)⟩
  · intro s p f h hr hm; exact runs h hr (by simp) (K.move s p f h.back hr hm) (fun h =>
      W.move s p f h hr hm)
  · intro s p f h hr hj hm; exact runs h hr rfl (K.mod s p f h.back hr (fun f =>
      f.elim) hm) (fun h => W.mod s p f h hr hj hm)
  · intro s h; exact same h rfl (K.flags s h.back) (L.flags s h.own) (W.flags s)
  · intro s p f h hr hs hf; exact runs h hr (by rw [State.settlePoint_rest]) (K.settle s p f h.back
      hr hs hf) (fun h => W.settle s p f h hr hs hf)
  · intro s k r h h1 h2 h3; exact same h rfl (K.product s k r h.back h1 h2 h3) (L.product s k r h.own
      h1) (fun h => W.product s k r h h1 h2 h3)
  · intro s k r c h h1 h2; exact same h rfl (K.price s k r c h.back h1 h2) (L.price s k r c h.own h1)
      (fun h => W.price s k r c h h1 h2)
  · intro s k r c h h1 h2; exact same h rfl (K.stage s k r c h.back h1 h2) (L.stage s k r c h.own h1)
      (fun h => W.stage s k r c h h1 h2)
  · intro s n h hr; exact runs h hr rfl (K.remove s n h.back hr) (fun h => W.remove s n h hr)
  · intro s q h h1 h2 h3 h4; exact runs h (State.running_of_operating h1) (by simp [State.acceptJob])
      (K.accept s q h.back h1 (fun f => f.elim) h3 h4) (fun h => W.accept s q h h1 h2 h3 h4)
  · intro s j h h1 h2; exact runs h (State.running_of_operating h1) (by rw [State.completeJob_rest])
      (K.complete s j h.back h1 h2) (fun h => W.complete s j h h1 h2)
  · intro s j h h1 h2 h3; exact runs h (State.running_of_operating h1) (by simp [State.suspendJob])
      (K.suspend s j h.back h1 h2 h3) (fun h => W.suspend s j h h1 h2 h3)
  · intro s q f h h1 h2; exact runs h (State.running_of_operating h1) (by rw
      [State.commitPosting_rest]) (K.commit s q f h.back h1 h2) (fun h => W.commit s q f h h1 h2)
  · intro s h h1; exact runs h (State.running_of_operating h1) (by simp [State.expireHold]) (K.hold s
      h.back h1) (fun h => W.hold s h h1)
  · intro s h; exact ⟨fun r => (by cases r), K.first s h.back, L.first s h.own, fun g =>
      W.first s (h.good g)⟩
  · intro s c h h1
    have hp := W.cut s c (h.run (State.running_of_operating h1)) h1
    exact ⟨fun r => (by cases r), K.cut s c h.back h1, hU _ hp, fun _ => hp⟩
  · intro s n hr h; exact same h rfl (K.dark s n hr h.back) (L.pins s n h.own) (W.dark s n (hr trivial))
  · intro s b hr h
    have hr' := hr trivial
    refine ⟨fun r => (by rw [show s.rcu.running = true from r] at hr'; cases hr'),
        K.check s b hr h.back, L.rcu s _ rfl h.own, fun g => ?_⟩
    have g : (s.rcu.checkGood && b) = true := g
    have hb : ({ s with rcu := { s.rcu with checkGood := s.rcu.checkGood && b } } : State) = s := by
      have : ({ s.rcu with checkGood := s.rcu.checkGood && b } : Rcu) = s.rcu := by
        rw [g]; simp only [Bool.and_eq_true] at g; rw [← g.1]
      rw [this]
    rw [hb]
    exact h.good (by simp only [Bool.and_eq_true] at g; exact g.1)
  · intro s f hr hc h hw
    have hp := W.path s f (hr trivial) hc (h.good hc) hw
    exact same h (warmPath_same hw s).2 (K.path s f hr hc h.back hw) (hU _ hp) (fun _ => hp)
  · intro s m f hr hc h hw
    have hk := ColdWrite.same hw s
    refine ⟨fun r => ?_, K.cold s m f hr hc h.back hw, L.cold s m f (hr trivial) h.own hw, fun g => ?_⟩
    · rw [hk.1.running, hr trivial] at r; cases r
    · rw [hk.2, hc] at g; cases g
  · intro s m hr h
    have hp := hg s m (hr trivial) h.back
    exact ⟨fun _ => rfl, K.good s m hr h.back, hU _ hp, fun _ => hp⟩
  · intro s hr hc h h1 h2 h3
    have hp := W.final s (hr trivial).1 (hr trivial).2.1 (hr trivial).2.2 hc (h.good hc) h1 h2 h3
    refine ⟨fun _ => ?_, K.final s hr hc h.back h1 h2 h3, hU _ hp, fun _ => hp⟩
    rw [State.finalStep_eq, State.choose_rcu]; exact hc

end Sys2Proof.Machine
end

