-- ==== Sys2Proof/WellFormed.lean ====
section
/-! DEFINITION. Well-formed commands: a request row's payload fits a frame (R150), a FRAME_ERROR row's
write holds at least one byte, goes to no general call, which has its own row, and fails R150 where its
address is one of the four of R145, a cut lies within the commit, and a read clocks at least one byte. The machine gives every
command a meaning, the ill-formed ones too. -/

namespace Sys2Proof

/-- The number of retained writes of a posting commit that a loss of power can part (R123). -/
def commitWrites : Nat := 8

/-- A cut lies at one of the commit's writes (R124). -/
def CommitCut.wf (c : CommitCut) : Bool := (c.getD 0) ≤ commitWrites

/-- The payload of a request frame that passes R150. -/
def payloadWf (payload : List Byte) : Bool := payload.length ≤ Config.maxRequestPayload

/-- One of the four addresses that straps give a part (R145). -/
def isPartAddress (address : BitVec 7) : Bool :=
  decide (Config.busBase ≤ address ∧ address ≤ Config.busBase + 3)

/-- A well-formed command. -/
def Instr.wf : Instr → Bool
  | .status b => payloadWf b
  | .getEvents b => payloadWf b
  | .restart b cut _ => payloadWf b && CommitCut.wf cut
  | .clearRetained b _ => payloadWf b
  | .definePoint b => payloadWf b
  | .modifyPoint b => payloadWf b
  | .releasePoint b => payloadWf b
  | .authorize b => payloadWf b
  | .cancel b => payloadWf b
  | .pause b => payloadWf b
  | .resume b => payloadWf b
  | .stop b => payloadWf b
  | .stopAll b => payloadWf b
  | .readPoint b => payloadWf b
  | .clearFault b => payloadWf b
  | .clearCreep b => payloadWf b
  | .setProduct b => payloadWf b
  | .setPrice b => payloadWf b
  | .collectSale b => payloadWf b
  | .clearSale b => payloadWf b
  | .setSite b => payloadWf b
  | .declare b => payloadWf b
  | .load b => payloadWf b
  | .move b => payloadWf b
  | .add b => payloadWf b
  | .subtract b => payloadWf b
  | .multiply b => payloadWf b
  | .divide b => payloadWf b
  | .rescale b => payloadWf b
  | .compare b => payloadWf b
  | .sumList b => payloadWf b
  | .readRegister b => payloadWf b
  | .hold b => payloadWf b
  | .releaseHold b => payloadWf b
  | .frameError ⟨address, bytes⟩ =>
    decide (address ≠ Config.generalCallAddress) && decide (bytes ≠ []) &&
      (match frameCheck (bytes.take Config.requestSlotBytes) with
        | .request _ _ => !isPartAddress address
        | _ => true)
  | .readTransaction ⟨_, count⟩ => 1 ≤ count
  | .clockStretchEnd => true
  | .generalCallStopAll _ => true
  | .liftEdge _ => true
  | .lowerEdge _ => true
  | .changeOfThePair _ _ _ => true
  | .authorizationTimerExpiry _ => true
  | .noFlowTimerExpiry _ => true
  | .settleTimerExpiry _ => true
  | .stopLimitTimerExpiry _ => true
  | .estopnAsserted => true
  | .estopnReleased => true
  | .pfailnFall => true
  | .pfailnRise => true
  | .holdTimerExpiry => true
  | .postingCommit => true
  | .suspension => true
  | .hostJobCompletion => true
  | .mainPowerLoss cut => CommitCut.wf cut
  | .mainPowerReturn _ _ => true
  | .resetnAsserted cut => CommitCut.wf cut
  | .resetnReleased _ => true

end Sys2Proof
end

