-- ==== Sys2Proof/Tests/Slice0.lean ====
section
/-! SUPPORT. The model's own tests: the well-formedness smoke, one step of each command on small states from
the spec's worked examples, and a witness for the hypotheses of every statement that has some. -/

namespace Sys2Proof.Tests

/-! The tests are elaborated one after the other: the kernel decides each, and waits for those before it. -/
set_option Elab.async false

open Sys2Proof Sys2Proof.Machine

/-! ## Small states -/

/-- The state that a command leaves. -/
def after (c : Instr) (s : State) : State :=
  match exec c s with
  | .next t => t
  | _ => s

/-- The status and payload of the reply in the slot. -/
def replied (s : State) : Option (Status × List Byte) :=
  match s.link.replySlot with
  | .ready r _ => some (r.status, r.payload)
  | _ => none

/-- The status of the reply in the slot. -/
def answered (s : State) : Option Status := (replied s).map (·.1)

/-- Quadrature, 100 pulses to a volume unit, every product, a margin of 0.20 and a tolerance of 0.05. -/
def defn : PointDef := ⟨.quad4, 100000, 0x3F, 20, 5, 90, 30, 5, 3, 10, 2⟩

def idle : Point := { Point.cold with st := .idle, defn := some defn, meter := ⟨some ⟨false, false⟩, 0, 0, 0, 0⟩ }

def calling : Point := { idle with st := .calling, handleUp := true }

/-- An authorization for product 2 at 1.459, preset to 20.00. -/
def auth : AuthRecord := ⟨2, 1459, 3, some ⟨.volume, 2000, 2000⟩, some 7105⟩

def authorized : Point := { idle with st := .authorized, auth := some auth, timers := ⟨some 90, none, none, none⟩ }

/-- A delivery that has counted n pulses. -/
def delivering (n : Nat) : Point :=
  { idle with
    st := .delivering, auth := some auth, handleUp := true, timers := ⟨none, some 30, none, none⟩
    liveVolume := n, liveMoney := liveMoneyOf n 1459 2 3 2 5
    meter := ⟨some ⟨false, false⟩, n, 0, 0, 0⟩ }

def paused : Point := { delivering 7 with st := .paused, timers := Timers.stopped }

def stopping : Point :=
  { delivering 7 with st := .stopping, endReason := some .handle, timers := ⟨none, none, some 5, some 30⟩ }

def sale : FrozenSale := ⟨1, auth, 7, 10, .handle, FaultSet.none, SaleFlags.clear⟩

def settling : Point := { stopping with st := .settling, timers := Timers.stopped, frozen := some sale }

def faulted : Point := { idle with st := .faulted, faults := ⟨true, false, false⟩ }

/-- Product 2 at 1.459 with a rounding digit of 5. -/
def product : Product := ⟨3, 5, 1459, none⟩

/-- Running, product 2 active, and point 1 as given. -/
def site (x : Point) : State := (State.reset.setProduct 2 (some product)).setPoint 1 x

/-- Product 2 with a price staged. -/
def staged (x : Point) : State := (site x).setProduct 2 (some { product with staged := some 1689 })

/-- The posting of point 1's frozen sale. -/
def posting : Posting := ⟨1, 2, 7, 10, false⟩

/-- The unit at work on point 1's posting. -/
def committing : State :=
  { site settling with dcu := { Dcu.cold with unit := .posting, postings := [{ posting with taken := true }] } }

/-- Register 46 holds 12.35, 47 holds 12.30, 48 holds -3, and 50 has 5 digits at scale 1 (Table 6-4). -/
def sums : State :=
  (((State.reset.setReg 46 ⟨6, 2, 5, 1235⟩).setReg 47 ⟨6, 2, 5, 1230⟩).setReg 48 ⟨4, 0, 5, -3⟩).setReg 50
    ⟨5, 1, 5, 0⟩

/-- A host job at work. -/
def working (req : JobReq) (s : State) : State :=
  let j : HostJob := ⟨req, .active, req.operands, req.operands.map (fun r => ⟨r, s.reg r⟩), 0⟩
  { s.awaiting 0 [] with dcu := { s.dcu with unit := .host, job := some j } }

/-- A host job at work while point 1's posting waits. -/
def crowded (req : JobReq) : State :=
  let s := working req (site settling)
  { s with dcu := { s.dcu with postings := [posting] } }

/-- A reply stands in the slot, unread. -/
def unread : State :=
  { State.reset with link := { State.reset.link with replySlot := .ready ⟨.ok, false, Kind.stop, []⟩ 0 } }

/-- Main power off, its volatile state lost. -/
def dark (x : Point) : State := after (.mainPowerLoss none) (site x)

/-- RESETn low, the part powered. -/
def held (x : Point) : State := after (.resetnAsserted none) (site x)

def env : StartEnv := ⟨1, none⟩

/-- A state whose Sale Queue holds these records. -/
def queued (rs : List SaleRecord) (next : Nat) : State := { site idle with sales := ⟨rs, next⟩ }

def record (n : Nat) (p : PointNo) : SaleRecord := ⟨n, { sale with point := p }⟩

/-! ## Well-formedness: an ill-formed command for each check -/

theorem test_wf_payload : (Instr.status (List.replicate 49 0)).wf = false ∧
    (Instr.status (List.replicate 48 0)).wf = true := by decide
theorem test_wf_cut : (Instr.mainPowerLoss (some 9)).wf = false ∧
    (Instr.resetnAsserted (some 9)).wf = false ∧ (Instr.restart [] (some 9) env).wf = false ∧
    (Instr.mainPowerLoss (some 8)).wf = true := by decide
theorem test_wf_frameError_empty : (Instr.frameError ⟨0x2C, []⟩).wf = false := by decide
theorem test_wf_frameError_valid : (Instr.frameError ⟨0x2F, [0x01, 0x00, 0xFF]⟩).wf = false ∧
    (Instr.frameError ⟨0x2F, [0x01, 0x00, 0xFE]⟩).wf = true ∧
    (Instr.frameError ⟨0x30, [0x01, 0x00, 0xFF]⟩).wf = true := by decide
theorem test_wf_frameError_generalCall : (Instr.frameError ⟨0x00, [0x01, 0x00, 0xFE]⟩).wf = false := by decide
theorem test_wf_read : (Instr.readTransaction ⟨0x2C, 0⟩).wf = false ∧
    (Instr.readTransaction ⟨0x2C, 1⟩).wf = true := by decide

/-! ## Bytes and numbers from the spec -/

/-- The field of R177: -0012.345 with 7 digits at scale 3. -/
theorem test_decimalField : decimalField true 3 7 12345 = [0xB0, 0x07, 0x00, 0x01, 0x23, 0x45] := by decide
theorem test_broadcast_bytes : isBroadcastStop [0x18, 0x00, 0xE8] = true := by decide
theorem test_requestFrame : requestFrame Kind.stopAll [] = [0x18, 0x00, 0xE8] := by decide
/-- Table 2-3. -/
theorem test_volume : [1, 97, 98, 1945, 1946, 1947].map (fun n => liveVolumeOf n 97350 2) =
    [1, 99, 100, 1997, 1998, 2000] := by decide +kernel
/-- Table 3-2. -/
theorem test_money :
    [liveMoneyOf 1 1459 2 3 2 5, liveMoneyOf 3 1459 2 3 2 5, liveMoneyOf 4 1459 2 3 2 5,
     liveMoneyOf 4 1459 2 3 2 0, liveMoneyOf 1 1459 2 3 2 9, liveMoneyOf 1234 250 2 2 0 5,
     liveMoneyOf 15 3 0 0 2 5] = [1, 4, 6, 5, 2, 31, 4500] := by decide +kernel
/-- Table 4-2. -/
theorem test_target : [0, 5, 9].map (fun r => moneyTarget 1000 1459 2 3 2 r) = [686, 686, 685] := by
  decide +kernel
/-- The rows of Table 6-4 that store: SUBTRACT twice with two digits, MULTIPLY twice, RESCALE, DIVIDE. -/
theorem test_table_6_4 :
    [storingStep (sums.reg 50) (exactSubtract (sums.reg 46) (sums.reg 47)) 5,
     storingStep (sums.reg 50) (exactSubtract (sums.reg 46) (sums.reg 47)) 0,
     storingStep (sums.reg 50) (exactSubtract (sums.reg 47) (sums.reg 46)) 5,
     storingStep (sums.reg 50) (exactMultiply (sums.reg 46) (sums.reg 46)) 5,
     storingStep (sums.reg 50) (exactMultiply (sums.reg 46) (sums.reg 48)) 5,
     storingStep (sums.reg 50) (exactRescale (sums.reg 46) 3) 5,
     divideStep (sums.reg 50) (sums.reg 48) (sums.reg 46) 5] =
    [(-1, ⟨true, false, false, true, false⟩), (0, ⟨false, true, false, true, false⟩),
     (1, ⟨false, false, false, true, false⟩), (1525, ⟨false, false, false, true, false⟩),
     (-371, ⟨true, false, false, true, false⟩), (23500, ⟨false, false, true, false, false⟩),
     (-41, ⟨true, false, false, true, false⟩)] := by decide +kernel
/-- Table 8-3: the numbering wraps, and skips the numbers that records hold. -/
theorem test_numbering :
    (queued [record 65533 2, record 2 0, record 3 1] 65534).sales.assign = 65534 ∧
    (queued [record 2 0, record 3 1, record 65534 0, record 65535 1, record 1 3] 2).sales.assign = 4 ∧
    succNumber 65535 = 1 := by decide +kernel

/-! ## One step of each command -/

theorem test_status : (replied (after (.status []) State.reset)).map (·.2) =
    some [0, 0, 0, 0, 0, 0, 1, 0, 0, 0, 1, 1, 2, 2, 0, 3] := by decide +kernel
theorem test_getEvents : (replied (after (.getEvents []) State.reset)).map (·.2) =
    some [0, 0, 0, 0, 0, 0, 0, 0, 3, 0] ∧ (after (.getEvents []) State.reset).attnLow = false := by
  decide +kernel
theorem test_restart_refused : answered (after (.restart [] none env) (site (delivering 7))) =
    some .wrongState := by decide +kernel
theorem test_clearRetained : (after (.clearRetained [] env) State.reset).link.busAddress = 0x2D ∧
    (after (.clearRetained [] env) State.reset).link.flags.retainLost = false := by decide +kernel
/-- DEFINE POINT 1: QUAD4, 100.000, every product, 0.20, 0.05, 90 s, 30 s, 0.5 s, limits 3, 10 and 2. -/
def defineBytes : List Byte := [1, 4, 0x30, 7, 0x00, 0x10, 0x00, 0x00, 0x3F, 0x20, 4, 0x00, 0x20,
  0x20, 3, 0x00, 0x05, 90, 30, 5, 0, 3, 0, 10, 2]
theorem test_definePoint : (after (.definePoint defineBytes) State.reset).point 1 = idle ∧
    answered (after (.definePoint defineBytes) (site idle)) = some .alreadyDefined := by decide +kernel
/-- A new margin of 0.50 alone. -/
theorem test_modifyPoint : ((after (.modifyPoint [1, 0x00, 0x08, 0x20, 4, 0x00, 0x50]) (site idle)).point
    1).defn = some { defn with margin := 50 } := by decide +kernel
theorem test_releasePoint : ((after (.releasePoint [1]) (site faulted)).point 1).st = .undefined ∧
    answered (after (.releasePoint [1]) (site authorized)) = some .wrongState := by decide +kernel
/-- The AUTHORIZE of Section 1.11. -/
def authorizeBytes : List Byte := [1, 2, 3, 0, 0x20, 8, 0x00, 0x00, 0x20, 0x00, 0, 0, 0x1B, 0xC1]
theorem test_authorize : (after (.authorize authorizeBytes) (site idle)).point 1 = authorized ∧
    answered (after (.authorize authorizeBytes) (staged idle)) = some .pricePending := by decide +kernel
theorem test_cancel : ((after (.cancel [1]) (site authorized)).point 1).st = .idle := by decide +kernel
theorem test_cancel_activates : (after (.cancel [1]) (staged authorized)).product 2 =
    some { product with current := 1689 } := by decide +kernel
theorem test_pause : ((after (.pause [1]) (site (delivering 7))).point 1).st = .paused := by decide +kernel
theorem test_resume : ((after (.resume [1]) (site paused)).point 1).timers.noFlow = some 30 := by
  decide +kernel
theorem test_stop : ((after (.stop [1]) (site (delivering 7))).point 1).endReason =
    some .stopRequest := by decide +kernel
theorem test_stopAll : ((after (.stopAll []) (site authorized)).point 1).flags.lapsed = true := by
  decide +kernel
theorem test_readPoint : (replied (after (.readPoint [1]) (site faulted))).map (·.2) =
    some [1, 8, 0, 0x20, 8, 0, 0, 0, 0, 0x20, 8, 0, 0, 0, 0, 1, 0, 0] := by decide +kernel
theorem test_clearFault : ((after (.clearFault [1]) (site faulted)).point 1).st = .idle := by decide +kernel
theorem test_clearCreep : ((after (.clearCreep [1]) (site { idle with
    meter := { idle.meter with creep := 3 } })).point 1).meter.creep = 0 := by decide +kernel
theorem test_setProduct : (after (.setProduct [2, 3, 5, 0x30, 6, 0x00, 0x14, 0x59]) State.reset).product 2 =
    some product := by decide +kernel
theorem test_setPrice : (after (.setPrice [2, 0x30, 6, 0x00, 0x16, 0x89]) (site authorized)).product 2 =
    some { product with staged := some 1689 } := by decide +kernel
theorem test_collectSale : ((replied (after (.collectSale [1, 1])
    (queued [record 2 0, record 3 1] 4))).map (fun r => r.2.take 3)) = some [0, 3, 1] := by decide +kernel
theorem test_clearSale : (after (.clearSale [0, 2]) (queued [record 2 0, record 3 1] 4)).sales.records =
    [record 3 1] := by decide +kernel
theorem test_setSite : answered (after (.setSite [1, 3, 0]) (site idle)) = some .wrongState ∧
    (after (.setSite [1, 3, 0]) State.reset).link.replySlot = .pending := by decide +kernel
theorem test_declare : answered (after (.declare [7, 10, 4, 5]) State.reset) = some .protectedReg ∧
    answered (after (.declare [42, 3, 4, 5]) State.reset) = some .badField := by decide +kernel
/-- The unit, FREE, takes each host job in the event of its acceptance. -/
abbrev taken (c : Instr) (req : JobReq) : Prop :=
  (after c State.reset).dcu.unit = .host ∧ (after c State.reset).dcu.job.map (·.req) = some req
theorem test_load : taken (.load [46, 0xB0, 7, 0x00, 0x01, 0x23, 0x45, 0]) (.load 46 (-12345) 3 none) := by
  decide +kernel
theorem test_move : taken (.move [46, 47, 1, 9]) (.move 46 47 (some 9)) := by decide +kernel
theorem test_add : taken (.add [50, 46, 47, 0]) (.add 50 46 47 none) := by decide +kernel
theorem test_subtract : taken (.subtract [50, 46, 47, 0]) (.subtract 50 46 47 none) := by decide +kernel
theorem test_multiply : taken (.multiply [50, 46, 47, 0]) (.multiply 50 46 47 none) := by decide +kernel
theorem test_divide : taken (.divide [50, 46, 47, 1, 0]) (.divide 50 46 47 (some 0)) := by decide +kernel
theorem test_rescale : taken (.rescale [50, 46, 0xEC, 0]) (.rescale 50 46 (-20) none) := by decide +kernel
theorem test_compare : taken (.compare [47, 46, 0]) (.compare 47 46) := by decide +kernel
theorem test_sumList : taken (.sumList [43, 2, 1, 3, 0]) (.sumList 43 [1, 3] none) := by decide +kernel
theorem test_readRegister : taken (.readRegister [63]) (.readRegister 63) := by decide +kernel
theorem test_hold : taken (.hold [2, 1, 3, 60]) (.hold [1, 3] 60) := by decide +kernel
theorem test_releaseHold : taken (.releaseHold []) .releaseHold := by decide +kernel
theorem test_frameError : answered (after (.frameError ⟨0x2C, [0x01, 0x00, 0xFE]⟩) State.reset) = some .frameError ∧
    answered (after (.frameError ⟨0x2C, [0x03, 0x00, 0xFD]⟩) State.reset) = some .unknownKind := by decide +kernel
theorem test_readTransaction : (after (.readTransaction ⟨0x2C, 5⟩) unread).link.bus =
    .sent [0x00, 0x17, 0x00, 0xE9, 0xFF] ∧ (after (.readTransaction ⟨0x2C, 5⟩) unread).link.replySlot = .empty := by
  decide +kernel
/-- The neighbours' addresses and a general-call read stand unacknowledged (R145, R146). -/
theorem test_otherAddresses : (∀ a ∈ [0x2B, 0x2D, 0x00],
    (after (.readTransaction ⟨a, 5⟩) unread).link.bus = .notAcknowledged) ∧
    (after (.frameError ⟨0x2D, [0x18, 0x00, 0xE8]⟩) (site idle)).link.bus = .notAcknowledged := by
  decide +kernel
theorem test_clockStretchEnd : (after .clockStretchEnd (after (.readTransaction ⟨0x2C, 3⟩)
    (working .releaseHold State.reset))).link.bus = .sent [0x7F, 0x01, 0xFF] := by decide +kernel
/-- The general-call enable is set. -/
def broadcast (x : Point) : State :=
  { site x with link := { State.reset.link with generalCallEnable := true } }

/-- The state after a general-call write of these bytes, before its end. -/
def called (bytes : List Byte) (s : State) : State :=
  bytes.foldl (fun t b => after (.generalCallStopAll (.data b)) t) (after (.generalCallStopAll .address) s)

theorem test_generalCall : (after (.generalCallStopAll .address) State.reset).link.bus = .notAcknowledged ∧
    (called [0x18, 0x00, 0xE8] (broadcast authorized)).link.bus = .wrote 3 := by decide +kernel
/-- The enable is cleared within the write, which is carried to its end (R146). -/
theorem test_generalCall_end : ((after (.generalCallStopAll .ending)
    ((called [0x18, 0x00, 0xE8] (broadcast authorized)).modLink (fun l =>
      { l with generalCallEnable := false }))).point 1).flags.lapsed = true ∧
    ((after (.generalCallStopAll .ending) (called [0x18, 0x00, 0xE8, 0x00] (broadcast authorized))).point
      1).flags.lapsed = false := by decide +kernel
/-- A whole write to the general-call address (R157). -/
theorem test_generalCall_whole : ((after (.frameError ⟨0x00, [0x18, 0x00, 0xE8]⟩) (broadcast authorized)).point
    1).flags.lapsed = true := by decide +kernel
theorem test_liftEdge : ((after (.liftEdge 1) (site idle)).point 1).flags.call = true := by decide +kernel
theorem test_liftEdge_starts : (after (.liftEdge 1) (site authorized)).mv 1 = true := by decide +kernel
theorem test_lowerEdge : ((after (.lowerEdge 1) (site (delivering 7))).point 1).endReason =
    some .handle := by decide +kernel
/-- Table 4-3: the slow-down point and then the target. -/
theorem test_slowDown : (after (.changeOfThePair 1 true false) (site (delivering 1979))).mv 1 = false ∧
    (after (.changeOfThePair 1 true false) (site (delivering 1979))).sv 1 = true := by decide +kernel
theorem test_target_stops : ((after (.changeOfThePair 1 true false) (site (delivering 1999))).point
    1).endReason = some .preset := by decide +kernel
theorem test_authorizationExpiry : ((after (.authorizationTimerExpiry 1) (site authorized)).point
    1).flags.lapsed = true := by decide +kernel
theorem test_noFlowExpiry : ((after (.noFlowTimerExpiry 1) (site (delivering 7))).point 1).endReason =
    some .noFlow := by decide +kernel
theorem test_settleExpiry : (after (.settleTimerExpiry 1) (site stopping)).dcu.postings =
    [{ posting with taken := true }] := by decide +kernel
theorem test_stopLimitExpiry : ((after (.stopLimitTimerExpiry 1) (site stopping)).point
    1).frozen.map (·.flags.flowAfterStop) = some true := by decide +kernel
theorem test_estopnAsserted : ((after .estopnAsserted (site (delivering 7))).point 1).endReason =
    some .emergency := by decide +kernel
theorem test_estopnReleased : (after .estopnReleased (after .estopnAsserted (site (delivering 7)))).sv 1 =
    false := by decide +kernel
theorem test_pfailnFall : (after .pfailnFall (site (delivering 7))).sv 1 = false := by decide +kernel
theorem test_pfailnRise : (after .pfailnRise (site (delivering 7))).sv 1 = true := by decide +kernel
theorem test_holdExpiry : (after .holdTimerExpiry { State.reset with
    dcu := { Dcu.cold with held := [1], holdTimer := some 60 } }).dcu.held = [] := by decide +kernel
theorem test_postingCommit : (after .postingCommit committing).sales.records = [⟨1, sale⟩] ∧
    ((after .postingCommit committing).point 1).st = .idle := by decide +kernel
theorem test_postingCommit_sums : [2, 3, 12, 13].map (fun r =>
    ((after .postingCommit committing).reg r).value) = [7, 10, 7, 10] := by decide +kernel
theorem test_suspension : (after .suspension (crowded (.move 46 47 none))).dcu.unit = .posting := by
  decide +kernel
theorem test_completion : replied (after .hostJobCompletion (working (.subtract 50 46 47 none) sums)) =
    some (.ok, [9, 0, 0x90, 5, 0x00, 0x00, 0x01]) := by decide +kernel
/-- A division by zero (Section 6.11): DIVZERO, OVERFLOW and ZERO, the destination unchanged. -/
theorem test_divideByZero : replied (after .hostJobCompletion (working (.divide 50 49 46 none) sums)) =
    some (.ok, [22, 0, 0x10, 5, 0x00, 0x00, 0x00]) := by decide +kernel
theorem test_mainPowerLoss : (dark (delivering 7)).sv 1 = false ∧
    ((dark (delivering 7)).point 1).liveVolume = 7 := by decide +kernel
theorem test_mainPowerReturn : ((after (.mainPowerReturn true env) (dark (delivering 7))).point
    1).endReason = some .power := by decide +kernel
theorem test_mainPowerReturn_lost : (after (.mainPowerReturn false env) (dark (delivering 7))).point 1 =
    Point.cold := by decide +kernel
theorem test_resetnAsserted : (held (delivering 7)).operating = false := by decide +kernel
theorem test_resetnReleased : ((after (.resetnReleased env) (held authorized)).point 1).st = .idle := by
  decide +kernel
/-- A commit cut after three of its writes is completed at the next start. -/
theorem test_cutCommit : ((after (.mainPowerReturn true env) (after (.mainPowerLoss (some 3))
    committing)).sales.records) = [⟨1, sale⟩] := by decide +kernel

/-! ## Witnesses: a state and operands that meet the hypotheses of each statement, clause by clause -/

theorem witness_StepRunsFrontCommandOrIdles : State.reset.pending = [] := by decide

theorem witness_TurnedAwayRequestReachesNoOwner :
    (dark idle).acceptsWrite = false ∧ (0x2B : BitVec 7) ≠ State.reset.link.busAddress ∧
    (0x00 : BitVec 7) ≠ State.reset.link.busAddress ∧ (0x2B : BitVec 7) ≠ 0x00 ∧ (Instr.stop [1]).request? = some (Kind.stop, [1]) ∧
    (site idle).takes [4] ∧ (Instr.stop [4]).request? = some (Kind.stop, [4]) ∧
    (Instr.stop [4]).fieldsOk = false ∧ (Instr.stop [3]).fieldsOk = true := by
  unfold State.takes; decide +kernel

theorem witness_RefusedRequestChangesOnlyTheSlots :
    (Instr.stop [1]).request? = some (Kind.stop, [1]) ∧ (site idle).takes [1] ∧
    exec (.stop [1]) (site idle) = .next (after (.stop [1]) (site idle)) ∧
    (after (.stop [1]) (site idle)).link.replySlot = .ready ⟨.wrongState, false, Kind.stop, []⟩ 0 :=
  ⟨rfl, ⟨by decide +kernel, by decide⟩, rfl, by decide +kernel⟩

theorem witness_TakenRequestMarksLostReply :
    unread.takes [] ∧ (Instr.releaseHold []).request? = some (Kind.releaseHold, []) ∧
    (after (.releaseHold []) unread).link.replySlot = .pending ∧
    (Instr.stopAll []).request? = some (Kind.stopAll, []) ∧
    (after (.stopAll []) unread).link.replySlot = .ready ⟨.ok, true, Kind.stopAll, []⟩ 0 := by
  unfold State.takes; decide +kernel

/-- Each check of R150, the greatest payload length and one more among them. -/
theorem witness_FaultyFrameIsAnswered : State.reset.acceptsWrite = true ∧
    frameCheck [0x01] = .frameError ∧ frameCheck [0x01, 0x00, 0x00] = .frameError ∧
    frameCheck (0x01 :: 0x31 :: List.replicate 50 0) = .frameError ∧
    frameCheck [0x03, 0x00, 0xFD] = .unknownKind ∧
    frameCheck (requestFrame 0x01 (List.replicate 48 0)) =
      .request 0x01 (List.replicate 48 0) := by decide +kernel

theorem witness_FramesCarryTheirPayload : Kind.releaseHold ∈ kindCodes ∧
    (List.replicate 48 (0 : Byte)).length ≤ 48 := by decide

theorem witness_ReadsOfReadyAndPendingSlots :
    unread.operating = true ∧ unread.link.replySlot = .ready ⟨.ok, false, Kind.stop, []⟩ 0 ∧
    (working .releaseHold State.reset).operating = true ∧
    (working .releaseHold State.reset).link.replySlot = .pending ∧
    (after (.readTransaction ⟨0x2C, 3⟩) (working .releaseHold State.reset)).operating = true ∧
    (after (.readTransaction ⟨0x2C, 3⟩) (working .releaseHold State.reset)).link.replySlot = .pending ∧
    (after (.readTransaction ⟨0x2C, 3⟩) (working .releaseHold State.reset)).link.stretch = some 3 ∧
    (dark idle).operating = false := by decide +kernel

/-- For ReadsOfReadyAndPendingSlots: a reply that becomes READY in a clock stretch of n bytes, at the last
byte of its frame and one before it, and no stretch. -/
theorem witness_endStretch : ∀ n ∈ [3, 4],
    ({ unread with link := { unread.link with stretch := some n } } : State).link.stretch = some n ∧
    ({ unread with link := { unread.link with stretch := some n } } : State).link.replySlot =
      .ready ⟨.ok, false, Kind.stop, []⟩ 0 ∧
    (⟨.ok, false, Kind.stop, []⟩ : Reply).frame.length = 4 ∧ unread.link.stretch = none ∧
    (working .releaseHold State.reset).link.replySlot.isReady = false := by decide +kernel

theorem witness_ReadOfEmptySlotSendsNoReply :
    State.reset.operating = true ∧ State.reset.link.replySlot = .empty := by decide +kernel

theorem witness_GeneralCallStopsEveryPoint :
    (broadcast authorized).operating = true ∧ (broadcast authorized).link.generalCall = none ∧
    (broadcast authorized).link.generalCallEnable = true ∧ State.reset.operating = true ∧
    State.reset.link.generalCall = none ∧ State.reset.link.generalCallEnable = false ∧
    (dark idle).operating = false ∧
    (called [0x18, 0x00, 0xE8] (broadcast authorized)).operating = true ∧
    (called [0x18, 0x00] (broadcast authorized)).link.generalCall = some 2 ∧
    (called [0x18, 0x00, 0xE8] (broadcast authorized)).link.generalCall = some 3 ∧
    (called [0x18, 0x00, 0xE8] (broadcast authorized)).link.generalCallBuffer = [0x18, 0x00, 0xE8] ∧
    (called [0x18, 0x00, 0xE9] (broadcast authorized)).link.generalCallBuffer ≠ [0x18, 0x00, 0xE8] ∧
    (called [0x18, 0x00, 0xE8, 0x00] (broadcast authorized)).link.generalCall = some 4 := by decide +kernel

/-- For StatusShowsThePart, GetEventsReturnsAndClears and StopAllAndEstop. -/
theorem witness_requests_of_no_field : State.reset.takes [] ∧ unread.takes [] := by
  unfold State.takes; decide +kernel

theorem witness_ValveLevelsFollowTheTable :
    (site (delivering 7)).operating = true ∧ (site idle).operating = true ∧
    (site { delivering 1990 with slowDown := true }).operating = true ∧
    (after .pfailnFall (site (delivering 7))).operating = true ∧
    (after .pfailnFall (site (delivering 7))).rcu.mainPowerHigh = false ∧
    (held (delivering 7)).pins.resetn = false ∧ (dark (delivering 7)).pins.vdd = false ∧
    (dark (delivering 7)).pins.resetn = true ∧ (held (delivering 7)).rcu.running = false := by decide +kernel

theorem witness_DefinePointStartsThePoint :
    (site idle).takes defineBytes ∧ State.reset.takes defineBytes ∧
    parseDefinePoint defineBytes = some ⟨1, defn, 2, 2⟩ ∧ State.reset.tally.vs = 2 ∧
    (State.reset.point 1).st = .undefined ∧ ((site idle).point 1).st ≠ .undefined ∧
    (after .hostJobCompletion (working (.setSite (some (3, 3)) none) State.reset)).tally.vs = 3 ∧
    (after .hostJobCompletion (working (.setSite (some (3, 3)) none) State.reset)).takes defineBytes := by
  unfold State.takes; decide +kernel

theorem witness_ModifyAndReleasePoint :
    (site idle).takes [1, 0, 8, 0x20, 4, 0, 0x50] ∧ (site authorized).takes [1, 0, 8, 0x20, 4, 0, 0x50] ∧
    (parseModifyPoint [1, 0, 8, 0x20, 4, 0, 0x50]).map (·.margin) = some (some ⟨false, 2, 4, 50⟩) ∧
    (parseModifyPoint [1, 0, 8, 0x10, 4, 0, 0x50]).map (·.margin) = some (some ⟨false, 1, 4, 50⟩) ∧
    (site idle).takes [1, 0, 8, 0x10, 4, 0, 0x50] ∧ ((site idle).point 1).defn = some defn ∧
    ((site authorized).point 1).st.holdsAuth = true ∧
    (site faulted).takes [byteOf 1] ∧ (site calling).takes [byteOf 1] ∧
    State.reset.takes [1, 0, 8, 0x20, 4, 0, 0x50] ∧ State.reset.takes [byteOf 1] ∧
    (State.reset.point 1).st = .undefined := by
  unfold State.takes; decide +kernel

def request2 : AuthorizeReq := ⟨1, 2, some ⟨.volume, 2000, 2⟩, some 7105⟩

/-- For AuthorizeAccepted. -/
theorem witness_authorize_passes (x : Point) (hx : x = idle ∨ x = calling) :
    AuthorizePasses (site x) request2 auth := by
  rcases hx with rfl | rfl
  · exact ⟨by decide +kernel, by decide +kernel, by decide +kernel, by decide +kernel, by decide +kernel,
      by decide +kernel, product, by decide +kernel, ⟨by decide, by decide +kernel, by decide⟩, by decide⟩
  · exact ⟨by decide +kernel, by decide +kernel, by decide +kernel, by decide +kernel, by decide +kernel,
      by decide +kernel, product, by decide +kernel, ⟨by decide, by decide +kernel, by decide⟩, by decide⟩

theorem witness_AuthorizeAccepted : (site idle).takes authorizeBytes ∧ (site calling).takes authorizeBytes ∧
    parseAuthorize authorizeBytes = some request2 ∧ ((site idle).point 1).defn = some defn ∧
    ((site calling).point 1).defn = some defn := by
  unfold State.takes; decide +kernel

/-- A check of R9 fails in each of these states, in its order; the last request names a preset of 0. -/
theorem witness_AuthorizeRefusedByFirstFailingCheck :
    State.reset.takes authorizeBytes ∧ (State.reset.point 1).st = .undefined ∧
    (site faulted).takes authorizeBytes ∧ ((site faulted).point 1).st = .faulted ∧
    (after .estopnAsserted (site idle)).takes authorizeBytes ∧
    (after .estopnAsserted (site idle)).pins.estopn = false ∧
    (after .pfailnFall (site idle)).takes authorizeBytes ∧
    (after .pfailnFall (site idle)).rcu.mainPowerHigh = false ∧
    ((site idle).setProduct 2 none).takes authorizeBytes ∧ ((site idle).setProduct 2 none).product 2 = none ∧
    ((site { idle with defn := some { defn with allowed := 0x3B } }).point 1).allows 2 = false ∧
    (staged idle).takes authorizeBytes ∧ (staged idle).isStaged 2 = true ∧
    (queued [record 1 1, record 2 1] 3).takes authorizeBytes ∧
    (queued [record 1 1, record 2 1] 3).salesOf 1 = 2 ∧
    (parseAuthorize [1, 2, 1, 0, 0x20, 8, 0, 0, 0, 0]).map (·.preset) = some (some ⟨.volume, 0, 2⟩) := by
  unfold State.takes; decide +kernel

theorem witness_HandleEdges : (site idle).operating = true ∧ (site calling).operating = true ∧
    (site authorized).operating = true ∧ ((site idle).point 1).handleUp = false ∧
    ((site calling).point 1).handleUp = true ∧ ((site (delivering 7)).point 1).handleUp = true ∧
    ((site authorized).point 1).auth = some auth ∧ ((site authorized).point 1).defn = some defn ∧
    ((site faulted).point 1).handleUp = false ∧
    ((site { settling with handleUp := true }).point 1).handleUp = true ∧
    (dark idle).operating = false := by decide +kernel

/-- For CancelPauseResume, StopByState, ReadPointShowsThePoint and ClearFaultAndClearCreep. -/
theorem witness_requests_of_a_point :
    (site authorized).takes [byteOf (1 : PointNo).val] ∧ ((site authorized).point 1).auth = some auth ∧
    (site (delivering 7)).takes [byteOf (1 : PointNo).val] ∧ (site paused).takes [byteOf (1 : PointNo).val] ∧
    (site paused).rcu.mainPowerHigh = true ∧ ((site paused).point 1).defn = some defn ∧
    (after .pfailnFall (site paused)).takes [byteOf (1 : PointNo).val] ∧
    (after .pfailnFall (site paused)).rcu.mainPowerHigh = false ∧
    (site stopping).takes [byteOf (1 : PointNo).val] ∧ (site settling).takes [byteOf (1 : PointNo).val] ∧
    (site idle).takes [byteOf (1 : PointNo).val] ∧ (site faulted).takes [byteOf (1 : PointNo).val] ∧
    State.reset.takes [byteOf (1 : PointNo).val] := by
  unfold State.takes; decide +kernel

theorem witness_StopAllAndEstop : (site authorized).takes [] ∧ (site authorized).operating = true ∧
    (site authorized).pins.estopn = true ∧ (after .estopnAsserted (site authorized)).operating = true ∧
    (after .estopnAsserted (site authorized)).pins.estopn = false := by
  unfold State.takes; decide +kernel

theorem witness_StoppingFaultsAndMarks : (delivering 7).defn = some defn ∧
    (delivering 7).auth = some auth ∧ auth.preset = some ⟨.volume, 2000, 2000⟩ ∧
    (delivering 7).st = .delivering ∧ stopping.st = .stopping ∧ stopping.auth = some auth ∧
    { delivering 7 with auth := some { auth with preset := none } }.auth =
      some { auth with preset := none } := by decide +kernel

theorem witness_AuthorizationAndNoFlowExpiry : (site authorized).operating = true ∧
    ((site authorized).point 1).timers.authorization.isSome = true ∧
    ((site (delivering 7)).point 1).timers.noFlow.isSome = true ∧
    (site (delivering 7)).operating = true ∧ ((site idle).point 1).st ≠ .authorized ∧
    ((site paused).point 1).timers.noFlow = none := by decide +kernel

theorem witness_SettlingFreezesAndSubmits : (site stopping).operating = true ∧
    ((site stopping).point 1).st = .stopping ∧ ((site stopping).point 1).auth = some auth ∧
    ((site stopping).point 1).endReason = some .handle ∧
    ((site stopping).point 1).timers.settle.isSome = true ∧
    ((site stopping).point 1).timers.stopLimit.isSome = true ∧
    ((site { stopping with timers := Timers.stopped }).point 1).timers.settle = none ∧
    (site settling).operating = true ∧ ((site settling).point 1).st ≠ .stopping := by decide +kernel

/-- Point 1 counts in SINGLE mode. -/
def single (x : Point) : Point := { x with defn := some { defn with mode := .single } }

theorem witness_PulseModesDecodeByTheirTables :
    ChangeTaken (site (single idle)) 1 false true { defn with mode := .single } .neither ∧
    ChangeTaken (site idle) 1 true true defn .phaseError ∧
    (dark idle).operating = false ∧ (State.reset.point 1).defn = none ∧
    ((site idle).point 1).meter.lastPhase = some ⟨false, false⟩ :=
  ⟨⟨by decide +kernel, by decide +kernel, ⟨false, false⟩, by decide +kernel⟩,
   ⟨by decide +kernel, by decide +kernel, ⟨false, false⟩, by decide +kernel⟩, by decide +kernel⟩

/-- A count with its volume at 8 digits: 10^8 - 1 pulses are 999999.99. -/
theorem witness_ForwardPulseCounts :
    ChangeTaken (site (delivering 7)) 1 true false defn .forward ∧
    Delivering (site (delivering 7)) 1 auth product ∧ Delivering (site stopping) 1 auth product ∧
    ChangeTaken (site (delivering 99999999)) 1 true false defn .forward ∧
    Delivering (site (delivering 99999999)) 1 auth product ∧
    (99999998 + 1) * 1000 * 10 ^ 2 / defn.kFactor < 10 ^ 8 ∧
    10 ^ 8 ≤ (99999999 + 1) * 1000 * 10 ^ 2 / defn.kFactor :=
  ⟨⟨by decide +kernel, by decide +kernel, ⟨false, false⟩, by decide +kernel⟩,
   ⟨by decide +kernel, by decide +kernel, by decide +kernel⟩,
   ⟨by decide +kernel, by decide +kernel, by decide +kernel⟩,
   ⟨by decide +kernel, by decide +kernel, ⟨false, false⟩, by decide +kernel⟩,
   ⟨by decide +kernel, by decide +kernel, by decide +kernel⟩, by decide +kernel⟩

theorem witness_ReversePulsesAndPhaseErrorsCount :
    ChangeTaken (site (delivering 7)) 1 false true defn .reverse ∧
    Delivering (site (delivering 7)) 1 auth product ∧
    ChangeTaken (site { delivering 7 with meter := ⟨some ⟨false, false⟩, 7, 10, 2, 0⟩ }) 1 false true
      defn .reverse ∧
    Delivering (site { delivering 7 with meter := ⟨some ⟨false, false⟩, 7, 10, 2, 0⟩ }) 1 auth product ∧
    ChangeTaken (site { delivering 7 with meter := ⟨some ⟨false, false⟩, 7, 10, 2, 0⟩ }) 1 true true
      defn .phaseError :=
  ⟨⟨by decide +kernel, by decide +kernel, ⟨false, false⟩, by decide +kernel⟩,
   ⟨by decide +kernel, by decide +kernel, by decide +kernel⟩,
   ⟨by decide +kernel, by decide +kernel, ⟨false, false⟩, by decide +kernel⟩,
   ⟨by decide +kernel, by decide +kernel, by decide +kernel⟩,
   ⟨by decide +kernel, by decide +kernel, ⟨false, false⟩, by decide +kernel⟩⟩

/-- Below the creep limit of 3, at it, and with no limit. -/
theorem witness_StrayPulsesCountAsCreep :
    ChangeTaken (site idle) 1 true false defn .forward ∧
    ChangeTaken (site { idle with meter := ⟨some ⟨false, false⟩, 0, 0, 0, 2⟩ }) 1 false true defn .reverse ∧
    ChangeTaken (site { authorized with meter := ⟨some ⟨false, false⟩, 0, 0, 0, 2⟩ }) 1 true false defn
      .forward ∧
    min 65535 (0 + 1) < defn.creepLimit ∧ defn.creepLimit ≤ min 65535 (2 + 1) ∧ defn.creepLimit ≠ 0 :=
  ⟨⟨by decide +kernel, by decide +kernel, ⟨false, false⟩, by decide +kernel⟩,
   ⟨by decide +kernel, by decide +kernel, ⟨false, false⟩, by decide +kernel⟩,
   ⟨by decide +kernel, by decide +kernel, ⟨false, false⟩, by decide +kernel⟩, by decide⟩

/-- For the statements of money, of the target volume and of storing: more digits than MS, as many, fewer. -/
theorem witness_arithmetic : (2 : Nat) < 2 + 3 ∧ (2 : Nat) + 0 ≤ 2 ∧ (0 : Nat) + 0 ≤ 3 ∧ (0 : Nat) < 1000 ∧ (5 : Nat) ≤ 6 ∧ (1 : Nat) ≠ 0 ∧ (9 : Nat) ≤ 9 ∧
    (2 : Nat) < 3 ∧ (3 : Nat) ≤ 3 := by decide

/-- The fields of the layouts at the ends of their ranges. -/
theorem witness_PayloadsReadBack : 1 ≤ 20 ∧ (20 : Nat) ≤ 20 ∧ (6 : Nat) ≤ 6 ∧
    10 ^ 20 - 1 < 10 ^ 20 ∧ 99999999 < 10 ^ 8 ∧ (3 : Nat) ≤ 3 ∧ 999999 < 10 ^ 6 ∧ (4 : Nat) ≤ 4 ∧
    (9 : Nat) ≤ 9 ∧ 1 ≤ 65535 ∧ (65535 : Nat) ≤ 65535 := by decide +kernel

def productBytes2 : List Byte := [2, 3, 5, 0x30, 6, 0x00, 0x14, 0x59]
def priceBytes2 : List Byte := [2, 0x30, 6, 0x00, 0x16, 0x89]

theorem witness_PricesSetStageAndActivate :
    parseSetProduct productBytes2 = some ⟨2, 3, 5, ⟨false, 3, 6, 1459⟩⟩ ∧
    (site idle).takes productBytes2 ∧ (site settling).takes productBytes2 ∧
    ((site settling).point 1).st.holdsAuth = true ∧ ((site settling).point 1).auth = some auth ∧
    (∀ p, ((site idle).point p).st.holdsAuth = false) ∧
    parseSetPrice priceBytes2 = some ⟨2, ⟨false, 3, 6, 1689⟩⟩ ∧
    State.reset.takes priceBytes2 ∧ State.reset.product 2 = none ∧
    (site idle).takes priceBytes2 ∧ (site idle).product 2 = some product ∧
    (∀ p, ((site idle).point p).delivers ≠ some 2) ∧ (site authorized).takes priceBytes2 ∧
    ((site authorized).point 1).delivers = some 2 ∧
    (∀ p, ((staged settling).point p).delivers ≠ some 2) ∧
    (staged settling).product 2 = some { product with staged := some 1689 } := by
  unfold State.takes; decide +kernel

theorem witness_CollectSaleCopiesTheOldest :
    (queued [record 2 0, record 3 1] 4).takes [0] ∧ parseCollectSale [0] = some none ∧
    (queued [record 2 0, record 3 1] 4).sales.records = [] ++ record 2 0 :: [record 3 1] ∧
    (queued [record 2 0, record 3 1] 4).takes [1, 1] ∧ parseCollectSale [1, 1] = some (some 1) ∧
    (queued [record 2 0, record 3 1] 4).sales.records = [record 2 0] ++ record 3 1 :: [] ∧
    (record 2 0).sale.point ≠ 1 ∧ (record 3 1).sale.point = 1 ∧ State.reset.takes [0] ∧
    State.reset.sales.records = [] := by
  unfold State.takes; decide +kernel

theorem witness_ClearSaleRemovesTheRecord :
    (queued [record 1 0, record 65535 1] 2).takes [0xFF, 0xFF] ∧ parseClearSale [0xFF, 0xFF] = some 65535 ∧
    (queued [record 1 0, record 65535 1] 2).sales.records = [record 1 0] ++ record 65535 1 :: [] ∧
    (record 1 0).number ≠ 65535 ∧ parseClearSale [0, 1] = some 1 ∧ State.reset.takes [0, 1] ∧
    State.reset.sales.records = [] ∧ State.reset.takes [0, 0] := by
  unfold State.takes; decide +kernel

theorem witness_AcceptedRequestBecomesTheHostJob :
    (Instr.move [8, 7, 0]).request? = some (Kind.move, [8, 7, 0]) ∧
    (Instr.move [8, 7, 0]).jobReq? = some (.move 8 7 none) ∧ State.reset.takes [8, 7, 0] ∧
    (JobReq.move 8 7 none).admitted State.reset ∧ (JobReq.releaseHold).admitted State.reset ∧
    (JobReq.declare 20 20 6 9).admitted State.reset ∧
    (JobReq.setSite (some (3, 0)) none).admitted State.reset := by
  refine ⟨rfl, by decide, ⟨by decide +kernel, by decide⟩, ?_, ?_, ?_, ?_⟩
  · intro d hd; cases hd; decide
  · intro d hd; cases hd
  · exact ⟨by decide, by decide, by decide +kernel⟩
  · exact ⟨by decide +kernel, by decide +kernel, by decide +kernel⟩

theorem witness_UnitRefusesByItsChecks :
    (Instr.declare [19, 20, 6, 9]).jobReq? = some (.declare 19 20 6 9) ∧ State.reset.takes [19, 20, 6, 9] ∧
    (Instr.declare [20, 3, 4, 5]).jobReq? = some (.declare 20 3 4 5) ∧
    (Instr.declare [20, 4, 4, 5]).jobReq? = some (.declare 20 4 4 5) ∧
    (20 : RegNo) ∈ { Dcu.cold with held := [20] }.held ∧
    (Instr.move [7, 8, 0]).jobReq? = some (.move 7 8 none) ∧ (JobReq.move 7 8 none).destination = some 7 ∧
    (Instr.setSite [1, 3, 0]).jobReq? = some (.setSite (some (3, 0)) none) ∧
    (site idle).takes [1, 3, 0] ∧ ((site idle).point 1).st ≠ .undefined ∧
    (queued [record 1 0] 2).sales.records ≠ [] ∧ ((State.reset.setReg 19 ⟨16, 2, 5, 1⟩).reg 19).value ≠ 0 := by
  unfold State.takes; decide +kernel

/-- A unit in FREE with a posting that is eligible, one that an operand keeps out, and a job set aside. -/
def choosing (req : JobReq) (phase : JobPhase) : State :=
  { site settling with dcu := { Dcu.cold with
      postings := [posting], job := some ⟨req, phase, req.operands, [], 0⟩, context := some [] } }

theorem witness_UnitTakesOldestEligibleElseHostJob :
    (choosing (.move 46 47 none) .waiting).rcu.running = true ∧
    (choosing (.move 46 47 none) .waiting).dcu.unit = .free ∧
    (choosing (.move 46 47 none) .waiting).dcu.postings = [] ++ posting :: [] ∧
    (choosing (.move 46 47 none) .waiting).dcu.eligible posting = true ∧
    (choosing (.move 46 2 none) .waiting).dcu.eligible posting = false ∧
    (choosing (.move 46 2 none) .suspended).dcu.eligible posting = false ∧
    (choosing (.move 46 2 none) .suspended).dcu.context = some [] ∧
    (dark idle).rcu.running = false ∧ committing.dcu.unit ≠ .free ∧ State.reset.dcu.job = none := by
  decide +kernel

/-- The unit works on the job that `working` gives it: for CompletionStoresTheResult,
DivideByZeroLeavesTheDestination, CompareReportsTheOrder and OtherJobsComplete. -/
theorem witness_working (req : JobReq) (s : State) (h : s.operating = true) :
    Working (working req s) ⟨req, .active, req.operands, req.operands.map (fun r => ⟨r, s.reg r⟩), 0⟩ :=
  ⟨h, rfl, rfl, rfl, rfl, rfl⟩

/-- Jobs of every kind that completes, with a divisor that is zero and one that is not. -/
theorem witness_completions : sums.operating = true ∧ (sums.reg 46).value ≠ 0 ∧ (sums.reg 49).value = 0 ∧
    ((JobReq.load 46 (-5) 1 none).exact? sums.reg).isSome = true ∧
    ((JobReq.move 50 46 none).exact? sums.reg).isSome = true ∧
    ((JobReq.add 50 46 47 none).exact? sums.reg).isSome = true ∧
    ((JobReq.subtract 50 46 47 none).exact? sums.reg).isSome = true ∧
    ((JobReq.multiply 50 46 47 none).exact? sums.reg).isSome = true ∧
    ((JobReq.rescale 50 46 (-20) none).exact? sums.reg).isSome = true ∧
    ((JobReq.sumList 50 [46, 50] (some 0)).exact? sums.reg).isSome = true := by decide +kernel

theorem witness_HoldExpiryAndSuspension :
    (site settling).operating = true ∧ State.reset.dcu.holdTimer = none ∧
    { Dcu.cold with held := [1], holdTimer := some 60 }.holdTimer.isSome = true ∧
    posting ∈ (crowded (.move 46 47 none)).dcu.postings ∧
    (crowded (.move 46 47 none)).dcu.eligible posting = true ∧
    (crowded (.move 46 2 none)).dcu.eligible posting = false := by decide +kernel

/-- For HoldExpiryAndSuspension. -/
theorem witness_crowded (req : JobReq) : Working (crowded req) ⟨req, .active, req.operands,
    req.operands.map (fun r => ⟨r, (site settling).reg r⟩), 0⟩ :=
  ⟨rfl, rfl, rfl, rfl, rfl, rfl⟩

theorem witness_LossOfPowerClearsVolatileState : (site idle).pins.vdd = true ∧
    (site idle).pins.resetn = true ∧ (dark idle).pins.vdd = false ∧ (held idle).pins.resetn = false ∧
    (dark idle).pins.resetn = true ∧ (after (.resetnAsserted none) (dark idle)).pins.vdd = false ∧
    (after (.resetnAsserted none) (dark idle)).pins.resetn = false := by decide +kernel

theorem witness_ColdStartComesToTheDefaults : (dark idle).pins.vdd = false ∧
    (dark idle).pins.resetn = true ∧ env.upTo = none ∧ (held idle).pins.vdd = true ∧
    (held idle).pins.resetn = false ∧ (held idle).firstStep = held idle ∧
    { held idle with rcu := { (held idle).rcu with checkGood := false } }.firstStep =
      { held idle with rcu := { (held idle).rcu with checkGood := false } } ∧
    State.reset.takes [] ∧ (∀ p, (State.reset.point p).st = .undefined) ∧ (site idle).takes [] ∧
    ((site idle).point 1).st ≠ .undefined := by
  unfold State.takes; decide +kernel

/-! ### The laws, of the state in which the unit works on point 1's posting: for the statements that every
step keeps them, CommitIsOneEvent and CommitSurvivesAnyCut -/

theorem timersRun_of (x : Point) (ha : x.st = .authorized → x.timers.authorization.isSome = true)
    (hn : x.st = .delivering → x.timers.noFlow.isSome = true)
    (hs : x.st = .stopping → x.timers.settle.isSome = true ∧ x.timers.stopLimit.isSome = true) :
    TimersRun x :=
  ⟨fun h _ _ _ => ha h, fun h _ _ _ => hn h, fun h => (hs h).1, fun h => (hs h).2⟩

theorem pointsLaw_of (s : State) (h : s.rcu.running = true) (hv : s.pins.vdd = true)
    (hr : s.pins.resetn = true) (hp : ∀ p, PointLaw p (s.point p)) (ht : ∀ p, TimersRun (s.point p)) :
    PointsLaw s :=
  ⟨fun _ => ⟨hv, hr⟩, hp, fun _ => ht, fun h' => by rw [h] at h'; cases h'⟩

theorem pointLaw_committing (p : PointNo) : PointLaw p (committing.point p) := by
  refine ⟨?_, ?_, ?_, ?_, ?_, ?_, ?_, ?_, ?_, ?_⟩
  case refine_4 => revert p; show ∀ p, ∀ f ∈ (committing.point p).frozen, f.point = p; decide +kernel
  all_goals (revert p; decide +kernel)

theorem timersRun_committing (p : PointNo) : TimersRun (committing.point p) := by
  apply timersRun_of <;> (revert p; decide +kernel)

theorem witness_PostingLaw : PostingLaw committing where
  points := pointsLaw_of _ rfl rfl rfl pointLaw_committing timersRun_committing
  trusted _ := rfl
  journal _ := rfl
  once := by decide +kernel
  settling := by
    have : ∀ p, (∃ q ∈ committing.dcu.postings, q.point = p) ↔ (committing.point p).st = .settling := by
      decide +kernel
    exact fun _ p _ => this p
  copies := by
    show ∀ q, q ∈ committing.dcu.postings → ∀ f ∈ (committing.point q.point).frozen,
      q.product = f.auth.product ∧ q.volume = f.volume ∧ q.money = f.money
    decide +kernel
  pointOfJournal := by intro _ c h; cases h

theorem witness_SalesLaw : SalesLaw committing where
  postings := witness_PostingLaw
  eight := by decide +kernel
  two := by decide +kernel
  room := by
    have : ∀ p, committing.salesOf p ≤ 1 := by decide +kernel
    exact fun _ p _ _ => this p
  numbers := by decide +kernel
  range := by decide +kernel
  next := by decide +kernel
  journal := by intro c h; cases h

theorem witness_UnitLaw : UnitLaw committing where
  postings := witness_PostingLaw
  slot := by unfold PendingExactlyWithJob; decide +kernel
  idle h := by cases h
  posting := by
    show _ ↔ ∃ q ∈ committing.dcu.postings, q.taken = true
    decide +kernel
  oneTaken := by
    show ∀ q r, q ∈ [{ posting with taken := true }] → r ∈ [{ posting with taken := true }] → _
    simp
  host := by
    show _ ↔ ∃ j ∈ (none : Option HostJob), j.phase = .active
    decide +kernel
  active := by intro j h; cases h
  suspended := by intro j h; cases h
  apart := by intro j q h; cases h
  heldOnce := List.Pairwise.nil
  heldEight := by decide +kernel
  heldApart := by decide +kernel
  holdTimer := by decide +kernel
  holdJob := by intro j h; cases h

theorem witness_StagedLaw : StagedLaw committing :=
  ⟨fun _ => ⟨rfl, rfl⟩, by intro _; decide +kernel⟩

theorem witness_TallyLaw : TallyLaw committing where
  scales := by decide +kernel
  registers r := by
    refine ⟨?_, ?_, ?_, ?_, ?_, ?_⟩ <;> (revert r; decide +kernel)
  job := by intro j h; cases h
  journal := by intro c h; cases h

theorem witness_ChargeLaw : ChargeLaw committing where
  powered _ := ⟨rfl, rfl⟩
  slot := by unfold PendingExactlyWithJob; decide +kernel
  idle h := by cases h
  site := by intro j h; cases h
  defined := by decide +kernel
  auth := by decide +kernel
  products := by
    show ∀ k, ∀ r ∈ committing.product k, r.rounding ≤ 9
    decide +kernel
  trusted _ := rfl
  volume := by
    intro _
    show ∀ p, ∀ d ∈ (committing.point p).defn, (committing.point p).liveVolume =
      liveVolumeOf (committing.point p).meter.net d.kFactor committing.tally.vs ∧
      (committing.point p).liveVolume < 10 ^ 8
    decide +kernel
  priced := by
    intro _
    show ∀ p, ∀ a ∈ (committing.point p).auth, ∃ r, r ∈ committing.product a.product
    intro p a h
    refine ⟨product, ?_⟩
    revert p a
    decide +kernel
  money := by
    intro _
    show ∀ p a r, a ∈ (committing.point p).auth → (committing.point p).st ≠ .authorized →
      r ∈ committing.product a.product → _
    intro p a r ha _ hr
    have : ∀ p, ∀ a ∈ (committing.point p).auth, ∀ r ∈ committing.product a.product,
      (committing.point p).liveMoney = liveMoneyOf (committing.point p).liveVolume a.price
        committing.tally.vs a.priceScale committing.tally.ms r.rounding ∧
      (committing.point p).liveMoney < 10 ^ 8 := by decide +kernel
    exact this p a ha r hr
  frozen := by
    show ∀ p, ∀ f ∈ (committing.point p).frozen, (committing.point p).st = .settling ∧
      (committing.point p).auth = some f.auth ∧ f.volume = (committing.point p).liveVolume ∧
      f.money = (committing.point p).liveMoney
    decide +kernel

/-- The steps of the invariants: a step of this state answers a next state. -/
theorem witness_step : ∃ t, step committing = .next t := ⟨_, rfl⟩

theorem witness_CommitIsOneEvent : committing.operating = true ∧
    { posting with taken := true } ∈ committing.dcu.postings ∧
    (∀ e, e ∈ committing.dcu.postings → e.taken = true → e = { posting with taken := true }) ∧
    (committing.point 1).frozen = some sale ∧ committing.rcu.checkGood = true ∧
    committing.dcu.unit = .posting := by decide +kernel

/-- RESTART takes up a cut commit too: no delivery is in progress. -/
theorem witness_CommitSurvivesAnyCut : committing.takes [] ∧ env.upTo = none ∧
    (∀ p, (committing.point p).st ≠ .delivering ∧ (committing.point p).st ≠ .paused ∧
      (committing.point p).st ≠ .stopping) := by
  unfold State.takes; decide +kernel

/-- A delivery stood when main power failed: for WarmStartSettlesAndLapses and InterruptedStartIsTakenUp. -/
theorem witness_WarmStart_state : (dark (delivering 7)).dcu.journal = none ∧
    (dark (delivering 7)).rcu.checkGood = true ∧ (dark (delivering 7)).pins.vdd = false ∧
    (dark (delivering 7)).pins.resetn = true ∧ (held (delivering 7)).pins.vdd = true ∧
    (held (delivering 7)).pins.resetn = false ∧ (held (delivering 7)).firstStep = held (delivering 7) ∧
    (held (delivering 7)).dcu.journal = none ∧ (held (delivering 7)).rcu.checkGood = true ∧
    (site authorized).takes [] ∧ (site authorized).dcu.journal = none ∧
    (site authorized).rcu.checkGood = true ∧
    (∀ p, ((site authorized).point p).st.counting = false) ∧ (site (delivering 7)).takes [] := by
  unfold State.takes; decide +kernel

theorem postingLaw_quiet (s : State) (hp : PointsLaw s) (hg : s.rcu.checkGood = true)
    (hj : s.dcu.journal = none) (hq : s.dcu.postings = []) (hs : ∀ p, (s.point p).st ≠ .settling) :
    PostingLaw s where
  points := hp
  trusted _ := hg
  journal _ := hj
  once := by rw [hq]; exact List.nodup_nil
  settling _ p _ := by simp [hq, hs p]
  copies q h := by rw [hq] at h; cases h
  pointOfJournal _ c h := by rw [hj] at h; cases h

theorem witness_WarmStart_laws : PostingLaw (dark (delivering 7)) ∧ PostingLaw (held (delivering 7)) ∧
    PostingLaw (site authorized) := by
  refine ⟨postingLaw_quiet _ ⟨?_, ?_, ?_, ?_⟩ ?_ ?_ ?_ ?_, postingLaw_quiet _ ⟨?_, ?_, ?_, ?_⟩ ?_ ?_ ?_ ?_,
    postingLaw_quiet _ (pointsLaw_of _ ?_ ?_ ?_ ?_ (fun p => timersRun_of _ ?_ ?_ ?_)) ?_ ?_ ?_ ?_⟩
  any_goals (unfold RunsPowered)
  any_goals (first | decide +kernel | (revert p; decide +kernel) | (intro h; cases h; done) | skip)
  all_goals
    intro p
    refine ⟨?_, ?_, ?_, ?_, ?_, ?_, ?_, ?_, ?_, ?_⟩
  all_goals (revert p; decide +kernel)

/-- For InterruptedStartIsTakenUp: the four starts. -/
theorem witness_starts : (dark (delivering 7)).pins.vdd = false ∧ (dark (delivering 7)).pins.resetn = true ∧
    (held (delivering 7)).firstStep = held (delivering 7) ∧ (site settling).takes [] ∧
    (∀ p, ((site settling).point p).st ≠ .delivering ∧ ((site settling).point p).st ≠ .paused ∧
      ((site settling).point p).st ≠ .stopping) ∧
    State.reset.takes [] ∧ (∀ p, (State.reset.point p).st = .undefined) := by
  unfold State.takes; decide +kernel

end Sys2Proof.Tests
end

/-! # Proofs: presets and valve control (Chapter 4) -/

namespace Sys2Proof.Machine

/-! ## What opens a valve -/

/-- The three conditions under which a point's valve may stand open (R71). -/
theorem State.valveOpen_iff (s : State) (p : PointNo) :
    s.valveOpen p = true ↔
      s.operating = true ∧ s.rcu.mainPowerHigh = true ∧ (s.point p).st = .delivering := by
  simp [State.valveOpen, and_assoc]

/-- A point whose valve may not open has both stages off. -/
theorem State.valves_off_of_not_open {s : State} {p : PointNo} (h : ¬ s.valveOpen p = true) :
    s.mv p = false ∧ s.sv p = false := by
  simp [State.mv, State.sv, h]

/-- A point whose valve may open has the slow stage on, and the main stage on until slow-down is
reached. -/
theorem State.valves_of_open {s : State} {p : PointNo} (h : s.valveOpen p = true) :
    s.mv p = !(s.point p).slowDown ∧ s.sv p = true := by
  simp [State.mv, State.sv, h]

/-! ## The table of R71 -/

/-- Settles O14: each row of the table either denies one of the three conditions of an open valve, or
meets them all and leaves the main stage to the slow-down status. -/
theorem valveLevelsFollowTheTable : Obligations.ValveLevelsFollowTheTable := by
  unfold Obligations.ValveLevelsFollowTheTable
  refine ⟨fun s p hout => ?_, fun s p hop => ⟨fun hst => ?_, fun _ hlow => ?_,
    fun hst hhigh hslow => ?_, fun hst hhigh hfast => ?_⟩⟩
  · refine State.valves_off_of_not_open fun hopen => ?_
    obtain ⟨hop, -, -⟩ := (s.valveOpen_iff p).mp hopen
    obtain ⟨hvdd, hreset⟩ := State.powered_of_operating hop
    simp [hvdd, hreset, State.running_of_operating hop] at hout
  · refine State.valves_off_of_not_open fun hopen => ?_
    obtain ⟨-, -, hdelivering⟩ := (s.valveOpen_iff p).mp hopen
    exact hst hdelivering
  · refine State.valves_off_of_not_open fun hopen => ?_
    obtain ⟨-, hhigh, -⟩ := (s.valveOpen_iff p).mp hopen
    simp [hlow] at hhigh
  · simpa [hslow] using State.valves_of_open ((s.valveOpen_iff p).mpr ⟨hop, hhigh, hst⟩)
  · simpa [hfast] using State.valves_of_open ((s.valveOpen_iff p).mpr ⟨hop, hhigh, hst⟩)

end Sys2Proof.Machine

/-! # Proofs: settlement and the sale queue (Chapter 8) -/

namespace Sys2Proof.Machine

/-! ## The queue's look-up and removal (R140) -/

theorem SaleQueue.holds_iff (q : SaleQueue) (n : Nat) :
    q.holds n = true ↔ ∃ r, r ∈ q.records ∧ r.number = n := by
  simp [SaleQueue.holds]

/-- Removal takes out the record with the number from between the others, whose order stays. -/
theorem SaleQueue.remove_of_records {q : SaleQueue} {n : Nat} {before behind : List SaleRecord}
    {r : SaleRecord} (hrecords : q.records = before ++ r :: behind) (hr : r.number = n)
    (hothers : ∀ e, e ∈ before ∨ e ∈ behind → e.number ≠ n) :
    q.remove n = ⟨before ++ behind, q.nextSale⟩ := by
  have hbefore : before.filter (fun e => decide (e.number ≠ n)) = before :=
    List.filter_eq_self.mpr fun e he => decide_eq_true (hothers e (.inl he))
  have hbehind : behind.filter (fun e => decide (e.number ≠ n)) = behind :=
    List.filter_eq_self.mpr fun e he => decide_eq_true (hothers e (.inr he))
  rw [SaleQueue.remove, hrecords, List.filter_append, List.filter_cons_of_neg (by simp [hr]),
    hbefore, hbehind]

/-! ## The owner of CLEAR SALE, by whether the number is held -/

/-- A number that is held: the reply gives the number and the count of the records that stay. -/
theorem clearSaleRequest_awaiting_of_holds {s : State} {n : Nat} (b : List Byte)
    (h : s.sales.holds n = true) :
    clearSaleRequest n (s.awaiting Kind.clearSale b) =
      (s.modSales (fun q => q.remove n)).answeredTo b.length .ok Kind.clearSale
        (bytes16 n ++ [byteOf (s.sales.remove n).records.length]) := by
  simp [clearSaleRequest, h]

/-- A number that no record holds is refused, with the queue as it was. -/
theorem clearSaleRequest_awaiting_of_not_holds {s : State} {n : Nat} (b : List Byte)
    (h : ¬ s.sales.holds n = true) :
    clearSaleRequest n (s.awaiting Kind.clearSale b) =
      s.answeredTo b.length .noSuchSale Kind.clearSale [] := by
  simp [clearSaleRequest, h]

/-! ## CLEAR SALE as a command -/

theorem exec_clearSale (payload : List Byte) (s : State) :
    exec (.clearSale payload) s =
      request Kind.clearSale payload parseClearSale clearSaleRequest s := rfl

/-- Sale numbers begin at 1, so the number 0 fails the field. -/
theorem parseClearSale_zero : parseClearSale [0, 0] = none := by decide

/-- Settles O39: a record's number is held and the record leaves from its place, a number that no
record has is not held, and 0 is turned away by the field. -/
theorem clearSaleRemovesTheRecord : Obligations.ClearSaleRemovesTheRecord := by
  unfold Obligations.ClearSaleRemovesTheRecord
  intro s payload htakes
  refine ⟨fun n before r behind hparse hrecords hr hothers => ?_, fun n hparse hnone => ?_, ?_⟩
  · have hholds : s.sales.holds n = true := (s.sales.holds_iff n).mpr ⟨r, by simp [hrecords], hr⟩
    have hremove := SaleQueue.remove_of_records hrecords hr hothers
    rw [exec_clearSale, request_owner htakes hparse, clearSaleRequest_awaiting_of_holds payload hholds,
      State.modSales, hremove, List.length_append, bytes16]
  · have hfree : ¬ s.sales.holds n = true := fun hholds => by
      obtain ⟨e, he, hnumber⟩ := (s.sales.holds_iff n).mp hholds
      exact hnone e he hnumber
    rw [exec_clearSale, request_owner htakes hparse, clearSaleRequest_awaiting_of_not_holds payload hfree]
  · rintro rfl
    rw [exec_clearSale, request_badField htakes parseClearSale_zero]

end Sys2Proof.Machine

/-! # Proofs: the host link (Chapter 9) -/

namespace Sys2Proof.Machine

/-! ## A read from the own address, by the state of the reply slot -/

theorem exec_readTransaction (read : BusRead) (s : State) :
    exec (.readTransaction read) s = execReadTransaction read s := rfl

/-- An EMPTY slot puts the NO-REPLY marker on the bus, and nothing else of the state moves (R154). -/
theorem execReadTransaction_of_empty {s : State} (n : Nat) (hop : s.operating = true)
    (hempty : s.link.replySlot = .empty) :
    execReadTransaction ⟨s.link.busAddress, n⟩ s =
      .next (s.setBus (.sent (clocked Config.noReplyMarker n))) := by
  simp [execReadTransaction, hop, hempty]

/-! ## The first byte of a reply, against a marker's (R154, R181) -/

/-- Table 11-6 has thirteen statuses, coded from 0. -/
theorem Status.code_le (status : Status) : status.code ≤ 12 := by
  cases status <;> decide

/-- A reply begins with its status code, which bit 7 marks PRIOR-REPLY-LOST. -/
theorem Reply.frame_head? (r : Reply) :
    r.frame.head? = some (byteOf (r.status.code + if r.lost then 128 else 0)) := rfl

/-- The first byte of a marker is the code of no status, with the PRIOR-REPLY-LOST mark or without: it
lies above the codes that stand alone and below the marked ones. -/
theorem statusByte_ne_marker (status : Status) (lost : Bool) :
    byteOf (status.code + if lost then 128 else 0) ≠ 0x7F := by
  have hcode := status.code_le
  intro h
  have hvalue : (status.code + if lost then 128 else 0) % 256 = 127 := congrArg BitVec.toNat h
  cases lost with
  | false => simp at hvalue; omega
  | true => simp at hvalue; omega

/-- Settles O9: the link's read of an EMPTY slot moves the bus alone, and a reply's first byte is its
status byte, which is never a marker's. -/
theorem readOfEmptySlotSendsNoReply : Obligations.ReadOfEmptySlotSendsNoReply := by
  unfold Obligations.ReadOfEmptySlotSendsNoReply
  refine ⟨fun s n hop hempty => ?_, fun r hmarker => ?_⟩
  · rw [exec_readTransaction, execReadTransaction_of_empty n hop hempty]
    rfl
  · rw [r.frame_head?] at hmarker
    exact statusByte_ne_marker r.status r.lost (Option.some.inj hmarker)

end Sys2Proof.Machine

/-! # Proofs: the tally store (Chapter 5) -/

namespace Sys2Proof.Machine

/-! ## A law is kept by every step when every move keeps it -/

/-- A step runs a command on the queue's rest, or idles: a law that reads nothing of the queue and that
every command keeps is kept by every step. -/
theorem step_keeps {P : State → Prop} {s t : State} (h : P s) (e : step s = .next t)
    (hqueue : ∀ rest, P s → P { s with pending := rest })
    (hexec : ∀ c u, P u → exec c u = .next t → P t) : P t := by
  unfold step at e
  split at e
  · cases e
    exact h
  · exact hexec _ _ (hqueue _ h) e

/-! ## One register -/

/-- A register that takes a value of its digits keeps the format of its class (R75 to R78). -/
theorem RegisterLaw.withValue {vs ms : Nat} {r : RegNo} {x : TallyReg} {v : Int}
    (h : RegisterLaw vs ms r x) (hfits : v.natAbs < 10 ^ x.digits) (htotal : r.val < 8 → 0 ≤ v) :
    RegisterLaw vs ms r (x.withValue v) :=
  ⟨h.digits, h.scale, h.rounding, hfits, h.accounting, htotal⟩

/-- An accounting register at zero is lawful at the scale of its place (R77). -/
theorem registerLaw_account {vs ms : Nat} (r : RegNo) (hvs : vs ≤ 3) (hms : ms ≤ 3) :
    RegisterLaw vs ms r (TallyReg.account (if r.val % 2 = 0 then vs else ms)) := by
  have hscale : (if r.val % 2 = 0 then vs else ms) ≤ 3 := by split <;> assumption
  exact ⟨(by decide : 1 ≤ 16 ∧ 16 ≤ 20), ⟨hscale.trans (by decide), hscale.trans (by decide : 3 ≤ 16)⟩,
    (by decide : 5 ≤ 9), (by decide : (0 : Int).natAbs < 10 ^ 16), fun _ => ⟨rfl, rfl, rfl⟩,
    fun _ => le_rfl⟩

/-- A register above the accounting registers has no format but the ranges. -/
theorem registerLaw_of_general {vs ms : Nat} {r : RegNo} {x : TallyReg} (hr : 20 ≤ r.val)
    (hdigits : 1 ≤ x.digits ∧ x.digits ≤ 20) (hscale : x.scale ≤ 6 ∧ x.scale ≤ x.digits)
    (hrounding : x.rounding ≤ 9) (hfits : x.value.natAbs < 10 ^ x.digits) : RegisterLaw vs ms r x :=
  ⟨hdigits, hscale, hrounding, hfits, fun h => absurd h (by omega), fun h => absurd h (by omega)⟩

/-- The registers of a cold start by their class (R77, R78, R91). -/
theorem Tally.cold_reg (r : RegNo) :
    Tally.cold.regs[r] = if r.val < 20 then TallyReg.account 2 else TallyReg.general := by
  revert r
  decide

/-- What the storing step leaves fits the digits of its register (R82). -/
theorem fitStore_fits (d : TallyReg) (neg : Bool) (scaled : Nat × Bool) :
    (fitStore d neg scaled).1.natAbs < 10 ^ d.digits := by
  have hlt : scaled.1 % 10 ^ d.digits < 10 ^ d.digits := Nat.mod_lt _ (by positivity)
  simp only [fitStore, fitDigits, withSign]
  cases neg <;> simpa only [if_true, Bool.false_eq_true, if_false, Int.natAbs_neg, Int.natAbs_natCast] using hlt

/-- A posting's sum keeps 16 digits (R90). -/
theorem postingSum_fits (v : Int) (amount : Nat) : (postingSum v amount).1.natAbs < 10 ^ 16 := by
  have hlt : (v + amount).natAbs % 10 ^ 16 < 10 ^ 16 := Nat.mod_lt _ (by positivity)
  unfold postingSum withSign fitDigits Config.accountDigits
  dsimp only
  split <;> omega

/-- What is added to a total that is not negative leaves it so (R77, R89). -/
theorem postingSum_nonneg {v : Int} (amount : Nat) (h : 0 ≤ v) : 0 ≤ (postingSum v amount).1 := by
  have hsum : ¬ v + amount < 0 := by omega
  simp only [postingSum, withSign, hsum, decide_false]
  exact Int.natCast_nonneg _

/-! ## The law under the updates of the state -/

/-- The law reads the tally store, the request of the host job and the journal. -/
theorem TallyLaw.congr {s t : State} (h : TallyLaw s) (htally : t.tally = s.tally)
    (hjob : ∀ j, t.dcu.job = some j → ∃ i, s.dcu.job = some i ∧ i.req = j.req)
    (hjournal : ∀ c, t.dcu.journal = some c → s.dcu.journal = some c) : TallyLaw t := by
  refine ⟨by rw [htally]; exact h.scales, fun r => ?_, fun j hj => ?_, fun c hc => ?_⟩
  · unfold State.reg
    rw [htally]
    exact h.registers r
  · obtain ⟨i, hi, hreq⟩ := hjob j hj
    rw [← hreq]
    exact h.job i hi
  · exact h.journal c (hjournal c hc)

theorem TallyLaw.of_eq {s t : State} (h : TallyLaw s) (htally : t.tally = s.tally)
    (hdcu : t.dcu = s.dcu) : TallyLaw t :=
  h.congr htally (fun j hj => ⟨j, by rw [← hdcu, hj], rfl⟩) (fun c hc => by rw [← hdcu, hc])

theorem TallyLaw.setReg {s : State} (h : TallyLaw s) {r : RegNo} {x : TallyReg}
    (hx : RegisterLaw s.tally.vs s.tally.ms r x) : TallyLaw (s.setReg r x) := by
  refine ⟨h.scales, fun q => ?_, h.job, h.journal⟩
  rw [State.reg_setReg_ite]
  split
  · next hq =>
    subst hq
    exact hx
  · exact h.registers q

theorem TallyLaw.choose {s : State} (h : TallyLaw s) : TallyLaw s.choose := by
  refine h.congr s.choose_tally (fun j hj => ?_) (fun c hc => by rwa [State.choose_journal] at hc)
  obtain ⟨i, hi, hreq, -⟩ := s.choose_req j hj
  exact ⟨i, hi, hreq⟩

/-! ## Commits -/

/-- A register write that a commit may make: an accounting register takes 16 digits, a total none below
zero (R77, R90). -/
def RegWrite.lawful (w : RegWrite) : Prop :=
  w.reg.val < 20 ∧ w.value.natAbs < 10 ^ 16 ∧ (w.reg.val < 8 → 0 ≤ w.value)

theorem TallyLaw.writeReg {s : State} (h : TallyLaw s) {w : RegWrite} (hw : w.lawful) :
    TallyLaw (s.writeReg w.reg w.value) := by
  obtain ⟨haccount, hfits, htotal⟩ := hw
  have hreg := h.registers w.reg
  refine h.setReg (hreg.withValue ?_ htotal)
  rw [(hreg.accounting haccount).1]
  exact hfits

/-- The writes of a posting's commit are lawful (R89, R90, R122). -/
theorem State.commitRecord_lawful {s : State} (h : TallyLaw s) (q : Posting) (f : FrozenSale) :
    ∀ w, w ∈ (s.commitRecord q f).writes → w.lawful := by
  have hvolume := q.point.isLt
  have hproduct := q.product.isLt
  have htotal : ∀ r : RegNo, r.val < 8 → ∀ n, 0 ≤ (postingSum (s.reg r).value n).1 :=
    fun r hr n => postingSum_nonneg n ((h.registers r).total hr)
  intro w hw
  simp only [State.commitRecord, State.postingSums, List.map_cons, List.map_nil, List.mem_cons,
    List.not_mem_nil, or_false] at hw
  rcases hw with rfl | rfl | rfl | rfl
  · exact ⟨by simp [volumeTotal]; omega, postingSum_fits _ _, fun hr => htotal _ hr _⟩
  · exact ⟨by simp [moneyTotal]; omega, postingSum_fits _ _, fun hr => htotal _ hr _⟩
  · exact ⟨by simp [volumeShift]; omega, postingSum_fits _ _, fun hr => htotal _ hr _⟩
  · exact ⟨by simp [moneyShift]; omega, postingSum_fits _ _, fun hr => htotal _ hr _⟩

theorem TallyLaw.beginCommit {s : State} (h : TallyLaw s) {r : CommitRecord}
    (hr : ∀ w, w ∈ r.writes → w.lawful) : TallyLaw (s.beginCommit r) :=
  ⟨h.scales, h.registers, h.job, fun c hc => by cases hc; exact hr⟩

/-- Each of a commit's writes keeps the law, so any of them together do (R123). -/
theorem TallyLaw.commitSteps {s : State} (h : TallyLaw s) {r : CommitRecord}
    (hr : ∀ w, w ∈ r.writes → w.lawful) {fs : List (State → State)}
    (hfs : ∀ f, f ∈ fs → f ∈ commitSteps r) : TallyLaw (runSteps fs s) := by
  refine runSteps_keeps h fun f hf t ht => ?_
  have hstep := hfs f hf
  unfold Machine.commitSteps at hstep
  simp only [List.mem_append, List.mem_map, List.mem_cons, List.not_mem_nil, or_false] at hstep
  rcases hstep with ⟨w, hw, rfl⟩ | rfl | rfl | rfl | rfl
  · exact ht.writeReg (hr w hw)
  · exact ht.of_eq rfl rfl
  · exact ht.of_eq rfl rfl
  · exact ht.of_eq rfl rfl
  · exact ht.congr rfl (fun j hj => ⟨j, hj, rfl⟩) (fun c hc => hc)

theorem TallyLaw.completeCommit {s : State} (h : TallyLaw s) {r : CommitRecord}
    (hr : ∀ w, w ∈ r.writes → w.lawful) : TallyLaw (s.completeCommit r) :=
  (h.commitSteps hr (fun _ hf => hf)).congr rfl (fun j hj => ⟨j, hj, rfl⟩) (fun _ hc => by cases hc)

theorem TallyLaw.cutCommit {s : State} (h : TallyLaw s) (cut : CommitCut) :
    TallyLaw (s.cutCommit cut) := by
  unfold State.cutCommit
  split
  · next j q f _ =>
    have hr := s.commitRecord_lawful h q f
    exact (h.beginCommit hr).commitSteps hr (fun _ hf => List.mem_of_mem_take hf)
  · exact h

theorem TallyLaw.warmJournal {s : State} (h : TallyLaw s) : TallyLaw s.warmJournal := by
  unfold State.warmJournal
  split
  · next r hr => exact h.completeCommit (h.journal r hr)
  · exact h

theorem TallyLaw.firstStep {s : State} (h : TallyLaw s) : TallyLaw s.firstStep :=
  h.congr rfl (fun j hj => by cases hj) (fun _ hc => hc)

/-! ## Host jobs -/

/-- What the unit's checks let pass of a parsed request lies in its ranges (R80, R86). -/
theorem JobReq.inRange_of_accepted {req : JobReq} {s : State} (hp : req.parsed)
    (hr : jobRefusal req s = none) : req.inRange := by
  have hdest : ∀ d, (if isTotal d = true then some Status.protectedReg else none) = none → 8 ≤ d.val := by
    intro d hd
    by_contra hlt
    simp [isTotal, show d.val < 8 by omega] at hd
  cases req with
  | declare r digits scale rounding =>
    obtain ⟨hlow, hhigh, hsix, hnine⟩ := hp
    simp only [jobRefusal] at hr
    split at hr
    · cases hr
    · next hclass =>
      split at hr
      · cases hr
      · next hscale =>
        simp only [isTotal, isShift, Bool.or_eq_true, Bool.and_eq_true, decide_eq_true_eq, not_or] at hclass
        exact ⟨by omega, hlow, hhigh, hsix, by omega, hnine⟩
  | setSite scales gc =>
    cases scales with
    | none => intro d hd; cases hd
    | some v => exact hp
  | load | move | add | subtract | multiply | divide | rescale | sumList =>
    intro d hd
    cases hd
    exact hdest _ hr
  | compare | readRegister | hold | releaseHold => intro d hd; cases hd

theorem TallyLaw.acceptJob {s : State} (h : TallyLaw s) {req : JobReq} (hr : req.inRange) :
    TallyLaw (s.acceptJob req) :=
  TallyLaw.choose ⟨h.scales, h.registers, fun j hj => by cases hj; exact hr, h.journal⟩

theorem TallyLaw.finishStore {s : State} (h : TallyLaw s) (kind : Byte) (j : HostJob) {d : RegNo}
    (hd : 8 ≤ d.val) {res : Int × ResultFlags} (hfits : res.1.natAbs < 10 ^ (s.reg d).digits) :
    TallyLaw (s.finishStore kind j d res) :=
  (h.setReg ((h.registers d).withValue hfits (fun hlt => by omega))).of_eq rfl rfl

theorem TallyLaw.storeExact {s : State} (h : TallyLaw s) (kind : Byte) (j : HostJob) {d : RegNo}
    (hd : 8 ≤ d.val) (x : Exact) (rounding : Option Nat) :
    TallyLaw (s.storeExact kind j d x rounding) :=
  h.finishStore kind j hd (fitStore_fits _ _ _)

@[simp] theorem regsOf_get (f : RegNo → TallyReg) (r : RegNo) : (regsOf f)[r] = f r :=
  List.getElem_ofFn (f := f) (i := r.val) (by simp)

theorem TallyLaw.applySite {s : State} (h : TallyLaw s) {scales : Option (Nat × Nat)}
    {gc : Option Bool} (hr : (JobReq.setSite scales gc).inRange) : TallyLaw (s.applySite scales gc) := by
  cases scales with
  | none => exact h.of_eq rfl rfl
  | some v =>
    obtain ⟨vs, ms⟩ := v
    obtain ⟨hvs, hms⟩ := hr
    refine ⟨⟨hvs, hms⟩, fun r => ?_, h.job, h.journal⟩
    show RegisterLaw vs ms r (s.tally.rescaleSite vs ms).regs[r]
    simp only [Tally.rescaleSite, regsOf_get]
    split
    · exact registerLaw_account r hvs hms
    · next hr =>
      have hold := h.registers r
      exact registerLaw_of_general (by omega) hold.digits hold.scale hold.rounding hold.fits

/-- The effect of a job whose request lies in its ranges keeps the law (R83 to R108). -/
theorem TallyLaw.applyJob {s : State} (h : TallyLaw s) {j : HostJob} (hj : j.req.inRange) :
    TallyLaw (s.applyJob j) := by
  unfold State.applyJob
  cases hreq : j.req with
  | setSite scales gc =>
    rw [hreq] at hj
    exact (h.applySite hj).of_eq rfl rfl
  | declare r digits scale rounding =>
    rw [hreq] at hj
    obtain ⟨hreg, hlow, hhigh, hsix, hscale, hnine⟩ := hj
    refine (h.setReg (r := r) ?_).of_eq rfl rfl
    exact registerLaw_of_general hreg ⟨hlow, hhigh⟩ ⟨hsix, hscale⟩ hnine (by simp)
  | load | move | add | subtract | multiply | rescale | sumList =>
    rw [hreq] at hj
    exact h.storeExact _ _ (hj _ rfl) _ _
  | divide d s1 s2 rounding =>
    rw [hreq] at hj
    dsimp only
    split
    · exact h.of_eq rfl rfl
    · exact h.finishStore _ _ (hj _ rfl) (fitStore_fits _ _ _)
  | compare | readRegister => exact h.of_eq rfl rfl
  | hold | releaseHold => exact h.congr rfl (fun i hi => ⟨i, hi, rfl⟩) (fun _ hc => hc)

theorem TallyLaw.completeJob {s : State} (h : TallyLaw s) {j : HostJob} (hj : j.req.inRange) :
    TallyLaw (s.completeJob j) := by
  refine TallyLaw.choose ?_
  rw [State.endStretch_rest]
  exact (h.applyJob hj).congr rfl (fun i hi => by cases hi) (fun _ hc => hc)

/-! ## Every step -/

/-- A settled point changes the unit alone, by a posting and a choice (R20). -/
theorem TallyLaw.settlePoint {s : State} (h : TallyLaw s) (p : PointNo) (f : Point → Point) :
    TallyLaw (s.settlePoint p f) := by
  refine TallyLaw.choose ?_
  rw [State.submit_rest]
  exact h.congr (by simp) (fun j hj => ⟨j, by simpa using hj, rfl⟩) (fun c hc => by simpa using hc)

theorem TallyLaw.coldWrite {s : State} (h : TallyLaw s) {mark : Bool} {f : State → State}
    (hf : ColdWrite mark f) : TallyLaw (f s) := by
  cases hf with
  | tally =>
    refine ⟨(by decide : 2 ≤ 3 ∧ 2 ≤ 3), fun r => ?_, h.job, h.journal⟩
    show RegisterLaw 2 2 r Tally.cold.regs[r]
    rw [Tally.cold_reg]
    split
    · simpa using registerLaw_account (vs := 2) (ms := 2) r (by decide) (by decide)
    · exact registerLaw_of_general (by omega) (by decide) (by decide) (by decide) (by decide)
  | dcu => exact h.congr rfl (fun j hj => by cases hj) (fun c hc => by cases hc)
  | enable | point | products | sales | mark => exact h.of_eq rfl rfl

theorem TallyLaw.warmStep {s : State} (h : TallyLaw s) {f : State → State} (hf : f ∈ warmPath) :
    TallyLaw (f s) := by
  rcases mem_warmPath hf with rfl | ⟨p, rfl⟩ | ⟨k, rfl⟩
  · exact h.warmJournal
  · rw [State.warmPoint_rest]
    exact h.congr rfl (fun j hj => ⟨j, hj, rfl⟩) (fun _ hc => hc)
  · rw [State.warmPrice_rest]
    exact h.of_eq rfl rfl

/-- Every move keeps the law of the tally store. -/
theorem tallyLaw_kept : KeptBySteps False False TallyLaw where
  link _ _ h := h.of_eq rfl rfl
  pins _ _ _ _ h := h.of_eq rfl rfl
  power _ _ h := h.of_eq rfl rfl
  move s p f h _ _ := h.of_eq (by simp) (by simp)
  mod _ _ _ h _ _ _ := h.of_eq rfl rfl
  flags _ h := h.of_eq rfl rfl
  settle _ p f h _ _ _ := h.settlePoint p f
  product _ _ _ h _ _ _ := h.of_eq rfl rfl
  price _ _ _ _ h _ _ := h.of_eq rfl rfl
  stage _ _ _ _ h _ _ := h.of_eq rfl rfl
  remove _ _ h _ := h.of_eq rfl rfl
  accept _ _ h _ _ hr hp := h.acceptJob (JobReq.inRange_of_accepted hp hr)
  complete _ j h _ hj := h.completeJob (h.job j (State.activeJob_some hj).2.1)
  suspend _ j h _ hj _ := TallyLaw.choose
    (h.congr rfl (fun i hi => ⟨j, (State.activeJob_some hj).2.1, by cases hi; rfl⟩) (fun _ hc => hc))
  commit s q f h _ _ := by
    have hr := s.commitRecord_lawful h q f
    exact TallyLaw.choose (((h.beginCommit hr).completeCommit hr).congr rfl
      (fun i hi => ⟨i, hi, rfl⟩) (fun _ hc => hc))
  hold _ h _ := TallyLaw.choose (h.congr rfl (fun i hi => ⟨i, hi, rfl⟩) (fun _ hc => hc))
  first _ h := h.firstStep
  cut _ c h _ := (h.cutCommit c).firstStep
  dark _ _ _ h := h.of_eq rfl rfl
  check _ _ _ h := h.of_eq rfl rfl
  path _ _ _ _ h hf := h.warmStep hf
  cold _ _ _ _ _ h hf := h.coldWrite hf
  good _ _ _ h := h.of_eq rfl rfl
  final _ _ _ h _ _ _ := TallyLaw.choose (h.of_eq rfl rfl)

/-- Settles O55: every move of a command keeps the law, the writes of a commit because they are lawful
when its record is formed, and a job's result because the storing step fits it to its register. -/
theorem stepKeepsTallyLaw : Obligations.StepKeepsTallyLaw := by
  unfold Obligations.StepKeepsTallyLaw
  intro s t h e
  exact step_keeps h e (fun _ h => h.of_eq rfl rfl)
    (fun c u hu he => exec_kept tallyLaw_kept c u t hu (fun f => f.elim) (fun f => f.elim) he)

end Sys2Proof.Machine

/-! # Proofs: the life cycle of a point and its staged prices (Chapters 1 and 3) -/

namespace Sys2Proof.Machine

/-! ## A point of a part that is RUNNING -/

/-- The law of a point whose timers run. -/
structure Point.Runs (p : PointNo) (x : Point) : Prop where
  law : PointLaw p x
  timers : TimersRun x

/-- The law of a point reads neither its live values nor its flags. -/
theorem PointLaw.congr {p : PointNo} {x y : Point} (h : PointLaw p x) (hst : y.st = x.st)
    (hdefn : y.defn.isSome = x.defn.isSome) (hauth : y.auth = x.auth) (hfrozen : y.frozen = x.frozen)
    (hreason : y.endReason = x.endReason) (htimers : y.timers = x.timers)
    (hcounts : y.meter.reverse ≤ 65535 ∧ y.meter.phaseErrors ≤ 255 ∧ y.meter.creep ≤ 65535) :
    PointLaw p y := by
  refine ⟨?_, ?_, ?_, ?_, ?_, ?_, ?_, ?_, ?_, hcounts⟩
  · rw [hdefn, hst]; exact h.defined
  · rw [hauth, hst]; exact h.auth
  · rw [hfrozen, hst]; exact h.frozen
  · rw [hfrozen]; exact h.frozenPoint
  · rw [hreason, hst]; exact h.reason
  · rw [htimers, hst]; exact h.authTimer
  · rw [htimers, hst]; exact h.noFlowTimer
  · rw [htimers, hst]; exact h.settleTimer
  · rw [htimers, hst]; exact h.stopLimitTimer

theorem TimersRun.congr {x y : Point} (h : TimersRun x) (hst : y.st = x.st) (hdefn : y.defn = x.defn)
    (htimers : y.timers = x.timers) : TimersRun y := by
  refine ⟨?_, ?_, ?_, ?_⟩ <;> rw [hst, htimers]
  · rw [hdefn]; exact h.authorization
  · rw [hdefn]; exact h.noFlow
  · exact h.settle
  · exact h.stopLimit

theorem Point.Runs.congr {p : PointNo} {x y : Point} (h : x.Runs p) (hst : y.st = x.st)
    (hdefn : y.defn = x.defn) (hauth : y.auth = x.auth) (hfrozen : y.frozen = x.frozen)
    (hreason : y.endReason = x.endReason) (htimers : y.timers = x.timers)
    (hcounts : y.meter.reverse ≤ 65535 ∧ y.meter.phaseErrors ≤ 255 ∧ y.meter.creep ≤ 65535) : y.Runs p :=
  ⟨h.law.congr hst (by rw [hdefn]) hauth hfrozen hreason htimers hcounts, h.timers.congr hst hdefn htimers⟩

/-- A point in IDLE, CALLING or FAULTED: defined, and holding no record of a delivery or timer. -/
theorem Point.runs_of_resting {p : PointNo} {x : Point}
    (hst : x.st = .idle ∨ x.st = .calling ∨ x.st = .faulted) (hdefn : x.defn.isSome = true)
    (hauth : x.auth = none) (hfrozen : x.frozen = none) (htimers : x.timers = Timers.stopped)
    (hcounts : x.meter.reverse ≤ 65535 ∧ x.meter.phaseErrors ≤ 255 ∧ x.meter.creep ≤ 65535) : x.Runs p := by
  rcases hst with hst | hst | hst <;>
  exact ⟨⟨by simp [hdefn, hst], by simp [hauth, hst, PtState.holdsAuth], by simp [hfrozen, hst],
      by simp [hfrozen], by simp [hst], by simp [htimers, Timers.stopped], by simp [htimers, Timers.stopped],
      by simp [htimers, Timers.stopped], by simp [htimers, Timers.stopped], hcounts⟩,
    ⟨by simp [hst], by simp [hst], by simp [hst], by simp [hst]⟩⟩

/-- What the law says of a point outside AUTHORIZED, DELIVERING and STOPPING: no timer runs. -/
theorem PointLaw.timers_stopped {p : PointNo} {x : Point} (h : PointLaw p x) (ha : x.st ≠ .authorized)
    (hd : x.st ≠ .delivering) (hs : x.st ≠ .stopping) : x.timers = Timers.stopped := by
  have h1 := mt h.authTimer ha
  have h2 := mt h.noFlowTimer hd
  have h3 := mt h.settleTimer hs
  have h4 := mt h.stopLimitTimer hs
  cases hx : x.timers
  simp_all [Timers.stopped]

theorem PointLaw.defn_isSome {p : PointNo} {x : Point} (h : PointLaw p x) (hst : x.st ≠ .undefined) :
    x.defn.isSome = true := h.defined.mpr hst

theorem PointLaw.auth_none {p : PointNo} {x : Point} (h : PointLaw p x) (hst : x.st.holdsAuth = false) :
    x.auth = none := by
  have := mt h.auth.mp (by simp [hst])
  simpa using this

theorem PointLaw.frozen_none {p : PointNo} {x : Point} (h : PointLaw p x) (hst : x.st ≠ .settling) :
    x.frozen = none := by
  have := mt h.frozen.mp hst
  simpa using this

/-! ## The changes of state -/

/-- The entry of STOPPING from DELIVERING or PAUSED (R18). -/
theorem Point.Runs.enterStopping {p : PointNo} {x : Point} (h : x.Runs p)
    (hst : x.st = .delivering ∨ x.st = .paused) (reason : EndReason) : (x.enterStopping reason).Runs p := by
  have hdefn : x.defn.isSome = true := h.law.defn_isSome (by rcases hst with e | e <;> simp [e])
  have hauth : x.auth.isSome = true := h.law.auth.mpr (by rcases hst with e | e <;> simp [e, PtState.holdsAuth])
  have hfrozen : x.frozen = none := h.law.frozen_none (by rcases hst with e | e <;> simp [e])
  have htimer : x.timers.authorization = none := by
    have := mt h.law.authTimer (by rcases hst with e | e <;> simp [e])
    simpa using this
  constructor
  · constructor <;>
      simp [Point.enterStopping, hdefn, hauth, hfrozen, htimer, PtState.holdsAuth, h.law.counts]
  · constructor <;> simp [Point.enterStopping, Point.settleStart, hdefn]

/-- The drop of an authorization to IDLE or FAULTED (R8). -/
theorem Point.Runs.dropTo {p : PointNo} {x : Point} (h : x.Runs p) (hst : x.st = .authorized)
    {st : PtState} (hto : st = .idle ∨ st = .faulted) : (x.dropTo st).Runs p := by
  refine Point.runs_of_resting (by rcases hto with e | e <;> simp [Point.dropTo, e])
    (h.law.defn_isSome (by simp [hst])) rfl (h.law.frozen_none (by simp [hst])) ?_ h.law.counts
  have h2 := mt h.law.noFlowTimer (by simp [hst])
  have h3 := mt h.law.settleTimer (by simp [hst])
  have h4 := mt h.law.stopLimitTimer (by simp [hst])
  simp_all [Point.dropTo, Timers.stopped]

theorem Point.Runs.lapse {p : PointNo} {x : Point} (h : x.Runs p) (hst : x.st = .authorized) :
    x.lapse.Runs p :=
  (h.dropTo hst (.inl rfl)).congr rfl rfl rfl rfl rfl rfl h.law.counts

/-- A fault report, whatever the state (R21). -/
theorem Point.Runs.reportFault {p : PointNo} {x : Point} (h : x.Runs p) (k : FaultKind) :
    (x.reportFault k).Runs p := by
  have hy : ({ x with faults := x.faults.insert k, flags := { x.flags with fault := true } } : Point).Runs p :=
    h.congr rfl rfl rfl rfl rfl rfl h.law.counts
  have hrest : x.st.holdsAuth = false → x.st ≠ .undefined → x.st ≠ .settling → (x.reportFault k).st = .faulted →
      x.reportFault k = { x with
        st := .faulted, faults := x.faults.insert k, flags := { x.flags with fault := true } } →
      (x.reportFault k).Runs p := by
    intro ha hu hs hst he
    refine Point.runs_of_resting (.inr (.inr hst)) ?_ ?_ ?_ ?_ ?_ <;> rw [he]
    · exact h.law.defn_isSome hu
    · exact h.law.auth_none ha
    · exact h.law.frozen_none hs
    · exact h.law.timers_stopped (by intro e; simp [e, PtState.holdsAuth] at ha)
        (by intro e; simp [e, PtState.holdsAuth] at ha) (by intro e; simp [e, PtState.holdsAuth] at ha)
    · exact h.law.counts
  cases hst : x.st with
  | idle | calling =>
    apply hrest <;> simp [hst, Point.reportFault, PtState.holdsAuth]
  | authorized =>
    simp only [Point.reportFault, hst]
    exact (hy.dropTo hst (.inr rfl)).congr rfl rfl rfl rfl rfl rfl h.law.counts
  | delivering | paused =>
    simp only [Point.reportFault, hst]
    exact hy.enterStopping (by simp [hst]) .fault
  | undefined | stopping | settling | faulted =>
    simp only [Point.reportFault, hst]
    exact hst ▸ hy

theorem Point.checkSlowDown_eq (x : Point) : ∃ slow flags,
    x.checkSlowDown = { x with slowDown := slow, flags := flags } := by
  unfold Point.checkSlowDown
  split
  · split
    · exact ⟨_, _, rfl⟩
    · exact ⟨_, _, rfl⟩
  · exact ⟨_, _, rfl⟩

theorem Point.updateOverrun_eq (x : Point) : ∃ flags, x.updateOverrun = { x with saleFlags := flags } := by
  unfold Point.updateOverrun
  split
  · exact ⟨_, rfl⟩
  · exact ⟨_, rfl⟩

theorem Point.Runs.checkSlowDown {p : PointNo} {x : Point} (h : x.Runs p) : x.checkSlowDown.Runs p := by
  obtain ⟨slow, flags, e⟩ := x.checkSlowDown_eq
  rw [e]
  exact h.congr rfl rfl rfl rfl rfl rfl h.law.counts

/-- The delivery start of a point that has taken its authorization (R13). -/
theorem Point.runs_startDelivery {p : PointNo} {x : Point} (hdefn : x.defn.isSome = true)
    (hauth : x.auth.isSome = true) (hfrozen : x.frozen = none) (hcreep : x.meter.creep ≤ 65535)
    (hsettle : x.timers.settle = none) (hlimit : x.timers.stopLimit = none) : x.startDelivery.Runs p := by
  refine Point.Runs.checkSlowDown ⟨?_, ?_⟩
  · constructor <;> simp [hdefn, hauth, hfrozen, hcreep, hsettle, hlimit, PtState.holdsAuth]
  · refine ⟨by simp, fun _ d hd hne => ?_, by simp, by simp⟩
    have hd : x.defn = some d := hd
    simp [Point.noFlowStart, hd, hne]

/-- A rise of the handle (R7, R13). -/
theorem Point.Runs.lift {p : PointNo} {x : Point} (h : x.Runs p) : x.lift.Runs p := by
  unfold Point.lift
  split
  · exact h
  · dsimp only
    split
    · next hst =>
      exact Point.runs_of_resting (.inr (.inl rfl)) (h.law.defn_isSome (by simp [hst]))
        (h.law.auth_none (by simp [hst, PtState.holdsAuth])) (h.law.frozen_none (by simp [hst]))
        (h.law.timers_stopped (by simp [hst]) (by simp [hst]) (by simp [hst])) h.law.counts
    · next hst =>
      have h3 := mt h.law.settleTimer (by simp [hst])
      have h4 := mt h.law.stopLimitTimer (by simp [hst])
      exact Point.runs_startDelivery (h.law.defn_isSome (by simp [hst]))
        (h.law.auth.mpr (by simp [hst, PtState.holdsAuth])) (h.law.frozen_none (by simp [hst]))
        h.law.counts.2.2 (by simpa using h3) (by simpa using h4)
    · exact h.congr rfl rfl rfl rfl rfl rfl h.law.counts

/-- A fall of the handle (R7, R14). -/
theorem Point.Runs.lower {p : PointNo} {x : Point} (h : x.Runs p) : x.lower.Runs p := by
  have hy : ({ x with handleUp := false } : Point).Runs p := h.congr rfl rfl rfl rfl rfl rfl h.law.counts
  unfold Point.lower
  split
  · dsimp only
    split
    · next hst =>
      exact Point.runs_of_resting (.inl rfl) (h.law.defn_isSome (by simp [hst]))
        (h.law.auth_none (by simp [hst, PtState.holdsAuth])) (h.law.frozen_none (by simp [hst]))
        (h.law.timers_stopped (by simp [hst]) (by simp [hst]) (by simp [hst])) h.law.counts
    · next hst => exact hy.enterStopping (.inl hst) .handle
    · next hst => exact hy.enterStopping (.inr hst) .handle
    · exact hy
  · exact h

/-! ## Pulses -/

theorem Point.Runs.recount {p : PointNo} {x : Point} (h : x.Runs p) (e : Rates) (net : Nat) :
    (x.recount e net).Runs p := by
  obtain ⟨flags, he⟩ := Point.updateOverrun_eq { x with
    meter := { x.meter with net := net }, liveVolume := x.volumeAt e net
    liveMoney := x.moneyAt e (x.volumeAt e net) }
  unfold Point.recount
  dsimp only
  rw [he]
  exact h.congr rfl rfl rfl rfl rfl rfl h.law.counts

theorem Point.Runs.compareMarks {p : PointNo} {x : Point} (h : x.Runs p) : x.compareMarks.Runs p := by
  have hmarks : x.st = .delivering ∨ x.st = .paused → (x.checkSlowDown.checkTarget).Runs p := by
    intro hst
    obtain ⟨slow, flags, e⟩ := x.checkSlowDown_eq
    unfold Point.checkTarget
    split
    · split
      · exact h.checkSlowDown.enterStopping (by rw [e]; exact hst) .preset
      · exact h.checkSlowDown
    · exact h.checkSlowDown
  unfold Point.compareMarks
  split
  · next hst => exact hmarks (.inl hst)
  · next hst => exact hmarks (.inr hst)
  · exact h

theorem Point.Runs.restartSettle {p : PointNo} {x : Point} (h : x.Runs p) : x.restartSettle.Runs p := by
  unfold Point.restartSettle
  split
  · next hst =>
    have hdefn := h.law.defn_isSome (by simp [hst])
    refine ⟨⟨h.law.defined, h.law.auth, h.law.frozen, h.law.frozenPoint, h.law.reason, h.law.authTimer,
        h.law.noFlowTimer, fun _ => hst, h.law.stopLimitTimer, h.law.counts⟩,
      ⟨h.timers.authorization, h.timers.noFlow, fun _ => ?_, h.timers.stopLimit⟩⟩
    simpa [Point.settleStart] using hdefn
  · exact h

theorem Point.Runs.restartNoFlow {p : PointNo} {x : Point} (h : x.Runs p) : x.restartNoFlow.Runs p := by
  unfold Point.restartNoFlow
  split
  · next hst =>
    refine ⟨⟨h.law.defined, h.law.auth, h.law.frozen, h.law.frozenPoint, h.law.reason, h.law.authTimer,
        fun _ => hst, h.law.settleTimer, h.law.stopLimitTimer, h.law.counts⟩,
      ⟨h.timers.authorization, fun _ d hd hne => ?_, h.timers.settle, h.timers.stopLimit⟩⟩
    have hd : x.defn = some d := hd
    simp [Point.noFlowStart, hd, hne]
  · exact h

theorem Point.Runs.forwardPulse {p : PointNo} {x : Point} (h : x.Runs p) (e : Rates) :
    (x.forwardPulse e).Runs p := by
  unfold Point.forwardPulse
  split
  · exact (((h.recount e _).restartNoFlow).restartSettle).compareMarks
  · unfold Point.discardPulse
    split
    · next hst => exact h.enterStopping (.inl hst) .limit
    · next hst => exact h.enterStopping (.inr hst) .limit
    · exact h.restartSettle

theorem Point.Runs.countReverse {p : PointNo} {x : Point} (h : x.Runs p) : x.countReverse.Runs p := by
  have hcounts : min Config.count16Max (x.meter.reverse + 1) ≤ 65535 ∧ x.meter.phaseErrors ≤ 255 ∧
      x.meter.creep ≤ 65535 := ⟨Nat.min_le_left _ _, h.law.counts.2⟩
  unfold Point.countReverse
  dsimp only
  split
  · exact h.congr rfl rfl rfl rfl rfl rfl hcounts
  · exact h.congr rfl rfl rfl rfl rfl rfl hcounts

theorem Point.Runs.reversePulse {p : PointNo} {x : Point} (h : x.Runs p) (e : Rates) :
    (x.reversePulse e).Runs p := by
  have hlower : (x.countReverse.lowerNet e).Runs p := by
    unfold Point.lowerNet
    split
    · exact (h.countReverse.recount e _).compareMarks
    · exact h.countReverse
  unfold Point.reversePulse
  dsimp only
  split
  · exact hlower.restartSettle.reportFault .reverse
  · exact hlower.restartSettle

theorem Point.Runs.phaseError {p : PointNo} {x : Point} (h : x.Runs p) : x.phaseError.Runs p := by
  have hy : ({ x with meter := { x.meter with
      phaseErrors := min Config.count8Max (x.meter.phaseErrors + 1) } } : Point).Runs p :=
    h.congr rfl rfl rfl rfl rfl rfl ⟨h.law.counts.1, Nat.min_le_left _ _, h.law.counts.2.2⟩
  unfold Point.phaseError
  dsimp only
  split
  · exact hy.reportFault .pulser
  · exact hy

theorem Point.Runs.strayPulse {p : PointNo} {x : Point} (h : x.Runs p) : x.strayPulse.Runs p := by
  have hy : ({ x with
      meter := { x.meter with creep := min Config.count16Max (x.meter.creep + 1) }
      flags := { x.flags with creep := x.flags.creep || decide (x.meter.creep = 0) } } : Point).Runs p :=
    h.congr rfl rfl rfl rfl rfl rfl ⟨h.law.counts.1, h.law.counts.2.1, Nat.min_le_left _ _⟩
  unfold Point.strayPulse
  dsimp only
  split
  · split
    · exact hy.reportFault .creep
    · exact hy
  · exact hy

/-- A change of the meter pins, whatever it decodes to (R27, R28). -/
theorem Point.Runs.takeChange {p : PointNo} {x : Point} (h : x.Runs p) (e : Rates) (new : PhasePair) :
    (x.takeChange e new).Runs p := by
  unfold Point.takeChange
  split
  · next d old _ _ =>
    split
    · exact h
    · have hy : ({ x with meter := { x.meter with lastPhase := some new } } : Point).Runs p :=
        h.congr rfl rfl rfl rfl rfl rfl h.law.counts
      cases decodeChange d.mode old new with
      | forward =>
        simp only [Point.applyChange]
        split
        · exact hy.forwardPulse e
        · exact hy.strayPulse
      | reverse =>
        simp only [Point.applyChange]
        split
        · exact hy.reversePulse e
        · exact hy.strayPulse
      | phaseError =>
        simp only [Point.applyChange]
        split
        · exact hy.phaseError
        · exact hy
      | neither => exact hy
  · exact h

/-! ## Every move of a point -/

/-- An accepted authorization of a point in IDLE or CALLING (R10). -/
theorem Point.Runs.authorize {p : PointNo} {x : Point} (h : x.Runs p)
    (hst : x.st = .idle ∨ x.st = .calling) (a : AuthRecord) : (x.authorize a).Runs p := by
  have hdefn : x.defn.isSome = true := h.law.defn_isSome (by rcases hst with e | e <;> simp [e])
  have hfrozen : x.frozen = none := h.law.frozen_none (by rcases hst with e | e <;> simp [e])
  have htimers : x.timers = Timers.stopped := by
    apply h.law.timers_stopped <;> rcases hst with e | e <;> simp [e]
  rcases hst with hst | hst
  · simp only [Point.authorize, hst]
    constructor
    · constructor <;> simp [hdefn, hfrozen, htimers, PtState.holdsAuth, h.law.counts, Timers.stopped]
    · refine ⟨fun _ d hd hne => ?_, by simp, by simp, by simp⟩
      have hd : x.defn = some d := hd
      simp [Point.authStart, hd, hne]
  · simp only [Point.authorize, hst]
    exact Point.runs_startDelivery hdefn rfl hfrozen h.law.counts.2.2 (by simp [htimers, Timers.stopped])
      (by simp [htimers, Timers.stopped])

/-- A point that AUTHORIZE accepts is IDLE or CALLING (R9). -/
theorem authorizeVerdict_state {q : AuthorizeReq} {s : State} {a : AuthRecord}
    (h : authorizeVerdict q s = .ok a) : (s.point q.p).st = .idle ∨ (s.point q.p).st = .calling := by
  unfold authorizeVerdict at h
  dsimp only at h
  split at h
  · cases h
  · split at h
    · cases h
    · next hst =>
      by_contra hne
      push Not at hne
      exact hst hne

theorem Point.Runs.pause {p : PointNo} {x : Point} (h : x.Runs p) (hst : x.st = .delivering) :
    x.pause.Runs p := by
  have h1 := mt h.law.authTimer (by simp [hst])
  have h3 := mt h.law.settleTimer (by simp [hst])
  have h4 := mt h.law.stopLimitTimer (by simp [hst])
  have hdefn := h.law.defn_isSome (by simp [hst])
  have hauth := h.law.auth.mpr (by simp [hst, PtState.holdsAuth])
  have hfrozen := h.law.frozen_none (by simp [hst])
  constructor
  · constructor <;> simp_all [Point.pause, PtState.holdsAuth, h.law.counts]
  · constructor <;> simp [Point.pause]

theorem Point.Runs.resume {p : PointNo} {x : Point} (h : x.Runs p) (hst : x.st = .paused) :
    x.resume.Runs p := by
  have htimers := h.law.timers_stopped (by simp [hst]) (by simp [hst]) (by simp [hst])
  have hdefn := h.law.defn_isSome (by simp [hst])
  have hauth := h.law.auth.mpr (by simp [hst, PtState.holdsAuth])
  have hfrozen := h.law.frozen_none (by simp [hst])
  constructor
  · constructor <;>
      simp [Point.resume, hdefn, hauth, hfrozen, htimers, Timers.stopped, PtState.holdsAuth, h.law.counts]
  · refine ⟨by simp [Point.resume], fun _ d hd hne => ?_, by simp [Point.resume], by simp [Point.resume]⟩
    have hd : x.defn = some d := hd
    simp [Point.resume, Point.noFlowStart, hd, hne]

theorem Point.Runs.emergency {p : PointNo} {x : Point} (h : x.Runs p) : x.emergency.Runs p := by
  unfold Point.emergency
  split
  · next hst => exact h.enterStopping (.inl hst) _
  · next hst => exact h.enterStopping (.inr hst) _
  · next hst => exact h.lapse hst
  · exact h

/-- Every reported change of a point keeps its law. -/
theorem PointMove.runs {s : State} {p : PointNo} {f : Point → Point} (hf : PointMove s p f)
    (h : (s.point p).Runs p) : (f (s.point p)).Runs p := by
  cases hf with
  | lift => exact h.lift
  | lower => exact h.lower
  | take new => exact h.takeChange _ new
  | authExp =>
    unfold Point.authorizationExpiry
    split
    · next hst => exact h.lapse hst.1
    · exact h
  | noFlow =>
    unfold Point.noFlowExpiry
    split
    · next hst => exact h.enterStopping (.inl hst.1) _
    · exact h
  | emergency => exact h.emergency
  | authorize q a hq hp =>
    subst hp
    exact h.authorize (authorizeVerdict_state hq) a
  | drop hst => exact h.dropTo hst (.inl rfl)
  | pause hst => exact h.pause hst
  | resume hst => exact h.resume hst
  | stopReq r hst => exact h.enterStopping hst r
  | clearFault hst =>
    exact Point.runs_of_resting (.inl rfl) (h.law.defn_isSome (by simp [hst]))
      (h.law.auth_none (by simp [hst, PtState.holdsAuth])) (h.law.frozen_none (by simp [hst]))
      (h.law.timers_stopped (by simp [hst]) (by simp [hst]) (by simp [hst])) h.law.counts
  | clearCreep _ =>
    exact h.congr rfl rfl rfl rfl rfl rfl ⟨h.law.counts.1, h.law.counts.2.1, Nat.zero_le _⟩

/-- A state in which a definition may change holds no record and no timer (R4, R5). -/
theorem PointLaw.of_changeable {p : PointNo} {x : Point} (h : PointLaw p x)
    (hst : x.st.changeable = true) : x.defn.isSome = true ∧ x.auth = none ∧ x.frozen = none ∧
      x.timers = Timers.stopped := by
  have hcases : x.st = .idle ∨ x.st = .calling ∨ x.st = .faulted := by
    cases hx : x.st <;> simp [hx, PtState.changeable] at hst <;> simp
  refine ⟨h.defn_isSome ?_, h.auth_none ?_, h.frozen_none ?_, h.timers_stopped ?_ ?_ ?_⟩ <;>
    rcases hcases with e | e | e <;> simp [e, PtState.holdsAuth]

/-- Every change of a definition keeps the law of the point (R3, R4, R5). -/
theorem PointRedefined.runs {s : State} {p : PointNo} {f : Point → Point} (hf : PointRedefined s p f)
    (h : (s.point p).Runs p) : (f (s.point p)).Runs p := by
  cases hf with
  | define d pair hst =>
    exact Point.runs_of_resting (.inl rfl) rfl (h.law.auth_none (by simp [hst, PtState.holdsAuth]))
      (h.law.frozen_none (by simp [hst]))
      (h.law.timers_stopped (by simp [hst]) (by simp [hst]) (by simp [hst])) (by simp [Point.define])
  | modify q hst =>
    obtain ⟨hdefn, hauth, hfrozen, htimers⟩ := h.law.of_changeable hst
    have hcases : (s.point p).st = .idle ∨ (s.point p).st = .calling ∨ (s.point p).st = .faulted := by
      cases hx : (s.point p).st <;> simp [hx, PtState.changeable] at hst <;> simp
    exact Point.runs_of_resting hcases (by simpa using hdefn) hauth hfrozen htimers h.law.counts
  | release hst =>
    obtain ⟨-, hauth, hfrozen, htimers⟩ := h.law.of_changeable hst
    constructor
    · constructor <;>
        simp [Point.release, hauth, hfrozen, htimers, Timers.stopped, PtState.holdsAuth, Meter.cold]
    · constructor <;> simp [Point.release]

/-- The entry of SETTLING from STOPPING (R20). -/
theorem Point.Runs.enterSettling {p : PointNo} {x : Point} (h : x.Runs p) (hst : x.st = .stopping) :
    (x.enterSettling p).Runs p := by
  have h1 := mt h.law.authTimer (by simp [hst])
  have h2 := mt h.law.noFlowTimer (by simp [hst])
  have hdefn := h.law.defn_isSome (by simp [hst])
  have hauth := h.law.auth.mpr (by simp [hst, PtState.holdsAuth])
  have hreason := h.law.reason (.inl hst)
  constructor
  · refine ⟨by simpa [Point.enterSettling] using hdefn, by simpa [Point.enterSettling, PtState.holdsAuth] using hauth,
      by simpa [Point.enterSettling] using hauth, fun f hf => ?_, fun _ => hreason,
      fun ht => absurd ht h1, fun ht => absurd ht h2, by simp [Point.enterSettling],
      by simp [Point.enterSettling], h.law.counts⟩
    obtain ⟨a, -, rfl⟩ := Option.map_eq_some_iff.mp hf
    rfl
  · constructor <;> simp [Point.enterSettling]

/-- The end of SETTLING, which a commit makes (R20). -/
theorem PointLaw.leaveSettling {p : PointNo} {x : Point} (h : PointLaw p x) :
    PointLaw p x.leaveSettling := by
  unfold Point.leaveSettling
  split
  · next hst =>
    have hto : (if x.faults.isEmpty = true then PtState.idle else .faulted) = .idle ∨
        (if x.faults.isEmpty = true then PtState.idle else .faulted) = .faulted := by split <;> simp
    exact (Point.runs_of_resting (x := { x with
        st := if x.faults.isEmpty then .idle else .faulted
        auth := none, frozen := none, flags := { x.flags with sale := true } })
      (hto.imp_right .inr) (h.defn_isSome (by simp [hst])) rfl rfl
      (h.timers_stopped (by simp [hst]) (by simp [hst]) (by simp [hst])) h.counts).law
  · exact h

theorem Point.leaveSettling_timers (x : Point) : x.leaveSettling.timers = x.timers := by
  unfold Point.leaveSettling
  split <;> rfl

/-- A point that leaves SETTLING needs no timer. -/
theorem TimersRun.leaveSettling {x : Point} (h : TimersRun x) : TimersRun x.leaveSettling := by
  unfold Point.leaveSettling
  split
  · dsimp only
    constructor <;> dsimp only <;> split <;> simp
  · exact h

/-! ## Starts -/

theorem PointLaw.firstStep {p : PointNo} {x : Point} (h : PointLaw p x) : PointLaw p x.firstStep :=
  ⟨h.defined, h.auth, h.frozen, h.frozenPoint, h.reason, fun ht => (by cases ht),
    fun ht => (by cases ht), fun ht => (by cases ht), fun ht => (by cases ht), h.counts⟩

theorem Point.warmed_timers (x : Point) (p : PointNo) (h : x.timers = Timers.stopped) :
    (x.warmed p).timers = Timers.stopped := by
  unfold Point.warmed
  split <;> simp [h, Timers.stopped]

/-- Warm step 2 keeps the law of a point whose timers are stopped (R26, R171). -/
theorem PointLaw.warmed {p : PointNo} {x : Point} (h : PointLaw p x) (htimers : x.timers = Timers.stopped) :
    PointLaw p (x.warmed p) := by
  have hdefn := h.defn_isSome
  have hsettled : x.st = .delivering ∨ x.st = .paused ∨ x.st = .stopping → PointLaw p (x.warmed p) := by
    intro hst
    have hauth := h.auth.mpr (by rcases hst with e | e | e <;> simp [e, PtState.holdsAuth])
    have hdefn := hdefn (by rcases hst with e | e | e <;> simp [e])
    rw [← Point.warmed_of_counting x p hst]
    refine ⟨?_, ?_, ?_, fun f hf => ?_, fun _ => rfl, ?_, ?_, ?_, ?_, h.counts⟩
    · simpa [Point.enterSettling, Point.powerEnd] using hdefn
    · simpa [Point.enterSettling, Point.powerEnd, PtState.holdsAuth] using hauth
    · simpa [Point.enterSettling, Point.powerEnd] using hauth
    · obtain ⟨a, -, rfl⟩ := Option.map_eq_some_iff.mp hf
      rfl
    all_goals simp [Point.enterSettling, Point.powerEnd, htimers, Timers.stopped]
  unfold Point.warmed at hsettled ⊢
  split
  · next hst =>
    exact (Point.runs_of_resting (x := { x with st := .idle }) (.inl rfl) (hdefn (by simp [hst]))
      (h.auth_none (by simp [hst, PtState.holdsAuth])) (h.frozen_none (by simp [hst])) htimers h.counts).law
  · next hst =>
    exact (Point.runs_of_resting (x := { x with
        st := .idle, auth := none, timers := { x.timers with authorization := none }
        flags := { x.flags with lapsed := true } }) (.inl rfl) (hdefn (by simp [hst])) rfl
      (h.frozen_none (by simp [hst])) (by simp [htimers, Timers.stopped]) h.counts).law
  · next hst => simpa only [hst] using hsettled (.inl hst)
  · next hst => simpa only [hst] using hsettled (.inr (.inl hst))
  · next hst => simpa only [hst] using hsettled (.inr (.inr hst))
  · exact h

theorem pointLaw_cold (p : PointNo) : PointLaw p Point.cold := by
  constructor <;> simp [Point.cold, Timers.stopped, Meter.cold, PtState.holdsAuth]

/-! ## The law of the four points -/

theorem PointsLaw.runs {s : State} (h : PointsLaw s) (hr : s.rcu.running = true) (p : PointNo) :
    (s.point p).Runs p := ⟨h.points p, h.timers hr p⟩

/-- The law reads the points, RUNNING, VDD and RESETn. -/
theorem PointsLaw.congr {s t : State} (h : PointsLaw s) (hvdd : t.pins.vdd = s.pins.vdd)
    (hresetn : t.pins.resetn = s.pins.resetn) (hrunning : t.rcu.running = s.rcu.running)
    (hpoint : ∀ p, t.point p = s.point p) : PointsLaw t := by
  refine ⟨?_, fun p => by rw [hpoint]; exact h.points p, fun hr p => ?_, fun hr p => ?_⟩
  · intro hr
    rw [hvdd, hresetn]
    exact h.powered (hrunning ▸ hr)
  · rw [hpoint]
    exact h.timers (hrunning ▸ hr) p
  · rw [hpoint]
    exact h.stopped (hrunning ▸ hr) p

/-- A running part keeps the law when each of its points does. -/
theorem PointsLaw.of_runs {s t : State} (h : PointsLaw s) (hr : s.rcu.running = true)
    (hpins : t.pins = s.pins) (hrcu : t.rcu = s.rcu) (hpoint : ∀ p, (t.point p).Runs p) : PointsLaw t := by
  refine ⟨?_, fun p => (hpoint p).law, fun _ p => (hpoint p).timers, fun hr' => ?_⟩
  · unfold RunsPowered
    rw [hpins, hrcu]
    exact h.powered
  · rw [hrcu, hr] at hr'
    cases hr'

/-- A part that does not run keeps the law when each of its points keeps its own, with its timers stopped. -/
theorem PointsLaw.of_stopped {s : State} (hr : s.rcu.running = false) (hpoint : ∀ p, PointLaw p (s.point p))
    (htimers : ∀ p, (s.point p).timers = Timers.stopped) : PointsLaw s :=
  ⟨fun h => (by rw [hr] at h; cases h), hpoint, fun h => (by rw [hr] at h; cases h), fun _ => htimers⟩

/-- Every point passes the first step at once (R169). -/
theorem PointsLaw.firstStep_of {s : State} (h : ∀ p, PointLaw p (s.point p)) : PointsLaw s.firstStep :=
  .of_stopped rfl (fun p => by rw [State.firstStep_point]; exact (h p).firstStep)
    (fun p => by rw [State.firstStep_point]; rfl)

/-- A write among those of a cut leaves a point as it was or out of SETTLING (R124). -/
theorem State.cutCommit_pointLaw {s : State} (h : ∀ p, PointLaw p (s.point p)) (cut : CommitCut) :
    ∀ p, PointLaw p ((s.cutCommit cut).point p) := by
  intro p
  rcases s.cutCommit_cases cut with e | ⟨q, f, -, -, -, -, hpoint⟩
  · rw [e]; exact h p
  · rcases hpoint p with e | ⟨-, e⟩
    · rw [e]; exact h p
    · rw [e]; exact (h p).leaveSettling

theorem PointsLaw.warmStep {s : State} (h : PointsLaw s) (hr : s.rcu.running = false)
    {f : State → State} (hf : f ∈ warmPath) : PointsLaw (f s) := by
  have hrun : (f s).rcu.running = false := by rw [(warmPath_same hf s).1.running, hr]
  have hstop := h.stopped hr
  rcases mem_warmPath hf with rfl | ⟨q, rfl⟩ | ⟨k, rfl⟩
  · refine .of_stopped hrun (fun p => ?_) (fun p => ?_) <;>
      rcases s.warmJournal_point p with e | ⟨c, -, -, e⟩ <;> rw [e]
    · exact h.points p
    · exact (h.points p).leaveSettling
    · exact hstop p
    · rw [Point.leaveSettling_timers]; exact hstop p
  · refine .of_stopped hrun (fun p => ?_) (fun p => ?_) <;> rw [State.warmPoint_point] <;> split
    · next hp => subst hp; exact (h.points _).warmed (hstop _)
    · exact h.points p
    · exact Point.warmed_timers _ _ (hstop q)
    · exact hstop p
  · refine h.congr ?_ ?_ ?_ (fun p => by simp [State.warmPrice]) <;> rw [State.warmPrice_rest]

theorem PointsLaw.coldWrite {s : State} (h : PointsLaw s) (hr : s.rcu.running = false) {mark : Bool}
    {f : State → State} (hf : ColdWrite mark f) : PointsLaw (f s) := by
  cases hf with
  | point q =>
    refine .of_stopped hr (fun p => ?_) (fun p => ?_) <;> rw [State.point_setPoint_ite] <;> split
    · exact pointLaw_cold p
    · exact h.points p
    · rfl
    · exact h.stopped hr p
  | enable | products | tally | dcu | sales | mark => exact h.congr rfl rfl rfl (fun _ => rfl)

/-- Every move keeps the law of the points. -/
theorem pointsLaw_kept : KeptBySteps False True PointsLaw where
  link _ _ h := h.congr rfl rfl rfl (fun _ => rfl)
  pins _ _ hv hr h := h.congr hv hr rfl (fun _ => rfl)
  power _ _ h := h.congr rfl rfl rfl (fun _ => rfl)
  move s p f h hr hf := h.of_runs hr (by simp) (by simp) (fun q => by
    rw [State.movePoint_point]
    split
    · next hq => subst hq; exact hf.runs (h.runs hr _)
    · exact h.runs hr q)
  mod s p f h hr _ hf := h.of_runs hr rfl rfl (fun q => by
    rw [State.modPoint_point]
    split
    · next hq => subst hq; exact hf.runs (h.runs hr _)
    · exact h.runs hr q)
  flags s h := by
    have hpoint := s.modAllPoints_point (fun _ x => { x with flags := PointFlags.clear })
    refine ⟨h.powered, fun p => ?_, fun hr p => ?_, fun hr p => ?_⟩ <;> rw [hpoint]
    · exact (h.points p).congr rfl rfl rfl rfl rfl rfl (h.points p).counts
    · exact (h.timers hr p).congr rfl rfl rfl
    · exact h.stopped hr p
  settle s p f h hr hst hf := by
    refine h.of_runs hr (by rw [State.settlePoint_rest]) (by rw [State.settlePoint_rest]) (fun q => ?_)
    rw [State.settlePoint_point]
    split
    · next hq =>
      subst hq
      rcases hf with rfl | rfl
      · exact (h.runs hr q).enterSettling hst
      · exact Point.Runs.enterSettling ((h.runs hr q).congr rfl rfl rfl rfl rfl rfl (h.points q).counts) hst
    · exact h.runs hr q
  product _ _ _ h _ _ _ := h.congr rfl rfl rfl (fun _ => rfl)
  price _ _ _ _ h _ _ := h.congr rfl rfl rfl (fun _ => rfl)
  stage _ _ _ _ h _ _ := h.congr rfl rfl rfl (fun _ => rfl)
  remove _ _ h _ := h.congr rfl rfl rfl (fun _ => rfl)
  accept s req h _ _ _ _ := by
    refine h.congr ?_ ?_ ?_ (fun p => ?_) <;> simp [State.acceptJob]
  complete s j h _ _ := by
    refine h.congr ?_ ?_ ?_ (fun p => ?_) <;> rw [State.completeJob_rest]
    rfl
  suspend s j h _ _ _ := by
    refine h.congr ?_ ?_ ?_ (fun p => ?_) <;> simp [State.suspendJob]
  commit s q f h ho _ := by
    have hr := State.running_of_operating ho
    refine h.of_runs hr (by rw [State.commitPosting_rest]) (by rw [State.commitPosting_rest]) (fun p => ?_)
    rw [State.commitPosting_point]
    split
    · exact ⟨(h.points p).leaveSettling, (h.timers hr p).leaveSettling⟩
    · exact h.runs hr p
  hold s h _ := by
    refine h.congr ?_ ?_ ?_ (fun p => ?_) <;> simp [State.expireHold]
  first _ h := .firstStep_of h.points
  cut _ c h _ := .firstStep_of (State.cutCommit_pointLaw h.points c)
  dark _ _ hr h := .of_stopped (hr trivial) h.points (h.stopped (hr trivial))
  check _ _ _ h := h.congr rfl rfl rfl (fun _ => rfl)
  path _ _ hr _ h hf := h.warmStep (hr trivial) hf
  cold _ _ _ hr _ h hf := h.coldWrite (hr trivial) hf
  good _ _ _ h := h.congr rfl rfl rfl (fun _ => rfl)
  final s hr _ h _ hrest _ := by
    obtain ⟨-, hvdd, hresetn⟩ := hr trivial
    have hlaw : ∀ p, (s.finalStep.point p).Runs p := fun p => by
      obtain ⟨hna, hnc⟩ := hrest p
      have hst : ((s.point p).sample (s.pinPair p) s.pins.hs[p]).st = (s.point p).st := rfl
      rw [State.finalStep_point]
      refine ⟨(h.points p).congr rfl rfl rfl rfl rfl rfl (h.points p).counts, ?_⟩
      constructor <;> rw [hst] <;> intro e
      · exact absurd e hna
      all_goals rw [e] at hnc; cases hnc
    refine ⟨fun _ => ?_, fun p => (hlaw p).law, fun _ p => (hlaw p).timers, fun hr' => ?_⟩
    · rw [State.finalStep_eq, State.choose_pins]
      exact ⟨hvdd, hresetn⟩
    · rw [State.finalStep_eq, State.choose_rcu] at hr'
      cases hr'

/-! ## Staged prices -/

/-- The law reads RUNNING, VDD, RESETn, the products and who delivers them. -/
theorem StagedLaw.congr {s t : State} (h : StagedLaw s) (hvdd : t.pins.vdd = s.pins.vdd)
    (hresetn : t.pins.resetn = s.pins.resetn) (hrunning : t.rcu.running = s.rcu.running)
    (hproduct : ∀ k, t.product k = s.product k)
    (hdelivers : ∀ p, (t.point p).delivers = (s.point p).delivers) : StagedLaw t := by
  refine ⟨fun hr => ?_, fun hr k hk => ?_⟩
  · rw [hvdd, hresetn]
    exact h.powered (hrunning ▸ hr)
  · obtain ⟨p, hp⟩ := h.staged (hrunning ▸ hr) k (by unfold State.isStaged at hk ⊢; rwa [hproduct] at hk)
    exact ⟨p, by rw [hdelivers, hp]⟩

theorem StagedLaw.of_stopped {s : State} (hr : s.rcu.running = false) : StagedLaw s :=
  ⟨fun h => (by rw [hr] at h; cases h), fun h => (by rw [hr] at h; cases h)⟩

theorem State.activate_isStaged (s : State) (k l : ProductNo) :
    (s.activate k).isStaged l = (s.isStaged l && decide (l ≠ k)) := by
  unfold State.isStaged
  rw [State.activate_product]
  by_cases hl : l = k
  · subst hl
    cases s.product l with
    | none => simp
    | some r => simp [Product.withStaged_staged]
  · simp [hl]

/-- A staged price that a reported change leaves waiting has a delivering point (R53, R55). -/
theorem State.movePoint_staged {s : State} (p : PointNo) (f : Point → Point)
    (h : ∀ k, s.isStaged k = true → ∃ q, (s.point q).delivers = some k) (k : ProductNo)
    (hk : (s.movePoint p f).isStaged k = true) : ∃ q, ((s.movePoint p f).point q).delivers = some k := by
  simp only [State.movePoint_point]
  by_cases hquiet : (s.point p).delivers = none ∨ (f (s.point p)).delivers = (s.point p).delivers
  · rw [State.movePoint_quiet _ _ _ hquiet] at hk
    obtain ⟨q, hq⟩ := h k hk
    refine ⟨q, ?_⟩
    split
    · next e =>
      subst e
      rcases hquiet with e | e
      · rw [e] at hq; cases hq
      · rw [e, hq]
    · exact hq
  · push Not at hquiet
    obtain ⟨hsome, hleft⟩ := hquiet
    obtain ⟨l, hl⟩ := Option.ne_none_iff_exists'.mp hsome
    rw [State.movePoint_left _ _ _ l hl (hl ▸ hleft), State.reportLeft] at hk
    have hstay : k ≠ l → s.isStaged k = true → ∃ q, (if q = p then f (s.point p) else s.point q).delivers = some k := by
      intro hne hstaged
      obtain ⟨q, hq⟩ := h k hstaged
      refine ⟨q, ?_⟩
      split
      · next e =>
        subst e
        rw [hl] at hq
        cases hq
        exact absurd rfl hne
      · exact hq
    split at hk
    · rw [State.activate_isStaged, Bool.and_eq_true, decide_eq_true_eq] at hk
      exact hstay hk.2 hk.1
    · next hfull =>
      by_cases hkl : k = l
      · subst hkl
        have hnot := mt (State.deliveringEmpty_iff _ k).mpr hfull
        push Not at hnot
        obtain ⟨q, hq⟩ := hnot
        exact ⟨q, by rwa [State.point_setPoint_ite] at hq⟩
      · exact hstay hkl hk

theorem StagedLaw.movePoint {s : State} (h : StagedLaw s) (hr : s.rcu.running = true) (p : PointNo)
    (f : Point → Point) : StagedLaw (s.movePoint p f) := by
  refine ⟨?_, fun _ k hk => State.movePoint_staged p f (h.staged hr) k hk⟩
  unfold RunsPowered
  simp only [State.movePoint_pins, State.movePoint_rcu]
  exact h.powered

/-- A change of a definition moves no point in or out of a delivering set (R49). -/
theorem PointRedefined.delivers {s : State} {p : PointNo} {f : Point → Point} (hf : PointRedefined s p f) :
    (f (s.point p)).delivers = (s.point p).delivers := by
  have hchange : (s.point p).st.changeable = true → (s.point p).delivers = none := by
    intro h
    cases hst : (s.point p).st <;> simp [hst, PtState.changeable] at h <;> simp [Point.delivers, hst]
  cases hf with
  | define d pair hst => simp [Point.delivers, Point.define, hst]
  | modify q hst => rfl
  | release hst => rw [hchange hst]; rfl

theorem Point.leaveSettling_delivers (x : Point) : x.leaveSettling.delivers = x.delivers := by
  unfold Point.leaveSettling
  split
  · next hst =>
    unfold Point.delivers
    dsimp only
    rw [hst]
    split <;> simp_all
  · rfl

theorem State.setProduct_isStaged (s : State) (k l : ProductNo) (r : Product) :
    (s.setProduct k (some r)).isStaged l = if l = k then r.staged.isSome else s.isStaged l := by
  unfold State.isStaged
  rw [State.product_setProduct_ite]
  by_cases h : l = k <;> simp [h]

/-- A new record of a product keeps the law when it stages nothing, or when the product is delivered. -/
theorem StagedLaw.setProduct {s : State} (h : StagedLaw s) (k : ProductNo) (r : Product)
    (hr : r.staged = none ∨ s.deliveringEmpty k = false) : StagedLaw (s.setProduct k (some r)) := by
  refine ⟨h.powered, fun hrun l hl => ?_⟩
  rw [State.setProduct_isStaged] at hl
  split at hl
  · next e =>
    subst e
    rcases hr with e | e
    · simp [e] at hl
    · have hnot := mt (State.deliveringEmpty_iff s l).mpr (by simp [e])
      push Not at hnot
      exact hnot
  · exact h.staged hrun l hl

/-- Every move keeps the law of staged prices. -/
theorem stagedLaw_kept : KeptBySteps False True StagedLaw where
  link _ _ h := h.congr rfl rfl rfl (fun _ => rfl) (fun _ => rfl)
  pins _ _ hv hr h := h.congr hv hr rfl (fun _ => rfl) (fun _ => rfl)
  power _ _ h := h.congr rfl rfl rfl (fun _ => rfl) (fun _ => rfl)
  move _ p f h hr _ := h.movePoint hr p f
  mod s p f h _ _ hf := h.congr rfl rfl rfl (fun _ => rfl) (fun q => by
    rw [State.modPoint_point]
    split
    · next hq => subst hq; exact hf.delivers
    · rfl)
  flags s h := h.congr rfl rfl rfl (fun _ => rfl) (fun p => by rw [State.modAllPoints_point]; rfl)
  settle s p f h hr _ _ := by
    have hmove := h.movePoint hr p (fun x => (f x).enterSettling p)
    refine hmove.congr ?_ ?_ ?_ (fun k => ?_) (fun q => ?_) <;>
      simp only [State.settlePoint, State.choose_pins, State.choose_rcu, State.choose_product,
        State.choose_point] <;> rw [State.submit_rest] <;> rfl
  product _ k r h _ _ hr := h.setProduct k r (.inl hr)
  price _ k _ _ h _ _ := h.setProduct k _ (.inl rfl)
  stage _ k _ _ h _ hd := h.setProduct k _ (.inr hd)
  remove _ _ h _ := h.congr rfl rfl rfl (fun _ => rfl) (fun _ => rfl)
  accept s req h _ _ _ _ := by
    refine h.congr ?_ ?_ ?_ (fun k => ?_) (fun p => ?_) <;> simp [State.acceptJob]
  complete s j h _ _ := by
    refine h.congr ?_ ?_ ?_ (fun k => ?_) (fun p => ?_) <;> rw [State.completeJob_rest] <;> rfl
  suspend s j h _ _ _ := by
    refine h.congr ?_ ?_ ?_ (fun k => ?_) (fun p => ?_) <;> simp [State.suspendJob]
  commit s q f h _ _ := by
    refine h.congr ?_ ?_ ?_ (fun k => ?_) (fun p => ?_)
    · rw [State.commitPosting_rest]
    · rw [State.commitPosting_rest]
    · rw [State.commitPosting_rest]
    · rw [State.commitPosting_rest]; rfl
    · rw [State.commitPosting_point]
      split
      · exact Point.leaveSettling_delivers _
      · rfl
  hold s h _ := by
    refine h.congr ?_ ?_ ?_ (fun k => ?_) (fun p => ?_) <;> simp [State.expireHold]
  first _ _ := .of_stopped rfl
  cut _ _ _ _ := .of_stopped rfl
  dark _ _ hr _ := .of_stopped (hr trivial)
  check _ _ hr _ := .of_stopped (hr trivial)
  path s f hr _ _ hf := .of_stopped (by rw [(warmPath_same hf s).1.running, hr trivial])
  cold s _ f hr _ _ hf := .of_stopped (by rw [(hf.same s).1.running, hr trivial])
  good _ _ hr _ := .of_stopped (hr trivial)
  final s hr _ _ _ _ hstaged := by
    obtain ⟨-, hvdd, hresetn⟩ := hr trivial
    refine ⟨fun _ => ?_, fun _ k hk => ?_⟩
    · rw [State.finalStep_eq, State.choose_pins]
      exact ⟨hvdd, hresetn⟩
    · have hsame : s.finalStep.product k = s.product k := by
        rw [State.finalStep_eq, State.choose_product]
        rfl
      unfold State.isStaged at hk
      rw [hsame] at hk
      exact absurd hk (by simpa [State.isStaged] using hstaged k)

/-- Settles O56: each change of a point carries its law from one state of Table 1-1 to another, and each
report to the Product Table activates what it leaves without a delivering point. -/
theorem stepKeepsPointsAndStagedLaws : Obligations.StepKeepsPointsAndStagedLaws := by
  unfold Obligations.StepKeepsPointsAndStagedLaws
  refine ⟨fun s t h e => ?_, fun s t h e => ?_⟩
  · exact step_keeps h e (fun _ h => h.congr rfl rfl rfl (fun _ => rfl)) (fun c u hu he =>
      exec_kept pointsLaw_kept c u t hu (fun f => f.elim) (fun _ => hu.powered) he)
  · exact step_keeps h e (fun _ h => h.congr rfl rfl rfl (fun _ => rfl) (fun _ => rfl)) (fun c u hu he =>
      exec_kept stagedLaw_kept c u t hu (fun f => f.elim) (fun _ => hu.powered) he)

end Sys2Proof.Machine

/-! # Proofs: the posting queue (Chapters 7, 8 and 10) -/

namespace Sys2Proof.Machine

/-! ## The queue and the frozen sales it copies -/

/-- A posting but for whether it is TAKEN. -/
def Posting.untaken (q : Posting) : Posting := { q with taken := false }

/-- At most one posting a point, each a copy of its point's frozen sale (R116, R133). -/
structure QueueLaw (ps : List Posting) (frozen : PointNo → Option FrozenSale) : Prop where
  once : (ps.map (·.point)).Nodup
  copies : ∀ q, q ∈ ps → ∀ f, frozen q.point = some f →
    q.product = f.auth.product ∧ q.volume = f.volume ∧ q.money = f.money

/-- The points that have a posting. -/
def Posted (ps : List Posting) (p : PointNo) : Prop := ∃ q, q ∈ ps ∧ q.point = p

theorem posted_iff_mem (ps : List Posting) (p : PointNo) : Posted ps p ↔ p ∈ ps.map (·.point) := by
  simp [Posted]

theorem map_point_of_untaken {ps qs : List Posting} (h : ps.map Posting.untaken = qs.map Posting.untaken) :
    ps.map (·.point) = qs.map (·.point) := by
  have := congrArg (List.map Posting.point) h
  simpa [Posting.untaken, Function.comp_def] using this

theorem posted_of_untaken {ps qs : List Posting} (h : ps.map Posting.untaken = qs.map Posting.untaken)
    (p : PointNo) : Posted ps p ↔ Posted qs p := by
  rw [posted_iff_mem, posted_iff_mem, map_point_of_untaken h]

/-- TAKEN apart, a posting of one list stands in the other. -/
theorem mem_of_untaken {ps qs : List Posting} (h : ps.map Posting.untaken = qs.map Posting.untaken)
    {q : Posting} (hq : q ∈ ps) : ∃ r, r ∈ qs ∧ r.untaken = q.untaken := by
  have hmem : q.untaken ∈ qs.map Posting.untaken := h ▸ List.mem_map_of_mem hq
  simpa using hmem

theorem QueueLaw.congr {ps qs : List Posting} {frozen frozen' : PointNo → Option FrozenSale}
    (h : QueueLaw ps frozen) (hps : qs.map Posting.untaken = ps.map Posting.untaken)
    (hfrozen : ∀ p, frozen' p = frozen p) : QueueLaw qs frozen' := by
  refine ⟨by rw [map_point_of_untaken hps]; exact h.once, fun q hq f hf => ?_⟩
  obtain ⟨r, hr, e⟩ := mem_of_untaken hps hq
  simp only [Posting.untaken, Posting.mk.injEq, and_true] at e
  obtain ⟨hpoint, hproduct, hvolume, hmoney⟩ := e
  rw [← hproduct, ← hvolume, ← hmoney]
  exact h.copies r hr f (by rw [hpoint, ← hfrozen]; exact hf)

/-- A point without a posting submits the one of its sale (R116, R133). -/
theorem QueueLaw.submit {ps : List Posting} {frozen frozen' : PointNo → Option FrozenSale}
    (h : QueueLaw ps frozen) {f : FrozenSale} (hnew : ¬ Posted ps f.point) (hf : frozen' f.point = some f)
    (hothers : ∀ p, p ≠ f.point → frozen' p = frozen p) : QueueLaw (ps ++ [f.posting]) frozen' := by
  refine ⟨?_, fun q hq g hg => ?_⟩
  · rw [List.map_append, List.nodup_append]
    refine ⟨h.once, by simp, fun a ha b hb e => hnew ?_⟩
    rw [posted_iff_mem]
    simp only [List.map_cons, List.map_nil, List.mem_singleton] at hb
    have hb : b = f.point := hb
    rwa [e, hb] at ha
  · rcases List.mem_append.mp hq with hq | hq
    · have hne : q.point ≠ f.point := fun e => hnew ⟨q, hq, e⟩
      exact h.copies q hq g (by rw [← hothers _ hne]; exact hg)
    · rw [List.mem_singleton] at hq
      subst hq
      have hg : frozen' f.point = some g := hg
      rw [hf] at hg
      cases hg
      exact ⟨rfl, rfl, rfl⟩

/-- A frozen sale that is gone ties no posting. -/
theorem QueueLaw.fade {ps : List Posting} {frozen frozen' : PointNo → Option FrozenSale}
    (h : QueueLaw ps frozen) (hfade : ∀ p, frozen' p = frozen p ∨ frozen' p = none) : QueueLaw ps frozen' := by
  refine ⟨h.once, fun q hq f hf => ?_⟩
  rcases hfade q.point with e | e
  · exact h.copies q hq f (e ▸ hf)
  · rw [e] at hf
    cases hf

/-- Postings leave the queue, and the order of the others stays (R116, R123). -/
theorem QueueLaw.filter {ps : List Posting} {frozen : PointNo → Option FrozenSale} (h : QueueLaw ps frozen)
    (keep : Posting → Bool) : QueueLaw (ps.filter keep) frozen :=
  ⟨h.once.sublist (List.filter_sublist.map _), fun q hq => h.copies q (List.mem_of_mem_filter hq)⟩

theorem posted_filter (ps : List Posting) (p q : PointNo) :
    Posted (ps.filter (fun e => decide (e.point ≠ p))) q ↔ Posted ps q ∧ q ≠ p := by
  constructor
  · rintro ⟨e, he, rfl⟩
    rw [List.mem_filter, decide_eq_true_eq] at he
    exact ⟨⟨e, he.1, rfl⟩, he.2⟩
  · rintro ⟨⟨e, he, rfl⟩, hne⟩
    exact ⟨e, List.mem_filter.mpr ⟨he, decide_eq_true hne⟩, rfl⟩

theorem posted_append (ps : List Posting) (q : Posting) (p : PointNo) :
    Posted (ps ++ [q]) p ↔ Posted ps p ∨ q.point = p := by
  simp [Posted, or_and_right, exists_or]

/-! ## What the moves do to the queue and the frozen sales -/

theorem markTaken_untaken (p : PointNo) (qs : List Posting) :
    (markTaken p qs).map Posting.untaken = qs.map Posting.untaken := by
  unfold markTaken
  rw [List.map_map]
  refine List.map_congr_left fun q _ => ?_
  simp only [Function.comp]
  split <;> rfl

/-- A choice marks a posting TAKEN at most (R116, R118). -/
theorem State.choose_untaken (s : State) :
    s.choose.dcu.postings.map Posting.untaken = s.dcu.postings.map Posting.untaken := by
  rcases s.choose_cases with e | ⟨-, -, ⟨q, -, e⟩ | ⟨-, j, -, e⟩⟩ <;> rw [e]
  · exact markTaken_untaken _ _
  · unfold State.takeJob
    split <;> rfl

/-- The effect of a job on the decimal unit is on the held set and its timer (R126, R127). -/
theorem State.applyJob_dcu (s : State) (j : HostJob) : ∃ held timer,
    (s.applyJob j).dcu = { s.dcu with held := held, holdTimer := timer } := by
  unfold State.applyJob
  cases j.req with
  | setSite scales gc => cases scales <;> exact ⟨_, _, rfl⟩
  | divide d s1 s2 rounding =>
    dsimp only
    split <;> exact ⟨_, _, rfl⟩
  | _ => exact ⟨_, _, rfl⟩

/-- A completion is a choice in a unit that the job has left (R96, R120). -/
theorem State.completeJob_eq (s : State) (j : HostJob) : ∃ link tally held timer,
    s.completeJob j = State.choose { s with
      link := link, tally := tally
      dcu := { s.dcu with
        unit := .free, job := none, context := none, held := held, holdTimer := timer } } := by
  obtain ⟨held, timer, e⟩ := s.applyJob_dcu j
  refine ⟨(s.applyJob j).endJob.endStretch.link, (s.applyJob j).tally, held, timer, ?_⟩
  unfold State.completeJob
  rw [State.endStretch_rest]
  generalize (s.applyJob j).endJob.endStretch.link = l
  unfold State.endJob State.modDcu
  rw [State.applyJob_rest] at e ⊢
  dsimp only at e ⊢
  rw [e]

/-- A posting's commit is a choice in a unit that it has left free, with the commit completed (R123). -/
theorem State.commitPosting_eq (s : State) (q : Posting) (f : FrozenSale) :
    s.commitPosting q f = State.choose { s with
      tally := (runSteps ((s.commitRecord q f).writes.map (fun w s => s.writeReg w.reg w.value)) s).tally
      sales := SaleQueue.append { s.sales with nextSale := (s.commitRecord q f).nextSale }
        (s.commitRecord q f).record
      points := s.points.set q.point (s.point q.point).leaveSettling
      dcu := { s.dcu.removePosting q.point with journal := none, unit := .free }
      link := { s.link with flags := { s.link.flags with
        rollover := s.link.flags.rollover || (s.commitRecord q f).rollover } } } := by
  unfold State.commitPosting
  dsimp only
  rw [State.completeCommit_eq]
  rfl

/-! ## What the changes of a point do to its frozen sale -/

@[simp] theorem Point.checkSlowDown_frozen (x : Point) : x.checkSlowDown.frozen = x.frozen := by
  obtain ⟨_, _, e⟩ := x.checkSlowDown_eq
  rw [e]

@[simp] theorem Point.startDelivery_frozen (x : Point) : x.startDelivery.frozen = x.frozen :=
  Point.checkSlowDown_frozen _

@[simp] theorem Point.enterStopping_frozen (x : Point) (reason : EndReason) :
    (x.enterStopping reason).frozen = x.frozen := rfl

@[simp] theorem Point.recount_frozen (x : Point) (e : Rates) (net : Nat) :
    (x.recount e net).frozen = x.frozen := by
  obtain ⟨_, he⟩ := Point.updateOverrun_eq { x with
    meter := { x.meter with net := net }, liveVolume := x.volumeAt e net
    liveMoney := x.moneyAt e (x.volumeAt e net) }
  exact (congrArg Point.frozen he).trans rfl

@[simp] theorem Point.compareMarks_frozen (x : Point) : x.compareMarks.frozen = x.frozen := by
  have htarget : x.checkSlowDown.checkTarget.frozen = x.frozen := by
    unfold Point.checkTarget
    split
    · split <;> simp
    · simp
  unfold Point.compareMarks
  split
  · exact htarget
  · exact htarget
  · rfl

@[simp] theorem Point.restartSettle_frozen (x : Point) : x.restartSettle.frozen = x.frozen := by
  unfold Point.restartSettle
  split <;> rfl

@[simp] theorem Point.restartNoFlow_frozen (x : Point) : x.restartNoFlow.frozen = x.frozen := by
  unfold Point.restartNoFlow
  split <;> rfl

@[simp] theorem Point.reportFault_frozen (x : Point) (k : FaultKind) : (x.reportFault k).frozen = x.frozen := by
  unfold Point.reportFault
  dsimp only
  split <;> rfl

@[simp] theorem Point.countReverse_frozen (x : Point) : x.countReverse.frozen = x.frozen := by
  unfold Point.countReverse
  dsimp only
  split <;> rfl

theorem Point.applyChange_frozen (x : Point) (e : Rates) (c : Change) : (x.applyChange e c).frozen = x.frozen := by
  have hforward : (x.forwardPulse e).frozen = x.frozen := by
    unfold Point.forwardPulse Point.discardPulse
    split
    · simp
    · split <;> simp
  have hreverse : (x.reversePulse e).frozen = x.frozen := by
    have hlower : (x.countReverse.lowerNet e).frozen = x.frozen := by
      unfold Point.lowerNet
      split <;> simp
    unfold Point.reversePulse
    dsimp only
    split <;> simp [hlower]
  have herror : x.phaseError.frozen = x.frozen := by
    unfold Point.phaseError
    dsimp only
    split <;> simp
  have hstray : x.strayPulse.frozen = x.frozen := by
    unfold Point.strayPulse
    dsimp only
    split
    · split <;> simp
    · rfl
  cases c <;> simp only [Point.applyChange]
  · split <;> assumption
  · split <;> assumption
  · split
    · assumption
    · rfl

/-- No reported change of a point touches its frozen sale (R132). -/
theorem PointMove.frozen {s : State} {p : PointNo} {f : Point → Point} (hf : PointMove s p f) (x : Point) :
    (f x).frozen = x.frozen := by
  cases hf with
  | lift =>
    unfold Point.lift
    split
    · rfl
    · dsimp only
      split
      · rfl
      · exact Point.startDelivery_frozen _
      · rfl
  | lower =>
    unfold Point.lower
    split
    · dsimp only
      split <;> rfl
    · rfl
  | take new =>
    show (x.takeChange (s.rates x) new).frozen = _
    unfold Point.takeChange
    split
    · split
      · rfl
      · exact Point.applyChange_frozen _ _ _
    · rfl
  | authExp =>
    unfold Point.authorizationExpiry
    split <;> rfl
  | noFlow =>
    unfold Point.noFlowExpiry
    split <;> rfl
  | emergency =>
    unfold Point.emergency
    split <;> rfl
  | authorize q a _ _ =>
    show (x.authorize a).frozen = _
    unfold Point.authorize
    split
    · exact Point.startDelivery_frozen _
    · rfl
  | drop | pause | resume | stopReq | clearFault | clearCreep => rfl

/-- No change of a definition touches the frozen sale (R132). -/
theorem PointRedefined.frozen {s : State} {p : PointNo} {f : Point → Point} (hf : PointRedefined s p f)
    (x : Point) : (f x).frozen = x.frozen := by
  cases hf <;> rfl

/-! ## The law of the queue, while the check word is good -/

/-- The frozen sales of the points. -/
def State.frozenOf (s : State) (p : PointNo) : Option FrozenSale := (s.point p).frozen

/-- What the queue holds by itself (R116, R124, R133). -/
structure PostingsOwn (s : State) : Prop where
  journal : s.rcu.running = true → s.dcu.journal = none
  queue : QueueLaw s.dcu.postings s.frozenOf

/-- What ties the queue to the points. -/
structure PostingsTied (s : State) : Prop where
  points : PointsLaw s
  own : PostingsOwn s
  settling : ∀ p, ¬ s.journaled p → (Posted s.dcu.postings p ↔ (s.point p).st = .settling)
  pointOfJournal : ∀ c, s.dcu.journal = some c →
    (s.point c.point).st = .settling ∨ (s.point c.point).st = .idle ∨ (s.point c.point).st = .faulted

theorem postingLaw_eq : PostingLaw = WhileGood PointsLaw PostingsOwn PostingsTied := by
  funext s
  refine propext ⟨fun h => ?_, fun h => ?_⟩
  · have hown : PostingsOwn s := ⟨h.journal, h.once, h.copies⟩
    exact ⟨h.trusted, h.points, hown, fun g => ⟨h.points, hown, h.settling g, h.pointOfJournal g⟩⟩
  · exact ⟨h.back, h.trusted, h.own.journal, h.own.queue.once, fun g => (h.good g).settling,
      h.own.queue.copies, fun g => (h.good g).pointOfJournal⟩

theorem PostingsOwn.congr {s t : State} (h : PostingsOwn s)
    (hjournal : t.rcu.running = true → s.rcu.running = true ∧ t.dcu.journal = s.dcu.journal)
    (hposts : t.dcu.postings.map Posting.untaken = s.dcu.postings.map Posting.untaken)
    (hfrozen : ∀ p, (t.point p).frozen = (s.point p).frozen) : PostingsOwn t := by
  refine ⟨fun hr => ?_, h.queue.congr hposts hfrozen⟩
  obtain ⟨hr, e⟩ := hjournal hr
  rw [e]
  exact h.journal hr

/-- The laws read the states and the frozen sales of the points, and the queue but for TAKEN. -/
theorem PostingsTied.congr {s t : State} (h : PostingsTied s) (hpoints : PointsLaw t)
    (hrunning : t.rcu.running = true → s.rcu.running = true) (hjournal : t.dcu.journal = s.dcu.journal)
    (hposts : t.dcu.postings.map Posting.untaken = s.dcu.postings.map Posting.untaken)
    (hst : ∀ p, (t.point p).st = (s.point p).st) (hfrozen : ∀ p, (t.point p).frozen = (s.point p).frozen) :
    PostingsTied t := by
  refine ⟨hpoints, h.own.congr (fun hr => ⟨hrunning hr, hjournal⟩) hposts hfrozen, fun p hp => ?_, fun c hc => ?_⟩
  · rw [posted_of_untaken hposts, hst]
    refine h.settling p (fun hj => hp ?_)
    unfold State.journaled at hj ⊢
    rwa [hjournal]
  · rw [hst]
    exact h.pointOfJournal c (hjournal ▸ hc)

/-- A running part, whose journal is EMPTY, keeps the laws where each point with a posting holds a frozen
sale and no other point does. -/
theorem PostingsTied.of_running {t : State} (hpoints : PointsLaw t) (hjournal : t.dcu.journal = none)
    (hqueue : QueueLaw t.dcu.postings t.frozenOf)
    (hposted : ∀ p, Posted t.dcu.postings p ↔ (t.frozenOf p).isSome = true) : PostingsTied t := by
  refine ⟨hpoints, ⟨fun _ => hjournal, hqueue⟩, fun p _ => ?_, fun c hc => ?_⟩
  · rw [hposted, ← (hpoints.points p).frozen]
    rfl
  · rw [hjournal] at hc
    cases hc

theorem PostingsTied.posted_iff_frozen {s : State} (h : PostingsTied s) (hjournal : s.dcu.journal = none)
    (p : PointNo) : Posted s.dcu.postings p ↔ (s.frozenOf p).isSome = true := by
  have hp : ¬ s.journaled p := by
    rintro ⟨c, hc, -⟩
    rw [hjournal] at hc
    cases hc
  rw [h.settling p hp, ← (h.points.points p).frozen]
  rfl

/-- A change of one point that leaves its frozen sale alone. -/
theorem PostingsTied.changePoint {s t : State} (h : PostingsTied s) (hr : s.rcu.running = true)
    (hpoints : PointsLaw t) (hdcu : t.dcu = s.dcu) (hfrozen : ∀ p, (t.point p).frozen = (s.point p).frozen) :
    PostingsTied t := by
  have hj := h.own.journal hr
  refine .of_running hpoints (by rw [hdcu, hj]) ?_ (fun p => ?_) <;> rw [hdcu]
  · exact h.own.queue.congr rfl hfrozen
  · rw [h.posted_iff_frozen hj, State.frozenOf, State.frozenOf, hfrozen]

/-- A point that a cut, a commit or a start finds in SETTLING, IDLE or FAULTED is out of SETTLING after it. -/
theorem Point.leaveSettling_st {x : Point} (h : x.st = .settling ∨ x.st = .idle ∨ x.st = .faulted) :
    x.leaveSettling.st = .idle ∨ x.leaveSettling.st = .faulted := by
  unfold Point.leaveSettling
  rcases h with h | h | h <;> rw [h] <;> dsimp only
  · split <;> simp
  · simp [h]
  · simp [h]

theorem Point.leaveSettling_frozen (x : Point) :
    x.leaveSettling.frozen = x.frozen ∨ x.leaveSettling.frozen = none := by
  unfold Point.leaveSettling
  split
  · exact .inr rfl
  · exact .inl rfl

theorem Point.leaveSettling_frozen_of_settling {x : Point} (h : x.st = .settling) :
    x.leaveSettling.frozen = none := by
  simp [Point.leaveSettling, h]

/-- A point outside SETTLING, with no commit in the journal, freezes its sale and submits its posting
(R20, R133, R171). -/
theorem PostingsTied.settle {s t : State} (h : PostingsTied s) (hpoints : PointsLaw t) {f : FrozenSale}
    (hfree : ¬ s.journaled f.point) (hst : (s.point f.point).st ≠ .settling)
    (hrunning : t.rcu.running = true → s.rcu.running = true) (hjournal : t.dcu.journal = s.dcu.journal)
    (hposts : t.dcu.postings.map Posting.untaken = (s.dcu.postings ++ [f.posting]).map Posting.untaken)
    (hf : (t.point f.point).frozen = some f)
    (hothers : ∀ p, p ≠ f.point → t.point p = s.point p) : PostingsTied t := by
  have hnew : ¬ Posted s.dcu.postings f.point := by
    rwa [h.settling f.point hfree]
  have hsettling : (t.point f.point).st = .settling := (hpoints.points f.point).frozen.mp (by simp [hf])
  refine ⟨hpoints, ⟨fun hr => ?_, ?_⟩, fun p hp => ?_, fun c hc => ?_⟩
  · rw [hjournal]
    exact h.own.journal (hrunning hr)
  · exact (h.own.queue.submit (frozen' := t.frozenOf) hnew hf
      (fun p hp => congrArg Point.frozen (hothers p hp))).congr hposts (fun _ => rfl)
  · rw [posted_of_untaken hposts, posted_append]
    by_cases e : p = f.point
    · subst e
      simp [hsettling, FrozenSale.posting]
    · have hne : ¬ f.posting.point = p := fun e' => e e'.symm
      have hp' : ¬ s.journaled p := fun hj => hp (by unfold State.journaled at hj ⊢; rwa [hjournal])
      simp [hothers p e, hne, h.settling p hp']
  · have hc' : s.dcu.journal = some c := hjournal ▸ hc
    have hne : c.point ≠ f.point := fun e => hfree ⟨c, hc', e⟩
    rw [hothers _ hne]
    exact h.pointOfJournal c hc'

theorem PostingsTied.not_journaled {s : State} (h : PostingsTied s) (hr : s.rcu.running = true)
    (p : PointNo) : ¬ s.journaled p := by
  rintro ⟨c, hc, -⟩
  rw [h.own.journal hr] at hc
  cases hc

/-- The event that ends STOPPING (R20). -/
theorem PostingsTied.settlePoint {s : State} (h : PostingsTied s) (hr : s.rcu.running = true) {p : PointNo}
    (hst : (s.point p).st = .stopping) {f : Point → Point} (hf : f = id ∨ f = Point.flowAfterStop) :
    PostingsTied (s.settlePoint p f) := by
  have hauth : (s.point p).auth.isSome = true :=
    (h.points.points p).auth.mpr (by simp [hst, PtState.holdsAuth])
  obtain ⟨a, ha⟩ := Option.isSome_iff_exists.mp hauth
  have hfrozen : ((f (s.point p)).enterSettling p).frozen = some ((f (s.point p)).saleOf p a) := by
    have : (f (s.point p)).auth = some a := by rcases hf with rfl | rfl <;> exact ha
    simp [Point.enterSettling, this]
  have hpoint := fun q => s.settlePoint_point p q f
  have hposts : (s.settlePoint p f).dcu.postings.map Posting.untaken =
      (s.dcu.postings ++ [((f (s.point p)).saleOf p a).posting]).map Posting.untaken := by
    unfold State.settlePoint
    rw [State.choose_untaken, State.submit_postings, State.movePoint_point, if_pos rfl, hfrozen,
      State.movePoint_dcu]
    rfl
  refine h.settle (f := (f (s.point p)).saleOf p a) (pointsLaw_kept.settle s p f h.points hr hst hf)
    (h.not_journaled hr _) ?_ (fun _ => hr) ?_ hposts ?_ (fun q hq => ?_)
  · show (s.point p).st ≠ _
    simp [hst]
  · unfold State.settlePoint
    rw [State.choose_journal, State.submit_rest]
    simp
  · show ((s.settlePoint p f).point p).frozen = _
    rw [hpoint, if_pos rfl, hfrozen]
  · have hq : q ≠ p := hq
    rw [hpoint, if_neg hq]

/-- The commit of the TAKEN posting (R123). -/
theorem PostingsTied.commitPosting {s : State} (h : PostingsTied s) (ho : s.operating = true)
    {q : Posting} {f : FrozenSale} (hq : s.takenSale = some (q, f)) : PostingsTied (s.commitPosting q f) := by
  have hr := State.running_of_operating ho
  have hj := h.own.journal hr
  obtain ⟨-, -, hf⟩ := State.takenSale_some hq
  have hst : (s.point q.point).st = .settling := (h.points.points _).frozen.mp (by simp [hf])
  have hpoint := s.commitPosting_point q f
  have hposts : (s.commitPosting q f).dcu.postings.map Posting.untaken =
      (s.dcu.postings.filter (fun e => decide (e.point ≠ q.point))).map Posting.untaken := by
    rw [State.commitPosting_eq, State.choose_untaken]
    rfl
  have hfrozen : ∀ p, (s.commitPosting q f).frozenOf p = if p = q.point then none else s.frozenOf p := by
    intro p
    unfold State.frozenOf
    rw [hpoint]
    split
    · next e =>
      subst e
      exact Point.leaveSettling_frozen_of_settling hst
    · rfl
  refine .of_running (pointsLaw_kept.commit s q f h.points ho hq) ?_ ?_ (fun p => ?_)
  · rw [State.commitPosting_eq, State.choose_journal]
  · refine ((h.own.queue.fade (frozen' := (s.commitPosting q f).frozenOf) fun p => ?_).filter
      (fun e => decide (e.point ≠ q.point))).congr hposts (fun _ => rfl)
    rw [hfrozen]
    split
    · exact .inr rfl
    · exact .inl rfl
  · rw [posted_of_untaken hposts, posted_filter, h.posted_iff_frozen hj, hfrozen]
    by_cases e : p = q.point <;> simp [e]

/-! ## Cuts and starts -/

theorem firstStep_untaken (s : State) :
    s.firstStep.dcu.postings.map Posting.untaken = s.dcu.postings.map Posting.untaken := by
  show (s.dcu.postings.map Posting.untaken).map Posting.untaken = _
  rw [List.map_map]
  rfl

theorem PostingsTied.firstStep {s : State} (h : PostingsTied s) : PostingsTied s.firstStep := by
  refine h.congr (.firstStep_of h.points.points) (fun hr => by cases hr) rfl (firstStep_untaken s)
    (fun p => ?_) (fun p => ?_) <;> rw [State.firstStep_point] <;> rfl

/-- A cut leaves the point whose commit stands in the journal in SETTLING or out of it (R124, R167). -/
theorem PostingsTied.cut {s : State} (h : PostingsTied s) (ho : s.operating = true) (cut : CommitCut) :
    PostingsTied (s.cutCommit cut).firstStep := by
  have hr := State.running_of_operating ho
  have hpoints := pointsLaw_kept.cut s cut h.points ho
  rcases s.cutCommit_cases cut with e | ⟨q, f, hq, hjournal, hposts, -, hpoint⟩
  · rw [e]
    exact h.firstStep
  · obtain ⟨-, -, hf⟩ := State.takenSale_some hq
    have hst : (s.point q.point).st = .settling := (h.points.points _).frozen.mp (by simp [hf])
    have hfirst := fun p => (s.cutCommit cut).firstStep_point p
    have hfade : QueueLaw s.dcu.postings (s.cutCommit cut).firstStep.frozenOf := by
      refine h.own.queue.fade fun p => ?_
      unfold State.frozenOf
      rw [hfirst]
      show ((s.cutCommit cut).point p).frozen = _ ∨ ((s.cutCommit cut).point p).frozen = _
      rcases hpoint p with e | ⟨-, e⟩ <;> rw [e]
      · exact .inl rfl
      · exact Point.leaveSettling_frozen _
    refine ⟨hpoints, ⟨fun hr' => (by cases hr'), ?_⟩, fun p hp => ?_, fun c hc => ?_⟩
    · rcases hposts with e | e
      · exact hfade.congr ((firstStep_untaken _).trans (by rw [e])) (fun _ => rfl)
      · exact (hfade.filter _).congr ((firstStep_untaken _).trans (by rw [e])) (fun _ => rfl)
    · have hne : p ≠ q.point := fun e => hp ⟨_, hjournal, e.symm⟩
      have hsame : (s.cutCommit cut).point p = s.point p := by
        rcases hpoint p with e | ⟨e, -⟩
        · exact e
        · exact absurd e hne
      rw [posted_of_untaken (firstStep_untaken _), hfirst, show
        ((s.cutCommit cut).point p).firstStep.st = ((s.cutCommit cut).point p).st from rfl, hsame,
        ← h.settling p (h.not_journaled hr p)]
      rcases hposts with e | e <;> rw [e]
      rw [posted_filter]
      simp [hne]
    · have hc : (s.cutCommit cut).dcu.journal = some c := hc
      rw [hjournal] at hc
      cases hc
      rw [hfirst]
      show ((s.cutCommit cut).point q.point).st = _ ∨ ((s.cutCommit cut).point q.point).st = _ ∨
        ((s.cutCommit cut).point q.point).st = _
      rcases hpoint q.point with e | ⟨-, e⟩ <;> rw [e]
      · exact .inl hst
      · exact .inr (Point.leaveSettling_st (.inl hst))

/-- Warm step 1 (R171). -/
theorem PostingsTied.warmJournal {s : State} (h : PostingsTied s) (hpoints : PointsLaw s.warmJournal)
    (hr : s.rcu.running = false) : PostingsTied s.warmJournal := by
  unfold State.warmJournal at hpoints ⊢
  split at hpoints
  · next r hj =>
    have hst := h.pointOfJournal r hj
    have hpoint := s.completeCommit_point r
    have hposts : (s.completeCommit r).dcu.postings =
        s.dcu.postings.filter (fun e => decide (e.point ≠ r.point)) := by
      rw [State.completeCommit_eq]
      rfl
    refine ⟨hpoints, ⟨fun hr' => ?_, ?_⟩, fun p _ => ?_, fun c hc => ?_⟩
    · rw [State.completeCommit_eq] at hr'
      exact absurd hr' (by simp [hr])
    · rw [hposts]
      refine (h.own.queue.fade fun p => ?_).filter _
      unfold State.frozenOf
      rw [hpoint]
      split
      · exact Point.leaveSettling_frozen _
      · exact .inl rfl
    · rw [hposts, posted_filter, hpoint]
      by_cases e : p = r.point
      · subst e
        rcases Point.leaveSettling_st hst with e | e <;> simp [e]
      · have hp : ¬ s.journaled p := by
          rintro ⟨c, hc, hcp⟩
          rw [hj] at hc
          cases hc
          exact e hcp.symm
        simp [e, h.settling p hp]
    · rw [State.completeCommit_eq] at hc
      cases hc
  · exact h

/-- A point without a delivery keeps its frozen sale and its place through warm step 2. -/
theorem Point.warmed_of_not_counting {x : Point} (p : PointNo) (h : x.st.counting = false) :
    (x.warmed p).frozen = x.frozen ∧ ((x.warmed p).st = .settling ↔ x.st = .settling) ∧
    x.powerPosting p = none := by
  refine ⟨?_, ?_, by simp [Point.powerPosting, h]⟩ <;> unfold Point.warmed <;>
    cases hst : x.st <;> simp [hst, PtState.counting] at h ⊢

theorem Point.warmed_of_resting {x : Point} (p : PointNo)
    (h : x.st = .settling ∨ x.st = .idle ∨ x.st = .faulted) : x.warmed p = x := by
  unfold Point.warmed
  rcases h with h | h | h <;> rw [h]

/-- A point in a delivery submits the posting of the sale that warm step 2 freezes (R133, R171). -/
theorem Point.warmed_of_delivery {x : Point} {p : PointNo} {a : AuthRecord} (h : x.st.counting = true)
    (ha : x.auth = some a) : (x.warmed p).frozen = some (x.powerEnd.saleOf p a) ∧
      x.powerPosting p = some (x.powerEnd.saleOf p a).posting := by
  have hst : x.st = .delivering ∨ x.st = .paused ∨ x.st = .stopping := by
    cases hst : x.st <;> simp [hst, PtState.counting] at h <;> simp
  rw [← Point.warmed_of_counting x p hst]
  simp [Point.enterSettling, Point.powerPosting, h, ha, Point.saleOf, FrozenSale.posting, Point.powerEnd]

/-- Warm step 2 at one point (R171). -/
theorem PostingsTied.warmPoint {s : State} (h : PostingsTied s) {p : PointNo}
    (hpoints : PointsLaw (s.warmPoint p)) : PostingsTied (s.warmPoint p) := by
  have hpoint := fun q => s.warmPoint_point p q
  have hrun : (s.warmPoint p).rcu.running = true → s.rcu.running = true := by
    rw [State.warmPoint_rest]
    exact id
  have hjournal : (s.warmPoint p).dcu.journal = s.dcu.journal := by rw [State.warmPoint_rest]
  have hposts : (s.warmPoint p).dcu.postings =
      s.dcu.postings ++ ((s.point p).powerPosting p).toList := by rw [State.warmPoint_rest]
  cases hc : (s.point p).st.counting with
  | false =>
    obtain ⟨hfrozen, hsettling, hpost⟩ := Point.warmed_of_not_counting p hc
    rw [hpost, Option.toList_none, List.append_nil] at hposts
    refine ⟨hpoints, h.own.congr (fun hr' => ⟨hrun hr', hjournal⟩) (by rw [hposts]) (fun q => ?_),
      fun q hq => ?_, fun c hc => ?_⟩
    · rw [hpoint]
      split
      · next e => rw [e]; exact hfrozen
      · rfl
    · have hq' : ¬ s.journaled q := fun hj => hq (by unfold State.journaled at hj ⊢; rwa [hjournal])
      rw [hposts, h.settling q hq', hpoint]
      split
      · next e => rw [e]; exact hsettling.symm
      · rfl
    · have hstate := h.pointOfJournal c (hjournal ▸ hc)
      rw [hpoint]
      split
      · next e => rw [← e, Point.warmed_of_resting _ hstate]; exact hstate
      · exact hstate
  | true =>
    have hst : (s.point p).st.holdsAuth = true ∧ (s.point p).st ≠ .settling ∧ (s.point p).st ≠ .idle ∧
        (s.point p).st ≠ .faulted := by
      cases hst : (s.point p).st <;> simp [hst, PtState.counting] at hc <;> simp [PtState.holdsAuth]
    obtain ⟨hholds, hns, hni, hnf⟩ := hst
    obtain ⟨a, ha⟩ := Option.isSome_iff_exists.mp ((h.points.points p).auth.mpr hholds)
    obtain ⟨hfrozen, hpost⟩ := Point.warmed_of_delivery (p := p) hc ha
    rw [hpost] at hposts
    have hfree : ¬ s.journaled p := by
      rintro ⟨c, hcj, rfl⟩
      rcases h.pointOfJournal c hcj with e | e | e
      · exact hns e
      · exact hni e
      · exact hnf e
    refine h.settle (f := (s.point p).powerEnd.saleOf p a) hpoints hfree hns hrun hjournal
      (by rw [hposts]; rfl) ?_ (fun q hq => ?_)
    · show ((s.warmPoint p).point p).frozen = _
      rw [hpoint, if_pos rfl, hfrozen]
    · rw [hpoint]
      exact if_neg hq

theorem PostingsTied.warmStep {s : State} (h : PostingsTied s) (hr : s.rcu.running = false)
    {f : State → State} (hf : f ∈ warmPath) : PostingsTied (f s) := by
  have hpoints := h.points.warmStep hr hf
  rcases mem_warmPath hf with rfl | ⟨p, rfl⟩ | ⟨k, rfl⟩
  · exact h.warmJournal hpoints hr
  · exact h.warmPoint hpoints
  · refine h.congr hpoints ?_ ?_ ?_ (fun p => ?_) (fun p => ?_)
    · rw [State.warmPrice_rest]; exact id
    · rw [State.warmPrice_rest]
    · rw [State.warmPrice_rest]
    · simp [State.warmPrice]
    · simp [State.warmPrice]

/-- The final step (R172). -/
theorem PostingsTied.finalStep {s : State} (h : PostingsTied s) (hpoints : PointsLaw s.finalStep)
    (hjournal : s.dcu.journal = none) : PostingsTied s.finalStep := by
  have hfrozen : ∀ p, (s.finalStep.point p).frozen = (s.point p).frozen := fun p => by
    rw [State.finalStep_point]
    rfl
  have hposts : s.finalStep.dcu.postings.map Posting.untaken = s.dcu.postings.map Posting.untaken := by
    rw [State.finalStep_eq, State.choose_untaken]
  refine .of_running hpoints ?_ (h.own.queue.congr hposts hfrozen) (fun p => ?_)
  · rw [State.finalStep_eq, State.choose_journal]
    exact hjournal
  · rw [posted_of_untaken hposts, h.posted_iff_frozen hjournal, State.frozenOf, State.frozenOf, hfrozen]

/-! ## Every step -/

/-- Where the points and the journal stay, a move of the unit keeps the laws if it keeps the queue but for
TAKEN. -/
theorem PostingsTied.of_unit {s t : State} (h : PostingsTied s) (hpoints : PointsLaw t)
    (hpoint : ∀ p, t.point p = s.point p) (hrcu : t.rcu = s.rcu) (hjournal : t.dcu.journal = s.dcu.journal)
    (hposts : t.dcu.postings.map Posting.untaken = s.dcu.postings.map Posting.untaken) : PostingsTied t :=
  h.congr hpoints (fun hr => by rwa [hrcu] at hr) hjournal hposts (fun p => by rw [hpoint])
    (fun p => by rw [hpoint])

theorem postingsTied_kept : KeptWhileGood False PostingsTied where
  link s l h := h.of_unit (pointsLaw_kept.link s l h.points) (fun _ => rfl) rfl rfl rfl
  pins s n hv hr h := h.of_unit (pointsLaw_kept.pins s n hv hr h.points) (fun _ => rfl) rfl rfl rfl
  power s b h :=
    h.congr (pointsLaw_kept.power s b h.points) id rfl rfl (fun _ => rfl) (fun _ => rfl)
  move s p f h hr hf := h.changePoint hr (pointsLaw_kept.move s p f h.points hr hf) (by simp) (fun q => by
    rw [State.movePoint_point]
    split
    · next e => rw [e]; exact hf.frozen _
    · rfl)
  mod s p f h hr hj hf := h.changePoint hr (pointsLaw_kept.mod s p f h.points hr hj hf) rfl (fun q => by
    rw [State.modPoint_point]
    split
    · next e => rw [e]; exact hf.frozen _
    · rfl)
  flags s h := h.congr (pointsLaw_kept.flags s h.points) id rfl rfl
    (fun p => by rw [State.modAllPoints_point]) (fun p => by rw [State.modAllPoints_point])
  settle _ _ _ h hr hst hf := h.settlePoint hr hst hf
  product s k r h h1 h2 h3 :=
    h.of_unit (pointsLaw_kept.product s k r h.points h1 h2 h3) (fun _ => rfl) rfl rfl rfl
  price s k r c h h1 h2 := h.of_unit (pointsLaw_kept.price s k r c h.points h1 h2) (fun _ => rfl) rfl rfl rfl
  stage s k r c h h1 h2 := h.of_unit (pointsLaw_kept.stage s k r c h.points h1 h2) (fun _ => rfl) rfl rfl rfl
  remove s n h hr := h.of_unit (pointsLaw_kept.remove s n h.points hr) (fun _ => rfl) rfl rfl rfl
  accept s req h ho hj hr hp := h.of_unit (pointsLaw_kept.accept s req h.points ho hj hr hp)
    (fun p => by simp [State.acceptJob]) (by simp [State.acceptJob]) (by simp [State.acceptJob])
    (by rw [State.acceptJob, State.choose_untaken]; rfl)
  complete s j h ho hj := by
    obtain ⟨link, tally, held, timer, e⟩ := s.completeJob_eq j
    refine h.of_unit (pointsLaw_kept.complete s j h.points ho hj) (fun p => ?_) ?_ ?_ ?_ <;> rw [e]
    · rw [State.choose_point]; rfl
    · rw [State.choose_rcu]
    · rw [State.choose_journal]
    · rw [State.choose_untaken]
  suspend s j h ho hj hs := h.of_unit (pointsLaw_kept.suspend s j h.points ho hj hs)
    (fun p => by simp [State.suspendJob]) (by simp [State.suspendJob]) (by simp [State.suspendJob])
    (by rw [State.suspendJob, State.choose_untaken]; rfl)
  commit _ _ _ h ho hq := h.commitPosting ho hq
  hold s h ho := h.of_unit (pointsLaw_kept.hold s h.points ho) (fun p => by simp [State.expireHold])
    (by simp [State.expireHold]) (by simp [State.expireHold])
    (by rw [State.expireHold, State.choose_untaken]; rfl)
  first _ h := h.firstStep
  cut _ c h ho := h.cut ho c
  dark s n hr h :=
    h.of_unit (pointsLaw_kept.dark s n (fun _ => hr) h.points) (fun _ => rfl) rfl rfl rfl
  path _ _ hr _ h hf := h.warmStep hr hf
  final s hr hv hn hg h hj hrest hstaged :=
    h.finalStep (pointsLaw_kept.final s (fun _ => ⟨hr, hv, hn⟩) hg h.points hj hrest hstaged) hj

theorem QueueLaw.nil (frozen : PointNo → Option FrozenSale) : QueueLaw [] frozen :=
  ⟨List.nodup_nil, fun _ hq => by cases hq⟩

theorem postingsOwn_kept : KeptByBlocks PostingsOwn where
  link _ _ h := ⟨h.journal, h.queue⟩
  pins _ _ h := ⟨h.journal, h.queue⟩
  rcu _ _ hr h := ⟨fun hr' => h.journal (hr ▸ hr'), h.queue⟩
  flags s h := h.congr (fun hr => ⟨hr, rfl⟩) rfl (fun p => by rw [State.modAllPoints_point])
  product _ _ _ h _ := ⟨h.journal, h.queue⟩
  price _ _ _ _ h _ := ⟨h.journal, h.queue⟩
  stage _ _ _ _ h _ := ⟨h.journal, h.queue⟩
  first s h := h.congr (fun hr => by cases hr) (firstStep_untaken s)
    (fun p => by rw [State.firstStep_point]; rfl)
  cold s mark f hr h hf := by
    cases hf with
    | point q =>
      refine ⟨fun hr' => absurd (hr ▸ hr') (by simp), h.queue.fade fun p => ?_⟩
      unfold State.frozenOf
      rw [State.point_setPoint_ite]
      split
      · exact .inr rfl
      · exact .inl rfl
    | dcu => exact ⟨fun _ => rfl, QueueLaw.nil _⟩
    | enable | products | tally | sales | mark => exact ⟨h.journal, h.queue⟩

/-- The cold defaults hold no posting and no point in SETTLING (R91, R131). -/
theorem postingsTied_coldDefaults {s : State} (mark : Bool) (hr : s.rcu.running = false)
    (h : PointsLaw (s.coldDefaults mark)) :
    PostingsTied ((s.coldDefaults mark).setCheck true) := by
  refine ⟨pointsLaw_kept.good s mark (fun _ => hr) h, ⟨fun _ => rfl, QueueLaw.nil _⟩, fun p _ => ?_,
    fun c hc => by cases hc⟩
  have hcold : ((s.coldDefaults mark).setCheck true).point p = Point.cold := s.coldDefaults_point mark p
  rw [hcold]
  simp [Posted, State.setCheck, State.coldDefaults, Dcu.cold, Point.cold]

theorem postingLaw_kept : KeptBySteps False True PostingLaw := by
  rw [postingLaw_eq]
  exact KeptBySteps.whileGood postingsTied_kept pointsLaw_kept postingsOwn_kept (fun _ h => h.own)
    (fun _ mark hr h => postingsTied_coldDefaults mark hr h)

/-- Settles O57: a point's posting enters the queue in the move that freezes its sale and leaves it in the
commit that takes the point out of SETTLING, and every other move leaves both alone. -/
theorem stepKeepsPostingLaw : Obligations.StepKeepsPostingLaw := by
  unfold Obligations.StepKeepsPostingLaw
  intro s t h e
  refine step_keeps h e (fun rest h => ?_) (fun c u hu he =>
    exec_kept postingLaw_kept c u t hu (fun f => f.elim) (fun _ => hu.points.powered) he)
  exact ⟨h.points.congr rfl rfl rfl (fun _ => rfl), h.trusted, h.journal, h.once, h.settling, h.copies,
    h.pointOfJournal⟩

end Sys2Proof.Machine

/-! # Proofs: the bounds and numbers of the Sale Queue (Chapters 8 and 10) -/

namespace Sys2Proof.Machine

/-! ## Sale numbers (R137) -/

/-- The number that stands i places after another, going on from 65535 to 1. -/
def numberAfter (n i : Nat) : Nat := if n + i ≤ 65535 then n + i else n + i - 65535

theorem numberAfter_succNumber {n i : Nat} (hn : 1 ≤ n ∧ n ≤ 65535) (hi : i < 65535) :
    numberAfter (succNumber n) i = numberAfter n (i + 1) := by
  unfold numberAfter succNumber Config.saleNumberMax
  split <;> split <;> split <;> omega

theorem succNumber_range {n : Nat} (hn : 1 ≤ n ∧ n ≤ 65535) : 1 ≤ succNumber n ∧ succNumber n ≤ 65535 := by
  unfold succNumber Config.saleNumberMax
  split <;> omega

theorem numberAfter_range {n i : Nat} (hn : 1 ≤ n ∧ n ≤ 65535) (hi : i < 65535) :
    1 ≤ numberAfter n i ∧ numberAfter n i ≤ 65535 := by
  unfold numberAfter
  split <;> omega

/-- Fewer than 65535 numbers in a row are distinct. -/
theorem numberAfter_injective {n i j : Nat} (hn : 1 ≤ n ∧ n ≤ 65535) (hi : i < 65535) (hj : j < 65535)
    (h : numberAfter n i = numberAfter n j) : i = j := by
  unfold numberAfter at h
  split at h <;> split at h <;> omega

/-- The search passes numbers that records hold, and stops at one that none holds or with its fuel. -/
theorem freeNumber_search (records : List SaleRecord) (fuel : Nat) (hfuel : fuel < 65535) {n : Nat}
    (hn : 1 ≤ n ∧ n ≤ 65535) : ∃ k, k ≤ fuel ∧ freeNumber records fuel n = numberAfter n k ∧
      (∀ i, i < k → ∃ e, e ∈ records ∧ e.number = numberAfter n i) ∧
      (k < fuel → ∀ e, e ∈ records → e.number ≠ numberAfter n k) := by
  induction fuel generalizing n with
  | zero => exact ⟨0, le_rfl, by simp [freeNumber, numberAfter, hn.2], by simp, by simp⟩
  | succ fuel ih =>
    have hself : numberAfter n 0 = n := by simp [numberAfter, hn.2]
    unfold freeNumber
    split
    · next hheld =>
      simp only [List.any_eq_true, decide_eq_true_eq] at hheld
      obtain ⟨k, hk, he, hpassed, hfree⟩ := ih (by omega) (succNumber_range hn)
      refine ⟨k + 1, by omega, by rw [he, numberAfter_succNumber hn (by omega)], fun i hi => ?_, fun hlt => ?_⟩
      · cases i with
        | zero => rw [hself]; exact hheld
        | succ i =>
          rw [← numberAfter_succNumber hn (by omega)]
          exact hpassed i (by omega)
      · rw [← numberAfter_succNumber hn (by omega)]
        exact hfree (by omega)
    · next hheld =>
      simp only [List.any_eq_true, decide_eq_true_eq, not_exists, not_and] at hheld
      exact ⟨0, by omega, by rw [hself], by simp, fun _ e he => by rw [hself]; exact hheld e he⟩

/-- The next commit's number is the first from the next sale number that no record holds: as many numbers
in a row as there are records, and one more, cannot all be held (R137). -/
theorem SaleQueue.assign_spec (q : SaleQueue) (hlength : q.records.length ≤ 8)
    (hnext : 1 ≤ q.nextSale ∧ q.nextSale ≤ 65535) : ∃ k, k < 65535 ∧ q.assign = numberAfter q.nextSale k ∧
      (∀ i, i < k → ∃ e, e ∈ q.records ∧ e.number = numberAfter q.nextSale i) ∧
      ∀ e, e ∈ q.records → e.number ≠ q.assign := by
  obtain ⟨k, hk, he, hpassed, hfree⟩ := freeNumber_search q.records q.records.length (by omega) hnext
  refine ⟨k, by omega, he, hpassed, fun e hmem hnumber => ?_⟩
  have hassign : q.assign = numberAfter q.nextSale k := he
  rcases Nat.lt_or_eq_of_le hk with hlt | heq
  · exact hfree hlt e hmem (hnumber.trans hassign)
  · have hall : (List.range (k + 1)).map (numberAfter q.nextSale) ⊆ q.records.map (·.number) := by
      intro m hm
      obtain ⟨i, hi, rfl⟩ := List.mem_map.mp hm
      rcases Nat.lt_or_eq_of_le (Nat.lt_succ_iff.mp (List.mem_range.mp hi)) with hlt | rfl
      · obtain ⟨r, hr, e⟩ := hpassed i hlt
        exact List.mem_map.mpr ⟨r, hr, e⟩
      · exact List.mem_map.mpr ⟨e, hmem, hnumber.trans hassign⟩
    have hnodup : ((List.range (k + 1)).map (numberAfter q.nextSale)).Nodup := by
      refine List.Nodup.map_on (fun i hi j hj h => ?_) List.nodup_range
      rw [List.mem_range] at hi hj
      exact numberAfter_injective hnext (by omega) (by omega) h
    have hcount := (hnodup.subperm hall).length_le
    simp only [List.length_map, List.length_range] at hcount
    omega

/-! ## The records of a point -/

/-- How many of the records are of point p. -/
def salesIn (records : List SaleRecord) (p : PointNo) : Nat :=
  (records.filter (fun r => decide (r.sale.point = p))).length

theorem State.salesOf_eq (s : State) (p : PointNo) : s.salesOf p = salesIn s.sales.records p := rfl

theorem salesIn_append (records : List SaleRecord) (r : SaleRecord) (p : PointNo) :
    salesIn (records ++ [r]) p = salesIn records p + if r.sale.point = p then 1 else 0 := by
  unfold salesIn
  rw [List.filter_append, List.length_append]
  split <;> simp_all

/-- The records of the four points are all the records (R135). -/
theorem length_eq_salesIn (records : List SaleRecord) : records.length =
    salesIn records 0 + salesIn records 1 + salesIn records 2 + salesIn records 3 := by
  induction records with
  | nil => rfl
  | cons r rest ih =>
    have hcons : ∀ p, salesIn (r :: rest) p = salesIn rest p + if r.sale.point = p then 1 else 0 := by
      intro p
      unfold salesIn
      rw [List.filter_cons]
      split <;> simp_all
    rw [List.length_cons, ih, hcons, hcons, hcons, hcons]
    have hp : r.sale.point = 0 ∨ r.sale.point = 1 ∨ r.sale.point = 2 ∨ r.sale.point = 3 := by
      generalize r.sale.point = p
      revert p
      decide
    rcases hp with e | e | e | e <;> simp [e] <;> omega

/-! ## The law of the queue -/

/-- What the queue and the commit record hold by themselves (R135 to R137). -/
structure SalesOwn (s : State) : Prop where
  two : ∀ p, s.salesOf p ≤ 2
  numbers : (s.sales.records.map (·.number)).Nodup
  range : ∀ r, r ∈ s.sales.records → 1 ≤ r.number ∧ r.number ≤ 65535
  next : 1 ≤ s.sales.nextSale ∧ s.sales.nextSale ≤ 65535
  journal : ∀ c, s.dcu.journal = some c →
    c.record.sale.point = c.point ∧ (1 ≤ c.record.number ∧ c.record.number ≤ 65535) ∧
    (1 ≤ c.nextSale ∧ c.nextSale ≤ 65535) ∧
    ((∀ r, r ∈ s.sales.records → r.number ≠ c.record.number) → s.salesOf c.point ≤ 1)

/-- Two records a point are at most eight (R135). -/
theorem SalesOwn.eight {s : State} (h : SalesOwn s) : s.sales.records.length ≤ 8 := by
  have h0 := h.two 0
  have h1 := h.two 1
  have h2 := h.two 2
  have h3 := h.two 3
  simp only [State.salesOf_eq] at h0 h1 h2 h3
  rw [length_eq_salesIn]
  omega

theorem SalesOwn.congr {s t : State} (h : SalesOwn s) (hsales : t.sales = s.sales)
    (hjournal : ∀ c, t.dcu.journal = some c → s.dcu.journal = some c) : SalesOwn t := by
  obtain ⟨htwo, hnumbers, hrange, hnext, hj⟩ := h
  refine ⟨?_, ?_, ?_, ?_, fun c hc => ?_⟩
  · simpa only [State.salesOf, hsales] using htwo
  · rw [hsales]; exact hnumbers
  · rw [hsales]; exact hrange
  · rw [hsales]; exact hnext
  · simpa only [State.salesOf, hsales] using hj c (hjournal c hc)

/-- Taking a record out leaves a lawful queue, where no commit stands in the journal (R140). -/
theorem SalesOwn.remove {s : State} (h : SalesOwn s) (hjournal : s.dcu.journal = none) (n : Nat) :
    SalesOwn (s.modSales (fun q => q.remove n)) := by
  have hsub : (s.sales.remove n).records.Sublist s.sales.records := List.filter_sublist
  refine ⟨fun p => ?_, h.numbers.sublist (hsub.map _), fun r hr => h.range r (hsub.subset hr), h.next,
    fun c hc => ?_⟩
  · exact (hsub.filter _).length_le.trans (h.two p)
  · have hc : s.dcu.journal = some c := hc
    rw [hjournal] at hc
    cases hc

/-- The record of a commit joins the queue or stands in it (R124, R136). -/
theorem SalesOwn.append {s : State} (h : SalesOwn s) {c : CommitRecord} (hc : s.dcu.journal = some c) :
    SalesOwn (s.modSales (fun q => q.append c.record)) := by
  obtain ⟨hpoint, hnumber, hnextSale, hroom⟩ := h.journal c hc
  by_cases hheld : s.sales.records.any (fun x => decide (x.number = c.record.number)) = true
  · have hsame : s.sales.append c.record = s.sales := by
      unfold SaleQueue.append
      rw [if_pos hheld]
    exact h.congr hsame (fun _ hc => hc)
  · have hnew : s.sales.append c.record = { s.sales with records := s.sales.records ++ [c.record] } := by
      unfold SaleQueue.append
      rw [if_neg hheld]
    simp only [List.any_eq_true, decide_eq_true_eq, not_exists, not_and] at hheld
    have hrecords : (s.modSales (fun q => q.append c.record)).sales.records =
        s.sales.records ++ [c.record] := congrArg SaleQueue.records hnew
    have hnext : (s.modSales (fun q => q.append c.record)).sales.nextSale = s.sales.nextSale := by
      show (s.sales.append c.record).nextSale = _
      rw [hnew]
    refine ⟨fun p => ?_, ?_, fun r hr => ?_, by rw [hnext]; exact h.next, fun d hd => ?_⟩
    · rw [State.salesOf_eq, hrecords, salesIn_append, hpoint]
      split
      · next e =>
        have hone := hroom hheld
        rw [State.salesOf_eq, e] at hone
        omega
      · exact h.two p
    · rw [hrecords, List.map_append, List.nodup_append]
      refine ⟨h.numbers, by simp, fun a ha b hb e => ?_⟩
      obtain ⟨r, hr, rfl⟩ := List.mem_map.mp ha
      simp only [List.map_cons, List.map_nil, List.mem_singleton] at hb
      exact hheld r hr (e.trans hb)
    · rw [hrecords, List.mem_append, List.mem_singleton] at hr
      rcases hr with hr | rfl
      · exact h.range r hr
      · exact hnumber
    · have hd : s.dcu.journal = some d := hd
      rw [hc] at hd
      cases hd
      refine ⟨hpoint, hnumber, hnextSale, fun hfresh => absurd rfl (hfresh c.record ?_)⟩
      rw [hrecords]
      simp

/-- What the writes of a commit keep of the queue, with its record in the journal (R123, R124). -/
structure SalesInCommit (s : State) (c : CommitRecord) (t : State) : Prop where
  own : SalesOwn t
  journal : t.dcu.journal = some c
  others : ∀ p, p ≠ c.point → t.salesOf p = s.salesOf p

theorem SalesInCommit.steps {s : State} {c : CommitRecord} (h : SalesInCommit s c s)
    {fs : List (State → State)} (hfs : ∀ f, f ∈ fs → f ∈ commitSteps c) : SalesInCommit s c (runSteps fs s) := by
  refine runSteps_keeps h fun f hf t ht => ?_
  obtain ⟨hpoint, -, hnextSale, -⟩ := ht.own.journal c ht.journal
  have hstep := hfs f hf
  unfold commitSteps at hstep
  simp only [List.mem_append, List.mem_map, List.mem_cons, List.not_mem_nil, or_false] at hstep
  rcases hstep with ⟨w, -, rfl⟩ | rfl | rfl | rfl | rfl
  · exact ⟨ht.own.congr rfl (fun _ h => h), ht.journal, ht.others⟩
  · exact ⟨⟨ht.own.two, ht.own.numbers, ht.own.range, hnextSale, ht.own.journal⟩, ht.journal, ht.others⟩
  · refine ⟨ht.own.append ht.journal, ht.journal, fun p hp => ?_⟩
    rw [← ht.others p hp, State.salesOf_eq, State.salesOf_eq]
    show salesIn (t.sales.append c.record).records p = _
    unfold SaleQueue.append
    split
    · rfl
    · have hne : ¬ c.point = p := fun e => hp e.symm
      rw [salesIn_append, hpoint, if_neg hne, Nat.add_zero]
  · exact ⟨ht.own.congr rfl (fun _ h => h), ht.journal, ht.others⟩
  · exact ⟨ht.own.congr rfl (fun _ h => h), ht.journal, ht.others⟩

/-- A commit that is completed from its record (R123, R124). -/
theorem SalesInCommit.completeCommit {s : State} {c : CommitRecord} (h : SalesInCommit s c s) :
    SalesOwn (s.completeCommit c) ∧ ∀ p, p ≠ c.point → (s.completeCommit c).salesOf p = s.salesOf p := by
  have hsteps := h.steps (fs := commitSteps c) (fun _ hf => hf)
  exact ⟨hsteps.own.congr rfl (fun _ hc => by cases hc), hsteps.others⟩

/-- A commit begins with a record whose number no sale holds, for a point with room (R124, R137). -/
theorem SalesOwn.beginCommit {s : State} (h : SalesOwn s) {q : Posting} {f : FrozenSale}
    (hpoint : f.point = q.point) (hroom : s.salesOf q.point ≤ 1) :
    SalesInCommit (s.beginCommit (s.commitRecord q f)) (s.commitRecord q f)
      (s.beginCommit (s.commitRecord q f)) := by
  obtain ⟨k, hk, hassign, -, -⟩ := s.sales.assign_spec h.eight h.next
  have hrange : 1 ≤ s.sales.assign ∧ s.sales.assign ≤ 65535 := by
    rw [hassign]
    exact numberAfter_range h.next hk
  refine ⟨⟨h.two, h.numbers, h.range, h.next, fun c hc => ?_⟩, rfl, fun _ _ => rfl⟩
  cases hc
  exact ⟨hpoint, hrange, succNumber_range hrange, fun _ => hroom⟩

/-! ## The room for a sale -/

/-- What ties the queue to the points. -/
structure SalesTied (s : State) : Prop where
  postings : PostingLaw s
  own : SalesOwn s
  room : ∀ p, (s.point p).st.holdsAuth = true → ¬ s.journaled p → s.salesOf p ≤ 1

theorem salesLaw_eq : SalesLaw = WhileGood PostingLaw SalesOwn SalesTied := by
  funext s
  refine propext ⟨fun h => ?_, fun h => ?_⟩
  · have hown : SalesOwn s := ⟨h.two, h.numbers, h.range, h.next, h.journal⟩
    exact ⟨h.postings.trusted, h.postings, hown, fun g => ⟨h.postings, hown, h.room g⟩⟩
  · exact ⟨h.back, h.own.eight, h.own.two, fun g => (h.good g).room, h.own.numbers, h.own.range, h.own.next,
      h.own.journal⟩

/-- Where the queue and the journal stay, no more points may hold an authorization. -/
theorem SalesTied.congr {s t : State} (h : SalesTied s) (hpostings : PostingLaw t) (hsales : t.sales = s.sales)
    (hjournal : t.dcu.journal = s.dcu.journal)
    (hauth : ∀ p, (t.point p).st.holdsAuth = true → (s.point p).st.holdsAuth = true ∨ s.salesOf p ≤ 1) :
    SalesTied t := by
  have hcount : ∀ p, t.salesOf p = s.salesOf p := fun p => by rw [State.salesOf_eq, State.salesOf_eq, hsales]
  refine ⟨hpostings, h.own.congr hsales (fun c hc => hjournal ▸ hc), fun p hp hj => ?_⟩
  rw [hcount]
  rcases hauth p hp with ha | ha
  · exact h.room p ha (fun hjs => hj (by unfold State.journaled at hjs ⊢; rwa [hjournal]))
  · exact ha

theorem SalesTied.of_points {s t : State} (h : SalesTied s) (hpostings : PostingLaw t)
    (hsales : t.sales = s.sales) (hjournal : t.dcu.journal = s.dcu.journal)
    (hpoint : ∀ p, (t.point p).st = (s.point p).st) : SalesTied t :=
  h.congr hpostings hsales hjournal (fun p hp => .inl (by rwa [hpoint] at hp))

theorem SalesTied.not_journaled {s : State} (h : SalesTied s) (hr : s.rcu.running = true) (p : PointNo) :
    ¬ s.journaled p := by
  rintro ⟨c, hc, -⟩
  rw [h.postings.journal hr] at hc
  cases hc

/-! ## What the changes of a point do to its definition and authorization -/

/-- The two records of a point that its state calls for (R3, R8). -/
def Point.records (x : Point) : Option PointDef × Option AuthRecord := (x.defn, x.auth)

@[simp] theorem Point.checkSlowDown_records (x : Point) : x.checkSlowDown.records = x.records := by
  obtain ⟨_, _, e⟩ := x.checkSlowDown_eq
  rw [e]
  rfl

@[simp] theorem Point.startDelivery_records (x : Point) : x.startDelivery.records = x.records :=
  Point.checkSlowDown_records _

@[simp] theorem Point.enterStopping_records (x : Point) (reason : EndReason) :
    (x.enterStopping reason).records = x.records := rfl

@[simp] theorem Point.recount_records (x : Point) (e : Rates) (net : Nat) :
    (x.recount e net).records = x.records := by
  obtain ⟨_, he⟩ := Point.updateOverrun_eq { x with
    meter := { x.meter with net := net }, liveVolume := x.volumeAt e net
    liveMoney := x.moneyAt e (x.volumeAt e net) }
  exact (congrArg Point.records he).trans rfl

@[simp] theorem Point.compareMarks_records (x : Point) : x.compareMarks.records = x.records := by
  have htarget : x.checkSlowDown.checkTarget.records = x.records := by
    unfold Point.checkTarget
    split
    · split <;> simp
    · simp
  unfold Point.compareMarks
  split
  · exact htarget
  · exact htarget
  · rfl

@[simp] theorem Point.restartSettle_records (x : Point) : x.restartSettle.records = x.records := by
  unfold Point.restartSettle
  split <;> rfl

@[simp] theorem Point.restartNoFlow_records (x : Point) : x.restartNoFlow.records = x.records := by
  unfold Point.restartNoFlow
  split <;> rfl

@[simp] theorem Point.countReverse_records (x : Point) : x.countReverse.records = x.records := by
  unfold Point.countReverse
  dsimp only
  split <;> rfl

theorem Point.forwardPulse_records (x : Point) (e : Rates) : (x.forwardPulse e).records = x.records := by
  unfold Point.forwardPulse Point.discardPulse
  split
  · simp
  · split <;> simp

theorem Point.lowerNet_records (x : Point) (e : Rates) : (x.lowerNet e).records = x.records := by
  unfold Point.lowerNet
  split <;> simp

/-- A point keeps its definition, and its authorization or none. -/
def Point.Loses (x y : Point) : Prop := y.defn = x.defn ∧ (y.auth = x.auth ∨ y.auth = none)

theorem Point.Loses.of_records {x y : Point} (h : y.records = x.records) : x.Loses y := by
  simp only [Point.records, Prod.mk.injEq] at h
  exact ⟨h.1, .inl h.2⟩

theorem Point.Loses.trans {x y z : Point} (h : x.Loses y) (h' : y.Loses z) : x.Loses z := by
  obtain ⟨hd, ha⟩ := h
  obtain ⟨hd', ha'⟩ := h'
  refine ⟨hd'.trans hd, ?_⟩
  rcases ha' with e | e
  · rw [e]; exact ha
  · exact .inr e

/-- A fault report drops an authorization at most (R21). -/
theorem Point.reportFault_loses (x : Point) (k : FaultKind) : x.Loses (x.reportFault k) := by
  unfold Point.reportFault
  dsimp only
  split
  · exact ⟨rfl, .inl rfl⟩
  · exact ⟨rfl, .inl rfl⟩
  · exact ⟨rfl, .inr rfl⟩
  · exact ⟨rfl, .inl rfl⟩
  · exact ⟨rfl, .inl rfl⟩
  · exact ⟨rfl, .inl rfl⟩

theorem Point.applyChange_loses (x : Point) (e : Rates) (c : Change) : x.Loses (x.applyChange e c) := by
  have hforward : x.Loses (x.forwardPulse e) := .of_records (x.forwardPulse_records e)
  have hreverse : x.Loses (x.reversePulse e) := by
    have hlower : x.Loses (x.countReverse.lowerNet e).restartSettle :=
      .of_records (by rw [Point.restartSettle_records, Point.lowerNet_records, Point.countReverse_records])
    unfold Point.reversePulse
    dsimp only
    split
    · exact hlower.trans (Point.reportFault_loses _ _)
    · exact hlower
  have herror : x.Loses x.phaseError := by
    unfold Point.phaseError
    dsimp only
    split
    · exact Point.Loses.trans (.of_records rfl) (Point.reportFault_loses _ _)
    · exact .of_records rfl
  have hstray : x.Loses x.strayPulse := by
    unfold Point.strayPulse
    dsimp only
    split
    · split
      · exact Point.Loses.trans (.of_records rfl) (Point.reportFault_loses _ _)
      · exact .of_records rfl
    · exact .of_records rfl
  cases c <;> simp only [Point.applyChange]
  · split <;> assumption
  · split <;> assumption
  · split
    · assumption
    · exact .of_records rfl
  · exact .of_records rfl

/-- A reported change keeps the definition, and keeps or drops the authorization unless AUTHORIZE gives one
(R8, R10). -/
theorem PointMove.loses {s : State} {p : PointNo} {f : Point → Point} (hf : PointMove s p f) (x : Point) :
    x.Loses (f x) ∨ ∃ q a, authorizeVerdict q s = .ok a ∧ q.p = p ∧ (f x).defn = x.defn ∧
      (f x).auth = some a := by
  cases hf with
  | lift =>
    refine .inl ?_
    unfold Point.lift
    split
    · exact .of_records rfl
    · dsimp only
      split
      · exact .of_records rfl
      · exact .of_records (Point.startDelivery_records _)
      · exact .of_records rfl
  | lower =>
    refine .inl ?_
    unfold Point.lower
    split
    · dsimp only
      split <;> exact .of_records rfl
    · exact .of_records rfl
  | take new =>
    refine .inl ?_
    show x.Loses (x.takeChange (s.rates x) new)
    unfold Point.takeChange
    split
    · split
      · exact .of_records rfl
      · exact Point.Loses.trans (.of_records rfl) (Point.applyChange_loses _ _ _)
    · exact .of_records rfl
  | authExp =>
    refine .inl ?_
    unfold Point.authorizationExpiry
    split
    · exact ⟨rfl, .inr rfl⟩
    · exact .of_records rfl
  | noFlow =>
    refine .inl ?_
    unfold Point.noFlowExpiry
    split <;> exact .of_records rfl
  | emergency =>
    refine .inl ?_
    unfold Point.emergency
    split
    · exact .of_records rfl
    · exact .of_records rfl
    · exact ⟨rfl, .inr rfl⟩
    · exact .of_records rfl
  | authorize q a hq hp =>
    refine .inr ⟨q, a, hq, hp, ?_⟩
    show (x.authorize a).defn = _ ∧ (x.authorize a).auth = _
    unfold Point.authorize
    split
    · have h := Point.startDelivery_records { x with auth := some a }
      simpa only [Point.records, Prod.mk.injEq] using h
    · exact ⟨rfl, rfl⟩
  | drop => exact .inl ⟨rfl, .inr rfl⟩
  | pause | resume | stopReq | clearFault | clearCreep => exact .inl (.of_records rfl)

/-- AUTHORIZE is accepted only while the point has room for one more sale (R9). -/
theorem authorizeVerdict_room {q : AuthorizeReq} {s : State} {a : AuthRecord}
    (h : authorizeVerdict q s = .ok a) : s.salesOf q.p ≤ 1 := by
  by_contra hfull
  have hfull : Config.salesPerPoint ≤ s.salesOf q.p := by
    unfold Config.salesPerPoint
    omega
  simp only [authorizeVerdict, hfull, if_true] at h
  repeat' split at h
  all_goals cases h

/-- A change of a definition gives no authorization (R3, R4, R5). -/
theorem PointRedefined.auth {s : State} {p : PointNo} {f : Point → Point} (hf : PointRedefined s p f)
    (x : Point) : (f x).auth = x.auth := by
  cases hf <;> rfl

/-! ## Every step -/

/-- A reported change gives no authorization without room (R9). -/
theorem SalesTied.move {s : State} (h : SalesTied s) {p : PointNo}
    {f : Point → Point} (hf : PointMove s p f) (hpostings : PostingLaw (s.movePoint p f)) :
    SalesTied (s.movePoint p f) := by
  refine h.congr hpostings (by simp) (by simp) (fun q hq => ?_)
  rw [← (hpostings.points.points q).auth] at hq
  rw [State.movePoint_point] at hq
  rw [← (h.postings.points.points q).auth]
  split at hq
  · next e =>
    subst e
    rcases hf.loses (s.point q) with ⟨-, ha | ha⟩ | ⟨r, a, hok, hp, -, -⟩
    · rw [ha] at hq; exact .inl hq
    · rw [ha] at hq; cases hq
    · exact .inr (hp ▸ authorizeVerdict_room hok)
  · exact .inl hq

/-- The commit of the TAKEN posting uses up the room of its point (R123, R135). -/
theorem SalesTied.commitPosting {s : State} (h : SalesTied s) (ho : s.operating = true) {q : Posting}
    {f : FrozenSale} (hq : s.takenSale = some (q, f)) (hpostings : PostingLaw (s.commitPosting q f)) :
    SalesTied (s.commitPosting q f) := by
  have hr := State.running_of_operating ho
  obtain ⟨-, -, hf⟩ := State.takenSale_some hq
  have hlaw := h.postings.points.points q.point
  have hst : (s.point q.point).st = .settling := hlaw.frozen.mp (by simp [hf])
  have hroom := h.room q.point (by simp [hst, PtState.holdsAuth]) (h.not_journaled hr _)
  obtain ⟨hown, hothers⟩ := (h.own.beginCommit (hlaw.frozenPoint f hf) hroom).completeCommit
  refine ⟨hpostings, ?_, fun p hp _ => ?_⟩
  · exact hown.congr (by rw [State.commitPosting, State.choose_sales]; rfl)
      (fun c hc => by rw [State.commitPosting_eq, State.choose_journal] at hc; cases hc)
  · rw [State.commitPosting_point] at hp
    split at hp
    · next e =>
      subst e
      rcases Point.leaveSettling_st (.inl hst) with e | e <;> rw [e] at hp <;> cases hp
    · next e =>
      have hcount : (s.commitPosting q f).salesOf p = s.salesOf p := by
        refine Eq.trans ?_ (hothers p e)
        rw [State.salesOf_eq, State.salesOf_eq, State.commitPosting, State.choose_sales]
        rfl
      rw [hcount]
      exact h.room p hp (h.not_journaled hr p)

theorem SalesTied.firstStep {s : State} (h : SalesTied s) : SalesTied s.firstStep :=
  h.of_points (postingLaw_kept.first s h.postings) rfl rfl (fun p => by rw [State.firstStep_point]; rfl)

/-- A cut leaves the room that the whole commit needs, with the commit in the journal (R124). -/
theorem SalesTied.cut {s : State} (h : SalesTied s) (ho : s.operating = true) (cut : CommitCut)
    (hpostings : PostingLaw (s.cutCommit cut).firstStep) : SalesTied (s.cutCommit cut).firstStep := by
  have hr := State.running_of_operating ho
  cases hcut : cut with
  | none => exact h.firstStep
  | some j =>
    cases hq : s.takenSale with
    | none =>
      have hnone : s.cutCommit (some j) = s := by simp [State.cutCommit, hq]
      rw [hnone]
      exact h.firstStep
    | some qf =>
      obtain ⟨q, f⟩ := qf
      obtain ⟨-, -, hf⟩ := State.takenSale_some hq
      have hlaw := h.postings.points.points q.point
      have hst : (s.point q.point).st = .settling := hlaw.frozen.mp (by simp [hf])
      have hroom := h.room q.point (by simp [hst, PtState.holdsAuth]) (h.not_journaled hr _)
      have hbegun := h.own.beginCommit (hlaw.frozenPoint f hf) hroom
      have hsteps := hbegun.steps (fs := (commitSteps (s.commitRecord q f)).take j)
        (fun _ hg => List.mem_of_mem_take hg)
      have hcutEq : s.cutCommit (some j) = runSteps ((commitSteps (s.commitRecord q f)).take j)
          (s.beginCommit (s.commitRecord q f)) := by simp [State.cutCommit, hq]
      rw [← hcutEq] at hsteps
      have hpoint : ∀ p, p ≠ q.point → (s.cutCommit (some j)).point p = s.point p := by
        intro p hp
        rcases s.cutCommit_cases (some j) with e | ⟨q', f', hq', -, -, -, hpoints⟩
        · rw [e]
        · rw [hq] at hq'
          cases hq'
          rcases hpoints p with e | ⟨e, -⟩
          · exact e
          · exact absurd e hp
      rw [hcut] at hpostings
      refine ⟨hpostings, hsteps.own.congr rfl (fun _ hc => hc), fun p hp hjp => ?_⟩
      have hne : p ≠ q.point := fun e => hjp ⟨_, hsteps.journal, e.symm⟩
      rw [State.firstStep_point] at hp
      have hp : ((s.cutCommit (some j)).point p).st.holdsAuth = true := hp
      rw [hpoint p hne] at hp
      exact (hsteps.others p hne).trans_le (h.room p hp (h.not_journaled hr p))

/-- The warm path completes a commit from its record, and gives no authorization (R171). -/
theorem SalesTied.warmStep {s : State} (h : SalesTied s) (hg : s.rcu.checkGood = true)
    {f : State → State} (hf : f ∈ warmPath) (hpostings : PostingLaw (f s)) : SalesTied (f s) := by
  rcases mem_warmPath hf with rfl | ⟨p, rfl⟩ | ⟨k, rfl⟩
  · cases hj : s.dcu.journal with
    | none =>
      have hnone : s.warmJournal = s := by simp [State.warmJournal, hj]
      rw [hnone]
      exact h
    | some c =>
      have heq : s.warmJournal = s.completeCommit c := by simp [State.warmJournal, hj]
      obtain ⟨hown, hothers⟩ := SalesInCommit.completeCommit ⟨h.own, hj, fun _ _ => rfl⟩
      rw [heq] at hpostings ⊢
      refine ⟨hpostings, hown, fun p hp _ => ?_⟩
      rw [State.completeCommit_point] at hp
      split at hp
      · next e =>
        subst e
        rcases Point.leaveSettling_st (h.postings.pointOfJournal hg c hj) with e | e <;> rw [e] at hp <;> cases hp
      · next e =>
        rw [hothers p e]
        refine h.room p hp ?_
        rintro ⟨d, hd, hdp⟩
        rw [hj] at hd
        cases hd
        exact e hdp.symm
  · refine h.congr hpostings (by rw [State.warmPoint_rest]) (by rw [State.warmPoint_rest]) (fun q hq => ?_)
    rw [State.warmPoint_point] at hq
    split at hq
    · next e =>
      subst e
      refine .inl ?_
      unfold Point.warmed at hq
      cases hst : (s.point q).st <;> simp [hst, PtState.holdsAuth] at hq ⊢
    · exact .inl hq
  · refine h.of_points hpostings ?_ ?_ (fun p => by simp [State.warmPrice])
    · rw [State.warmPrice_rest]
    · rw [State.warmPrice_rest]

theorem salesTied_kept : KeptWhileGood False SalesTied where
  link s l h := h.of_points (postingLaw_kept.link s l h.postings) rfl rfl (fun _ => rfl)
  pins s n hv hr h := h.of_points (postingLaw_kept.pins s n hv hr h.postings) rfl rfl (fun _ => rfl)
  power s b h := h.of_points (postingLaw_kept.power s b h.postings) rfl rfl (fun _ => rfl)
  move s p f h hr hf := h.move hf (postingLaw_kept.move s p f h.postings hr hf)
  mod s p f h hr hj hf := by
    have hpostings := postingLaw_kept.mod s p f h.postings hr hj hf
    refine h.congr hpostings rfl rfl (fun q hq => .inl ?_)
    rw [← (hpostings.points.points q).auth, State.modPoint_point] at hq
    rw [← (h.postings.points.points q).auth]
    split at hq
    · next e => subst e; rwa [hf.auth] at hq
    · exact hq
  flags s h := h.of_points (postingLaw_kept.flags s h.postings) rfl rfl
    (fun p => by rw [State.modAllPoints_point])
  settle s p f h hr hst hf := by
    refine h.congr (postingLaw_kept.settle s p f h.postings hr hst hf) (by rw [State.settlePoint_rest]) ?_
      (fun q hq => .inl ?_)
    · unfold State.settlePoint
      rw [State.choose_journal, State.submit_rest]
      simp
    · rw [State.settlePoint_point] at hq
      split at hq
      · next e => subst e; rw [hst]; rfl
      · exact hq
  product s k r h h1 h2 h3 := h.of_points (postingLaw_kept.product s k r h.postings h1 h2 h3) rfl rfl (fun _ => rfl)
  price s k r c h h1 h2 := h.of_points (postingLaw_kept.price s k r c h.postings h1 h2) rfl rfl (fun _ => rfl)
  stage s k r c h h1 h2 := h.of_points (postingLaw_kept.stage s k r c h.postings h1 h2) rfl rfl (fun _ => rfl)
  remove s n h hr := by
    have hsub : (s.sales.remove n).records.Sublist s.sales.records := List.filter_sublist
    exact ⟨postingLaw_kept.remove s n h.postings hr, h.own.remove (h.postings.journal hr) n,
      fun p hp hj => (hsub.filter _).length_le.trans (h.room p hp hj)⟩
  accept s req h ho hj hr hp := h.of_points (postingLaw_kept.accept s req h.postings ho hj hr hp)
    (by simp [State.acceptJob]) (by simp [State.acceptJob]) (fun p => by simp [State.acceptJob])
  complete s j h ho hj := by
    obtain ⟨link, tally, held, timer, e⟩ := s.completeJob_eq j
    refine h.of_points (postingLaw_kept.complete s j h.postings ho hj) ?_ ?_ (fun p => ?_) <;> rw [e]
    · rw [State.choose_sales]
    · rw [State.choose_journal]
    · rw [State.choose_point]; rfl
  suspend s j h ho hj hs := h.of_points (postingLaw_kept.suspend s j h.postings ho hj hs)
    (by simp [State.suspendJob]) (by simp [State.suspendJob]) (fun p => by simp [State.suspendJob])
  commit s q f h ho hq := h.commitPosting ho hq (postingLaw_kept.commit s q f h.postings ho hq)
  hold s h ho := h.of_points (postingLaw_kept.hold s h.postings ho) (by simp [State.expireHold])
    (by simp [State.expireHold]) (fun p => by simp [State.expireHold])
  first _ h := h.firstStep
  cut s c h ho := h.cut ho c (postingLaw_kept.cut s c h.postings ho)
  dark s n hr h := h.of_points (postingLaw_kept.dark s n (fun _ => hr) h.postings) rfl rfl (fun _ => rfl)
  path s f hr hg h hf := h.warmStep hg hf (postingLaw_kept.path s f (fun _ => hr) hg h.postings hf)
  final s hr hv hn hg h hj hrest hstaged := by
    refine h.of_points (postingLaw_kept.final s (fun _ => ⟨hr, hv, hn⟩) hg h.postings hj hrest hstaged) ?_ ?_
      (fun p => by rw [State.finalStep_point]; rfl)
    · rw [State.finalStep_eq, State.choose_sales]
    · rw [State.finalStep_eq, State.choose_journal]

theorem salesOwn_kept : KeptByBlocks SalesOwn where
  link _ _ h := h.congr rfl (fun _ hc => hc)
  pins _ _ h := h.congr rfl (fun _ hc => hc)
  rcu _ _ _ h := h.congr rfl (fun _ hc => hc)
  flags _ h := h.congr rfl (fun _ hc => hc)
  product _ _ _ h _ := h.congr rfl (fun _ hc => hc)
  price _ _ _ _ h _ := h.congr rfl (fun _ hc => hc)
  stage _ _ _ _ h _ := h.congr rfl (fun _ hc => hc)
  first _ h := h.congr rfl (fun _ hc => hc)
  cold s mark f _ h hf := by
    cases hf with
    | dcu => exact h.congr rfl (fun _ hc => by cases hc)
    | sales =>
      refine ⟨fun p => Nat.zero_le _, List.nodup_nil, fun _ hr => (by cases hr), (by decide : 1 ≤ 1 ∧ 1 ≤ 65535), fun c hc => ?_⟩
      obtain ⟨hpoint, hnumber, hnext, -⟩ := h.journal c hc
      exact ⟨hpoint, hnumber, hnext, fun _ => Nat.zero_le _⟩
    | enable | point | products | tally | mark => exact h.congr rfl (fun _ hc => hc)

theorem salesLaw_kept : KeptBySteps False True SalesLaw := by
  rw [salesLaw_eq]
  refine KeptBySteps.whileGood salesTied_kept postingLaw_kept salesOwn_kept (fun _ h => h.own)
    (fun s mark hr h => ⟨postingLaw_kept.good s mark (fun _ => hr) h, ?_, fun p _ _ => Nat.zero_le _⟩)
  exact ⟨fun p => Nat.zero_le _, List.nodup_nil, fun _ hr => (by cases hr), (by decide : 1 ≤ 1 ∧ 1 ≤ 65535), fun _ hc => (by cases hc)⟩

/-- Settles O58: an authorization is given only where its sale has room, a commit takes a number that no
record holds, and a removal keeps the rest. -/
theorem stepKeepsSalesLaw : Obligations.StepKeepsSalesLaw := by
  unfold Obligations.StepKeepsSalesLaw
  intro s t h e
  refine step_keeps h e (fun rest h => ?_) (fun c u hu he =>
    exec_kept salesLaw_kept c u t hu (fun f => f.elim) (fun _ => hu.postings.points.powered) he)
  have hp := h.postings
  exact ⟨⟨hp.points.congr rfl rfl rfl (fun _ => rfl), hp.trusted, hp.journal, hp.once, hp.settling, hp.copies,
    hp.pointOfJournal⟩, h.eight, h.two, h.room, h.numbers, h.range, h.next, h.journal⟩

end Sys2Proof.Machine

/-! # Proofs: the work of the decimal unit (Chapters 6 and 7) -/

namespace Sys2Proof.Machine

/-! ## The law of the unit, apart from the queue and the slot -/

/-- The unit's own part of its law (R93, R114 to R120, R125, R128). -/
structure UnitWorks (s : State) : Prop where
  idle : s.rcu.running = false → s.dcu.unit = .free ∧ s.dcu.job = none
  posting : s.dcu.unit = .posting ↔ ∃ q, q ∈ s.dcu.postings ∧ q.taken = true
  oneTaken : ∀ q r, q ∈ s.dcu.postings → r ∈ s.dcu.postings → q.taken = true → r.taken = true → q = r
  host : s.dcu.unit = .host ↔ ∃ j, s.dcu.job = some j ∧ j.phase = .active
  active : ∀ j, s.dcu.job = some j → j.phase = .active → s.operandsHeld j.values j.operandSet
  suspended : ∀ j, s.dcu.job = some j → j.phase = .suspended →
    ∃ c, s.dcu.context = some c ∧ s.operandsHeld c j.operandSet
  apart : ∀ j q, s.dcu.job = some j → j.phase = .suspended → q ∈ s.dcu.postings → q.taken = true →
    ∀ r, r ∈ q.targets → r ∉ j.operandSet
  heldOnce : s.dcu.held.Pairwise (· < ·)
  heldEight : s.dcu.held.length ≤ 8
  heldApart : ∀ q, q ∈ s.dcu.postings → q.taken = true → ∀ r, r ∈ q.targets → r ∉ s.dcu.held
  holdTimer : s.dcu.holdTimer.isSome = true ↔ s.dcu.held ≠ []
  holdJob : ∀ j, s.dcu.job = some j → ∀ rs n, j.req = .hold rs n → 1 ≤ rs.length ∧ rs.length ≤ 8

theorem State.operandsHeld_congr {s t : State} {values : List Operand} {set : List RegNo}
    (h : s.operandsHeld values set) (hreg : ∀ r, r ∈ set → t.reg r = s.reg r) :
    t.operandsHeld values set := by
  unfold State.operandsHeld at *
  rw [h]
  exact List.map_congr_left fun r hr => by rw [hreg r hr]

/-- The law reads the unit, RUNNING and the operands' registers. -/
theorem UnitWorks.congr {s t : State} (h : UnitWorks s) (hdcu : t.dcu = s.dcu)
    (hrunning : t.rcu.running = s.rcu.running) (hreg : ∀ r, t.reg r = s.reg r) : UnitWorks t := by
  obtain ⟨hidle, hposting, hone, hhost, hactive, hsuspended, hapart, hheld, height, hheldApart, htimer, hjob⟩ := h
  rw [← hdcu] at hidle hposting hone hhost hactive hsuspended hapart hheld height hheldApart htimer hjob
  refine ⟨by rw [hrunning]; exact hidle, hposting, hone, hhost, fun j hj hp => ?_, fun j hj hp => ?_, hapart,
    hheld, height, hheldApart, htimer, hjob⟩
  · exact State.operandsHeld_congr (hactive j hj hp) (fun r _ => hreg r)
  · obtain ⟨c, hc, hv⟩ := hsuspended j hj hp
    exact ⟨c, hc, State.operandsHeld_congr hv (fun r _ => hreg r)⟩

/-- A unit in FREE has no posting TAKEN (R116). -/
theorem UnitWorks.untaken {s : State} (h : UnitWorks s) (hu : s.dcu.unit ≠ .posting) {q : Posting}
    (hq : q ∈ s.dcu.postings) : q.taken = false := by
  have := mt h.posting.mpr hu
  by_contra ht
  exact this ⟨q, hq, by simpa using ht⟩

/-- A unit that is not in HOST has no active job (R115). -/
theorem UnitWorks.not_active {s : State} (h : UnitWorks s) (hu : s.dcu.unit ≠ .host) {j : HostJob}
    (hj : s.dcu.job = some j) : j.phase ≠ .active :=
  fun hp => hu (h.host.mpr ⟨j, hj, hp⟩)

/-- A unit with no job and no posting TAKEN: what is left to ask is of the held set. -/
theorem UnitWorks.of_free {s : State} (hunit : s.dcu.unit = .free) (hjob : s.dcu.job = none)
    (htaken : ∀ q, q ∈ s.dcu.postings → q.taken = false) (hheld : s.dcu.held.Pairwise (· < ·))
    (height : s.dcu.held.length ≤ 8) (htimer : s.dcu.holdTimer.isSome = true ↔ s.dcu.held ≠ []) :
    UnitWorks s := by
  have hno : ∀ j, s.dcu.job ≠ some j := fun j e => by rw [hjob] at e; cases e
  have hnt : ∀ q, q ∈ s.dcu.postings → q.taken ≠ true := fun q hq e => by rw [htaken q hq] at e; cases e
  refine ⟨fun _ => ⟨hunit, hjob⟩, ?_, fun q r hq _ ht => absurd ht (hnt q hq), ?_,
    fun j hj => absurd hj (hno j), fun j hj => absurd hj (hno j), fun j q hj => absurd hj (hno j), hheld, height,
    fun q hq ht => absurd ht (hnt q hq), htimer, fun j hj => absurd hj (hno j)⟩
  · simp only [hunit, reduceCtorEq, false_iff, not_exists, not_and]
    exact hnt
  · simp only [hunit, reduceCtorEq, false_iff, not_exists, not_and]
    exact fun j hj => absurd hj (hno j)

/-! ## The choice of the next piece of work -/

theorem mem_markTaken {p : PointNo} {qs : List Posting} {q : Posting} (h : q ∈ markTaken p qs) :
    ∃ r, r ∈ qs ∧ q.targets = r.targets ∧ q.point = r.point ∧ ((r.point = p ∧ q = { r with taken := true }) ∨
      (r.point ≠ p ∧ q = r)) := by
  obtain ⟨r, hr, rfl⟩ := List.mem_map.mp h
  refine ⟨r, hr, ?_⟩
  split
  · next e => exact ⟨rfl, rfl, .inl ⟨e, rfl⟩⟩
  · next e => exact ⟨rfl, rfl, .inr ⟨e, rfl⟩⟩

theorem eq_of_point_eq {ps : List Posting} (h : (ps.map (·.point)).Nodup) {q r : Posting} (hq : q ∈ ps)
    (hr : r ∈ ps) (he : q.point = r.point) : q = r :=
  List.inj_on_of_nodup_map h hq hr he

/-- An eligible posting is apart from the held set and from the job's operands (R117). -/
theorem Dcu.eligible_apart {d : Dcu} {q : Posting} (h : d.eligible q = true) {r : RegNo}
    (hr : r ∈ q.targets) : r ∉ d.held ∧ r ∉ d.operandSet := by
  unfold Dcu.eligible at h
  simp only [Bool.and_eq_true, List.all_eq_true, decide_eq_true_eq] at h
  exact h.2 r hr

/-- A unit that is not in POSTING takes one posting (R116, R118). -/
theorem UnitWorks.takePosting {s : State} (h : UnitWorks s) (honce : (s.dcu.postings.map (·.point)).Nodup)
    (hunit : s.dcu.unit = .free) (hr : s.rcu.running = true) {q : Posting}
    (hq : s.dcu.postings.find? s.dcu.eligible = some q) : UnitWorks (s.modDcu (fun d => { d with
      unit := .posting, postings := markTaken q.point d.postings })) := by
  have hmem := List.mem_of_find?_eq_some hq
  have helig : s.dcu.eligible q = true := List.find?_some hq
  have hnt : ∀ r, r ∈ s.dcu.postings → r.taken = false := fun r hr' => h.untaken (by simp [hunit]) hr'
  have hna : ∀ j, s.dcu.job = some j → j.phase ≠ .active := fun j hj => h.not_active (by simp [hunit]) hj
  have htaken : ∀ r, r ∈ markTaken q.point s.dcu.postings → r.taken = true → r = { q with taken := true } := by
    intro r hr' ht
    obtain ⟨e, he, -, -, ⟨hp, rfl⟩ | ⟨-, rfl⟩⟩ := mem_markTaken hr'
    · rw [eq_of_point_eq honce he hmem hp]
    · rw [hnt r he] at ht
      cases ht
  refine ⟨fun hr' => ?_, ?_, fun a b ha hb hta htb => ?_, ?_, fun j hj hp => absurd hp (hna j hj), h.suspended,
    fun j a hj hp ha hta r hra => ?_, h.heldOnce, h.heldEight, fun a ha hta r hra => ?_, h.holdTimer, h.holdJob⟩
  · have hr' : s.rcu.running = false := hr'
    rw [hr] at hr'
    cases hr'
  · refine ⟨fun _ => ⟨{ q with taken := true }, List.mem_map.mpr ⟨q, hmem, by simp⟩, rfl⟩, fun _ => rfl⟩
  · rw [htaken a ha hta, htaken b hb htb]
  · refine ⟨fun e => (by cases e), fun ⟨j, hj, hp⟩ => absurd hp (hna j hj)⟩
  · rw [htaken a ha hta] at hra
    have hset : s.dcu.operandSet = j.operandSet := by
      have hj : s.dcu.job = some j := hj
      simp [Dcu.operandSet, hj]
    exact hset ▸ (Dcu.eligible_apart helig hra).2
  · rw [htaken a ha hta] at hra
    exact (Dcu.eligible_apart helig hra).1

/-- A unit in FREE takes its host job, whose values are then those of its operands (R93, R118, R120). -/
theorem UnitWorks.takeJob {s : State} (h : UnitWorks s) (hunit : s.dcu.unit = .free)
    (hr : s.rcu.running = true) {j : HostJob} (hj : s.dcu.job = some j) : UnitWorks (s.takeJob j) := by
  have hnt : ∀ q, q ∈ s.dcu.postings → q.taken ≠ true := fun q hq e => by
    rw [h.untaken (by simp [hunit]) hq] at e
    cases e
  have hactive : ∀ (values : List Operand) (context : Option (List Operand)),
      s.operandsHeld values j.operandSet → UnitWorks (s.modDcu (fun d => { d with
        unit := .host, job := some { j with phase := .active, values := values }, context := context })) := by
    intro values context hvalues
    refine ⟨fun hr' => ?_, ?_, fun a b ha _ hta => absurd hta (hnt a ha), ⟨fun _ => ⟨_, rfl, rfl⟩, fun _ => rfl⟩,
      fun i hi _ => ?_, fun i hi hp => ?_, fun i a hi hp => ?_, h.heldOnce, h.heldEight,
      fun a ha hta => absurd hta (hnt a ha), h.holdTimer, fun i hi rs n hreq => ?_⟩
    · have hr' : s.rcu.running = false := hr'
      rw [hr] at hr'
      cases hr'
    · exact ⟨fun e => (by cases e), fun ⟨q, hq, ht⟩ => absurd ht (hnt q hq)⟩
    · cases hi
      exact hvalues
    · cases hi
      cases hp
    · cases hi
      cases hp
    · cases hi
      exact h.holdJob j hj rs n hreq
  unfold State.takeJob
  split
  · exact hactive _ _ rfl
  · next hp =>
    obtain ⟨c, hc, hvalues⟩ := h.suspended j hj hp
    refine hactive _ none ?_
    rw [hc]
    exact hvalues
  · next hp => exact absurd hp (h.not_active (by simp [hunit]) hj)

/-- The choice keeps the law (R118). -/
theorem UnitWorks.choose {s : State} (h : UnitWorks s) (honce : (s.dcu.postings.map (·.point)).Nodup) :
    UnitWorks s.choose := by
  rcases s.choose_cases with e | ⟨hr, hunit, ⟨q, hq, e⟩ | ⟨-, j, hj, e⟩⟩ <;> rw [e]
  · exact h
  · exact h.takePosting honce hunit hr hq
  · exact h.takeJob hunit hr hj

/-! ## The moves of the unit -/

/-- A WAITING posting joins the queue (R116). -/
theorem UnitWorks.addPosting {s t : State} (h : UnitWorks s) {ps : List Posting}
    (hps : ∀ q, q ∈ ps → q.taken = false) (hdcu : t.dcu = { s.dcu with postings := s.dcu.postings ++ ps })
    (hrunning : t.rcu.running = s.rcu.running) (hreg : ∀ r, t.reg r = s.reg r) : UnitWorks t := by
  have htaken : ∀ q, q ∈ s.dcu.postings ++ ps → q.taken = true → q ∈ s.dcu.postings := by
    intro q hq ht
    rcases List.mem_append.mp hq with hq | hq
    · exact hq
    · rw [hps q hq] at ht
      cases ht
  have hadded : UnitWorks { s with dcu := { s.dcu with postings := s.dcu.postings ++ ps } } := by
    refine ⟨h.idle, ?_, fun a b ha hb hta htb => h.oneTaken a b (htaken a ha hta) (htaken b hb htb) hta htb, h.host,
      h.active, h.suspended, fun j a hj hp ha hta => h.apart j a hj hp (htaken a ha hta) hta, h.heldOnce, h.heldEight,
      fun a ha hta => h.heldApart a (htaken a ha hta) hta, h.holdTimer, h.holdJob⟩
    refine h.posting.trans ⟨fun ⟨q, hq, ht⟩ => ⟨q, List.mem_append_left _ hq, ht⟩, fun ⟨q, hq, ht⟩ => ⟨q, htaken q hq ht, ht⟩⟩
  exact hadded.congr hdcu hrunning hreg

/-- A new job waits (R79, R115). -/
theorem UnitWorks.acceptJob {s : State} (h : UnitWorks s) (honce : (s.dcu.postings.map (·.point)).Nodup)
    (hr : s.rcu.running = true) (hjob : s.dcu.job = none) {req : JobReq} (hp : req.parsed) :
    UnitWorks (s.acceptJob req) := by
  refine UnitWorks.choose ⟨fun hr' => ?_, h.posting, h.oneTaken, ?_, fun j hj ha => ?_, fun j hj ha => ?_,
    fun j q hj ha => ?_, h.heldOnce, h.heldEight, h.heldApart, h.holdTimer, fun j hj rs n hreq => ?_⟩ honce
  · have hr' : s.rcu.running = false := hr'
    rw [hr] at hr'
    cases hr'
  · have hnot : s.dcu.unit ≠ .host := fun e => by
      obtain ⟨j, hj, -⟩ := h.host.mp e
      rw [hjob] at hj
      cases hj
    exact ⟨fun e => absurd e hnot, fun ⟨j, hj, ha⟩ => (by cases hj; cases ha)⟩
  · cases hj
    cases ha
  · cases hj
    cases ha
  · cases hj
    cases ha
  · cases hj
    have hreq : req = .hold rs n := hreq
    subst hreq
    exact hp

/-- The held set of a list is in order, and no longer than the list (R126). -/
theorem heldSet_pairwise (rs : List RegNo) : (heldSet rs).Pairwise (· < ·) :=
  (List.pairwise_lt_finRange 64).filter _

theorem mem_heldSet (rs : List RegNo) (r : RegNo) : r ∈ heldSet rs ↔ r ∈ rs := by
  simp [heldSet, allRegs]

theorem heldSet_length_le (rs : List RegNo) : (heldSet rs).length ≤ rs.length :=
  have honce : (heldSet rs).Nodup := (heldSet_pairwise rs).imp (fun h => ne_of_lt h)
  (honce.subperm (fun r hr => (mem_heldSet rs r).mp hr)).length_le

theorem heldSet_ne_nil {rs : List RegNo} (h : 1 ≤ rs.length) : heldSet rs ≠ [] := by
  obtain ⟨r, hr⟩ := List.exists_mem_of_length_pos h
  exact List.ne_nil_of_mem ((mem_heldSet rs r).mpr hr)

/-- The held set and its timer after a job: a HOLD's own, none after a RELEASE HOLD, else as they were
(R126, R127). -/
theorem State.applyJob_held (s : State) (j : HostJob) :
    ((s.applyJob j).dcu.held = s.dcu.held ∧ (s.applyJob j).dcu.holdTimer = s.dcu.holdTimer) ∨
    ((s.applyJob j).dcu.held = [] ∧ (s.applyJob j).dcu.holdTimer = none) ∨
    ∃ rs n, j.req = .hold rs n ∧ (s.applyJob j).dcu.held = heldSet rs ∧ (s.applyJob j).dcu.holdTimer = some n := by
  unfold State.applyJob
  cases hreq : j.req with
  | setSite scales gc => cases scales <;> exact .inl ⟨rfl, rfl⟩
  | divide d s1 s2 rounding =>
    dsimp only
    split <;> exact .inl ⟨rfl, rfl⟩
  | hold rs n => exact .inr (.inr ⟨rs, n, rfl, rfl, rfl⟩)
  | releaseHold => exact .inr (.inl ⟨rfl, rfl⟩)
  | _ => exact .inl ⟨rfl, rfl⟩

/-- A completion leaves a unit in FREE, without a job, which then chooses (R96, R120). -/
theorem UnitWorks.completeJob {s : State} (h : UnitWorks s) (honce : (s.dcu.postings.map (·.point)).Nodup)
    {j : HostJob} (hj : s.activeJob = some j) : UnitWorks (s.completeJob j) := by
  obtain ⟨hunit, hjob, hphase⟩ := State.activeJob_some hj
  obtain ⟨held, timer, hdcu⟩ := s.applyJob_dcu j
  have hpostings : (s.applyJob j).dcu.postings = s.dcu.postings := by rw [hdcu]
  have hheld : (s.applyJob j).dcu.held.Pairwise (· < ·) ∧ (s.applyJob j).dcu.held.length ≤ 8 ∧
      ((s.applyJob j).dcu.holdTimer.isSome = true ↔ (s.applyJob j).dcu.held ≠ []) := by
    rcases s.applyJob_held j with ⟨e1, e2⟩ | ⟨e1, e2⟩ | ⟨rs, n, hreq, e1, e2⟩ <;> rw [e1, e2]
    · exact ⟨h.heldOnce, h.heldEight, h.holdTimer⟩
    · exact ⟨.nil, by simp, by simp⟩
    · obtain ⟨hone, height⟩ := h.holdJob j hjob rs n hreq
      exact ⟨heldSet_pairwise rs, (heldSet_length_le rs).trans height, by simp [heldSet_ne_nil hone]⟩
  obtain ⟨hpair, hlength, htimer⟩ := hheld
  refine UnitWorks.choose ?_ ?_ <;> rw [State.endStretch_rest]
  · refine UnitWorks.of_free rfl rfl (fun q hq => ?_) hpair hlength htimer
    have hq : q ∈ (s.applyJob j).dcu.postings := hq
    rw [hpostings] at hq
    exact h.untaken (by simp [hunit]) hq
  · show ((s.applyJob j).dcu.postings.map _).Nodup
    rwa [hpostings]

/-- A suspended job's context holds the values of its operands (R119). -/
theorem UnitWorks.suspendJob {s : State} (h : UnitWorks s) (honce : (s.dcu.postings.map (·.point)).Nodup)
    (hr : s.rcu.running = true) {j : HostJob} (hj : s.activeJob = some j) : UnitWorks (s.suspendJob j) := by
  obtain ⟨hunit, hjob, hphase⟩ := State.activeJob_some hj
  have hnt : ∀ q, q ∈ s.dcu.postings → q.taken ≠ true := fun q hq e => by
    rw [h.untaken (by simp [hunit]) hq] at e
    cases e
  refine UnitWorks.choose ⟨fun hr' => ?_, ?_, fun a b ha _ hta => absurd hta (hnt a ha), ?_, fun i hi ha => ?_,
    fun i hi _ => ?_, fun i a hi _ ha hta => absurd hta (hnt a ha), h.heldOnce, h.heldEight,
    fun a ha hta => absurd hta (hnt a ha), h.holdTimer, fun i hi rs n hreq => ?_⟩ honce
  · have hr' : s.rcu.running = false := hr'
    rw [hr] at hr'
    cases hr'
  · exact ⟨fun e => (by cases e), fun ⟨q, hq, ht⟩ => absurd ht (hnt q hq)⟩
  · exact ⟨fun e => (by cases e), fun ⟨i, hi, ha⟩ => (by cases hi; cases ha)⟩
  · cases hi
    cases ha
  · cases hi
    exact ⟨j.values, rfl, h.active j hjob hphase⟩
  · cases hi
    exact h.holdJob j hjob rs n hreq

/-- The writes of a commit leave the registers alone that it does not name. -/
theorem runSteps_writes_reg_of_ne (ws : List RegWrite) (s : State) {r : RegNo}
    (h : ∀ w, w ∈ ws → w.reg ≠ r) :
    (runSteps (ws.map (fun w s => s.writeReg w.reg w.value)) s).reg r = s.reg r := by
  induction ws generalizing s with
  | nil => rfl
  | cons w rest ih =>
    rw [List.map_cons, runSteps_cons, ih _ (fun v hv => h v (by simp [hv]))]
    rw [State.writeReg, State.reg_setReg_ite, if_neg (fun e => h w (by simp) e.symm)]

theorem State.commitRecord_regs (s : State) (q : Posting) (f : FrozenSale) :
    (s.commitRecord q f).writes.map (·.reg) = q.targets := rfl

/-- A commit ends the TAKEN posting, and no operand of a suspended job is among its targets (R117, R123). -/
theorem UnitWorks.commitPosting {s : State} (h : UnitWorks s) (honce : (s.dcu.postings.map (·.point)).Nodup)
    (hr : s.rcu.running = true) {q : Posting} {f : FrozenSale} (hq : s.takenSale = some (q, f)) :
    UnitWorks (s.commitPosting q f) := by
  obtain ⟨hmem, htaken, -⟩ := State.takenSale_some hq
  have hunit : s.dcu.unit = .posting := h.posting.mpr ⟨q, hmem, htaken⟩
  have hna : ∀ j, s.dcu.job = some j → j.phase ≠ .active := fun j hj => h.not_active (by simp [hunit]) hj
  have hnt : ∀ e, e ∈ s.dcu.postings.filter (fun e => decide (e.point ≠ q.point)) → e.taken ≠ true := by
    intro e he ht
    rw [List.mem_filter, decide_eq_true_eq] at he
    exact he.2 (congrArg Posting.point (h.oneTaken e q he.1 hmem ht htaken))
  have hregs : ∀ r, r ∉ q.targets → (runSteps ((s.commitRecord q f).writes.map
      (fun w s => s.writeReg w.reg w.value)) s).reg r = s.reg r := by
    intro r hr'
    refine runSteps_writes_reg_of_ne _ _ (fun w hw e => hr' ?_)
    rw [← s.commitRecord_regs q f, ← e]
    exact List.mem_map_of_mem hw
  rw [State.commitPosting_eq]
  refine UnitWorks.choose ⟨fun hr' => ?_, ?_, fun a b ha _ hta => absurd hta (hnt a ha), ?_,
    fun i hi ha => absurd ha (hna i hi), fun i hi hs => ?_, fun i a hi _ ha hta => absurd hta (hnt a ha),
    h.heldOnce, h.heldEight, fun a ha hta => absurd hta (hnt a ha), h.holdTimer, h.holdJob⟩
    (honce.sublist (List.filter_sublist.map _))
  · have hr' : s.rcu.running = false := hr'
    rw [hr] at hr'
    cases hr'
  · exact ⟨fun e => (by cases e), fun ⟨e, he, ht⟩ => absurd ht (hnt e he)⟩
  · exact ⟨fun e => (by cases e), fun ⟨i, hi, ha⟩ => absurd ha (hna i hi)⟩
  · obtain ⟨c, hc, hvalues⟩ := h.suspended i hi hs
    refine ⟨c, hc, State.operandsHeld_congr hvalues (fun r hr' => hregs r (fun ht => ?_))⟩
    exact h.apart i q hi hs hmem htaken r ht hr'

theorem UnitWorks.expireHold {s : State} (h : UnitWorks s) (honce : (s.dcu.postings.map (·.point)).Nodup) :
    UnitWorks s.expireHold :=
  UnitWorks.choose ⟨h.idle, h.posting, h.oneTaken, h.host, h.active, h.suspended, h.apart, .nil, by simp,
    fun _ _ _ _ _ hr => (by cases hr), by simp, h.holdJob⟩ honce

/-- Nothing held, and no timer of a hold. -/
theorem nothingHeld_iff : (none : Option Nat).isSome = true ↔ ([] : List RegNo) ≠ [] := by simp

/-- The first step leaves a unit in FREE with nothing held (R169). -/
theorem UnitWorks.firstStep (s : State) : UnitWorks s.firstStep := by
  refine UnitWorks.of_free rfl rfl (fun q hq => ?_) .nil (Nat.zero_le 8) nothingHeld_iff
  obtain ⟨e, -, rfl⟩ := List.mem_map.mp hq
  rfl

/-- A part that does not run has no work in hand, so that its registers may change (R167, R169). -/
theorem UnitWorks.of_stopped {s t : State} (h : UnitWorks s) (hr : s.rcu.running = false)
    {ps : List Posting} (hps : ∀ q, q ∈ ps → q ∈ s.dcu.postings ∨ q.taken = false)
    (hunit : t.dcu.unit = s.dcu.unit) (hjob : t.dcu.job = s.dcu.job) (hpostings : t.dcu.postings = ps)
    (hheld : t.dcu.held = s.dcu.held) (htimer : t.dcu.holdTimer = s.dcu.holdTimer) : UnitWorks t := by
  obtain ⟨hfree, hnone⟩ := h.idle hr
  refine UnitWorks.of_free (hunit.trans hfree) (hjob.trans hnone) (fun q hq => ?_) (by rw [hheld]; exact h.heldOnce)
    (by rw [hheld]; exact h.heldEight) (by rw [hheld, htimer]; exact h.holdTimer)
  rcases hps q (hpostings ▸ hq) with hq | ht
  · exact h.untaken (by simp [hfree]) hq
  · exact ht

theorem Point.powerPosting_untaken {x : Point} {p : PointNo} {q : Posting}
    (h : q ∈ (x.powerPosting p).toList) : q.taken = false := by
  unfold Point.powerPosting at h
  split at h
  · cases hx : x.auth <;> simp [hx] at h
    rw [h]
  · cases h

theorem UnitWorks.warmStep {s : State} (h : UnitWorks s) (hr : s.rcu.running = false) {f : State → State}
    (hf : f ∈ warmPath) : UnitWorks (f s) := by
  rcases mem_warmPath hf with rfl | ⟨p, rfl⟩ | ⟨k, rfl⟩
  · unfold State.warmJournal
    split
    · rw [State.completeCommit_eq]
      exact h.of_stopped hr (fun q hq => .inl (List.mem_of_mem_filter hq)) rfl rfl rfl rfl rfl
    · exact h
  · rw [State.warmPoint_rest]
    refine h.of_stopped hr (ps := s.dcu.postings ++ ((s.point p).powerPosting p).toList)
      (fun q hq => ?_) rfl rfl rfl rfl rfl
    rcases List.mem_append.mp hq with hq | hq
    · exact .inl hq
    · exact .inr (Point.powerPosting_untaken hq)
  · rw [State.warmPrice_rest]
    exact h.congr rfl rfl (fun _ => rfl)

theorem UnitWorks.coldWrite {s : State} (h : UnitWorks s) (hr : s.rcu.running = false) {mark : Bool}
    {f : State → State} (hf : ColdWrite mark f) : UnitWorks (f s) := by
  cases hf with
  | dcu => exact UnitWorks.of_free rfl rfl (fun _ hq => by cases hq) .nil (Nat.zero_le 8) nothingHeld_iff
  | tally => exact h.of_stopped hr (fun q hq => .inl hq) rfl rfl rfl rfl rfl
  | enable | point | products | sales | mark => exact h.congr rfl rfl (fun _ => rfl)

/-! ## Every step -/

/-- The law of the unit but for the slot, which the link's own law gives. -/
structure UnitKept (s : State) : Prop where
  postings : PostingLaw s
  works : UnitWorks s

theorem unitKept_kept : KeptBySteps True True UnitKept where
  link s l h := ⟨postingLaw_kept.link s l h.postings, h.works.congr rfl rfl (fun _ => rfl)⟩
  pins s n hv hr h := ⟨postingLaw_kept.pins s n hv hr h.postings, h.works.congr rfl rfl (fun _ => rfl)⟩
  power s b h := ⟨postingLaw_kept.power s b h.postings, h.works.congr rfl rfl (fun _ => rfl)⟩
  move s p f h hr hf := ⟨postingLaw_kept.move s p f h.postings hr hf,
    h.works.congr (by simp) (by simp) (fun r => by simp)⟩
  mod s p f h hr _ hf := ⟨postingLaw_kept.mod s p f h.postings hr (fun e => e.elim) hf,
    h.works.congr rfl rfl (fun _ => rfl)⟩
  flags s h := ⟨postingLaw_kept.flags s h.postings, h.works.congr rfl rfl (fun _ => rfl)⟩
  settle s p f h hr hst hf := by
    refine ⟨postingLaw_kept.settle s p f h.postings hr hst hf, UnitWorks.choose ?_ ?_⟩
    · refine h.works.addPosting (ps := (((s.movePoint p (fun x => (f x).enterSettling p)).point p).frozen.map
        FrozenSale.posting).toList) (fun q hq => ?_) ?_ ?_ (fun r => ?_)
      · cases hx : ((s.movePoint p (fun x => (f x).enterSettling p)).point p).frozen <;> simp [hx] at hq
        rw [hq]
        rfl
      · rw [State.submit_rest, State.submit_postings]
        simp
      · rw [State.submit_rest]
        simp
      · rw [State.submit_rest]
        exact s.movePoint_reg p _ r
    · have hposting := (postingLaw_kept.settle s p f h.postings hr hst hf).once
      unfold State.settlePoint at hposting
      rwa [map_point_of_untaken (State.choose_untaken _)] at hposting
  product s k r h h1 h2 h3 := ⟨postingLaw_kept.product s k r h.postings h1 h2 h3, h.works.congr rfl rfl (fun _ => rfl)⟩
  price s k r c h h1 h2 := ⟨postingLaw_kept.price s k r c h.postings h1 h2, h.works.congr rfl rfl (fun _ => rfl)⟩
  stage s k r c h h1 h2 := ⟨postingLaw_kept.stage s k r c h.postings h1 h2, h.works.congr rfl rfl (fun _ => rfl)⟩
  remove s n h hr := ⟨postingLaw_kept.remove s n h.postings hr, h.works.congr rfl rfl (fun _ => rfl)⟩
  accept s req h ho hj hr hp := ⟨postingLaw_kept.accept s req h.postings ho (fun e => e.elim) hr hp,
    h.works.acceptJob h.postings.once (State.running_of_operating ho) (hj trivial) hp⟩
  complete s j h ho hj := ⟨postingLaw_kept.complete s j h.postings ho hj, h.works.completeJob h.postings.once hj⟩
  suspend s j h ho hj hs := ⟨postingLaw_kept.suspend s j h.postings ho hj hs,
    h.works.suspendJob h.postings.once (State.running_of_operating ho) hj⟩
  commit s q f h ho hq := ⟨postingLaw_kept.commit s q f h.postings ho hq,
    h.works.commitPosting h.postings.once (State.running_of_operating ho) hq⟩
  hold s h ho := ⟨postingLaw_kept.hold s h.postings ho, h.works.expireHold h.postings.once⟩
  first s h := ⟨postingLaw_kept.first s h.postings, UnitWorks.firstStep s⟩
  cut s c h ho := ⟨postingLaw_kept.cut s c h.postings ho, UnitWorks.firstStep _⟩
  dark s n hr h := ⟨postingLaw_kept.dark s n hr h.postings, h.works.congr rfl rfl (fun _ => rfl)⟩
  check s b hr h := ⟨postingLaw_kept.check s b hr h.postings, h.works.congr rfl rfl (fun _ => rfl)⟩
  path s f hr hg h hf := ⟨postingLaw_kept.path s f hr hg h.postings hf, h.works.warmStep (hr trivial) hf⟩
  cold s m f hr hg h hf := ⟨postingLaw_kept.cold s m f hr hg h.postings hf, h.works.coldWrite (hr trivial) hf⟩
  good s m hr h := ⟨postingLaw_kept.good s m hr h.postings, h.works.congr rfl rfl (fun _ => rfl)⟩
  final s hr hg h hj hrest hstaged := by
    refine ⟨postingLaw_kept.final s hr hg h.postings hj hrest hstaged, UnitWorks.choose ?_ h.postings.once⟩
    obtain ⟨hrun, -, -⟩ := hr trivial
    exact h.works.of_stopped hrun (fun q hq => .inl hq) rfl rfl rfl rfl rfl

/-- Settles O59: work is taken up by the choice alone, which finds the unit in FREE, and ends by a
completion, a suspension or a commit, none of which touches an operand of a job that has begun. -/
theorem stepKeepsUnitLaw : Obligations.StepKeepsUnitLaw := by
  unfold Obligations.StepKeepsUnitLaw
  intro s t h e
  refine step_keeps h e (fun rest h => ?_) (fun c u hu he => ?_)
  · have hp := h.postings
    exact ⟨⟨hp.points.congr rfl rfl rfl (fun _ => rfl), hp.trusted, hp.journal, hp.once, hp.settling, hp.copies,
      hp.pointOfJournal⟩, h.slot, h.idle, h.posting, h.oneTaken, h.host, h.active, h.suspended, h.apart, h.heldOnce,
      h.heldEight, h.heldApart, h.holdTimer, h.holdJob⟩
  · have hwork : UnitWorks u := ⟨hu.idle, hu.posting, hu.oneTaken, hu.host, hu.active, hu.suspended, hu.apart,
      hu.heldOnce, hu.heldEight, hu.heldApart, hu.holdTimer, hu.holdJob⟩
    have hno : u.link.replySlot ≠ .pending → u.dcu.job = none := fun hp => by
      have := mt hu.slot.mpr hp
      simpa using this
    have hpowered := hu.postings.points.powered
    obtain ⟨hslot, -⟩ := exec_slot c u t ⟨hu.slot, fun hr => (hu.idle hr).2⟩ hpowered he
    obtain ⟨hpost, hw⟩ := exec_kept unitKept_kept c u t ⟨hu.postings, hwork⟩ (fun _ => hno) (fun _ => hpowered) he
    exact ⟨hpost, hslot, hw.idle, hw.posting, hw.oneTaken, hw.host, hw.active, hw.suspended, hw.apart, hw.heldOnce,
      hw.heldEight, hw.heldApart, hw.holdTimer, hw.holdJob⟩

end Sys2Proof.Machine

/-! # Proofs: the arithmetic of volume, money and the decimal unit (Chapters 2 to 6) -/

namespace Sys2Proof.Machine

/-! ## Rounding -/

/-- A magnitude without its last `k` dropped digits, rounded at the one that is left (Section 0.6.2). -/
theorem roundOff_succ (m k rounding : Nat) : (roundOff m (k + 1) rounding).1 =
    m / 10 ^ k / 10 + if 10 ≤ m / 10 ^ k % 10 + rounding then 1 else 0 := by
  have hfirst : m % 10 ^ (k + 1) / 10 ^ k = m / 10 ^ k % 10 := by
    rw [pow_succ, Nat.mod_mul_right_div_self]
  simp only [roundOff, Nat.succ_ne_zero, if_false, Nat.add_sub_cancel, hfirst]
  rw [pow_succ, ← Nat.div_div_eq_div_mul]

/-- With a rounding digit, rounding is one division. -/
theorem roundTail (a rounding : Nat) (h : rounding ≤ 9) :
    a / 10 + (if 10 ≤ a % 10 + rounding then 1 else 0) = (a + rounding) / 10 := by
  split <;> omega

/-- A larger number is not rounded to a smaller one. -/
theorem roundTail_mono {a b : Nat} (h : a ≤ b) (rounding : Nat) :
    a / 10 + (if 10 ≤ a % 10 + rounding then 1 else 0) ≤ b / 10 + if 10 ≤ b % 10 + rounding then 1 else 0 := by
  split <;> split <;> omega

theorem roundOff_eq (m k rounding : Nat) (h : rounding ≤ 9) :
    (roundOff m (k + 1) rounding).1 = (m + rounding * 10 ^ k) / 10 ^ (k + 1) := by
  rw [roundOff_succ, roundTail _ _ h, pow_succ, ← Nat.div_div_eq_div_mul,
    Nat.add_mul_div_right _ _ (by positivity)]

theorem bringTo_round {fromScale toScale : Nat} (h : toScale < fromScale) (m rounding : Nat) :
    bringTo m fromScale toScale rounding = roundOff m (fromScale - toScale - 1 + 1) rounding := by
  rw [bringTo, if_pos h, Nat.sub_add_cancel (by omega)]

theorem bringTo_append {fromScale toScale : Nat} (h : fromScale ≤ toScale) (m rounding : Nat) :
    bringTo m fromScale toScale rounding = (m * 10 ^ (toScale - fromScale), false) := by
  rw [bringTo, if_neg (by omega)]

/-- Where digits are dropped, rounding is one division, and ROUNDED tells of a nonzero remainder (R81). -/
theorem bringTo_round_eq {fromScale toScale : Nat} (h : toScale < fromScale) (m : Nat) {rounding : Nat}
    (hr : rounding ≤ 9) : bringTo m fromScale toScale rounding =
      ((m + rounding * 10 ^ (fromScale - toScale - 1)) / 10 ^ (fromScale - toScale),
       decide (m % 10 ^ (fromScale - toScale) ≠ 0)) := by
  refine Prod.ext ?_ ?_
  · rw [bringTo_round h, roundOff_eq _ _ _ hr, Nat.sub_add_cancel (by omega)]
  · rw [bringTo, if_pos h, roundOff, if_neg (by omega)]

theorem bringTo_mono {a b : Nat} (h : a ≤ b) (fromScale toScale rounding : Nat) :
    (bringTo a fromScale toScale rounding).1 ≤ (bringTo b fromScale toScale rounding).1 := by
  rcases Nat.lt_or_ge toScale fromScale with hs | hs
  · rw [bringTo_round hs, bringTo_round hs, roundOff_succ, roundOff_succ]
    exact roundTail_mono (Nat.div_le_div_right h) _
  · rw [bringTo_append hs, bringTo_append hs]
    exact Nat.mul_le_mul_right _ h

/-- A number that reaches an amount, the scales apart, reaches it after rounding too. -/
theorem le_bringTo {amount m fromScale toScale : Nat} (rounding : Nat)
    (h : amount * 10 ^ fromScale ≤ m * 10 ^ toScale) : amount ≤ (bringTo m fromScale toScale rounding).1 := by
  rcases Nat.lt_or_ge toScale fromScale with hs | hs
  · obtain ⟨k, rfl⟩ := Nat.exists_eq_add_of_lt hs
    rw [show toScale + k + 1 = k + 1 + toScale by omega, pow_add 10 (k + 1), ← mul_assoc] at h
    have hm := Nat.le_of_mul_le_mul_right h (by positivity)
    rw [bringTo_round hs, show toScale + k + 1 - toScale - 1 = k by omega, roundOff_succ, Nat.div_div_eq_div_mul,
      ← pow_succ]
    exact ((Nat.le_div_iff_mul_le (by positivity)).mpr hm).trans (Nat.le_add_right _ _)
  · obtain ⟨k, rfl⟩ := Nat.exists_eq_add_of_le hs
    rw [bringTo_append hs, Nat.add_sub_cancel_left]
    rw [Nat.add_comm fromScale k, pow_add, ← mul_assoc] at h
    exact Nat.le_of_mul_le_mul_right h (by positivity)

/-! ## Money and targets -/

/-- A larger volume never costs less (R59). -/
theorem liveMoneyOf_mono {v w : Nat} (h : v ≤ w) (price vs ps ms rounding : Nat) :
    liveMoneyOf v price vs ps ms rounding ≤ liveMoneyOf w price vs ps ms rounding :=
  bringTo_mono (Nat.mul_le_mul_right _ h) _ _ _

/-- A larger count never gives less volume (R42). -/
theorem liveVolumeOf_mono {n m : Nat} (h : n ≤ m) (kFactor vs : Nat) :
    liveVolumeOf n kFactor vs ≤ liveVolumeOf m kFactor vs :=
  Nat.div_le_div_right (Nat.mul_le_mul_right _ (Nat.mul_le_mul_right _ h))

/-- The quotient rounded up costs at least the amount (R65). -/
theorem le_liveMoneyOf_quotientUp {price : Nat} (h : price ≠ 0) (amount vs ps ms rounding : Nat) :
    amount ≤ liveMoneyOf (quotientUp amount price vs ps ms) price vs ps ms rounding := by
  refine le_bringTo rounding ?_
  have hden : 0 < price * 10 ^ ms := Nat.mul_pos (by omega) (by positivity)
  rw [quotientUp, mul_assoc]
  generalize amount * 10 ^ (vs + ps) = num at *
  generalize price * 10 ^ ms = den at *
  have hlt := Nat.lt_div_mul_add (a := num + den - 1) hden
  omega

/-- Moving down stops at the least volume that still reaches the amount (R65). -/
theorem moveDown_least {money : Nat → Nat} (hmono : ∀ v w, v ≤ w → money v ≤ money w) {amount n : Nat}
    (h : amount ≤ money n) : amount ≤ money (moveDown money amount n) ∧
      ∀ v, v < moveDown money amount n → money v < amount := by
  induction n with
  | zero => exact ⟨h, fun v hv => absurd hv (Nat.not_lt_zero v)⟩
  | succ n ih =>
    unfold moveDown
    split
    · next hn => exact ih hn
    · next hn => exact ⟨h, fun v hv => (hmono v n (Nat.le_of_lt_succ hv)).trans_lt (Nat.lt_of_not_le hn)⟩

/-- Settles O33: money is monotone in the volume, so that moving down from a volume that reaches the amount
stops at the least one. -/
theorem moneyTargetIsTheLeastVolume : Obligations.MoneyTargetIsTheLeastVolume := by
  unfold Obligations.MoneyTargetIsTheLeastVolume
  refine ⟨fun net kFactor vs volume h => Nat.le_div_iff_mul_le h, fun volume price vs ps ms rounding hr =>
    ⟨fun h => ?_, fun h => ?_⟩, fun v w price vs ps ms rounding h => liveMoneyOf_mono h _ _ _ _ _,
    fun amount price vs ps ms rounding h => ?_⟩
  · rw [liveMoneyOf, bringTo_round_eq h _ hr]
  · rw [liveMoneyOf, bringTo_append h]
  · exact moveDown_least (fun v w hvw => liveMoneyOf_mono hvw _ _ _ _ _)
      (le_liveMoneyOf_quotientUp h amount vs ps ms rounding)

/-! ## The storing step and the quotient -/

theorem storingStep_eq (d : TallyReg) (x : Exact) (rounding : Nat) :
    storingStep d x rounding =
      (if x.value < 0 then -(((bringTo x.value.natAbs x.scale d.scale rounding).1 % 10 ^ d.digits : Nat) : Int)
        else ((bringTo x.value.natAbs x.scale d.scale rounding).1 % 10 ^ d.digits : Nat),
       ⟨decide (x.value < 0 ∧ (bringTo x.value.natAbs x.scale d.scale rounding).1 % 10 ^ d.digits ≠ 0),
        decide ((bringTo x.value.natAbs x.scale d.scale rounding).1 % 10 ^ d.digits = 0),
        decide (10 ^ d.digits ≤ (bringTo x.value.natAbs x.scale d.scale rounding).1),
        (bringTo x.value.natAbs x.scale d.scale rounding).2, false⟩) := by
  generalize hscaled : bringTo x.value.natAbs x.scale d.scale rounding = scaled
  simp only [storingStep, fitStore, fitDigits, withSign, ResultFlags.describe, hscaled, decide_eq_true_eq]
  generalize scaled.1 % 10 ^ d.digits = kept
  split
  · next h => simp [h, Nat.pos_iff_ne_zero]
  · next h => simp [h]

/-- The quotient truncated to one digit too many and rounded there is the exact quotient rounded (R101,
R102). -/
theorem roundQuotient_longDivision {divisor : Nat} (h : divisor ≠ 0) {rounding : Nat} (hr : rounding ≤ 9)
    (dividend s1 s2 d : Nat) : roundQuotient (longDivision dividend divisor s1 s2 d) rounding =
      ((10 * (dividend * 10 ^ (s1 + d)) + rounding * (divisor * 10 ^ s2)) / (10 * (divisor * 10 ^ s2)),
       decide (dividend * 10 ^ (s1 + d) % (divisor * 10 ^ s2) ≠ 0)) := by
  have hden : 0 < divisor * 10 ^ s2 := Nat.mul_pos (by omega) (by positivity)
  have hnum : dividend * 10 ^ (s1 + d + 1) = 10 * (dividend * 10 ^ (s1 + d)) := by ring
  simp only [longDivision, roundQuotient, hnum]
  generalize dividend * 10 ^ (s1 + d) = num at *
  generalize divisor * 10 ^ s2 = den at *
  refine Prod.ext ?_ ?_
  · show 10 * num / den / 10 + _ = _
    rw [roundTail _ _ hr, Nat.mul_comm 10 den, ← Nat.div_div_eq_div_mul, Nat.add_mul_div_right _ _ hden]
  · have hexact : (10 * num / den % 10 = 0 ∧ 10 * num % den = 0) ↔ num % den = 0 := by
      rw [← Nat.dvd_iff_mod_eq_zero, ← Nat.dvd_iff_mod_eq_zero, ← Nat.dvd_iff_mod_eq_zero]
      constructor
      · rintro ⟨⟨k, hk⟩, hdvd⟩
        have := Nat.div_mul_cancel hdvd
        rw [hk] at this
        exact ⟨k, by nlinarith⟩
      · rintro ⟨k, rfl⟩
        refine ⟨⟨k, ?_⟩, ⟨10 * k, by ring⟩⟩
        rw [show 10 * (den * k) = den * (10 * k) by ring, Nat.mul_div_cancel_left _ hden]
    show (decide _ || decide _) = decide _
    rw [← Bool.decide_or, decide_eq_decide, ← not_iff_not]
    push Not
    exact hexact

/-- Settles O34: rounding is one division, by the digit left of the dropped ones. -/
theorem storingRoundsAndFits : Obligations.StoringRoundsAndFits := by
  unfold Obligations.StoringRoundsAndFits
  exact ⟨fun magnitude fromScale toScale rounding hr =>
    ⟨fun h => bringTo_round_eq h magnitude hr, fun h => bringTo_append h magnitude rounding⟩,
    storingStep_eq, fun dividend divisor s1 s2 d rounding h hr => roundQuotient_longDivision h hr dividend s1 s2 d⟩

/-! ## Exact results -/

/-- Zeros appended do not change the number (R94). -/
theorem alignTo_rat (v : Int) {fromScale toScale : Nat} (h : fromScale ≤ toScale) :
    ((alignTo v fromScale toScale : Int) : ℚ) / 10 ^ toScale = v / 10 ^ fromScale := by
  obtain ⟨k, rfl⟩ := Nat.exists_eq_add_of_le h
  rw [alignTo, Nat.add_sub_cancel_left, pow_add]
  push_cast
  field_simp

theorem exactAdd_rat (r1 r2 : TallyReg) : (exactAdd r1 r2).rat = r2.rat + r1.rat := by
  simp only [exactAdd, Exact.rat, TallyReg.rat]
  push_cast
  rw [add_div, alignTo_rat _ (le_max_right _ _), alignTo_rat _ (le_max_left _ _)]

theorem exactSubtract_rat (r1 r2 : TallyReg) : (exactSubtract r1 r2).rat = r2.rat - r1.rat := by
  rw [exactSubtract, exactAdd_rat, sub_eq_add_neg]
  simp [TallyReg.rat, TallyReg.withValue, neg_div]

theorem exactMultiply_rat (r1 r2 : TallyReg) : (exactMultiply r1 r2).rat = r2.rat * r1.rat := by
  simp only [exactMultiply, Exact.rat, TallyReg.rat]
  push_cast
  rw [pow_add]
  field_simp

theorem exactRescale_rat (r : TallyReg) (k : Int) : (exactRescale r k).rat = r.rat * (10 : ℚ) ^ k := by
  have hten : (10 : ℚ) ≠ 0 := by norm_num
  unfold exactRescale
  split
  · next h =>
    have hscale : ((r.scale - k).toNat : Int) = r.scale - k := Int.toNat_of_nonneg (by omega)
    simp only [Exact.rat, TallyReg.rat]
    rw [← zpow_natCast, hscale, zpow_sub₀ hten, zpow_natCast]
    field_simp
  · next h =>
    have hscale : ((k - r.scale).toNat : Int) = k - r.scale := Int.toNat_of_nonneg (by omega)
    simp only [Exact.rat, TallyReg.rat]
    push_cast
    rw [← zpow_natCast 10 (k - r.scale).toNat, hscale, zpow_sub₀ hten, zpow_natCast]
    field_simp

/-- The sum at a working scale at least as large as every scale (R107). -/
theorem sumAt_rat (rs : List TallyReg) {w : Nat} (h : maxScale rs ≤ w) :
    ((sumAt w rs : Int) : ℚ) / 10 ^ w = (rs.map TallyReg.rat).sum := by
  induction rs with
  | nil => simp [sumAt]
  | cons r rs ih =>
    simp only [maxScale, max_le_iff] at h
    obtain ⟨hr, hrs⟩ := h
    rw [sumAt, List.map_cons, List.sum_cons, ← ih hrs]
    push_cast
    rw [add_div, alignTo_rat _ hr, TallyReg.rat]

theorem postingSum_eq (v : Int) (amount : Nat) : postingSum v amount =
    (if v + amount < 0 then -(((v + amount).natAbs % 10 ^ 16 : Nat) : Int)
     else (((v + amount).natAbs % 10 ^ 16 : Nat) : Int),
     decide (10 ^ 16 ≤ (v + amount).natAbs)) := by
  simp only [postingSum, fitDigits, withSign, decide_eq_true_eq]
  rfl

/-- Settles O35: zeros appended leave the number, so that a sum at the larger scale is exact. -/
theorem exactResultsAreExact : Obligations.ExactResultsAreExact := by
  unfold Obligations.ExactResultsAreExact
  exact ⟨fun r1 r2 => ⟨exactAdd_rat r1 r2, exactSubtract_rat r1 r2, exactMultiply_rat r1 r2⟩, exactRescale_rat,
    fun rs => sumAt_rat rs le_rfl, postingSum_eq⟩

end Sys2Proof.Machine

/-! # Proofs: the law of measurement and charge (Chapters 2 to 4) -/

namespace Sys2Proof.Machine

/-! ## What volume and money follow from -/

/-- What the measurement of every point needs from its surroundings: VS, MS and the rounding digits of the
products (R42, R59). -/
structure Tariff where
  vs       : Nat
  ms       : Nat
  rounding : ProductNo → Option Nat

/-- The tariff of the part. -/
def State.tariff (s : State) : Tariff :=
  ⟨s.tally.vs, s.tally.ms, fun k => (s.product k).map (·.rounding)⟩

/-- Every rounding digit is a digit (R48). -/
def Tariff.Lawful (T : Tariff) : Prop := ∀ k n, T.rounding k = some n → n ≤ 9

/-- What a point measures and charges, with the records that this follows from. -/
def Point.account (x : Point) :
    Option PointDef × Option AuthRecord × Nat × Nat × Nat × Option FrozenSale :=
  (x.defn, x.auth, x.liveVolume, x.liveMoney, x.meter.net, x.frozen)

/-- A point holds the records of its state, and a frozen sale that carries its live values (R8, R132). -/
structure Point.Coheres (x : Point) : Prop where
  defined : x.defn.isSome = true ↔ x.st ≠ .undefined
  auth : x.auth.isSome = true ↔ x.st.holdsAuth = true
  frozen : ∀ f, x.frozen = some f → x.st = .settling ∧ x.auth = some f.auth ∧ f.volume = x.liveVolume ∧
    f.money = x.liveMoney

/-- The live volume is what the net count gives, and the live money of a delivery what the volume costs
(R42, R44, R59, R60). -/
structure Point.Charged (T : Tariff) (x : Point) : Prop where
  coheres : x.Coheres
  volume : ∀ d, x.defn = some d →
    x.liveVolume = liveVolumeOf x.meter.net d.kFactor T.vs ∧ x.liveVolume < 10 ^ 8
  priced : ∀ a, x.auth = some a → ∃ n, T.rounding a.product = some n
  money : ∀ a n, x.auth = some a → x.st ≠ .authorized → T.rounding a.product = some n →
    x.liveMoney = liveMoneyOf x.liveVolume a.price T.vs a.priceScale T.ms n ∧ x.liveMoney < 10 ^ 8

theorem Point.Coheres.congr {x y : Point} (h : x.Coheres) (hst : y.st = x.st)
    (haccount : y.account = x.account) : y.Coheres := by
  simp only [Point.account, Prod.mk.injEq] at haccount
  obtain ⟨hdefn, hauth, hvolume, hmoney, -, hfrozen⟩ := haccount
  refine ⟨?_, ?_, ?_⟩
  · rw [hdefn, hst]; exact h.defined
  · rw [hauth, hst]; exact h.auth
  · rw [hfrozen, hst, hauth, hvolume, hmoney]; exact h.frozen

theorem Point.Coheres.frozen_none {x : Point} (h : x.Coheres) (hst : x.st ≠ .settling) : x.frozen = none := by
  cases hf : x.frozen with
  | none => rfl
  | some f => exact absurd (h.frozen f hf).1 hst

theorem Point.Coheres.auth_none {x : Point} (h : x.Coheres) (hst : x.st.holdsAuth = false) : x.auth = none := by
  have := mt h.auth.mp (by simp [hst])
  simpa using this

theorem Point.Coheres.undefined_iff {x : Point} (h : x.Coheres) : x.st = .undefined ↔ x.defn = none := by
  have hdefined := h.defined
  cases hd : x.defn <;> simp_all

section
variable {T : Tariff} {x y : Point}

theorem Point.Charged.congr (h : x.Charged T) (hst : y.st = x.st) (haccount : y.account = x.account) :
    y.Charged T := by
  have hcoheres := h.coheres.congr hst haccount
  simp only [Point.account, Prod.mk.injEq] at haccount
  obtain ⟨hdefn, hauth, hvolume, hmoney, hnet, -⟩ := haccount
  refine ⟨hcoheres, ?_, ?_, ?_⟩
  · rw [hdefn, hvolume, hnet]; exact h.volume
  · rw [hauth]; exact h.priced
  · rw [hauth, hst, hmoney, hvolume]; exact h.money

/-- A delivery goes on from one of its states to another. -/
theorem Point.Charged.goOn (h : x.Charged T) (hx : x.st.counting = true) (hy : y.st.counting = true)
    (haccount : y.account = x.account) : y.Charged T := by
  have hstates : ∀ z : Point, z.st.counting = true →
      z.st ≠ .undefined ∧ z.st ≠ .settling ∧ z.st ≠ .authorized ∧ z.st.holdsAuth = true := by
    intro z hz
    cases hst : z.st <;> simp [hst, PtState.counting, PtState.holdsAuth] at hz ⊢
  obtain ⟨hxu, hxs, hxa, hxh⟩ := hstates x hx
  obtain ⟨hyu, -, -, hyh⟩ := hstates y hy
  have hfrozen := h.coheres.frozen_none hxs
  simp only [Point.account, Prod.mk.injEq] at haccount
  obtain ⟨hdefn, hauth, hvolume, hmoney, hnet, hfrozen'⟩ := haccount
  refine ⟨⟨?_, ?_, ?_⟩, ?_, ?_, ?_⟩
  · rw [hdefn]; exact iff_of_true (h.coheres.defined.mpr hxu) hyu
  · rw [hauth]; exact iff_of_true (h.coheres.auth.mpr hxh) hyh
  · rw [hfrozen', hfrozen]; exact fun f hf => by cases hf
  · rw [hdefn, hvolume, hnet]; exact h.volume
  · rw [hauth]; exact h.priced
  · rw [hauth, hmoney, hvolume]; exact fun a n ha _ hn => h.money a n ha hxa hn

/-- A point without a delivery, in IDLE, CALLING or FAULTED. -/
theorem Point.Charged.rest (h : x.Charged T) (hx : x.st ≠ .undefined)
    (hy : y.st = .idle ∨ y.st = .calling ∨ y.st = .faulted) (hdefn : y.defn = x.defn) (hauth : y.auth = none)
    (hvolume : y.liveVolume = x.liveVolume) (hnet : y.meter.net = x.meter.net) (hfrozen : y.frozen = none) :
    y.Charged T := by
  have hstate : y.st ≠ .undefined ∧ y.st.holdsAuth = false := by
    rcases hy with e | e | e <;> simp [e, PtState.holdsAuth]
  obtain ⟨hyu, hyh⟩ := hstate
  refine ⟨⟨?_, ?_, ?_⟩, ?_, ?_, ?_⟩
  · rw [hdefn]; exact iff_of_true (h.coheres.defined.mpr hx) hyu
  · rw [hauth, hyh]; simp
  · rw [hfrozen]; exact fun f hf => by cases hf
  · rw [hdefn, hvolume, hnet]; exact h.volume
  · rw [hauth]; exact fun a ha => by cases ha
  · rw [hauth]; exact fun a n ha => by cases ha

theorem Point.charged_of_undefined (hst : x.st = .undefined) (hdefn : x.defn = none) (hauth : x.auth = none)
    (hfrozen : x.frozen = none) : x.Charged T :=
  ⟨⟨by simp [hst, hdefn], by simp [hst, hauth, PtState.holdsAuth], by simp [hfrozen]⟩, by simp [hdefn],
    by simp [hauth], by simp [hauth]⟩

/-- An undefined point is charged nothing, whatever the tariff. -/
theorem Point.Coheres.charged_of_undefined (h : x.Coheres) (hst : x.st = .undefined) : x.Charged T :=
  Point.charged_of_undefined hst (h.undefined_iff.mp hst) (h.auth_none (by simp [hst, PtState.holdsAuth]))
    (h.frozen_none (by simp [hst]))

/-! ## The changes of state -/

theorem Point.Charged.enterStopping (h : x.Charged T) (hst : x.st = .delivering ∨ x.st = .paused)
    (reason : EndReason) : (x.enterStopping reason).Charged T :=
  h.goOn (by rcases hst with e | e <;> simp [e, PtState.counting]) rfl rfl

theorem Point.Charged.dropTo (h : x.Charged T) (hst : x.st = .authorized) {st : PtState}
    (hto : st = .idle ∨ st = .faulted) : (x.dropTo st).Charged T :=
  h.rest (by simp [hst]) (by rcases hto with e | e <;> simp [Point.dropTo, e]) rfl rfl rfl rfl
    (h.coheres.frozen_none (by simp [hst]))

theorem Point.Charged.lapse (h : x.Charged T) (hst : x.st = .authorized) : x.lapse.Charged T :=
  (h.dropTo hst (.inl rfl)).congr rfl rfl

theorem Point.Charged.reportFault (h : x.Charged T) (k : FaultKind) : (x.reportFault k).Charged T := by
  have hresting : x.st = .idle ∨ x.st = .calling → ∀ y : Point, y.st = .faulted → y.account = x.account →
      y.Charged T := by
    intro hst y hto haccount
    have hfrozen := h.coheres.frozen_none (by rcases hst with e | e <;> simp [e])
    have hauth := h.coheres.auth_none (by rcases hst with e | e <;> simp [e, PtState.holdsAuth])
    simp only [Point.account, Prod.mk.injEq, hauth, hfrozen] at haccount
    obtain ⟨hdefn, hauth', hvolume, -, hnet, hfrozen'⟩ := haccount
    exact h.rest (by rcases hst with e | e <;> simp [e]) (.inr (.inr hto)) hdefn hauth' hvolume hnet hfrozen'
  unfold Point.reportFault
  cases hst : x.st with
  | idle => exact hresting (.inl hst) _ rfl rfl
  | calling => exact hresting (.inr hst) _ rfl rfl
  | authorized => exact (h.dropTo hst (.inr rfl)).congr rfl rfl
  | delivering | paused =>
    exact (h.enterStopping (by simp [hst]) .fault).congr rfl rfl
  | undefined | stopping | settling | faulted => exact h.congr hst.symm rfl

theorem Point.Charged.checkSlowDown (h : x.Charged T) : x.checkSlowDown.Charged T := by
  obtain ⟨_, _, e⟩ := x.checkSlowDown_eq
  rw [e]
  exact h.congr rfl rfl

theorem liveVolumeOf_zero (kFactor vs : Nat) : liveVolumeOf 0 kFactor vs = 0 := by simp [liveVolumeOf]

theorem liveMoneyOf_zero {rounding : Nat} (h : rounding ≤ 9) (price vs ps ms : Nat) :
    liveMoneyOf 0 price vs ps ms rounding = 0 := by
  rw [liveMoneyOf, Nat.zero_mul]
  rcases Nat.lt_or_ge ms (vs + ps) with hs | hs
  · rw [bringTo_round hs, roundOff_succ, Nat.zero_div, Nat.zero_div, Nat.zero_mod, if_neg (by omega)]
  · rw [bringTo_append hs, Nat.zero_mul]

/-- The delivery start of a defined point with an authorization at the tariff (R13). -/
theorem Point.charged_startDelivery (hT : T.Lawful) (hdefn : x.defn.isSome = true) {a : AuthRecord}
    (hauth : x.auth = some a) (hpriced : ∃ n, T.rounding a.product = some n) (hfrozen : x.frozen = none) :
    x.startDelivery.Charged T := by
  refine Point.Charged.checkSlowDown ⟨⟨?_, ?_, ?_⟩, fun d _ => ?_, fun b hb => ?_, fun b n hb _ hn => ?_⟩
  · simp [hdefn]
  · simp [hauth, PtState.holdsAuth]
  · simp [hfrozen]
  · exact ⟨(liveVolumeOf_zero _ _).symm, (by decide : 0 < 10 ^ 8)⟩
  · have hb : x.auth = some b := hb
    rw [hauth] at hb
    cases hb
    exact hpriced
  · exact ⟨(liveMoneyOf_zero (hT _ _ hn) _ _ _ _).symm, (by decide : 0 < 10 ^ 8)⟩

/-- A rise of the handle (R7, R13). -/
theorem Point.Charged.lift (hT : T.Lawful) (h : x.Charged T) : x.lift.Charged T := by
  unfold Point.lift
  split
  · exact h
  · dsimp only
    split
    · next hst =>
      exact h.rest (by simp [hst]) (.inr (.inl rfl)) rfl (h.coheres.auth_none (by simp [hst, PtState.holdsAuth]))
        rfl rfl (h.coheres.frozen_none (by simp [hst]))
    · next hst =>
      obtain ⟨a, ha⟩ := Option.isSome_iff_exists.mp (h.coheres.auth.mpr (by simp [hst, PtState.holdsAuth]))
      exact Point.charged_startDelivery hT (h.coheres.defined.mpr (by simp [hst])) ha (h.priced a ha)
        (h.coheres.frozen_none (by simp [hst]))
    · exact h.congr rfl rfl

/-- A fall of the handle (R7, R14). -/
theorem Point.Charged.lower (h : x.Charged T) : x.lower.Charged T := by
  have hy : ({ x with handleUp := false } : Point).Charged T := h.congr rfl rfl
  unfold Point.lower
  split
  · dsimp only
    split
    · next hst =>
      exact h.rest (by simp [hst]) (.inl rfl) rfl (h.coheres.auth_none (by simp [hst, PtState.holdsAuth]))
        rfl rfl (h.coheres.frozen_none (by simp [hst]))
    · next hst => exact hy.enterStopping (.inl hst) .handle
    · next hst => exact hy.enterStopping (.inr hst) .handle
    · exact hy
  · exact h

/-! ## Pulses -/

/-- The rates of a point are those of the tariff (R59). -/
def Rates.At (e : Rates) (T : Tariff) (x : Point) : Prop :=
  e.vs = T.vs ∧ e.ms = T.ms ∧ ∀ a n, x.auth = some a → T.rounding a.product = some n → e.rounding = n

theorem State.rates_at (s : State) (x : Point) : (s.rates x).At s.tariff x := by
  refine ⟨rfl, rfl, fun a n ha hn => ?_⟩
  obtain ⟨r, hr, rfl⟩ := Option.map_eq_some_iff.mp hn
  simp [State.rates, ha, hr]

/-- A new net count whose live values fit 8 digits (R42, R43, R59, R60). -/
theorem Point.Charged.recount (h : x.Charged T) {e : Rates} (he : e.At T x) (hst : x.st ≠ .settling) {net : Nat}
    (hvolume : x.volumeAt e net < 10 ^ 8) (hmoney : x.moneyAt e (x.volumeAt e net) < 10 ^ 8) :
    (x.recount e net).Charged T := by
  obtain ⟨hvs, hms, hrounding⟩ := he
  obtain ⟨flags, hrecount⟩ := Point.updateOverrun_eq { x with
    meter := { x.meter with net := net }, liveVolume := x.volumeAt e net
    liveMoney := x.moneyAt e (x.volumeAt e net) }
  unfold Point.recount
  dsimp only
  rw [hrecount]
  refine ⟨⟨h.coheres.defined, h.coheres.auth, fun f hf => ?_⟩, fun d hd => ⟨?_, hvolume⟩, h.priced,
    fun a n ha _ hn => ⟨?_, hmoney⟩⟩
  · exact absurd (h.coheres.frozen f hf).1 hst
  · have hd : x.defn = some d := hd
    simp [Point.volumeAt, hd, hvs]
  · have ha : x.auth = some a := ha
    simp [Point.moneyAt, ha, hvs, hms, hrounding a n ha hn]

theorem Point.Charged.restartSettle (h : x.Charged T) : x.restartSettle.Charged T := by
  unfold Point.restartSettle
  split
  · exact h.congr rfl rfl
  · exact h

theorem Point.Charged.restartNoFlow (h : x.Charged T) : x.restartNoFlow.Charged T := by
  unfold Point.restartNoFlow
  split
  · exact h.congr rfl rfl
  · exact h

theorem Point.Charged.compareMarks (h : x.Charged T) : x.compareMarks.Charged T := by
  have hmarks : x.st = .delivering ∨ x.st = .paused → x.checkSlowDown.checkTarget.Charged T := by
    intro hst
    obtain ⟨_, _, e⟩ := x.checkSlowDown_eq
    unfold Point.checkTarget
    split
    · split
      · exact h.checkSlowDown.enterStopping (by rw [e]; exact hst) .preset
      · exact h.checkSlowDown
    · exact h.checkSlowDown
  unfold Point.compareMarks
  split
  · next hst => exact hmarks (.inl hst)
  · next hst => exact hmarks (.inr hst)
  · exact h

theorem Point.Charged.forwardPulse (h : x.Charged T) {e : Rates} (he : e.At T x)
    (hst : x.st.counting = true) : (x.forwardPulse e).Charged T := by
  unfold Point.forwardPulse
  split
  · next hfits =>
    simp only [Point.fitsLimit, Bool.and_eq_true, decide_eq_true_eq] at hfits
    obtain ⟨hvolume, hmoney⟩ := hfits
    have hsettling : x.st ≠ .settling := fun e => by simp [e, PtState.counting] at hst
    exact ((h.recount he hsettling hvolume hmoney).restartNoFlow).restartSettle.compareMarks
  · unfold Point.discardPulse
    split
    · next hst => exact h.enterStopping (.inl hst) .limit
    · next hst => exact h.enterStopping (.inr hst) .limit
    · exact h.restartSettle

/-- A lower count keeps the live values within 8 digits (R36, R59). -/
theorem Point.Charged.lowerNet (h : x.Charged T) {e : Rates} (he : e.At T x) (hst : x.st.counting = true) :
    (x.lowerNet e).Charged T := by
  have hstates : x.st ≠ .undefined ∧ x.st ≠ .settling ∧ x.st ≠ .authorized ∧ x.st.holdsAuth = true := by
    cases hs : x.st <;> simp [hs, PtState.counting, PtState.holdsAuth] at hst ⊢
  obtain ⟨hu, hs, ha, hh⟩ := hstates
  obtain ⟨d, hdefn⟩ := Option.isSome_iff_exists.mp (h.coheres.defined.mpr hu)
  obtain ⟨a, hauth⟩ := Option.isSome_iff_exists.mp (h.coheres.auth.mpr hh)
  obtain ⟨n, hn⟩ := h.priced a hauth
  obtain ⟨hvolume, hvolumeFits⟩ := h.volume d hdefn
  obtain ⟨hmoney, hmoneyFits⟩ := h.money a n hauth ha hn
  obtain ⟨hvs, hms, hrounding⟩ := id he
  have hless : x.volumeAt e (x.meter.net - 1) ≤ x.liveVolume := by
    rw [hvolume]
    simp only [Point.volumeAt, hdefn, hvs]
    exact liveVolumeOf_mono (Nat.sub_le _ _) _ _
  have hcheaper : x.moneyAt e (x.volumeAt e (x.meter.net - 1)) ≤ x.liveMoney := by
    rw [hmoney]
    simp only [Point.moneyAt, hauth, hvs, hms, hrounding a n hauth hn]
    exact liveMoneyOf_mono hless _ _ _ _ _
  unfold Point.lowerNet
  split
  · exact (h.recount he hs (hless.trans_lt hvolumeFits) (hcheaper.trans_lt hmoneyFits)).compareMarks
  · exact h

theorem Point.countReverse_eq (x : Point) : ∃ reverse flags saleFlags, x.countReverse =
    { x with meter := { x.meter with reverse := reverse }, flags := flags, saleFlags := saleFlags } := by
  unfold Point.countReverse
  dsimp only
  split <;> exact ⟨_, _, _, rfl⟩

theorem Point.Charged.reversePulse (h : x.Charged T) {e : Rates} (he : e.At T x)
    (hst : x.st.counting = true) : (x.reversePulse e).Charged T := by
  have hlower : (x.countReverse.lowerNet e).restartSettle.Charged T := by
    obtain ⟨_, _, _, ec⟩ := x.countReverse_eq
    refine (Point.Charged.lowerNet (x := x.countReverse) ?_ ?_ ?_).restartSettle <;> rw [ec]
    · exact h.congr rfl rfl
    · exact he
    · exact hst
  unfold Point.reversePulse
  dsimp only
  split
  · exact hlower.reportFault .reverse
  · exact hlower

theorem Point.Charged.phaseError (h : x.Charged T) : x.phaseError.Charged T := by
  have hy : ({ x with meter := { x.meter with
      phaseErrors := min Config.count8Max (x.meter.phaseErrors + 1) } } : Point).Charged T := h.congr rfl rfl
  unfold Point.phaseError
  dsimp only
  split
  · exact hy.reportFault .pulser
  · exact hy

theorem Point.Charged.strayPulse (h : x.Charged T) : x.strayPulse.Charged T := by
  have hy : ({ x with
      meter := { x.meter with creep := min Config.count16Max (x.meter.creep + 1) }
      flags := { x.flags with creep := x.flags.creep || decide (x.meter.creep = 0) } } : Point).Charged T :=
    h.congr rfl rfl
  unfold Point.strayPulse
  dsimp only
  split
  · split
    · exact hy.reportFault .creep
    · exact hy
  · exact hy

/-- A change of the meter pins, whatever it decodes to (R27, R28). -/
theorem Point.Charged.takeChange (h : x.Charged T) {e : Rates} (he : e.At T x) (new : PhasePair) :
    (x.takeChange e new).Charged T := by
  unfold Point.takeChange
  split
  · next d old _ _ =>
    split
    · exact h
    · have hy : ({ x with meter := { x.meter with lastPhase := some new } } : Point).Charged T := h.congr rfl rfl
      cases decodeChange d.mode old new with
      | forward =>
        simp only [Point.applyChange]
        split
        · next hst => exact hy.forwardPulse he hst
        · exact hy.strayPulse
      | reverse =>
        simp only [Point.applyChange]
        split
        · next hst => exact hy.reversePulse he hst
        · exact hy.strayPulse
      | phaseError =>
        simp only [Point.applyChange]
        split
        · exact hy.phaseError
        · exact hy
      | neither => exact hy
  · exact h

/-! ## Authorization, settlement and starts -/

theorem Point.Charged.authorize (hT : T.Lawful) (h : x.Charged T) (hst : x.st = .idle ∨ x.st = .calling)
    {a : AuthRecord} (hpriced : ∃ n, T.rounding a.product = some n) : (x.authorize a).Charged T := by
  have hdefn := h.coheres.defined.mpr (by rcases hst with e | e <;> simp [e])
  have hfrozen := h.coheres.frozen_none (by rcases hst with e | e <;> simp [e])
  unfold Point.authorize
  split
  · exact Point.charged_startDelivery hT hdefn rfl hpriced hfrozen
  · refine ⟨⟨by simp [hdefn], by simp [PtState.holdsAuth], by simp [hfrozen]⟩, h.volume, fun b hb => ?_,
      fun b n _ hne => absurd rfl hne⟩
    cases hb
    exact hpriced

/-- The freeze of the sale carries the live values (R132). -/
theorem Point.Charged.enterSettling (h : x.Charged T) (hst : x.st.counting = true) (p : PointNo) :
    (x.enterSettling p).Charged T := by
  have hstates : x.st ≠ .undefined ∧ x.st ≠ .authorized ∧ x.st.holdsAuth = true := by
    cases hs : x.st <;> simp [hs, PtState.counting, PtState.holdsAuth] at hst ⊢
  obtain ⟨hu, ha, hh⟩ := hstates
  refine ⟨⟨?_, ?_, fun f hf => ?_⟩, h.volume, h.priced, fun a n hauth _ hn => h.money a n hauth ha hn⟩
  · simpa [Point.enterSettling] using h.coheres.defined.mpr hu
  · simpa [Point.enterSettling, PtState.holdsAuth] using h.coheres.auth.mpr hh
  · obtain ⟨a, hauth, rfl⟩ := Option.map_eq_some_iff.mp hf
    exact ⟨rfl, hauth, rfl, rfl⟩

theorem Point.Charged.leaveSettling (h : x.Charged T) : x.leaveSettling.Charged T := by
  unfold Point.leaveSettling
  split
  · next hst =>
    refine h.rest (by simp [hst]) ?_ rfl rfl rfl rfl rfl
    dsimp only
    split
    · exact .inl rfl
    · exact .inr (.inr rfl)
  · exact h

theorem Point.Charged.warmed (h : x.Charged T) (p : PointNo) : (x.warmed p).Charged T := by
  have hdelivery : x.st = .delivering ∨ x.st = .paused ∨ x.st = .stopping → (x.warmed p).Charged T := by
    intro hst
    rw [← x.warmed_of_counting p hst]
    refine Point.Charged.enterSettling (x := x.powerEnd) (h.congr rfl rfl) ?_ p
    rcases hst with e | e | e <;> simp [Point.powerEnd, e, PtState.counting]
  cases hst : x.st with
  | calling =>
    simp only [Point.warmed, hst]
    exact h.rest (by simp [hst]) (.inl rfl) rfl (h.coheres.auth_none (by simp [hst, PtState.holdsAuth])) rfl rfl
      (h.coheres.frozen_none (by simp [hst]))
  | authorized =>
    simp only [Point.warmed, hst]
    exact (h.lapse hst).congr rfl rfl
  | delivering => exact hdelivery (.inl hst)
  | paused => exact hdelivery (.inr (.inl hst))
  | stopping => exact hdelivery (.inr (.inr hst))
  | undefined | idle | settling | faulted =>
    simp only [Point.warmed, hst]
    exact h

theorem Point.warmed_defn (x : Point) (p : PointNo) : (x.warmed p).defn = x.defn := by
  unfold Point.warmed
  split <;> rfl

theorem Point.leaveSettling_defn (x : Point) : x.leaveSettling.defn = x.defn := by
  unfold Point.leaveSettling
  split <;> rfl

end

/-- AUTHORIZE names an ACTIVE product (R9). -/
theorem authorizeVerdict_product {q : AuthorizeReq} {s : State} {a : AuthRecord}
    (h : authorizeVerdict q s = .ok a) : ∃ r, s.product a.product = some r := by
  simp only [authorizeVerdict] at h
  split at h
  · cases h
  split at h
  · cases h
  split at h
  · cases h
  split at h
  · cases h
  split at h
  · cases h
  next r hr =>
  split at h
  · cases h
  split at h
  · cases h
  split at h
  · cases h
  · cases h
    exact ⟨r, hr⟩

/-- A reported change of a point keeps its charge (R42, R44, R59). -/
theorem PointMove.charged {s : State} {p : PointNo} {f : Point → Point} (hf : PointMove s p f)
    (hT : s.tariff.Lawful) (h : (s.point p).Charged s.tariff) : (f (s.point p)).Charged s.tariff := by
  cases hf with
  | lift => exact h.lift hT
  | lower => exact h.lower
  | take new => exact h.takeChange (s.rates_at _) new
  | authExp =>
    unfold Point.authorizationExpiry
    split
    · next hst => exact h.lapse hst.1
    · exact h
  | noFlow =>
    unfold Point.noFlowExpiry
    split
    · next hst => exact h.enterStopping (.inl hst.1) .noFlow
    · exact h
  | emergency =>
    unfold Point.emergency
    split
    · next hst => exact h.enterStopping (.inl hst) .emergency
    · next hst => exact h.enterStopping (.inr hst) .emergency
    · next hst => exact h.lapse hst
    · exact h
  | authorize q a hq hp =>
    subst hp
    obtain ⟨r, hr⟩ := authorizeVerdict_product hq
    exact h.authorize hT (authorizeVerdict_state hq) ⟨r.rounding, by simp [State.tariff, hr]⟩
  | drop hst => exact h.dropTo hst (.inl rfl)
  | pause hst => exact h.goOn (by simp [hst, PtState.counting]) rfl rfl
  | resume hst => exact h.goOn (by simp [hst, PtState.counting]) rfl rfl
  | stopReq r hst => exact h.enterStopping hst r
  | clearFault hst =>
    exact h.rest (by simp [hst]) (.inl rfl) rfl (h.coheres.auth_none (by simp [hst, PtState.holdsAuth])) rfl rfl
      (h.coheres.frozen_none (by simp [hst]))
  | clearCreep => exact h.congr rfl rfl

/-- A definition comes with no count, and keeps its K-factor (R3, R4, R5). -/
theorem PointRedefined.charged {s : State} {p : PointNo} {f : Point → Point} (hf : PointRedefined s p f)
    {T : Tariff} (h : (s.point p).Charged T) : (f (s.point p)).Charged T := by
  have hchangeable : (s.point p).st.changeable = true → (s.point p).st ≠ .undefined ∧
      (s.point p).auth = none ∧ (s.point p).frozen = none := by
    intro hst
    refine ⟨fun e => by simp [e, PtState.changeable] at hst, h.coheres.auth_none ?_, h.coheres.frozen_none ?_⟩
    · cases e : (s.point p).st <;> simp [e, PtState.changeable, PtState.holdsAuth] at hst ⊢
    · exact fun e => by simp [e, PtState.changeable] at hst
  cases hf with
  | define d pair hst =>
    have hauth := h.coheres.auth_none (by simp [hst, PtState.holdsAuth])
    have hfrozen := h.coheres.frozen_none (by simp [hst])
    refine ⟨⟨?_, ?_, ?_⟩, fun e _ => ⟨(liveVolumeOf_zero _ _).symm, (by decide : 0 < 10 ^ 8)⟩, ?_, ?_⟩ <;>
      simp [Point.define, hauth, hfrozen, PtState.holdsAuth]
  | modify q hst =>
    obtain ⟨hu, hauth, hfrozen⟩ := hchangeable hst
    refine ⟨⟨?_, h.coheres.auth, h.coheres.frozen⟩, fun e he => ?_, h.priced, h.money⟩
    · rw [Option.isSome_map]; exact h.coheres.defined
    · obtain ⟨d, hd, rfl⟩ := Option.map_eq_some_iff.mp he
      exact h.volume d hd
  | release hst =>
    obtain ⟨-, hauth, hfrozen⟩ := hchangeable hst
    exact Point.charged_of_undefined rfl rfl hauth hfrozen

/-! ## What leaves the tariff -/

theorem State.tariff_congr {s t : State} (hvs : t.tally.vs = s.tally.vs) (hms : t.tally.ms = s.tally.ms)
    (hproducts : ∀ k, (t.product k).map (·.rounding) = (s.product k).map (·.rounding)) :
    t.tariff = s.tariff := by
  unfold State.tariff
  rw [hvs, hms, funext hproducts]

@[simp] theorem State.choose_tariff (s : State) : s.choose.tariff = s.tariff := by
  rw [State.choose_rest]
  rfl

/-- A new price keeps the rounding digit (R50, R55). -/
theorem State.setProduct_tariff {s : State} {k : ProductNo} {r q : Product} (hr : s.product k = some r)
    (hq : q.rounding = r.rounding) : (s.setProduct k (some q)).tariff = s.tariff := by
  refine State.tariff_congr rfl rfl fun l => ?_
  rw [State.product_setProduct_ite]
  split
  · next e => rw [e, hr, Option.map_some, Option.map_some, hq]
  · rfl

@[simp] theorem State.activate_tariff (s : State) (k : ProductNo) : (s.activate k).tariff = s.tariff := by
  refine State.tariff_congr (by rw [State.activate_rest]) (by rw [State.activate_rest]) fun l => ?_
  rw [State.activate_product]
  split
  · next e =>
    subst e
    cases hr : s.product l with
    | none => rfl
    | some r => cases hstaged : r.staged <;> simp [Product.withStaged, hstaged]
  · rfl

@[simp] theorem State.reportLeft_tariff (s : State) (k : ProductNo) : (s.reportLeft k).tariff = s.tariff := by
  unfold State.reportLeft
  split <;> simp

@[simp] theorem State.movePoint_tariff (s : State) (p : PointNo) (f : Point → Point) :
    (s.movePoint p f).tariff = s.tariff := by
  unfold State.movePoint
  split
  · rfl
  · dsimp only
    split
    · rfl
    · exact State.reportLeft_tariff _ _

theorem State.settlePoint_tariff (s : State) (p : PointNo) (f : Point → Point) :
    (s.settlePoint p f).tariff = s.tariff := by
  unfold State.settlePoint
  rw [State.choose_tariff, State.submit_rest]
  exact State.movePoint_tariff _ _ _

/-- The writes of a commit leave the site's scales and the products (R123). -/
theorem runSteps_commitSteps_tariff {c : CommitRecord} {fs : List (State → State)}
    (hfs : ∀ f, f ∈ fs → f ∈ commitSteps c) (s : State) : (runSteps fs s).tariff = s.tariff := by
  refine runSteps_keeps (P := fun t => t.tariff = s.tariff) rfl fun f hf t ht => ?_
  have hstep := hfs f hf
  unfold commitSteps at hstep
  simp only [List.mem_append, List.mem_map, List.mem_cons, List.not_mem_nil, or_false] at hstep
  rcases hstep with ⟨w, -, rfl⟩ | rfl | rfl | rfl | rfl <;> exact ht

theorem State.completeCommit_tariff (s : State) (c : CommitRecord) : (s.completeCommit c).tariff = s.tariff :=
  runSteps_commitSteps_tariff (c := c) (fun _ hf => hf) s

theorem State.commitPosting_tariff (s : State) (q : Posting) (f : FrozenSale) :
    (s.commitPosting q f).tariff = s.tariff := by
  unfold State.commitPosting
  rw [State.choose_tariff]
  exact State.completeCommit_tariff _ _

theorem State.cutCommit_tariff (s : State) (cut : CommitCut) : (s.cutCommit cut).tariff = s.tariff := by
  unfold State.cutCommit
  split
  · exact runSteps_commitSteps_tariff (fun _ hf => List.mem_of_mem_take hf) _
  · rfl

/-- A change of the site's scales is asked for (R87). -/
def State.SitePending (s : State) : Prop := ∃ j v gc, s.dcu.job = some j ∧ j.req = .setSite (some v) gc

theorem State.sitePending_congr {s t : State} (h : t.dcu.job = s.dcu.job) : t.SitePending → s.SitePending := by
  unfold State.SitePending
  rw [h]
  exact id

theorem State.not_sitePending {s : State} (h : s.dcu.job = none) : ¬ s.SitePending := by
  rintro ⟨j, v, gc, hj, -⟩
  rw [h] at hj
  cases hj

theorem State.choose_sitePending {s : State} : s.choose.SitePending → s.SitePending := by
  rintro ⟨j, v, gc, hj, hreq⟩
  obtain ⟨i, hi, hsame, -⟩ := s.choose_req j hj
  exact ⟨i, v, gc, hi, hsame.trans hreq⟩

/-- Every job but a change of the scales leaves them (R83 to R88, R96 to R108). -/
theorem State.applyJob_tariff (s : State) {j : HostJob} (h : ∀ v gc, j.req ≠ .setSite (some v) gc) :
    (s.applyJob j).tariff = s.tariff := by
  unfold State.applyJob
  cases hreq : j.req with
  | setSite scales gc =>
    cases scales with
    | none => rfl
    | some v => exact absurd hreq (h v gc)
  | divide => dsimp only; split <;> rfl
  | declare | load | move | add | subtract | multiply | rescale | compare | sumList | readRegister | hold
  | releaseHold => rfl

theorem State.completeJob_tariff (s : State) (j : HostJob) :
    (s.completeJob j).tariff = (s.applyJob j).tariff := by
  unfold State.completeJob
  rw [State.choose_tariff, State.endStretch_rest]
  rfl

theorem State.completeJob_no_site (s : State) (j : HostJob) : ¬ (s.completeJob j).SitePending := by
  obtain ⟨_, _, _, _, e⟩ := s.completeJob_eq j
  rw [e]
  exact fun h => State.not_sitePending rfl (State.choose_sitePending h)

/-! ## The law, while the check word is good -/

/-- What each block keeps by itself. -/
structure ChargeOwn (s : State) : Prop where
  tariff : s.tariff.Lawful
  site : s.SitePending → ∀ p, (s.point p).st = .undefined
  points : ∀ p, (s.point p).Coheres

/-- What ties the points to the tariff. -/
structure ChargeTied (s : State) : Prop where
  tariff : s.tariff.Lawful
  site : s.SitePending → ∀ p, (s.point p).st = .undefined
  points : ∀ p, (s.point p).Charged s.tariff

theorem ChargeTied.own {s : State} (h : ChargeTied s) : ChargeOwn s :=
  ⟨h.tariff, h.site, fun p => (h.points p).coheres⟩

theorem State.tariff_lawful_iff (s : State) :
    s.tariff.Lawful ↔ ∀ k r, s.product k = some r → r.rounding ≤ 9 := by
  constructor
  · exact fun h k r hr => h k r.rounding (by simp [State.tariff, hr])
  · rintro h k n hn
    obtain ⟨r, hr, rfl⟩ := Option.map_eq_some_iff.mp hn
    exact h k r hr

theorem ChargeOwn.congr {s t : State} (h : ChargeOwn s) (htariff : t.tariff = s.tariff)
    (hsite : t.SitePending → s.SitePending)
    (hpoints : ∀ p, (t.point p).st = (s.point p).st ∧ (t.point p).account = (s.point p).account) :
    ChargeOwn t := by
  refine ⟨htariff ▸ h.tariff, fun hj p => ?_, fun p => ?_⟩
  · rw [(hpoints p).1]; exact h.site (hsite hj) p
  · exact (h.points p).congr (hpoints p).1 (hpoints p).2

/-- Where the tariff stays, each point keeps its charge by itself; one without a definition stays so. -/
theorem ChargeTied.congr {s t : State} (h : ChargeTied s) (htariff : t.tariff = s.tariff)
    (hsite : t.SitePending → s.SitePending)
    (hpoints : ∀ p, (t.point p).Charged s.tariff ∧ (t.point p).defn = (s.point p).defn) : ChargeTied t := by
  refine ⟨htariff ▸ h.tariff, fun hj p => ?_, fun p => htariff ▸ (hpoints p).1⟩
  rw [(hpoints p).1.coheres.undefined_iff, (hpoints p).2, ← (h.points p).coheres.undefined_iff]
  exact h.site (hsite hj) p

theorem ChargeTied.of_points {s t : State} (h : ChargeTied s) (htariff : t.tariff = s.tariff)
    (hsite : t.SitePending → s.SitePending)
    (hpoints : ∀ p, (t.point p).st = (s.point p).st ∧ (t.point p).account = (s.point p).account) :
    ChargeTied t := by
  refine h.congr htariff hsite fun p => ?_
  obtain ⟨hst, haccount⟩ := hpoints p
  exact ⟨(h.points p).congr hst haccount, congrArg Prod.fst haccount⟩

/-- A point that holds an authorization stands in the holding set of its product (R49). -/
theorem Point.Coheres.holding_of_auth {x : Point} (h : x.Coheres) {a : AuthRecord} (ha : x.auth = some a) :
    x.holding = some a.product := by
  have hst := h.auth.mp (by simp [ha])
  unfold Point.holding
  cases e : x.st <;> simp [e, PtState.holdsAuth] at hst <;> simp [ha]

/-- Another tariff that gives a point the same rates. -/
theorem Point.Charged.retariff {T U : Tariff} {x : Point} (h : x.Charged T) (hvs : U.vs = T.vs) (hms : U.ms = T.ms)
    (hrounding : ∀ a, x.auth = some a → U.rounding a.product = T.rounding a.product) : x.Charged U := by
  refine ⟨h.coheres, ?_, fun a ha => ?_, fun a n ha hne hn => ?_⟩
  · rw [hvs]; exact h.volume
  · rw [hrounding a ha]; exact h.priced a ha
  · rw [hvs, hms]; exact h.money a n ha hne (hrounding a ha ▸ hn)

theorem State.setProduct_lawful {s : State} (h : s.tariff.Lawful) {k : ProductNo} {r : Product}
    (hr : r.rounding ≤ 9) : (s.setProduct k (some r)).tariff.Lawful := by
  rw [State.tariff_lawful_iff] at h ⊢
  intro l q hq
  rw [State.product_setProduct_ite] at hq
  split at hq
  · cases hq
    exact hr
  · exact h l q hq

/-- A product is set only where no point holds it (R50, R51). -/
theorem ChargeTied.setProduct {s : State} (h : ChargeTied s) {k : ProductNo} {r : Product} (hr : r.rounding ≤ 9)
    (hempty : s.holdingEmpty k = true) : ChargeTied (s.setProduct k (some r)) := by
  refine ⟨State.setProduct_lawful h.tariff hr, h.site, fun p => (h.points p).retariff rfl rfl fun a ha => ?_⟩
  have hne : a.product ≠ k := fun e =>
    (s.holdingEmpty_iff k).mp hempty p (e ▸ (h.points p).coheres.holding_of_auth ha)
  simp [State.tariff, State.product_setProduct_ite, hne]

/-- The site's scales change only with every point UNDEFINED (R87). -/
theorem ChargeTied.completeJob {s : State} (h : ChargeTied s) {j : HostJob} (hj : s.activeJob = some j) :
    ChargeTied (s.completeJob j) := by
  have hno : (s.completeJob j).SitePending → s.SitePending := fun hp => absurd hp (s.completeJob_no_site j)
  have hpoint : ∀ p, (s.completeJob j).point p = s.point p := fun p => by rw [State.completeJob_rest]; rfl
  by_cases hsite : ∃ v gc, j.req = .setSite (some v) gc
  · obtain ⟨v, gc, hreq⟩ := hsite
    obtain ⟨-, hjob, -⟩ := State.activeJob_some hj
    refine ⟨?_, fun hp => absurd hp (s.completeJob_no_site j), fun p => ?_⟩
    · rw [State.tariff_lawful_iff, State.completeJob_rest]
      exact s.tariff_lawful_iff.mp h.tariff
    · rw [hpoint]
      exact (h.points p).coheres.charged_of_undefined (h.site ⟨j, v, gc, hjob, hreq⟩ p)
  · push Not at hsite
    exact h.of_points (by rw [State.completeJob_tariff, State.applyJob_tariff s hsite]) hno
      (fun p => by rw [hpoint]; exact ⟨rfl, rfl⟩)

theorem ChargeTied.firstStep {s : State} (h : ChargeTied s) : ChargeTied s.firstStep :=
  h.of_points rfl (fun hp => absurd hp (State.not_sitePending rfl))
    (fun p => by rw [State.firstStep_point]; exact ⟨rfl, rfl⟩)

/-- A cut commit takes a point out of SETTLING or leaves it (R124). -/
theorem State.cutCommit_point (s : State) (cut : CommitCut) (p : PointNo) :
    (s.cutCommit cut).point p = s.point p ∨ (s.cutCommit cut).point p = (s.point p).leaveSettling := by
  rcases s.cutCommit_cases cut with e | ⟨_, _, -, -, -, -, hpoints⟩
  · exact .inl (by rw [e])
  · rcases hpoints p with e | ⟨-, e⟩
    · exact .inl e
    · exact .inr e

/-- A commit takes at most its own point out of SETTLING (R123). -/
theorem ChargeTied.leave {s t : State} (h : ChargeTied s) (htariff : t.tariff = s.tariff)
    (hsite : t.SitePending → s.SitePending)
    (hpoints : ∀ p, t.point p = s.point p ∨ t.point p = (s.point p).leaveSettling) : ChargeTied t := by
  refine h.congr htariff hsite fun p => ?_
  rcases hpoints p with e | e <;> rw [e]
  · exact ⟨h.points p, rfl⟩
  · exact ⟨(h.points p).leaveSettling, Point.leaveSettling_defn _⟩

theorem ChargeTied.warmStep {s : State} (h : ChargeTied s) {f : State → State} (hf : f ∈ warmPath) :
    ChargeTied (f s) := by
  rcases mem_warmPath hf with rfl | ⟨p, rfl⟩ | ⟨k, rfl⟩
  · unfold State.warmJournal
    split
    · next c _ =>
      refine h.leave (s.completeCommit_tariff c) (State.sitePending_congr (by rw [State.completeCommit_eq]; rfl))
        (fun p => ?_)
      rw [State.completeCommit_point]
      split
      · exact .inr rfl
      · exact .inl rfl
    · exact h
  · refine h.congr (by rw [State.warmPoint_rest]; rfl) (State.sitePending_congr (by rw [State.warmPoint_rest]))
      (fun q => ?_)
    rw [State.warmPoint_point]
    split
    · next e => exact e ▸ ⟨(h.points q).warmed q, Point.warmed_defn _ _⟩
    · exact ⟨h.points q, rfl⟩
  · exact h.of_points (s.reportLeft_tariff k) (State.sitePending_congr (by rw [State.warmPrice_rest]))
      (fun p => by rw [State.warmPrice_rest]; exact ⟨rfl, rfl⟩)

theorem chargeTied_kept : KeptWhileGood True ChargeTied where
  link _ _ h := h.of_points rfl id (fun _ => ⟨rfl, rfl⟩)
  pins _ _ _ _ h := h.of_points rfl id (fun _ => ⟨rfl, rfl⟩)
  power _ _ h := h.of_points rfl id (fun _ => ⟨rfl, rfl⟩)
  move s p f h _ hf := by
    refine h.congr (s.movePoint_tariff p f) (State.sitePending_congr (by simp)) (fun q => ?_)
    rw [State.movePoint_point]
    split
    · next e =>
      subst e
      have hcharged := hf.charged h.tariff (h.points q)
      refine ⟨hcharged, ?_⟩
      rcases hf.loses (s.point q) with ⟨hdefn, -⟩ | ⟨_, _, -, -, hdefn, -⟩ <;> exact hdefn
    · exact ⟨h.points q, rfl⟩
  mod s p f h _ hjob hf := by
    refine ⟨h.tariff, fun hp => absurd hp (State.not_sitePending (hjob trivial)), fun q => ?_⟩
    rw [State.modPoint_point]
    split
    · next e => subst e; exact hf.charged (h.points q)
    · exact h.points q
  flags _ h := h.of_points rfl id (fun p => by rw [State.modAllPoints_point]; exact ⟨rfl, rfl⟩)
  settle s p f h _ hst hf := by
    refine h.congr (s.settlePoint_tariff p f) (fun hp => ?_) (fun q => ?_)
    · refine State.sitePending_congr ?_ (State.choose_sitePending hp)
      rw [State.submit_rest]
      simp
    · rw [State.settlePoint_point]
      split
      · next e =>
        subst e
        rcases hf with rfl | rfl
        · exact ⟨(h.points q).enterSettling (by simp [hst, PtState.counting]) q, rfl⟩
        · refine ⟨Point.Charged.enterSettling (x := (s.point q).flowAfterStop) ((h.points q).congr rfl rfl) ?_ q, rfl⟩
          simp [Point.flowAfterStop, hst, PtState.counting]
      · exact ⟨h.points q, rfl⟩
  product _ _ _ h hr hempty _ := h.setProduct hr hempty
  price _ _ _ _ h hr _ := h.of_points (State.setProduct_tariff hr rfl) id (fun _ => ⟨rfl, rfl⟩)
  stage _ _ _ _ h hr _ := h.of_points (State.setProduct_tariff hr rfl) id (fun _ => ⟨rfl, rfl⟩)
  remove _ _ h _ := h.of_points rfl id (fun _ => ⟨rfl, rfl⟩)
  accept s req h _ _ hok _ := by
    refine ⟨by rw [State.acceptJob, State.choose_tariff]; exact h.tariff, fun hp p => ?_, fun p => ?_⟩
    · obtain ⟨j, v, gc, hj, hreq⟩ := State.choose_sitePending hp
      cases hj
      have hreq : req = .setSite (some v) gc := hreq
      subst hreq
      have hidle : s.siteIdle = true := by
        by_contra hbusy
        simp [jobRefusal, hbusy] at hok
      simpa [State.acceptJob] using State.siteIdle_undefined hidle p
    · rw [State.acceptJob, State.choose_tariff, State.choose_point]
      exact h.points p
  complete _ _ h _ hj := h.completeJob hj
  suspend s j h _ hj _ := by
    obtain ⟨-, hjob, -⟩ := State.activeJob_some hj
    refine h.of_points (by simp [State.suspendJob]; rfl) (fun hp => ?_)
      (fun p => by simp [State.suspendJob])
    obtain ⟨i, v, gc, hi, hreq⟩ := State.choose_sitePending hp
    cases hi
    exact ⟨j, v, gc, hjob, hreq⟩
  commit s q f h _ _ := by
    refine h.leave (s.commitPosting_tariff q f) (fun hp => ?_) (fun p => ?_)
    · rw [State.commitPosting_eq] at hp
      exact (State.choose_sitePending hp :)
    · rw [State.commitPosting_point]
      split
      · exact .inr rfl
      · exact .inl rfl
  hold s h _ := h.of_points (by simp [State.expireHold]; rfl)
    (fun hp => by rw [State.expireHold] at hp; exact (State.choose_sitePending hp :))
    (fun p => by simp [State.expireHold])
  first _ h := h.firstStep
  cut s c h _ := by
    refine h.congr (s.cutCommit_tariff c) (fun hp => absurd hp (State.not_sitePending rfl)) (fun p => ?_)
    rw [State.firstStep_point]
    rcases s.cutCommit_point c p with e | e <;> rw [e]
    · exact ⟨(h.points p).congr rfl rfl, rfl⟩
    · exact ⟨(h.points p).leaveSettling.congr rfl rfl, Point.leaveSettling_defn _⟩
  dark _ _ _ h := h.of_points rfl id (fun _ => ⟨rfl, rfl⟩)
  path _ _ _ _ h hf := h.warmStep hf
  final s _ _ _ _ h _ _ _ := by
    refine h.of_points (by rw [State.finalStep_eq, State.choose_tariff]; rfl) (fun hp => ?_)
      (fun p => by rw [State.finalStep_point]; exact ⟨rfl, rfl⟩)
    rw [State.finalStep_eq] at hp
    exact (State.choose_sitePending hp :)

theorem chargeOwn_kept : KeptByBlocks ChargeOwn where
  link _ _ h := h.congr rfl id (fun _ => ⟨rfl, rfl⟩)
  pins _ _ h := h.congr rfl id (fun _ => ⟨rfl, rfl⟩)
  rcu _ _ _ h := h.congr rfl id (fun _ => ⟨rfl, rfl⟩)
  flags _ h := h.congr rfl id (fun p => by rw [State.modAllPoints_point]; exact ⟨rfl, rfl⟩)
  product _ _ _ h hr := ⟨State.setProduct_lawful h.tariff hr, h.site, h.points⟩
  price _ _ _ _ h hr := h.congr (State.setProduct_tariff hr rfl) id (fun _ => ⟨rfl, rfl⟩)
  stage _ _ _ _ h hr := h.congr (State.setProduct_tariff hr rfl) id (fun _ => ⟨rfl, rfl⟩)
  first _ h := h.congr rfl (fun hp => absurd hp (State.not_sitePending rfl))
    (fun p => by rw [State.firstStep_point]; exact ⟨rfl, rfl⟩)
  cold s mark f _ h hf := by
    cases hf with
    | point p =>
      have hpoint : ∀ q, (s.setPoint p Point.cold).point q = if q = p then Point.cold else s.point q :=
        fun q => s.point_setPoint_ite p q _
      refine ⟨h.tariff, fun hp q => ?_, fun q => ?_⟩
      · show ((s.setPoint p Point.cold).point q).st = _
        rw [hpoint]
        split
        · rfl
        · exact h.site hp q
      · show ((s.setPoint p Point.cold).point q).Coheres
        rw [hpoint]
        split
        · exact (Point.charged_of_undefined (T := s.tariff) rfl rfl rfl rfl).coheres
        · exact h.points q
    | products => exact ⟨fun k n hn => by simp [State.tariff, State.product] at hn, h.site, h.points⟩
    | tally => exact ⟨h.tariff, h.site, h.points⟩
    | dcu => exact h.congr rfl (fun hp => absurd hp (State.not_sitePending rfl)) (fun _ => ⟨rfl, rfl⟩)
    | enable | sales | mark => exact h.congr rfl id (fun _ => ⟨rfl, rfl⟩)

/-- The cold defaults are charged nothing (R170). -/
theorem chargeTied_coldDefaults (s : State) (mark : Bool) : ChargeTied ((s.coldDefaults mark).setCheck true) := by
  refine ⟨fun k n hn => ?_, fun hp => absurd hp (State.not_sitePending rfl), fun p => ?_⟩
  · simp [State.tariff, State.product, State.setCheck, State.modRcu, State.coldDefaults] at hn
  · have hpoint : ((s.coldDefaults mark).setCheck true).point p = Point.cold := s.coldDefaults_point mark p
    rw [hpoint]
    exact Point.charged_of_undefined rfl rfl rfl rfl

/-! ## Every step -/

/-- Nothing is asked of the moves. -/
theorem true_kept : KeptBySteps False True (fun _ => True) := by
  constructor <;> intros <;> trivial

theorem charge_kept : KeptBySteps True True (WhileGood (fun _ => True) ChargeOwn ChargeTied) :=
  KeptBySteps.whileGood chargeTied_kept true_kept chargeOwn_kept (fun _ h => h.own)
    (fun s mark _ _ => chargeTied_coldDefaults s mark)

/-- The law of measurement and charge is what `charge_kept` keeps, with the laws of power and of the slot. -/
theorem chargeLaw_iff (s : State) : ChargeLaw s ↔ RunsPowered s ∧ PendingExactlyWithJob s ∧
    (s.rcu.running = false → s.dcu.job = none) ∧ WhileGood (fun _ => True) ChargeOwn ChargeTied s := by
  have hproduct : ∀ k n, s.tariff.rounding k = some n ↔ ∃ r, s.product k = some r ∧ r.rounding = n :=
    fun k n => Option.map_eq_some_iff
  constructor
  · intro h
    have hown : ChargeOwn s := ⟨s.tariff_lawful_iff.mpr h.products,
      fun ⟨j, v, gc, hj, hreq⟩ => h.site j hj v gc hreq, fun p => ⟨h.defined p, h.auth p, h.frozen p⟩⟩
    refine ⟨h.powered, h.slot, h.idle, h.trusted, trivial, hown, fun g => ⟨hown.tariff, hown.site, fun p =>
      ⟨hown.points p, h.volume g p, fun a ha => ?_, fun a n ha hne hn => ?_⟩⟩⟩
    · obtain ⟨r, hr⟩ := h.priced g p a ha
      exact ⟨r.rounding, (hproduct _ _).mpr ⟨r, hr, rfl⟩⟩
    · obtain ⟨r, hr, rfl⟩ := (hproduct _ _).mp hn
      exact h.money g p a r ha hne hr
  · rintro ⟨hpowered, hslot, hidle, h⟩
    refine ⟨hpowered, hslot, hidle, fun j hj v gc hreq => h.own.site ⟨j, v, gc, hj, hreq⟩,
      fun p => (h.own.points p).defined, fun p => (h.own.points p).auth, s.tariff_lawful_iff.mp h.own.tariff,
      h.trusted, fun g p => ((h.good g).points p).volume, fun g p a ha => ?_,
      fun g p a r ha hne hr => ((h.good g).points p).money a r.rounding ha hne ((hproduct _ _).mpr ⟨r, hr, rfl⟩),
      fun p => (h.own.points p).frozen⟩
    obtain ⟨n, hn⟩ := ((h.good g).points p).priced a ha
    obtain ⟨r, hr, -⟩ := (hproduct _ _).mp hn
    exact ⟨r, hr⟩

/-- Settles O60: every pulse recomputes the live values from the net count, a count that falls costs no more,
and neither a scale nor a rounding digit changes under a delivery. -/
theorem stepKeepsChargeLaw : Obligations.StepKeepsChargeLaw := by
  unfold Obligations.StepKeepsChargeLaw
  intro s t h e
  refine step_keeps h e (fun rest h => ?_) (fun c u hu he => ?_)
  · exact ⟨h.powered, h.slot, h.idle, h.site, h.defined, h.auth, h.products, h.trusted, h.volume, h.priced, h.money,
      h.frozen⟩
  · obtain ⟨hpowered, hslot, hidle, hwhile⟩ := (chargeLaw_iff u).mp hu
    have hno : u.link.replySlot ≠ .pending → u.dcu.job = none := fun hp => by
      have := mt hslot.mpr hp
      simpa using this
    obtain ⟨hslot', hidle'⟩ := exec_slot c u t ⟨hslot, hidle⟩ hpowered he
    exact (chargeLaw_iff t).mpr ⟨exec_runsPowered c u t hpowered he, hslot', hidle',
      exec_kept charge_kept c u t hwhile (fun _ => hno) (fun _ => hpowered) he⟩

end Sys2Proof.Machine

/-! # Proofs: what every request row does with its slot and address (Chapter 9) -/

namespace Sys2Proof.Machine

/-! ## What the owner of a request finds, and what it leaves -/

/-- The slots, the address of the part and the queue of commands. -/
def State.slots (s : State) : ReplySlot × Bool × List Byte × BitVec 7 × List Instr :=
  (s.link.replySlot, s.link.priorReplyLost, s.link.requestSlot, s.link.busAddress, s.pending)

@[simp] theorem State.modPoint_slots (s : State) (p : PointNo) (f : Point → Point) :
    (s.modPoint p f).slots = s.slots := rfl
@[simp] theorem State.setProduct_slots (s : State) (k : ProductNo) (x : Option Product) :
    (s.setProduct k x).slots = s.slots := rfl
@[simp] theorem State.modSales_slots (s : State) (f : SaleQueue → SaleQueue) :
    (s.modSales f).slots = s.slots := rfl
@[simp] theorem State.movePoint_slots (s : State) (p : PointNo) (f : Point → Point) :
    (s.movePoint p f).slots = s.slots := by
  rw [State.movePoint_rest]
  rfl
@[simp] theorem State.stopEveryPoint_slots (s : State) : s.stopEveryPoint.slots = s.slots := by
  rw [State.stopEveryPoint_rest]
  rfl
@[simp] theorem State.clearEvents_slots (s : State) : s.clearEvents.slots = s.slots := rfl
@[simp] theorem State.acceptJob_slots (s : State) (req : JobReq) : (s.acceptJob req).slots = s.slots := by
  rw [State.acceptJob, State.choose_rest]
  rfl

/-- A start from v: the slots are empty, and the address is the old one or the straps' own (R145, R169). -/
structure Started (v t : State) : Prop where
  slot : t.link.replySlot = .empty
  pending : t.pending = v.pending
  address : t.link.busAddress = v.link.busAddress ∨ t.link.busAddress = 0x2C + t.pins.straps.setWidth 7

/-- What an owner leaves of the state v that it finds: it refuses and changes nothing else, or does its work
and answers OK, or keeps the request waiting, or starts the part (R155, R156). -/
inductive Answered (starts : Bool) (kind : Byte) (v : State) : State → Prop
  | refused (status : Status) (h : status ≠ .ok) : Answered starts kind v (v.refuse status kind)
  | done (u : State) (reply : List Byte) (h : u.slots = v.slots) : Answered starts kind v (u.ok kind reply)
  | waiting (u : State) (h : u.slots = v.slots) : Answered starts kind v u
  | started (t : State) (hs : starts = true) (h : Started v t) : Answered starts kind v t

theorem Answered.doneWith {starts : Bool} {kind : Byte} {v u : State} (h : u.slots = v.slots) :
    Answered starts kind v (doneWith kind u) := .done u [] h

theorem Answered.onDefined {starts : Bool} {kind : Byte} {v : State} {p : PointNo} {f : State → State}
    (h : Answered starts kind v (f v)) : Answered starts kind v (onDefined kind p f v) := by
  unfold Machine.onDefined
  split
  · exact .refused .pointUndefined (by decide)
  · exact h

section
variable {starts : Bool} (v : State)

/-! ## The owners -/

theorem statusRequest_answered : Answered starts Kind.status v (statusRequest v) := .done v _ rfl

theorem getEventsRequest_answered : Answered starts Kind.getEvents v (getEventsRequest v) :=
  .done v.clearEvents _ rfl

theorem defineRequest_answered (q : DefineReq) :
    Answered starts Kind.definePoint v (defineRequest q v) := by
  unfold defineRequest
  split
  · exact .refused .alreadyDefined (by decide)
  · split
    · exact .refused .badField (by decide)
    · exact .doneWith (by simp)

theorem modifyRequest_answered (q : ModifyReq) :
    Answered starts Kind.modifyPoint v (modifyRequest q v) := by
  refine .onDefined ?_
  split
  · exact .refused .wrongState (by decide)
  · split
    · exact .refused .badField (by decide)
    · exact .doneWith (by simp)

theorem releaseRequest_answered (p : PointNo) :
    Answered starts Kind.releasePoint v (releaseRequest p v) := by
  refine .onDefined ?_
  split
  · exact .refused .wrongState (by decide)
  · exact .doneWith (by simp)

/-- A check of AUTHORIZE that fails does not answer OK (R9). -/
theorem authorizeVerdict_error {q : AuthorizeReq} {s : State} {e : Status}
    (h : authorizeVerdict q s = .error e) : e ≠ .ok := by
  rintro rfl
  simp only [authorizeVerdict] at h
  split at h
  · cases h
  split at h
  · cases h
  split at h
  · cases h
  split at h
  · cases h
  split at h
  · cases h
  split at h
  · cases h
  split at h
  · cases h
  split at h <;> cases h

theorem authorizeRequest_answered (q : AuthorizeReq) :
    Answered starts Kind.authorize v (authorizeRequest q v) := by
  unfold authorizeRequest
  split
  · next e he => exact .refused e (authorizeVerdict_error he)
  · exact .doneWith (by simp)

theorem cancelRequest_answered (p : PointNo) : Answered starts Kind.cancel v (cancelRequest p v) := by
  refine .onDefined ?_
  split
  · exact .refused .wrongState (by decide)
  · exact .doneWith (by simp)

theorem pauseRequest_answered (p : PointNo) : Answered starts Kind.pause v (pauseRequest p v) := by
  refine .onDefined ?_
  split
  · exact .refused .wrongState (by decide)
  · exact .doneWith (by simp)

theorem resumeRequest_answered (p : PointNo) : Answered starts Kind.resume v (resumeRequest p v) := by
  refine .onDefined ?_
  split
  · exact .refused .wrongState (by decide)
  · split
    · exact .refused .stopActive (by decide)
    · exact .doneWith (by simp)

theorem stopRequest_answered (p : PointNo) : Answered starts Kind.stop v (stopRequest p v) := by
  unfold stopRequest
  cases (v.point p).st with
  | undefined => exact .refused .pointUndefined (by decide)
  | idle | calling | faulted => exact .refused .wrongState (by decide)
  | authorized | delivering | paused => exact .doneWith (by simp)
  | stopping | settling => exact .doneWith rfl

theorem stopAllRequest_answered : Answered starts Kind.stopAll v (stopAllRequest v) := .doneWith (by simp)

theorem readPointRequest_answered (p : PointNo) :
    Answered starts Kind.readPoint v (readPointRequest p v) := .done v _ rfl

theorem clearFaultRequest_answered (p : PointNo) :
    Answered starts Kind.clearFault v (clearFaultRequest p v) := by
  refine .onDefined ?_
  split
  · exact .refused .wrongState (by decide)
  · exact .doneWith (by simp)

theorem clearCreepRequest_answered (p : PointNo) :
    Answered starts Kind.clearCreep v (clearCreepRequest p v) := .onDefined (.doneWith (by simp))

theorem setProductRequest_answered (q : SetProductReq) :
    Answered starts Kind.setProduct v (setProductRequest q v) := by
  unfold setProductRequest
  split
  · exact .refused .wrongState (by decide)
  · split
    · exact .refused .badField (by decide)
    · exact .done _ _ (by simp)

theorem setPriceRequest_answered (q : SetPriceReq) :
    Answered starts Kind.setPrice v (setPriceRequest q v) := by
  unfold setPriceRequest
  split
  · exact .refused .badField (by decide)
  · split
    · exact .refused .badField (by decide)
    · split
      · exact .done _ _ (by simp)
      · exact .done _ _ (by simp)

theorem collectSaleRequest_answered (p : Option PointNo) :
    Answered starts Kind.collectSale v (collectSaleRequest p v) := by
  unfold collectSaleRequest
  split
  · exact .refused .noSuchSale (by decide)
  · exact .done v _ rfl

theorem clearSaleRequest_answered (n : Nat) :
    Answered starts Kind.clearSale v (clearSaleRequest n v) := by
  unfold clearSaleRequest
  split
  · exact .done _ _ (by simp)
  · exact .refused .noSuchSale (by decide)

/-- The unit's own checks refuse with another status than OK (R80, R86, R87, R92). -/
theorem jobRefusal_ne_ok {req : JobReq} {s : State} {e : Status} (h : jobRefusal req s = some e) : e ≠ .ok := by
  rintro rfl
  unfold jobRefusal at h
  split at h
  · split at h
    · cases h
    · split at h
      · cases h
      · split at h <;> cases h
  · split at h <;> cases h
  · split at h
    · split at h <;> cases h
    · cases h

theorem jobRequest_answered (kind : Byte) (req : JobReq) :
    Answered starts kind v (jobRequest kind req v) := by
  unfold jobRequest
  split
  · next e he => exact .refused e (jobRefusal_ne_ok he)
  · exact .waiting _ (by simp)

end

/-! ## Starts -/

/-- What the steps of a start leave alone: the address, the pins, the slot and the queue. -/
def State.station (s : State) : BitVec 7 × Pins × ReplySlot × List Instr :=
  (s.link.busAddress, s.pins, s.link.replySlot, s.pending)

theorem ColdWrite.station {mark : Bool} {f : State → State} (h : ColdWrite mark f) (s : State) :
    (f s).station = s.station := by
  cases h <;> rfl

theorem warmPath_station {f : State → State} (h : f ∈ warmPath) (s : State) : (f s).station = s.station := by
  rcases mem_warmPath h with rfl | ⟨p, rfl⟩ | ⟨k, rfl⟩
  · unfold State.warmJournal
    split
    · rw [State.completeCommit_eq]
      rfl
    · rfl
  · rw [State.warmPoint_rest]
    rfl
  · rw [State.warmPrice_rest]
    rfl

theorem coldPath_station {f : State → State} (h : f ∈ coldPath) (s : State) : (f s).station = s.station := by
  rcases mem_coldPath h with rfl | h | rfl
  · rfl
  · exact h.station s
  · rfl

theorem clearPath_station {f : State → State} (h : f ∈ clearPath) (s : State) : (f s).station = s.station := by
  rcases mem_clearPath h with h | rfl
  · exact h.station s
  · rfl

/-- A path of a start, whole or interrupted, keeps the slot and the queue, and takes the address of the straps
at its end (R145, R170, R173). -/
theorem State.runPath_station {path : List (State → State)}
    (hpath : ∀ f, f ∈ path → ∀ t : State, (f t).station = t.station) (s : State) (upTo : Option Nat) :
    (s.runPath path upTo).link.replySlot = s.link.replySlot ∧ (s.runPath path upTo).pending = s.pending ∧
    ((s.runPath path upTo).link.busAddress = s.link.busAddress ∨
      (s.runPath path upTo).link.busAddress = 0x2C + (s.runPath path upTo).pins.straps.setWidth 7) := by
  have hsteps : ∀ fs : List (State → State), (∀ f, f ∈ fs → f ∈ path) → (runSteps fs s).station = s.station :=
    fun fs hfs => runSteps_keeps (P := fun t => t.station = s.station) rfl
      (fun f hf t ht => (hpath f (hfs f hf) t).trans ht)
  unfold State.runPath
  split
  · have h := hsteps path (fun _ hf => hf)
    simp only [State.station, Prod.mk.injEq] at h
    obtain ⟨-, -, hslot, hpending⟩ := h
    rw [State.finalStep_eq, State.choose_rest]
    exact ⟨hslot, hpending, .inr rfl⟩
  · next n =>
    have h := hsteps (path.take n) (fun _ hf => List.mem_of_mem_take hf)
    simp only [State.station, Prod.mk.injEq] at h
    obtain ⟨haddress, -, hslot, hpending⟩ := h
    exact ⟨hslot, hpending, .inl haddress⟩

theorem startPath_station {checkGood : Bool} {f : State → State} (h : f ∈ if checkGood then warmPath else coldPath)
    (s : State) : (f s).station = s.station := by
  split at h
  · exact warmPath_station h s
  · exact coldPath_station h s

theorem State.runPath_started {s : State} {path : List (State → State)}
    (hpath : ∀ f, f ∈ path → ∀ t : State, (f t).station = t.station) (hslot : s.link.replySlot = .empty)
    (upTo : Option Nat) : Started s (s.runPath path upTo) := by
  obtain ⟨hslot', hpending, haddress⟩ := State.runPath_station hpath s upTo
  exact ⟨hslot'.trans hslot, hpending, haddress⟩

theorem State.testAndRun_started {s : State} (hslot : s.link.replySlot = .empty) (upTo : Option Nat) :
    Started s (s.testAndRun upTo) := State.runPath_started (fun _ hf => startPath_station hf) hslot upTo

theorem Started.congr {u v t : State} (h : Started u t) (hpending : u.pending = v.pending)
    (haddress : u.link.busAddress = v.link.busAddress) : Started v t :=
  ⟨h.slot, h.pending.trans hpending, haddress ▸ h.address⟩

theorem restartRequest_answered (v : State) (cut : CommitCut) (env : StartEnv) :
    Answered true Kind.restart v (restartRequest cut env v) := by
  unfold restartRequest
  split
  · exact .refused .wrongState (by decide)
  · refine .started _ rfl ((State.testAndRun_started rfl env.upTo).congr ?_ ?_)
    · show (v.cutCommit cut).pending = _
      rw [State.cutCommit_rest]
    · show (v.cutCommit cut).link.busAddress = _
      rw [State.cutCommit_rest]

theorem clearRetainedRequest_answered (v : State) (env : StartEnv) :
    Answered true Kind.clearRetained v (clearRetainedRequest env v) := by
  unfold clearRetainedRequest
  split
  · exact .started _ rfl ((State.runPath_started (fun _ hf => clearPath_station hf) rfl env.upTo).congr rfl rfl)
  · exact .refused .wrongState (by decide)

/-! ## The request rows -/

/-- A row is a request of its kind: the fields are read by one reader, and its owner answers. -/
structure RequestRow (c : Instr) (kind : Byte) (payload : List Byte) : Prop where
  split : ∃ (α : Type) (parse : List Byte → Option α) (owner : α → State → State),
    (∀ s, exec c s = request kind payload parse owner s) ∧ (parse payload).isSome = c.fieldsOk ∧
    ∀ x v, Answered c.mayStart kind v (owner x v)

/-- The row of a decimal-unit request (Chapters 5 to 7). -/
theorem RequestRow.of_job {c : Instr} {kind : Byte} {payload : List Byte} {parse : List Byte → Option JobReq}
    (hexec : ∀ s, exec c s = request kind payload parse (jobRequest kind) s)
    (hfields : (parse payload).isSome = c.fieldsOk) : RequestRow c kind payload :=
  ⟨_, parse, jobRequest kind, hexec, hfields, fun req v => jobRequest_answered v kind req⟩

/-- Every row that carries a request is a request of its kind (R156). -/
theorem exec_requestRow {c : Instr} {kind : Byte} {payload : List Byte}
    (h : c.request? = some (kind, payload)) : RequestRow c kind payload := by
  cases c <;> cases h
  case status => exact ⟨_, _, _, fun _ => rfl, rfl, fun _ v => statusRequest_answered v⟩
  case getEvents => exact ⟨_, _, _, fun _ => rfl, rfl, fun _ v => getEventsRequest_answered v⟩
  case restart => exact ⟨_, _, _, fun _ => rfl, rfl, fun _ v => restartRequest_answered v _ _⟩
  case clearRetained => exact ⟨_, _, _, fun _ => rfl, rfl, fun _ v => clearRetainedRequest_answered v _⟩
  case definePoint => exact ⟨_, _, _, fun _ => rfl, rfl, fun q v => defineRequest_answered v q⟩
  case modifyPoint => exact ⟨_, _, _, fun _ => rfl, rfl, fun q v => modifyRequest_answered v q⟩
  case releasePoint => exact ⟨_, _, _, fun _ => rfl, rfl, fun p v => releaseRequest_answered v p⟩
  case authorize => exact ⟨_, _, _, fun _ => rfl, rfl, fun q v => authorizeRequest_answered v q⟩
  case cancel => exact ⟨_, _, _, fun _ => rfl, rfl, fun p v => cancelRequest_answered v p⟩
  case pause => exact ⟨_, _, _, fun _ => rfl, rfl, fun p v => pauseRequest_answered v p⟩
  case resume => exact ⟨_, _, _, fun _ => rfl, rfl, fun p v => resumeRequest_answered v p⟩
  case stop => exact ⟨_, _, _, fun _ => rfl, rfl, fun p v => stopRequest_answered v p⟩
  case stopAll => exact ⟨_, _, _, fun _ => rfl, rfl, fun _ v => stopAllRequest_answered v⟩
  case readPoint => exact ⟨_, _, _, fun _ => rfl, rfl, fun p v => readPointRequest_answered v p⟩
  case clearFault => exact ⟨_, _, _, fun _ => rfl, rfl, fun p v => clearFaultRequest_answered v p⟩
  case clearCreep => exact ⟨_, _, _, fun _ => rfl, rfl, fun p v => clearCreepRequest_answered v p⟩
  case setProduct => exact ⟨_, _, _, fun _ => rfl, rfl, fun q v => setProductRequest_answered v q⟩
  case setPrice => exact ⟨_, _, _, fun _ => rfl, rfl, fun q v => setPriceRequest_answered v q⟩
  case collectSale => exact ⟨_, _, _, fun _ => rfl, rfl, fun p v => collectSaleRequest_answered v p⟩
  case clearSale => exact ⟨_, _, _, fun _ => rfl, rfl, fun n v => clearSaleRequest_answered v n⟩
  all_goals exact .of_job (fun _ => rfl) rfl

/-- A request that is taken with its fields in order, as its owner leaves it. -/
theorem exec_of_takes {c : Instr} {kind : Byte} {payload : List Byte} (h : c.request? = some (kind, payload))
    {s : State} (htakes : s.takes payload) (hfields : c.fieldsOk = true) :
    ∃ t, exec c s = .next t ∧ Answered c.mayStart kind (s.awaiting kind payload) t := by
  obtain ⟨α, parse, owner, hexec, hparse, hanswered⟩ := exec_requestRow h
  obtain ⟨x, hx⟩ := Option.isSome_iff_exists.mp (hparse.trans hfields)
  exact ⟨_, (hexec s).trans (request_owner htakes hx), hanswered x _⟩

/-- A request that is taken and whose fields fail (R151). -/
theorem exec_of_badField {c : Instr} {kind : Byte} {payload : List Byte} (h : c.request? = some (kind, payload))
    {s : State} (htakes : s.takes payload) (hfields : c.fieldsOk = false) :
    exec c s = .next (s.answeredTo payload.length .badField kind []) := by
  obtain ⟨α, parse, owner, hexec, hparse, -⟩ := exec_requestRow h
  have hnone : parse payload = none := by simpa [hfields] using hparse
  rw [hexec, request_badField htakes hnone]

/-- A request that is not acknowledged (R146). -/
theorem exec_of_not_acknowledged {c : Instr} {kind : Byte} {payload : List Byte}
    (h : c.request? = some (kind, payload)) {s : State} (hturned : s.acceptsWrite = false) :
    exec c s = .next (s.setBus .notAcknowledged) := by
  obtain ⟨α, parse, owner, hexec, -, -⟩ := exec_requestRow h
  rw [hexec, request_unacknowledged hturned]

/-! ## Refusals and the mark of a lost reply -/

/-- Settles O4: an owner that refuses answers in the state it finds. -/
theorem refusedRequestChangesOnlyTheSlots : Obligations.RefusedRequestChangesOnlyTheSlots := by
  unfold Obligations.RefusedRequestChangesOnlyTheSlots
  intro c kind payload s t r pos hrow htakes hexec hslot hstatus
  cases hfields : c.fieldsOk with
  | false =>
    rw [exec_of_badField hrow htakes hfields] at hexec
    cases hexec
    cases hslot
    exact ⟨rfl, rfl⟩
  | true =>
    obtain ⟨u, hu, hanswered⟩ := exec_of_takes hrow htakes hfields
    rw [hu] at hexec
    cases hexec
    cases hanswered with
    | refused status => cases hslot; exact ⟨rfl, rfl⟩
    | done u reply h => cases hslot; exact absurd rfl hstatus
    | waiting u h =>
      have hpending : t.link.replySlot = .pending := congrArg Prod.fst h
      rw [hpending] at hslot
      cases hslot
    | started u hs h => rw [h.slot] at hslot; cases hslot

/-- Settles O5: the mark is set as the request is taken and used up by the answer that is formed. -/
theorem takenRequestMarksLostReply : Obligations.TakenRequestMarksLostReply := by
  unfold Obligations.TakenRequestMarksLostReply
  intro c kind payload s hrow htakes
  cases hfields : c.fieldsOk with
  | false =>
    refine ⟨_, exec_of_badField hrow htakes hfields, fun r pos hslot => ?_, fun hslot => by cases hslot⟩
    cases hslot
    exact ⟨rfl, rfl, rfl, rfl, rfl⟩
  | true =>
    obtain ⟨t, ht, hanswered⟩ := exec_of_takes hrow htakes hfields
    refine ⟨t, ht, ?_⟩
    cases hanswered with
    | refused status =>
      refine ⟨fun r pos hslot => ?_, fun hslot => by cases hslot⟩
      cases hslot
      exact ⟨rfl, rfl, rfl, rfl, rfl⟩
    | done u reply h =>
      refine ⟨fun r pos hslot => ?_, fun hslot => by cases hslot⟩
      cases hslot
      simp only [State.slots, Prod.mk.injEq] at h
      obtain ⟨-, hlost, -⟩ := h
      exact ⟨rfl, rfl, hlost, rfl, rfl⟩
    | waiting u h =>
      simp only [State.slots, Prod.mk.injEq] at h
      obtain ⟨hslot', hlost, hframe, -⟩ := h
      refine ⟨fun r pos hslot => ?_, fun _ => ⟨hlost, hframe⟩⟩
      rw [hslot'] at hslot
      cases hslot
    | started u hs h =>
      refine ⟨fun r pos hslot => ?_, fun hslot => ?_⟩ <;> rw [h.slot] at hslot <;> cases hslot

/-! ## Every command goes on, and where the bus address moves -/

/-- The queue stays, and the address too but for a start (R145). -/
structure GoesOn (starts : Bool) (s t : State) : Prop where
  pending : t.pending = s.pending
  address : t.link.busAddress = s.link.busAddress ∨
    starts = true ∧ t.link.busAddress = 0x2C + t.pins.straps.setWidth 7

theorem GoesOn.stay {starts : Bool} {s t : State} (hpending : t.pending = s.pending)
    (haddress : t.link.busAddress = s.link.busAddress) : GoesOn starts s t := ⟨hpending, .inl haddress⟩

theorem Started.goesOn {v t : State} (h : Started v t) : GoesOn true v t :=
  ⟨h.pending, h.address.imp_right fun h => ⟨rfl, h⟩⟩

theorem Answered.goesOn {starts : Bool} {kind : Byte} {v t : State} (h : Answered starts kind v t) :
    GoesOn starts v t := by
  cases h with
  | refused status => exact .stay rfl rfl
  | done u reply h =>
    simp only [State.slots, Prod.mk.injEq] at h
    obtain ⟨-, -, -, haddress, hpending⟩ := h
    exact .stay hpending haddress
  | waiting u h =>
    simp only [State.slots, Prod.mk.injEq] at h
    obtain ⟨-, -, -, haddress, hpending⟩ := h
    exact .stay hpending haddress
  | started u hs h => exact hs ▸ h.goesOn

theorem GoesOn.of_same {starts : Bool} {s u t : State} (h : GoesOn starts u t) (hpending : u.pending = s.pending)
    (haddress : u.link.busAddress = s.link.busAddress) : GoesOn starts s t :=
  ⟨h.pending.trans hpending, haddress ▸ h.address⟩

/-- Whatever becomes of a request row, the part goes on. -/
theorem exec_request_goesOn {c : Instr} {kind : Byte} {payload : List Byte}
    (h : c.request? = some (kind, payload)) (s : State) : ∃ t, exec c s = .next t ∧ GoesOn c.mayStart s t := by
  obtain ⟨α, parse, owner, hexec, -, hanswered⟩ := exec_requestRow h
  refine ⟨_, hexec s, ?_⟩
  split
  · dsimp only
    split
    · exact .stay rfl rfl
    · unfold dispatch
      split
      · exact .stay rfl rfl
      · next x _ => exact (hanswered x _).goesOn.of_same rfl rfl
  · exact .stay rfl rfl

/-- The outcome r is that of a request row in s. -/
def IsRow (s : State) (r : Result) : Prop := ∃ c row, Instr.request? c = some row ∧ r = exec c s

theorem IsRow.ite {s : State} {a b : Result} {p : Prop} [Decidable p] (ha : IsRow s a) (hb : IsRow s b) :
    IsRow s (if p then a else b) := by
  split <;> assumption

/-- A good frame goes the way of the request row of its kind (Table 11-5). -/
theorem execByKind_isRow (kind : Byte) (payload : List Byte) (s : State) :
    IsRow s (execByKind kind payload s) := by
  unfold execByKind
  refine IsRow.ite ⟨.status payload, _, rfl, rfl⟩ ?_
  refine IsRow.ite ⟨.getEvents payload, _, rfl, rfl⟩ ?_
  refine IsRow.ite ⟨.restart payload none ⟨s.pins.straps, none⟩, _, rfl, rfl⟩ ?_
  refine IsRow.ite ⟨.clearRetained payload ⟨s.pins.straps, none⟩, _, rfl, rfl⟩ ?_
  refine IsRow.ite ⟨.definePoint payload, _, rfl, rfl⟩ ?_
  refine IsRow.ite ⟨.modifyPoint payload, _, rfl, rfl⟩ ?_
  refine IsRow.ite ⟨.releasePoint payload, _, rfl, rfl⟩ ?_
  refine IsRow.ite ⟨.authorize payload, _, rfl, rfl⟩ ?_
  refine IsRow.ite ⟨.cancel payload, _, rfl, rfl⟩ ?_
  refine IsRow.ite ⟨.pause payload, _, rfl, rfl⟩ ?_
  refine IsRow.ite ⟨.resume payload, _, rfl, rfl⟩ ?_
  refine IsRow.ite ⟨.stop payload, _, rfl, rfl⟩ ?_
  refine IsRow.ite ⟨.stopAll payload, _, rfl, rfl⟩ ?_
  refine IsRow.ite ⟨.readPoint payload, _, rfl, rfl⟩ ?_
  refine IsRow.ite ⟨.clearFault payload, _, rfl, rfl⟩ ?_
  refine IsRow.ite ⟨.clearCreep payload, _, rfl, rfl⟩ ?_
  refine IsRow.ite ⟨.setProduct payload, _, rfl, rfl⟩ ?_
  refine IsRow.ite ⟨.setPrice payload, _, rfl, rfl⟩ ?_
  refine IsRow.ite ⟨.collectSale payload, _, rfl, rfl⟩ ?_
  refine IsRow.ite ⟨.clearSale payload, _, rfl, rfl⟩ ?_
  refine IsRow.ite ⟨.setSite payload, _, rfl, rfl⟩ ?_
  refine IsRow.ite ⟨.declare payload, _, rfl, rfl⟩ ?_
  refine IsRow.ite ⟨.load payload, _, rfl, rfl⟩ ?_
  refine IsRow.ite ⟨.move payload, _, rfl, rfl⟩ ?_
  refine IsRow.ite ⟨.add payload, _, rfl, rfl⟩ ?_
  refine IsRow.ite ⟨.subtract payload, _, rfl, rfl⟩ ?_
  refine IsRow.ite ⟨.multiply payload, _, rfl, rfl⟩ ?_
  refine IsRow.ite ⟨.divide payload, _, rfl, rfl⟩ ?_
  refine IsRow.ite ⟨.rescale payload, _, rfl, rfl⟩ ?_
  refine IsRow.ite ⟨.compare payload, _, rfl, rfl⟩ ?_
  refine IsRow.ite ⟨.sumList payload, _, rfl, rfl⟩ ?_
  refine IsRow.ite ⟨.readRegister payload, _, rfl, rfl⟩ ?_
  refine IsRow.ite ⟨.hold payload, _, rfl, rfl⟩ ?_
  exact ⟨.releaseHold payload, _, rfl, rfl⟩

theorem GoesOn.trans {starts : Bool} {s u t : State} (h : GoesOn false s u) (h' : GoesOn starts u t) :
    GoesOn starts s t := by
  rcases h.address with haddress | ⟨hs, -⟩
  · exact h'.of_same h.pending haddress
  · cases hs

theorem GoesOn.weaken {starts : Bool} {s t : State} (h : GoesOn starts s t) : GoesOn true s t :=
  ⟨h.pending, h.address.imp_right fun h => ⟨rfl, h.2⟩⟩

theorem GoesOn.whenOperating {starts : Bool} {s : State} {f : State → State} (h : GoesOn starts s (f s)) :
    GoesOn starts s (s.whenOperating f) := by
  unfold State.whenOperating
  split
  · exact h
  · exact .stay rfl rfl

/-- A pin takes its level, and then the event is taken by an operating part. -/
theorem GoesOn.afterPins {starts : Bool} {s u : State} {f : State → State} (hpending : u.pending = s.pending)
    (haddress : u.link.busAddress = s.link.busAddress) (h : GoesOn starts u (f u)) :
    GoesOn starts s (u.whenOperating f) := (GoesOn.whenOperating h).of_same hpending haddress

/-! ## The events of the link -/

theorem State.endGeneralCall_goesOn (s : State) : GoesOn false s s.endGeneralCall := by
  rcases s.endGeneralCall_cases with e | e | e <;> rw [e]
  · exact .stay rfl rfl
  · exact .stay rfl rfl
  · exact .stay (by rw [State.stopEveryPoint_rest]; rfl) (by rw [State.stopEveryPoint_rest]; rfl)

theorem State.admitGeneralCall_goesOn (s : State) : GoesOn false s s.admitGeneralCall := by
  unfold State.admitGeneralCall
  split <;> exact .stay rfl rfl

theorem State.onGeneralCall_goesOn (s : State) (event : GeneralCall) : GoesOn false s (s.onGeneralCall event) := by
  cases event with
  | address =>
    unfold State.onGeneralCall
    dsimp only
    split
    · exact s.endGeneralCall_goesOn.trans (State.admitGeneralCall_goesOn _)
    · exact .stay rfl rfl
  | data byte =>
    refine GoesOn.whenOperating ?_
    unfold State.takeGeneralCall
    split <;> exact .stay rfl rfl
  | ending => exact GoesOn.whenOperating s.endGeneralCall_goesOn

theorem takeOwnWrite_goesOn (bytes : List Byte) (s : State) :
    ∃ t, takeOwnWrite bytes s = .next t ∧ GoesOn true s t := by
  unfold takeOwnWrite
  split
  · split
    · exact ⟨_, rfl, .stay rfl rfl⟩
    · split
      · exact ⟨_, rfl, .stay rfl rfl⟩
      · exact ⟨_, rfl, .stay rfl rfl⟩
      · next k payload _ =>
        obtain ⟨c, ⟨kind, row⟩, hrow, hexec⟩ := execByKind_isRow k payload s
        obtain ⟨t, ht, h⟩ := exec_request_goesOn hrow s
        exact ⟨t, hexec.trans ht, h.weaken⟩
  · exact ⟨_, rfl, .stay rfl rfl⟩

theorem execFrameError_goesOn (write : BusWrite) (s : State) :
    ∃ t, execFrameError write s = .next t ∧ GoesOn true s t := by
  rcases execFrameError_cases write s with e | e | e <;> rw [e]
  · exact takeOwnWrite_goesOn _ s
  · refine ⟨_, rfl, GoesOn.weaken (starts := false) ?_⟩
    exact State.generalCallWrite_keeps (P := fun t => GoesOn false s t) _ (.stay rfl rfl)
      (fun u event hu => hu.trans (u.onGeneralCall_goesOn event))
  · exact ⟨_, rfl, .stay rfl rfl⟩

theorem State.sendReply_goesOn (s : State) (n : Nat) : GoesOn false s (s.sendReply n) := by
  unfold State.sendReply
  split <;> exact .stay rfl rfl

theorem readTransaction_goesOn (read : BusRead) (s : State) :
    ∃ t, execReadTransaction read s = .next t ∧ GoesOn false s t := by
  refine ⟨_, rfl, ?_⟩
  split
  · split
    · exact s.sendReply_goesOn _
    · exact .stay rfl rfl
    · exact .stay rfl rfl
  · exact .stay rfl rfl

theorem clockStretchEnd_goesOn (s : State) : ∃ t, execClockStretchEnd s = .next t ∧ GoesOn false s t := by
  refine ⟨_, rfl, GoesOn.whenOperating ?_⟩
  split <;> exact .stay rfl rfl

/-! ## The events of the field side and of the decimal unit -/

theorem State.movePoint_goesOn (s : State) (p : PointNo) (f : Point → Point) :
    GoesOn false s (s.movePoint p f) := .stay (by simp) (by simp)

theorem settle_goesOn (s : State) (p : PointNo) (f : Point → Point) (runs : Bool) :
    GoesOn false s (if runs then s.settlePoint p f else s) := by
  split
  · exact .stay (by simp) (by simp)
  · exact .stay rfl rfl

theorem estopnAsserted_goesOn (s : State) : ∃ t, execEstopnAsserted s = .next t ∧ GoesOn false s t := by
  refine ⟨_, rfl, ?_⟩
  split
  · have hstop : GoesOn false (s.setEstopPin false) (s.setEstopPin false).stopEveryPoint :=
      .stay (by simp) (by simp)
    have hflag : GoesOn false (s.setEstopPin false) (s.setEstopPin false).stopEveryPoint.flagEstop :=
      hstop.trans (.stay rfl rfl)
    exact .afterPins rfl rfl hflag
  · exact .stay rfl rfl

theorem estopnReleased_goesOn (s : State) : ∃ t, execEstopnReleased s = .next t ∧ GoesOn false s t := by
  refine ⟨_, rfl, ?_⟩
  split
  · exact .stay rfl rfl
  · exact .afterPins rfl rfl (.stay rfl rfl)

theorem State.setPfail_goesOn (s : State) (high : Bool) : GoesOn false s (s.setPfail high) :=
  .afterPins rfl rfl (.stay rfl rfl)

theorem State.choose_goesOn {s u : State} (h : GoesOn false s u) : GoesOn false s u.choose :=
  h.trans (.stay (by rw [State.choose_rest]) (by rw [State.choose_rest]))

theorem State.applyJob_goesOn (s : State) (j : HostJob) : GoesOn false s (s.applyJob j) := by
  unfold State.applyJob
  cases j.req with
  | setSite scales gc => cases scales <;> exact .stay rfl rfl
  | divide => dsimp only; split <;> exact .stay rfl rfl
  | declare | load | move | add | subtract | multiply | rescale | compare | sumList | readRegister | hold
  | releaseHold => exact .stay rfl rfl

theorem State.completeJob_goesOn (s : State) (j : HostJob) : GoesOn false s (s.completeJob j) := by
  have hend : GoesOn false (s.applyJob j) (s.applyJob j).endJob := .stay rfl rfl
  refine State.choose_goesOn ((s.applyJob_goesOn j).trans (hend.trans ?_))
  unfold State.endStretch
  split
  · exact State.sendReply_goesOn _ _
  · exact .stay rfl rfl

theorem State.commitPosting_goesOn (s : State) (q : Posting) (f : FrozenSale) :
    GoesOn false s (s.commitPosting q f) := .stay (by rw [State.commitPosting_rest]) (by rw [State.commitPosting_rest])

theorem State.cutFirstStep_goesOn (s : State) (cut : CommitCut) :
    GoesOn false s (if s.operating then s.cutCommit cut else s).firstStep := by
  split
  · exact .stay (by show (s.cutCommit cut).pending = _; rw [State.cutCommit_rest])
      (by show (s.cutCommit cut).link.busAddress = _; rw [State.cutCommit_rest])
  · exact .stay rfl rfl

/-! ## Power -/

theorem mainPowerLoss_goesOn (cut : CommitCut) (s : State) :
    ∃ t, execMainPowerLoss cut s = .next t ∧ GoesOn false s t := by
  refine ⟨_, rfl, ?_⟩
  split
  · exact (s.cutFirstStep_goesOn cut).trans (.stay rfl rfl)
  · exact .stay rfl rfl

theorem mainPowerReturn_goesOn (held : Bool) (env : StartEnv) (s : State) :
    ∃ t, execMainPowerReturn held env s = .next t ∧ GoesOn true s t := by
  refine ⟨_, rfl, ?_⟩
  split
  · exact .stay rfl rfl
  · dsimp only
    split
    · exact (State.testAndRun_started rfl env.upTo).goesOn.of_same rfl rfl
    · exact .stay rfl rfl

theorem resetnAsserted_goesOn (cut : CommitCut) (s : State) :
    ∃ t, execResetnAsserted cut s = .next t ∧ GoesOn false s t := by
  refine ⟨_, rfl, ?_⟩
  split
  · dsimp only
    split
    · split
      · exact .stay (by show (State.cutCommit _ cut).pending = _; rw [State.cutCommit_rest]; rfl)
          (by show (State.cutCommit _ cut).link.busAddress = _; rw [State.cutCommit_rest]; rfl)
      · exact .stay rfl rfl
    · exact .stay rfl rfl
  · exact .stay rfl rfl

theorem State.testAndRun_goesOn (s : State) (upTo : Option Nat) : GoesOn true s (s.testAndRun upTo) := by
  obtain ⟨-, hpending, haddress⟩ := State.runPath_station (fun _ hf => startPath_station hf) s upTo
  exact ⟨hpending, haddress.imp_right fun h => ⟨rfl, h⟩⟩

theorem resetnReleased_goesOn (env : StartEnv) (s : State) :
    ∃ t, execResetnReleased env s = .next t ∧ GoesOn true s t := by
  refine ⟨_, rfl, ?_⟩
  split
  · exact .stay rfl rfl
  · dsimp only
    split
    · exact (State.testAndRun_goesOn _ env.upTo).of_same rfl rfl
    · exact .stay rfl rfl

/-- Every command goes on; only a start moves the address of the part (R145). -/
theorem exec_goesOn (c : Instr) (s : State) : ∃ t, exec c s = .next t ∧ GoesOn c.mayStart s t := by
  cases c
  case frameError write => exact execFrameError_goesOn write s
  case readTransaction read => exact readTransaction_goesOn read s
  case clockStretchEnd => exact clockStretchEnd_goesOn s
  case generalCallStopAll event => exact ⟨_, rfl, s.onGeneralCall_goesOn event⟩
  case liftEdge p => exact ⟨_, rfl, .afterPins rfl rfl (State.movePoint_goesOn _ p _)⟩
  case lowerEdge p => exact ⟨_, rfl, .afterPins rfl rfl (State.movePoint_goesOn _ p _)⟩
  case changeOfThePair p a b =>
    exact ⟨_, rfl, .afterPins rfl rfl (State.movePoint_goesOn _ p _)⟩
  case authorizationTimerExpiry p => exact ⟨_, rfl, .whenOperating (s.movePoint_goesOn p _)⟩
  case noFlowTimerExpiry p => exact ⟨_, rfl, .whenOperating (s.movePoint_goesOn p _)⟩
  case settleTimerExpiry p => exact ⟨_, rfl, .whenOperating (settle_goesOn s p id _)⟩
  case stopLimitTimerExpiry p => exact ⟨_, rfl, .whenOperating (settle_goesOn s p Point.flowAfterStop _)⟩
  case estopnAsserted => exact estopnAsserted_goesOn s
  case estopnReleased => exact estopnReleased_goesOn s
  case pfailnFall => exact ⟨_, rfl, s.setPfail_goesOn false⟩
  case pfailnRise => exact ⟨_, rfl, s.setPfail_goesOn true⟩
  case holdTimerExpiry =>
    refine ⟨_, rfl, .whenOperating ?_⟩
    split
    · exact State.choose_goesOn (.stay rfl rfl)
    · exact .stay rfl rfl
  case postingCommit =>
    refine ⟨_, rfl, .whenOperating ?_⟩
    split
    · exact s.commitPosting_goesOn _ _
    · exact .stay rfl rfl
  case suspension =>
    refine ⟨_, rfl, .whenOperating ?_⟩
    split
    · split
      · exact State.choose_goesOn (.stay rfl rfl)
      · exact .stay rfl rfl
    · exact .stay rfl rfl
  case hostJobCompletion =>
    refine ⟨_, rfl, .whenOperating ?_⟩
    split
    · exact s.completeJob_goesOn _
    · exact .stay rfl rfl
  case mainPowerLoss cut => exact mainPowerLoss_goesOn cut s
  case mainPowerReturn held env => exact mainPowerReturn_goesOn held env s
  case resetnAsserted cut => exact resetnAsserted_goesOn cut s
  case resetnReleased env => exact resetnReleased_goesOn env s
  all_goals exact exec_request_goesOn rfl s

/-- Settles O2: an owner answers in the state it finds, every event is taken or ignored, and a start takes its
address from the straps at its final step. -/
theorem everyCommandGoesOn : Obligations.EveryCommandGoesOn := by
  unfold Obligations.EveryCommandGoesOn
  intro c s
  obtain ⟨t, ht, h⟩ := exec_goesOn c s
  exact ⟨t, ht, h.pending, h.address⟩

/-- Settles O1: `step` is the command at the front of the queue. -/
theorem stepRunsFrontCommandOrIdles : Obligations.StepRunsFrontCommandOrIdles := by
  unfold Obligations.StepRunsFrontCommandOrIdles
  refine ⟨fun c s => rfl, fun s h => ?_⟩
  unfold step
  rw [h]

end Sys2Proof.Machine

/-! # Proofs: the transactions of the link (Chapter 9) -/

namespace Sys2Proof.Machine

/-! ## Frames -/

/-- The verdict on a frame of two bytes or more, check by check (R150). -/
theorem frameCheck_cons_cons (kind len : Byte) (rest : List Byte) :
    frameCheck (kind :: len :: rest) =
      if (kind :: len :: rest).length < 3 ∨ 48 < len.toNat ∨ (kind :: len :: rest).length ≠ len.toNat + 3 then
        .frameError
      else if byteSum (kind :: len :: rest) ≠ 0 then .frameError
      else if kind ∈ kindCodes then .request kind (rest.take len.toNat)
      else .unknownKind := rfl

/-- The frame check takes a request frame for its kind and payload (R150). -/
theorem frameCheck_requestFrame {kind : Byte} {payload : List Byte} (hkind : kind ∈ kindCodes)
    (hfits : payload.length ≤ 48) : frameCheck (requestFrame kind payload) = .request kind payload := by
  have hlen : (BitVec.ofNat 8 payload.length).toNat = payload.length := by
    rw [BitVec.toNat_ofNat]
    omega
  have hlength := requestFrame_length kind payload
  have hsum := byteSum_requestFrame kind payload
  unfold requestFrame at hlength hsum ⊢
  simp only [List.cons_append] at hlength hsum ⊢
  rw [frameCheck_cons_cons, hlength, hlen, if_neg (by omega), hsum, if_neg (by simp), if_pos hkind,
    List.take_append_length]

theorem Reply.frame_eq (r : Reply) : ∃ head : List Byte, r.frame = head ++ [-(byteSum head)] ∧
    head = byteOf (r.status.code + if r.lost then 128 else 0) :: r.kind :: byteOf r.payload.length :: r.payload :=
  ⟨_, rfl, rfl⟩

@[simp] theorem Reply.frame_length (r : Reply) : r.frame.length = r.payload.length + 4 := by
  simp [Reply.frame]

/-- Settles O7: each frame ends in the negation of the sum of its other bytes. -/
theorem framesCarryTheirPayload : Obligations.FramesCarryTheirPayload := by
  unfold Obligations.FramesCarryTheirPayload
  refine ⟨fun kind payload hkind hfits => ⟨frameCheck_requestFrame hkind hfits, requestFrame_length kind payload⟩,
    fun r => ?_⟩
  obtain ⟨head, hframe, hhead⟩ := r.frame_eq
  refine ⟨by rw [hframe]; exact byteSum_closed head, r.frame_length, ?_⟩
  have hlength : 3 + r.payload.length = head.length := by
    rw [hhead]
    simp only [List.length_cons]
    omega
  rw [hframe, hlength, List.take_append_length, hhead]
  rfl

/-! ## Writes -/

theorem exec_frameError (write : BusWrite) (s : State) : exec (.frameError write) s = execFrameError write s := rfl

/-- A write to the own address (R145). -/
theorem execFrameError_own (bytes : List Byte) (s : State) :
    execFrameError ⟨s.link.busAddress, bytes⟩ s = takeOwnWrite bytes s := if_pos rfl

theorem takeOwnWrite_not_acknowledged {s : State} (h : s.acceptsWrite = false) (bytes : List Byte) :
    takeOwnWrite bytes s = .next (s.setBus .notAcknowledged) := by
  simp [takeOwnWrite, h]

/-- Events run as rows, one after the other. -/
theorem execAll_generalCall (events : List GeneralCall) (s : State) :
    execAll (events.map Instr.generalCallStopAll) s =
      .next (events.foldl (fun t event => t.onGeneralCall event) s) := by
  induction events generalizing s with
  | nil => rfl
  | cons event events ih => exact ih (s.onGeneralCall event)

/-- A write to the general-call address is its events in turn (R157). -/
theorem execAll_generalCallWrite (bytes : List Byte) (s : State) :
    execAll (.generalCallStopAll .address :: bytes.map (fun byte => .generalCallStopAll (.data byte)) ++
      [.generalCallStopAll .ending]) s = .next (s.generalCallWrite bytes) := by
  rw [State.generalCallWrite, ← execAll_generalCall]
  simp [Function.comp_def]

/-- Settles O3: what is turned away moves the bus view alone, and the general call is its rows in turn. -/
theorem turnedAwayRequestReachesNoOwner : Obligations.TurnedAwayRequestReachesNoOwner := by
  unfold Obligations.TurnedAwayRequestReachesNoOwner
  refine ⟨fun c kind payload s hrow hturned => exec_of_not_acknowledged hrow hturned, fun bytes s hturned => ?_,
    fun address s hother => ⟨fun n => ?_, fun hcall bytes => ?_, fun hcall bytes => ?_⟩,
    fun c kind payload s hrow htakes hfields => exec_of_badField hrow htakes hfields⟩
  · rw [exec_frameError, execFrameError_own, takeOwnWrite_not_acknowledged hturned]
    rfl
  · rw [exec_readTransaction]
    simp only [execReadTransaction, hother, decide_false, Bool.and_false, Bool.false_eq_true, if_false]
    rfl
  · rw [exec_frameError, execFrameError, if_neg hother, if_neg (show ¬ address = Config.generalCallAddress from hcall)]
    rfl
  · rw [exec_frameError, execFrameError, if_neg hother, if_pos (show address = Config.generalCallAddress from hcall),
      execAll_generalCallWrite]

/-- A frame that fails is answered with the first byte as the kind echo, and its bytes are acknowledged up to
the size of the slot (R148, R149). -/
theorem State.takeWrite_refuse (s : State) (bytes : List Byte) (status : Status) (kind : Byte) :
    (s.takeWrite bytes).refuse status kind = { s with link := { s.link with
      requestSlot := []
      replySlot := .ready ⟨status, s.link.priorReplyLost || s.link.replySlot.isReady, kind, []⟩ 0
      priorReplyLost := false
      bus := .wrote (bytes.take 52).length } } := by
  rw [List.length_take, Nat.min_comm]
  rfl

/-- A taken write of some bytes goes by the verdict on the bytes that the slot keeps (R150). -/
theorem takeOwnWrite_cons {s : State} (h : s.acceptsWrite = true) (first : Byte) (rest : List Byte) :
    takeOwnWrite (first :: rest) s = match frameCheck ((first :: rest).take 52) with
      | .frameError => .next ((s.takeWrite (first :: rest)).refuse .frameError first)
      | .unknownKind => .next ((s.takeWrite (first :: rest)).refuse .unknownKind first)
      | .request k payload => execByKind k payload s := by
  simp only [takeOwnWrite, h, if_true]
  rfl

/-- Settles O6: the checks are tried in their order, and a frame of one byte fails the first. -/
theorem faultyFrameIsAnswered : Obligations.FaultyFrameIsAnswered := by
  unfold Obligations.FaultyFrameIsAnswered
  refine ⟨fun s haccepts => ?_, fun first rest s haccepts => ⟨fun len hlen => ?_, fun hnone => ?_⟩⟩
  · rw [exec_frameError, execFrameError_own]
    simp only [takeOwnWrite, haccepts, if_true]
    rfl
  · rw [exec_frameError, execFrameError_own, takeOwnWrite_cons haccepts, State.takeWrite_refuse,
      State.takeWrite_refuse]
    cases rest with
    | nil => cases hlen
    | cons second rest =>
      have hsecond : second = len := Option.some.inj hlen
      subst hsecond
      rw [show (first :: second :: rest).take 52 = first :: second :: rest.take 50 from rfl, frameCheck_cons_cons]
      split
      · rfl
      · split
        · rfl
        · by_cases hkind : first ∈ kindCodes
          · rw [if_neg (not_not.mpr hkind)]
            trivial
          · rw [if_neg hkind, if_pos hkind]
  · rw [exec_frameError, execFrameError_own, takeOwnWrite_cons haccepts, State.takeWrite_refuse]
    cases rest with
    | nil => rfl
    | cons second rest => cases hnone

/-! ## Reads -/

/-- A read of a READY slot (R152). -/
theorem execReadTransaction_of_ready {s : State} {r : Reply} {pos : Nat} (n : Nat) (hop : s.operating = true)
    (hready : s.link.replySlot = .ready r pos) :
    execReadTransaction ⟨s.link.busAddress, n⟩ s = .next (s.sendReply n) := by
  simp [execReadTransaction, hop, hready]

theorem State.sendReply_of_ready {s : State} {r : Reply} {pos : Nat} (n : Nat)
    (hready : s.link.replySlot = .ready r pos) : s.sendReply n = s.modLink (fun l => { l with
      stretch := none
      bus := .sent (clocked (r.frame.drop pos) n)
      replySlot := if (r.frame.drop pos).length ≤ n then .empty else .ready r 0 }) := by
  simp [State.sendReply, hready]

/-- A read of a PENDING slot stretches the clock (R153). -/
theorem execReadTransaction_of_pending {s : State} (n : Nat) (hop : s.operating = true)
    (hpending : s.link.replySlot = .pending) : execReadTransaction ⟨s.link.busAddress, n⟩ s =
      .next (s.modLink (fun l => { l with stretch := some n, bus := .stretching })) := by
  simp [execReadTransaction, hop, hpending]

/-- The end of a stretch over a PENDING slot (R153). -/
theorem execClockStretchEnd_of_pending {s : State} {n : Nat} (hop : s.operating = true)
    (hpending : s.link.replySlot = .pending) (hstretch : s.link.stretch = some n) :
    execClockStretchEnd s = .next (s.modLink (fun l => { l with
      stretch := none
      bus := .sent (clocked Config.pendingMarker n) })) := by
  simp [execClockStretchEnd, State.whenOperating, hop, hpending, hstretch]

/-- Settles O8: a read goes by the state of the slot, and the end of a stretch by the slot it finds. -/
theorem readsOfReadyAndPendingSlots : Obligations.ReadsOfReadyAndPendingSlots := by
  unfold Obligations.ReadsOfReadyAndPendingSlots
  refine ⟨fun s r pos n hop hready => ?_, fun s n hop hpending => ?_, fun s n hop hpending hstretch => ?_,
    fun s n hop => ?_, fun s r n hstretch hready => ?_, fun s hquiet => ?_⟩
  · rw [exec_readTransaction, execReadTransaction_of_ready n hop hready, State.sendReply_of_ready n hready]
    rfl
  · rw [exec_readTransaction, execReadTransaction_of_pending n hop hpending]
    rfl
  · exact (execClockStretchEnd_of_pending hop hpending hstretch).trans rfl
  · rw [exec_readTransaction]
    simp only [execReadTransaction, hop, Bool.false_and, Bool.false_eq_true, if_false]
    rfl
  · simp only [State.endStretch, hstretch]
    rw [State.sendReply_of_ready n hready]
    rfl
  · unfold State.endStretch
    split
    · next n hstretch =>
      have hslot : s.link.replySlot.isReady = false := by simpa [hstretch] using hquiet
      unfold State.sendReply
      split
      · next hready => simp [hready, ReplySlot.isReady] at hslot
      · rfl
    · rfl

/-! ## The general call -/

theorem exec_generalCall (event : GeneralCall) (s : State) :
    exec (.generalCallStopAll event) s = .next (s.onGeneralCall event) := rfl

theorem State.onGeneralCall_of_operating {s : State} (hop : s.operating = true) :
    s.onGeneralCall .address = s.endGeneralCall.admitGeneralCall ∧
    (∀ byte, s.onGeneralCall (.data byte) = s.takeGeneralCall byte) ∧
    s.onGeneralCall .ending = s.endGeneralCall := by
  simp [State.onGeneralCall, State.whenOperating, hop]

/-- Without a write in progress, none ends. -/
theorem State.endGeneralCall_of_none {s : State} (h : s.link.generalCall = none) : s.endGeneralCall = s := by
  simp [State.endGeneralCall, h]

/-- A write ends with the buffer empty, and a valid STOP ALL in it has stopped every point (R157). -/
theorem State.endGeneralCall_of_some {s : State} {n : Nat} (h : s.link.generalCall = some n) :
    s.endGeneralCall = if n = 3 ∧ isBroadcastStop s.link.generalCallBuffer = true then
        (s.modLink (fun l => { l with generalCall := none, generalCallBuffer := [] })).stopEveryPoint
      else s.modLink (fun l => { l with generalCall := none, generalCallBuffer := [] }) := by
  simp only [State.endGeneralCall, h]
  rfl

/-- After its end, no write is in progress, and the part operates as before. -/
theorem State.endGeneralCall_idle (s : State) :
    s.endGeneralCall.link.generalCall = none ∧ s.endGeneralCall.operating = s.operating := by
  cases h : s.link.generalCall with
  | none => rw [State.endGeneralCall_of_none h]; exact ⟨h, rfl⟩
  | some n =>
    rw [State.endGeneralCall_of_some h]
    split
    · rw [State.stopEveryPoint_rest]
      exact ⟨rfl, rfl⟩
    · exact ⟨rfl, rfl⟩

/-- The one valid STOP ALL: its code, no payload, and the byte that makes the sum zero (R157). -/
theorem isBroadcastStop_iff (bytes : List Byte) : isBroadcastStop bytes = true ↔ bytes = [0x18, 0x00, 0xE8] := by
  constructor
  · intro h
    unfold isBroadcastStop at h
    split at h
    · next kind len check =>
      simp only [Bool.and_eq_true, decide_eq_true_eq] at h
      obtain ⟨⟨hkind, hlen⟩, hsum⟩ := h
      subst hkind hlen
      have hcheck : check = 0xE8 := by
        simp only [byteSum] at hsum
        bv_omega
      rw [hcheck]
    · cases h
  · rintro rfl
    decide

/-- Settles O10: the enable is read at the address alone, each byte joins the write in progress, and the end of
the write acts by the buffer. -/
theorem generalCallStopsEveryPoint : Obligations.GeneralCallStopsEveryPoint := by
  unfold Obligations.GeneralCallStopsEveryPoint
  refine ⟨fun s => ⟨fun hop hnone henable => ?_, fun hop hnone hdisable => ?_, fun hop => ?_, fun hop t ht => ?_⟩,
    fun s n byte hop hsome => ?_, fun s hop hsome hbuffer => ?_, fun s n hop hsome hother => ?_,
    fun s byte hidle => ⟨?_, ?_⟩⟩
  · rw [exec_generalCall, (State.onGeneralCall_of_operating hop).1, State.endGeneralCall_of_none hnone,
      State.admitGeneralCall, if_pos henable]
    rfl
  · rw [exec_generalCall, (State.onGeneralCall_of_operating hop).1, State.endGeneralCall_of_none hnone,
      State.admitGeneralCall, if_neg (by simp [hdisable])]
    rfl
  · rw [exec_generalCall]
    simp only [State.onGeneralCall, hop, Bool.false_eq_true, if_false]
    rfl
  · obtain ⟨hidle, hop'⟩ := s.endGeneralCall_idle
    rw [exec_generalCall, (State.onGeneralCall_of_operating hop).2.2] at ht
    cases ht
    rw [exec_generalCall, exec_generalCall, (State.onGeneralCall_of_operating hop).1,
      (State.onGeneralCall_of_operating (hop'.trans hop)).1, State.endGeneralCall_of_none hidle]
  · have hbuffer : (if n < 3 then s.link.generalCallBuffer ++ [byte] else s.link.generalCallBuffer) =
        s.link.generalCallBuffer ++ (if n < 3 then [byte] else []) := by split <;> simp
    have hcount : min (n + 1) 3 = if n < 3 then n + 1 else 3 := by split <;> omega
    rw [exec_generalCall, (State.onGeneralCall_of_operating hop).2.1, ← hbuffer, ← hcount]
    simp only [State.takeGeneralCall, hsome]
    rfl
  · have hstop : isBroadcastStop s.link.generalCallBuffer = true := (isBroadcastStop_iff _).mpr hbuffer
    refine ⟨_, exec_generalCall _ s, ?_⟩
    rw [(State.onGeneralCall_of_operating hop).2.2, State.endGeneralCall_of_some hsome, if_pos ⟨rfl, hstop⟩]
    obtain ⟨hpoints, hprices, hrest⟩ := State.stopEveryPoint_stoppedAll
      (s.modLink (fun l => { l with generalCall := none, generalCallBuffer := [] }))
    exact ⟨⟨hpoints, ⟨hprices.products, hprices.flag, hprices.set⟩, hrest⟩, State.stopEveryPoint_flags _⟩
  · have hno : ¬ (n = 3 ∧ isBroadcastStop s.link.generalCallBuffer = true) := by
      rw [isBroadcastStop_iff]
      exact fun ⟨hn, hb⟩ => hother.elim (fun h => h hn) (fun h => h hb)
    rw [exec_generalCall, (State.onGeneralCall_of_operating hop).2.2, State.endGeneralCall_of_some hsome, if_neg hno]
    rfl
  · rw [exec_generalCall]
    cases hop : s.operating with
    | false => simp [State.onGeneralCall, State.whenOperating, hop]
    | true =>
      have hnone : s.link.generalCall = none := by simpa [hop] using hidle
      simp [State.onGeneralCall, State.whenOperating, hop, State.takeGeneralCall, hnone]
  · rw [exec_generalCall]
    cases hop : s.operating with
    | false => simp [State.onGeneralCall, State.whenOperating, hop]
    | true =>
      have hnone : s.link.generalCall = none := by simpa [hop] using hidle
      rw [(State.onGeneralCall_of_operating hop).2.2, State.endGeneralCall_of_none hnone]

/-! ## STATUS, GET EVENTS and ATTN -/

theorem parseNone_nil : parseNone [] = some () := rfl

/-- Settles O11: STATUS reads the state that its taking leaves, which is the part's own but for the slots. -/
theorem statusShowsThePart : Obligations.StatusShowsThePart := by
  unfold Obligations.StatusShowsThePart
  intro s htakes
  have hunit : ∀ u : DcuUnit, byteOf u.code = if u = .posting then 1 else 0 := fun u => by cases u <;> rfl
  have hexec : exec (.status []) s = .next (s.answeredTo 0 .ok Kind.status (statusBytes s)) :=
    request_owner htakes parseNone_nil
  rw [hexec]
  simp only [statusBytes, hunit]
  rfl

/-- The mask of the flags of a point, bit by bit (Table 11-10). -/
theorem PointFlags.mask_eq (f : PointFlags) : f.mask =
    (if f.call then 1 else 0) + (if f.started then 2 else 0) + (if f.slowdown then 4 else 0) +
      (if f.stopped then 8 else 0) + (if f.sale then 16 else 0) + (if f.lapsed then 32 else 0) +
      (if f.fault then 64 else 0) + (if f.creep then 128 else 0) + (if f.reverse then 256 else 0) := by
  simp only [PointFlags.mask, maskOf, Nat.mul_add, mul_ite, Nat.mul_zero, Nat.mul_one, Nat.add_assoc, Nat.reduceMul]
  rfl

/-- The mask of the flags of the part, bit by bit (Table 11-10). -/
theorem PartFlags.mask_eq (f : PartFlags) : f.mask =
    (if f.restarted then 1 else 0) + (if f.retainLost then 2 else 0) + (if f.holdExpired then 4 else 0) +
      (if f.priceActive then 8 else 0) + (if f.rollover then 16 else 0) + (if f.estop then 32 else 0) := by
  simp only [PartFlags.mask, maskOf, Nat.mul_add, mul_ite, Nat.mul_zero, Nat.mul_one, Nat.add_assoc, Nat.reduceMul]
  rfl

/-- Settles O12: the flags are laid out from the state that is taken, and every block's are cleared. -/
theorem getEventsReturnsAndClears : Obligations.GetEventsReturnsAndClears := by
  unfold Obligations.GetEventsReturnsAndClears
  intro s htakes
  have hexec : exec (.getEvents []) s =
      .next (s.clearEvents.answeredTo 0 .ok Kind.getEvents (eventBytes s)) :=
    request_owner htakes parseNone_nil
  have hset : byteOf s.link.flags.activated.toNat = s.link.flags.activated.setWidth 8 := by
    apply BitVec.eq_of_toNat_eq
    simp [byteOf]
  refine ⟨s.clearEvents, ?_, fun p => ?_, rfl⟩
  · rw [hexec]
    simp only [eventBytes, bytes16, PointFlags.mask_eq, PartFlags.mask_eq, hset]
  · show (s.modAllPoints (fun _ x => { x with flags := PointFlags.clear })).point p = _
    rw [State.modAllPoints_point]
    rfl

theorem PartFlags.any_iff (f : PartFlags) : f.any = true ↔ f.restarted = true ∨ f.retainLost = true ∨
    f.holdExpired = true ∨ f.priceActive = true ∨ f.rollover = true ∨ f.estop = true := by
  simp [PartFlags.any, or_assoc]

theorem PointFlags.any_iff (f : PointFlags) : f.any = true ↔
    f ≠ ⟨false, false, false, false, false, false, false, false, false⟩ := by
  rw [ne_eq, PointFlags.mk.injEq]
  simp only [PointFlags.any, Bool.or_eq_true]
  grind

/-- Settles O13: ATTN is the disjunction of every flag, under power. -/
theorem attnFollowsFlags : Obligations.AttnFollowsFlags := by
  unfold Obligations.AttnFollowsFlags
  intro s
  have hpoints : allPoints.any (fun p => (s.point p).flags.any) = true ↔
      ∃ p, (s.point p).flags ≠ ⟨false, false, false, false, false, false, false, false, false⟩ := by
    rw [List.any_eq_true]
    constructor
    · rintro ⟨p, -, hp⟩
      exact ⟨p, (PointFlags.any_iff _).mp hp⟩
    · rintro ⟨p, hp⟩
      exact ⟨p, by unfold allPoints; fin_cases p <;> simp, (PointFlags.any_iff _).mpr hp⟩
  simp only [State.attnLow, State.anyFlag, Bool.and_eq_true, Bool.or_eq_true, PartFlags.any_iff, hpoints]
  simp only [and_assoc, or_assoc]

end Sys2Proof.Machine

/-! # Proofs: the requests and events of the points (Chapters 1 and 4) -/

namespace Sys2Proof.Machine

/-! ## The shapes that the rules use -/

theorem PtState.holdsAuth_cases {st : PtState} (h : st.holdsAuth = true) :
    st ≠ .undefined ∧ st ≠ .idle ∧ st ≠ .calling ∧ st ≠ .faulted := by
  cases st <;> simp [PtState.holdsAuth] at h ⊢

theorem PtState.changeable_iff (st : PtState) : st.changeable = true ↔ st = .idle ∨ st = .calling ∨ st = .faulted := by
  cases st <;> simp [PtState.changeable]

/-- A point in the delivering set of its authorization (R49). -/
theorem Point.delivers_of {x : Point} {a : AuthRecord}
    (hst : x.st = .authorized ∨ x.st = .delivering ∨ x.st = .paused ∨ x.st = .stopping) (ha : x.auth = some a) :
    x.delivers = some a.product := by
  unfold Point.delivers
  rcases hst with e | e | e | e <;> simp [e, ha]

/-- A point outside the states of a delivering set (R49). -/
theorem Point.delivers_none {x : Point} (ha : x.st ≠ .authorized) (hd : x.st ≠ .delivering) (hp : x.st ≠ .paused)
    (hs : x.st ≠ .stopping) : x.delivers = none := by
  unfold Point.delivers
  cases hst : x.st <;> simp_all

/-- A delivery that goes on stays in its set (R49). -/
theorem Point.delivers_congr {x y : Point} (hx : x.st.counting = true) (hy : y.st.counting = true)
    (hauth : y.auth = x.auth) : y.delivers = x.delivers := by
  have hset : ∀ z : Point, z.st.counting = true → z.delivers = z.auth.map (·.product) := by
    intro z hz
    unfold Point.delivers
    cases hst : z.st <;> simp [hst, PtState.counting] at hz ⊢
  rw [hset x hx, hset y hy, hauth]

theorem Point.checkSlowDown_delivers (x : Point) : x.checkSlowDown.delivers = x.delivers := by
  obtain ⟨_, _, e⟩ := x.checkSlowDown_eq
  rw [e]
  rfl

/-- The delivery start, with the slow-down point already passed or not (R13, R67). -/
theorem Point.startDelivery_eq {x : Point} {a : AuthRecord} {d : PointDef} (ha : x.auth = some a)
    (hd : x.defn = some d) : x.startDelivery = x.started a d := by
  cases hpreset : a.preset with
  | none => simp [Point.startDelivery, Point.checkSlowDown, Point.presetMarks, Point.started, startsSlow,
      Point.noFlowStart, ha, hd, hpreset, FaultSet.none, SaleFlags.clear]
  | some q =>
    by_cases hslow : q.target ≤ d.margin <;>
      simp [Point.startDelivery, Point.checkSlowDown, Point.presetMarks, Point.started, startsSlow,
        Point.noFlowStart, ha, hd, hpreset, hslow, FaultSet.none, SaleFlags.clear]

theorem Point.started_delivers (x : Point) (a : AuthRecord) (d : PointDef) :
    (x.started a d).delivers = some a.product := rfl

/-- A request that carries a point number (Table 11-5). -/
theorem parsePoint_byteOf : ∀ p : PointNo, parsePoint [byteOf p.val] = some p := by decide

/-! ## DEFINE POINT, MODIFY POINT, RELEASE POINT -/

theorem exec_definePoint {s : State} {payload : List Byte} {q : DefineReq} (h : s.takes payload)
    (hq : parseDefinePoint payload = some q) :
    exec (.definePoint payload) s = .next (defineRequest q (s.awaiting Kind.definePoint payload)) :=
  request_owner h hq

/-- Settles O15: the two checks of DEFINE POINT, and the record that passes them. -/
theorem definePointStartsThePoint : Obligations.DefinePointStartsThePoint := by
  unfold Obligations.DefinePointStartsThePoint
  intro s payload q htakes hparse
  refine ⟨fun hst hmargin htolerance => ?_, fun hst => ?_, fun hst hscale => ?_⟩ <;>
    rw [exec_definePoint htakes hparse]
  · simp only [defineRequest, State.awaiting_point, State.awaiting_tally, hst, hmargin, htolerance, ne_eq,
      not_true, or_self, if_false]
    rfl
  · simp [defineRequest, hst]
  · simp [defineRequest, hst, hscale]

theorem exec_modifyPoint {s : State} {payload : List Byte} {q : ModifyReq} (h : s.takes payload)
    (hq : parseModifyPoint payload = some q) :
    exec (.modifyPoint payload) s = .next (modifyRequest q (s.awaiting Kind.modifyPoint payload)) :=
  request_owner h hq

theorem exec_releasePoint {s : State} {p : PointNo} (h : s.takes [byteOf p.val]) :
    exec (.releasePoint [byteOf p.val]) s =
      .next (releaseRequest p (s.awaiting Kind.releasePoint [byteOf p.val])) :=
  request_owner h (parsePoint_byteOf p)

/-- The margin and the tolerance of MODIFY POINT are at VS where they are present (R4). -/
theorem ModifyReq.scalesAt_iff (q : ModifyReq) (vs : Nat) : q.scalesAt vs = true ↔
    (∀ f, q.margin = some f → f.scale = vs) ∧ ∀ f, q.tolerance = some f → f.scale = vs := by
  simp [ModifyReq.scalesAt, Option.all_eq_true]

/-- MODIFY POINT in a state that allows it, with its scales in order (R4). -/
theorem modifyRequest_awaiting {s : State} {q : ModifyReq} (b : List Byte)
    (hst : (s.point q.p).st.changeable = true) (hscales : q.scalesAt s.tally.vs = true) :
    modifyRequest q (s.awaiting Kind.modifyPoint b) =
      (s.modPoint q.p (fun x => { x with defn := x.defn.map q.apply })).answeredTo b.length .ok
        Kind.modifyPoint [] := by
  have hdefined : (s.point q.p).st ≠ .undefined := fun e => by simp [e, PtState.changeable] at hst
  simp [modifyRequest, awaiting_onDefined, hdefined, hst, hscales]

/-- Settles O16: both requests ask for a state that may change, and replace or discard the definition. -/
theorem modifyAndReleasePoint : Obligations.ModifyAndReleasePoint := by
  unfold Obligations.ModifyAndReleasePoint
  refine ⟨fun s payload q d htakes hparse hdefn hst hmargin htolerance => ?_, fun s payload q htakes hparse =>
    ⟨fun hst => ?_, fun hst hscale => ?_, fun hst => ?_⟩, fun s p htakes => ⟨fun hst => ?_, fun hst => ?_, fun hst => ?_⟩⟩
  · rw [exec_modifyPoint htakes hparse, modifyRequest_awaiting payload ((PtState.changeable_iff _).mpr hst)
      ((q.scalesAt_iff _).mpr ⟨hmargin, htolerance⟩), State.modPoint, hdefn]
    rfl
  · obtain ⟨hu, hi, hc, hf⟩ := PtState.holdsAuth_cases hst
    have hno : (s.point q.p).st.changeable = false := by
      rw [← Bool.not_eq_true, PtState.changeable_iff]
      simp [hi, hc, hf]
    rw [exec_modifyPoint htakes hparse]
    simp [modifyRequest, awaiting_onDefined, hu, hno]
  · have hchangeable := (PtState.changeable_iff _).mpr hst
    have hdefined : (s.point q.p).st ≠ .undefined := fun e => by simp [e, PtState.changeable] at hchangeable
    have hbad : q.scalesAt s.tally.vs = false := by
      rw [← Bool.not_eq_true, q.scalesAt_iff]
      rintro ⟨hmargin, htolerance⟩
      obtain ⟨f, hf | hf, hne⟩ := hscale
      · exact hne (hmargin f hf)
      · exact hne (htolerance f hf)
    rw [exec_modifyPoint htakes hparse]
    simp [modifyRequest, awaiting_onDefined, hdefined, hchangeable, hbad]
  · rw [exec_modifyPoint htakes hparse]
    simp [modifyRequest, awaiting_onDefined, hst]
  · have hchangeable := (PtState.changeable_iff _).mpr hst
    have hdefined : (s.point p).st ≠ .undefined := fun e => by simp [e, PtState.changeable] at hchangeable
    rw [exec_releasePoint htakes]
    simp only [releaseRequest, awaiting_onDefined, if_neg hdefined, State.awaiting_point, hchangeable,
      Bool.true_eq_false, if_false]
    rfl
  · obtain ⟨hu, hi, hc, hf⟩ := PtState.holdsAuth_cases hst
    have hno : (s.point p).st.changeable = false := by
      rw [← Bool.not_eq_true, PtState.changeable_iff]
      simp [hi, hc, hf]
    rw [exec_releasePoint htakes]
    simp [releaseRequest, awaiting_onDefined, hu, hno]
  · rw [exec_releasePoint htakes]
    simp [releaseRequest, awaiting_onDefined, hst]

/-! ## AUTHORIZE -/

theorem exec_authorize {s : State} {payload : List Byte} {q : AuthorizeReq} (h : s.takes payload)
    (hq : parseAuthorize payload = some q) :
    exec (.authorize payload) s = .next (authorizeRequest q (s.awaiting Kind.authorize payload)) :=
  request_owner h hq

theorem authorizeVerdict_awaiting (q : AuthorizeReq) (s : State) (k : Byte) (b : List Byte) :
    authorizeVerdict q (s.awaiting k b) = authorizeVerdict q s := rfl

/-- A check that fails gives the reply, and the part stays as it was (R9). -/
theorem exec_authorize_of_error {s : State} {payload : List Byte} {q : AuthorizeReq} {e : Status}
    (h : s.takes payload) (hq : parseAuthorize payload = some q) (he : authorizeVerdict q s = .error e) :
    exec (.authorize payload) s = .next (s.answeredTo payload.length e Kind.authorize []) := by
  rw [exec_authorize h hq]
  simp [authorizeRequest, authorizeVerdict_awaiting, he]

theorem exec_authorize_of_ok {s : State} {payload : List Byte} {q : AuthorizeReq} {a : AuthRecord}
    (h : s.takes payload) (hq : parseAuthorize payload = some q) (ha : authorizeVerdict q s = .ok a) :
    exec (.authorize payload) s =
      .next ((s.movePoint q.p (fun x => x.authorize a)).answeredTo payload.length .ok Kind.authorize []) := by
  rw [exec_authorize h hq]
  simp [authorizeRequest, authorizeVerdict_awaiting, ha, State.awaiting_movePoint]

/-- The target of a MONEY preset is the one least volume (R65). -/
theorem moneyTarget_unique {amount price vs ps ms rounding target : Nat} (hprice : price ≠ 0)
    (hreach : amount ≤ liveMoneyOf target price vs ps ms rounding)
    (hleast : ∀ v, v < target → liveMoneyOf v price vs ps ms rounding < amount) :
    moneyTarget amount price vs ps ms rounding = target := by
  obtain ⟨hreach', hleast'⟩ := moveDown_least (fun v w hvw => liveMoneyOf_mono hvw price vs ps ms rounding)
    (le_liveMoneyOf_quotientUp hprice amount vs ps ms rounding)
  rcases Nat.lt_trichotomy (moneyTarget amount price vs ps ms rounding) target with h | h | h
  · exact absurd (hleast _ h) (Nat.not_lt.mpr hreach')
  · exact h
  · exact absurd (hleast' _ h) (Nat.not_lt.mpr hreach)

/-- Check 7 stores the preset that R64 and R65 call for, or fails (R9). -/
theorem presetCheck_iff (s : State) (r : Product) (q : Option PresetReq) (stored : Option Preset) :
    presetCheck s.tally.vs s.tally.ms r q = some stored ↔ s.presetStored r q stored := by
  cases q with
  | none => simp [presetCheck, State.presetStored, eq_comm]
  | some q =>
    simp only [presetCheck, presetFor, State.presetStored]
    by_cases hamount : q.amount = 0
    · simp [hamount]
    · cases hkind : q.kind with
      | volume => by_cases hscale : q.scale = s.tally.vs <;> simp [hamount, hscale, eq_comm]
      | money =>
        by_cases hbad : q.scale ≠ s.tally.ms ∨ r.current = 0
        · have hno : ¬ (q.scale = s.tally.ms ∧ r.current ≠ 0) := by
            rintro ⟨hscale, hprice⟩
            exact hbad.elim (fun h => h hscale) hprice
          simp only [hamount, hbad, if_true, if_false, Option.map_none, reduceCtorEq, false_iff]
          rintro ⟨-, hscale, hprice, -⟩
          exact hno ⟨hscale, hprice⟩
        · push Not at hbad
          obtain ⟨hscale, hprice⟩ := hbad
          have hleast := moveDown_least
            (fun v w hvw => liveMoneyOf_mono hvw r.current s.tally.vs r.priceScale s.tally.ms r.rounding)
            (le_liveMoneyOf_quotientUp hprice q.amount s.tally.vs r.priceScale s.tally.ms r.rounding)
          simp only [hamount, hscale, hprice, ne_eq, not_true, not_false_eq_true, or_self, if_false, true_and,
            State.moneyOf]
          constructor
          · intro h
            split at h
            · next hlimit => cases h; exact ⟨_, hlimit, hleast.1, hleast.2, rfl⟩
            · cases h
          · rintro ⟨target, hlimit, hreach, hbelow, rfl⟩
            rw [moneyTarget_unique hprice hreach hbelow, if_pos hlimit]
            rfl

theorem authorizeVerdict_of_passes {s : State} {q : AuthorizeReq} {a : AuthRecord} (h : AuthorizePasses s q a) :
    authorizeVerdict q s = .ok a := by
  obtain ⟨r, hr, hstored, ha⟩ := h.record
  have hdefined : (s.point q.p).st ≠ .undefined := by rcases h.state with e | e <;> simp [e]
  have hstate : ¬ ((s.point q.p).st ≠ .idle ∧ (s.point q.p).st ≠ .calling) := by
    rcases h.state with e | e <;> simp [e]
  have hunstaged : r.staged.isSome = false := by simpa [State.isStaged, hr] using h.unstaged
  have hroom : ¬ Config.salesPerPoint ≤ s.salesOf q.p := Nat.not_le.mpr h.room
  simp only [authorizeVerdict, if_neg hdefined, if_neg hstate, h.estopHigh, h.powerHigh, h.allowed, hr, hunstaged,
    if_neg hroom, (presetCheck_iff s r _ _).mpr hstored, Bool.true_eq_false, or_self, Bool.false_eq_true, if_false]
  rw [ha]

/-- Settles O17: a request that passes gives its record, which moves the point quietly, as it stood in no
delivering set. -/
theorem authorizeAccepted : Obligations.AuthorizeAccepted := by
  unfold Obligations.AuthorizeAccepted
  intro s payload q a d htakes hparse hpasses hdefn
  have hquiet : (s.point q.p).st = .idle ∨ (s.point q.p).st = .calling → (s.point q.p).delivers = none := by
    rintro (e | e) <;> exact Point.delivers_none (by simp [e]) (by simp [e]) (by simp [e]) (by simp [e])
  refine ⟨fun hst => ?_, fun hst => ?_⟩ <;>
    rw [exec_authorize_of_ok htakes hparse (authorizeVerdict_of_passes hpasses),
      State.movePoint_quiet _ _ _ (.inl (hquiet (by simp [hst])))]
  · simp [Point.authorize, hst, Point.authStart, hdefn]
  · have hstart : (s.point q.p).authorize a = (s.point q.p).started a d := by
      unfold Point.authorize
      split
      · exact Point.startDelivery_eq (x := { s.point q.p with auth := some a }) rfl hdefn
      · next hno => exact absurd hst hno
    rw [hstart]

/-- Settles O18: the checks are tried in their order. -/
theorem authorizeRefusedByFirstFailingCheck : Obligations.AuthorizeRefusedByFirstFailingCheck := by
  unfold Obligations.AuthorizeRefusedByFirstFailingCheck
  intro s payload q htakes hparse
  dsimp only
  split
  · next hu => exact exec_authorize_of_error htakes hparse (by simp only [authorizeVerdict, if_pos hu])
  next hu =>
  split
  · next hw => exact exec_authorize_of_error htakes hparse (by simp only [authorizeVerdict, if_neg hu, if_pos hw])
  next hw =>
  split
  · next hs =>
    exact exec_authorize_of_error htakes hparse (by simp only [authorizeVerdict, if_neg hu, if_neg hw, if_pos hs])
  next hs =>
  split
  · next hb =>
    refine exec_authorize_of_error htakes hparse ?_
    simp only [authorizeVerdict, if_neg hu, if_neg hw, if_neg hs]
    split
    · rfl
    · next hallows => rw [hb.resolve_left hallows]
  next hb =>
  push Not at hb
  obtain ⟨hallows, hproduct⟩ := hb
  obtain ⟨r, hr⟩ := Option.ne_none_iff_exists'.mp hproduct
  have hstaged : s.isStaged q.product = r.staged.isSome := by simp [State.isStaged, hr]
  split
  · next hp =>
    refine exec_authorize_of_error htakes hparse ?_
    simp only [authorizeVerdict, if_neg hu, if_neg hw, if_neg hs, if_neg hallows, hr, ← hstaged, hp, if_true]
  next hp =>
  split
  · next hfull =>
    refine exec_authorize_of_error htakes hparse ?_
    simp only [authorizeVerdict, if_neg hu, if_neg hw, if_neg hs, if_neg hallows, hr, ← hstaged, if_neg hp]
    rw [if_pos (show Config.salesPerPoint ≤ s.salesOf q.p from hfull)]
  next hfull =>
  intro r' hr' hnone
  rw [hr] at hr'
  cases hr'
  have hpreset : presetCheck s.tally.vs s.tally.ms r q.preset = none := by
    cases hcheck : presetCheck s.tally.vs s.tally.ms r q.preset with
    | none => rfl
    | some stored => exact absurd ⟨stored, (presetCheck_iff s r _ _).mp hcheck⟩ hnone
  refine exec_authorize_of_error htakes hparse ?_
  simp only [authorizeVerdict, if_neg hu, if_neg hw, if_neg hs, if_neg hallows, hr, ← hstaged, if_neg hp]
  rw [if_neg (show ¬ Config.salesPerPoint ≤ s.salesOf q.p from hfull), hpreset]

/-! ## The handle -/

/-- An event on the handle of a part that operates, where it leaves the delivering sets. -/
theorem exec_liftEdge {s : State} (hop : s.operating = true) (p : PointNo) : exec (.liftEdge p) s =
    .next { s.setPoint p (s.point p).lift with pins := { s.pins with hs := s.pins.hs.set p true } } := by
  have hquiet : (s.point p).delivers = none ∨ (s.point p).lift.delivers = (s.point p).delivers := by
    unfold Point.lift
    split
    · exact .inr rfl
    · dsimp only
      split
      · next hst => exact .inl (Point.delivers_none (by simp [hst]) (by simp [hst]) (by simp [hst]) (by simp [hst]))
      · next hst =>
        refine .inr ?_
        rw [Point.startDelivery, Point.checkSlowDown_delivers]
        simp [Point.delivers, hst]
      · exact .inr rfl
  have hop' : (s.setHandlePin p true).operating = true := hop
  have hmove := (s.setHandlePin p true).movePoint_quiet p Point.lift hquiet
  show Host.Outcome.next ((s.setHandlePin p true).whenOperating _) = _
  rw [State.whenOperating, if_pos hop', hmove]
  rfl

theorem exec_lowerEdge {s : State} (hop : s.operating = true) (p : PointNo) : exec (.lowerEdge p) s =
    .next { s.setPoint p (s.point p).lower with pins := { s.pins with hs := s.pins.hs.set p false } } := by
  have hquiet : (s.point p).delivers = none ∨ (s.point p).lower.delivers = (s.point p).delivers := by
    unfold Point.lower
    split
    · dsimp only
      split
      · next hst => exact .inl (Point.delivers_none (by simp [hst]) (by simp [hst]) (by simp [hst]) (by simp [hst]))
      · next hst => exact .inr (Point.delivers_congr (by simp [hst, PtState.counting]) rfl rfl)
      · next hst => exact .inr (Point.delivers_congr (by simp [hst, PtState.counting]) rfl rfl)
      · exact .inr rfl
    · exact .inr rfl
  have hop' : (s.setHandlePin p false).operating = true := hop
  have hmove := (s.setHandlePin p false).movePoint_quiet p Point.lower hquiet
  show Host.Outcome.next ((s.setHandlePin p false).whenOperating _) = _
  rw [State.whenOperating, if_pos hop', hmove]
  rfl

theorem exec_handleEdges_of_not_operating {s : State} (hop : s.operating = false) (p : PointNo) :
    exec (.liftEdge p) s = .next (s.setHandlePin p true) ∧
    exec (.lowerEdge p) s = .next (s.setHandlePin p false) := by
  have hno : ∀ up, (s.setHandlePin p up).operating = false := fun _ => hop
  constructor
  · show Host.Outcome.next ((s.setHandlePin p true).whenOperating _) = _
    simp [State.whenOperating, hno]
  · show Host.Outcome.next ((s.setHandlePin p false).whenOperating _) = _
    simp [State.whenOperating, hno]

/-- Settles O19: an edge moves the point by its state, and none of its moves leaves a delivering set. -/
theorem handleEdges : Obligations.HandleEdges := by
  unfold Obligations.HandleEdges
  refine ⟨fun s p hop => ⟨fun hup => ?_, fun hup hst => ?_, fun hup hst a d ha hd => ?_, fun hup hi ha => ?_⟩,
    fun s p hop => ⟨fun hup => ?_, fun hup hst => ?_, fun hup hst => ?_, fun hup hc hd hp => ?_⟩,
    fun s p hop => exec_handleEdges_of_not_operating hop p⟩
  · rw [exec_liftEdge hop]
    simp [Point.lift, hup]
  · rw [exec_liftEdge hop]
    simp [Point.lift, hup, hst]
  · have hstart := Point.startDelivery_eq (x := { s.point p with handleUp := true }) (a := a) (d := d) ha hd
    rw [exec_liftEdge hop, ← hstart]
    simp [Point.lift, hup, hst]
  · have hlift : (s.point p).lift = { s.point p with handleUp := true } := by
      cases hst : (s.point p).st <;> simp_all [Point.lift]
    rw [exec_liftEdge hop, hlift]
  · rw [exec_lowerEdge hop]
    simp [Point.lower, hup]
  · rw [exec_lowerEdge hop]
    simp [Point.lower, hup, hst]
  · have hlower : (s.point p).lower = Point.enterStopping { s.point p with handleUp := false } .handle := by
      rcases hst with e | e <;> simp [Point.lower, hup, e]
    rw [exec_lowerEdge hop, hlower]
  · have hlower : (s.point p).lower = { s.point p with handleUp := false } := by
      cases hst : (s.point p).st <;> simp_all [Point.lower]
    rw [exec_lowerEdge hop, hlower]

end Sys2Proof.Machine

/-! # Proofs: stops, faults and timers of the points (Chapter 1) -/

namespace Sys2Proof.Machine

/-! ## CANCEL, PAUSE, RESUME, STOP -/

theorem exec_cancel {s : State} {p : PointNo} (h : s.takes [byteOf p.val]) :
    exec (.cancel [byteOf p.val]) s = .next (cancelRequest p (s.awaiting Kind.cancel [byteOf p.val])) :=
  request_owner h (parsePoint_byteOf p)

theorem exec_pause {s : State} {p : PointNo} (h : s.takes [byteOf p.val]) :
    exec (.pause [byteOf p.val]) s = .next (pauseRequest p (s.awaiting Kind.pause [byteOf p.val])) :=
  request_owner h (parsePoint_byteOf p)

theorem exec_resume {s : State} {p : PointNo} (h : s.takes [byteOf p.val]) :
    exec (.resume [byteOf p.val]) s = .next (resumeRequest p (s.awaiting Kind.resume [byteOf p.val])) :=
  request_owner h (parsePoint_byteOf p)

theorem exec_stop {s : State} {p : PointNo} (h : s.takes [byteOf p.val]) :
    exec (.stop [byteOf p.val]) s = .next (stopRequest p (s.awaiting Kind.stop [byteOf p.val])) :=
  request_owner h (parsePoint_byteOf p)

/-- An authorization that is dropped leaves its delivering set (R12, R17, R49). -/
theorem State.movePoint_drop {s : State} {p : PointNo} (hst : (s.point p).st = .authorized) {a : AuthRecord}
    (ha : (s.point p).auth = some a) : s.movePoint p (fun x => x.dropTo .idle) = (s.setPoint p { s.point p with
      st := .idle
      auth := none
      timers := { (s.point p).timers with authorization := none } }).reportLeft a.product :=
  s.movePoint_left p _ _ (Point.delivers_of (.inl hst) ha) (by simp [Point.delivers, Point.dropTo])

/-- A change between the states of a delivery is no report (R49). -/
theorem State.movePoint_delivery {s : State} {p : PointNo} {f : Point → Point}
    (hx : (s.point p).st.counting = true) (hy : (f (s.point p)).st.counting = true)
    (hauth : (f (s.point p)).auth = (s.point p).auth) : s.movePoint p f = s.setPoint p (f (s.point p)) :=
  s.movePoint_quiet p f (.inr (Point.delivers_congr hx hy hauth))

/-- Settles O20: each request asks for its one state. -/
theorem cancelPauseResume : Obligations.CancelPauseResume := by
  unfold Obligations.CancelPauseResume
  intro s p htakes
  refine ⟨fun hst a ha => ?_, fun hst hu => ?_, fun hst => ?_, fun hst hu => ?_, fun hst hhigh d hd => ?_,
    fun hst hlow => ?_, fun hst hu => ?_, fun hst => ⟨?_, ?_, ?_⟩⟩
  · rw [exec_cancel htakes]
    simp [cancelRequest, awaiting_onDefined, hst, State.awaiting_movePoint, State.movePoint_drop hst ha]
  · rw [exec_cancel htakes]
    simp [cancelRequest, awaiting_onDefined, hst, hu]
  · have hmove := State.movePoint_delivery (s := s) (p := p) (f := Point.pause) (by simp [hst, PtState.counting]) rfl rfl
    rw [exec_pause htakes]
    simp only [pauseRequest, awaiting_onDefined, hst, State.awaiting_point, State.awaiting_movePoint, hmove]
    rfl
  · rw [exec_pause htakes]
    simp [pauseRequest, awaiting_onDefined, hst, hu]
  · have hmove := State.movePoint_delivery (s := s) (p := p) (f := Point.resume) (by simp [hst, PtState.counting]) rfl rfl
    have hresume : (s.point p).resume = { s.point p with
        st := .delivering
        timers := { (s.point p).timers with noFlow := if d.noFlow = 0 then none else some d.noFlow } } := by
      simp [Point.resume, Point.noFlowStart, hd]
    rw [hresume] at hmove
    rw [exec_resume htakes]
    simp [resumeRequest, awaiting_onDefined, hst, hhigh, State.awaiting_movePoint, hmove]
  · rw [exec_resume htakes]
    simp [resumeRequest, awaiting_onDefined, hst, hlow]
  · rw [exec_resume htakes]
    simp [resumeRequest, awaiting_onDefined, hst, hu]
  · rw [exec_cancel htakes]
    simp [cancelRequest, awaiting_onDefined, hst]
  · rw [exec_pause htakes]
    simp [pauseRequest, awaiting_onDefined, hst]
  · rw [exec_resume htakes]
    simp [resumeRequest, awaiting_onDefined, hst]

/-- Settles O21: STOP goes by the table of R17. -/
theorem stopByState : Obligations.StopByState := by
  unfold Obligations.StopByState
  intro s p htakes
  dsimp only
  have hexec := exec_stop htakes
  unfold stopRequest at hexec
  rw [State.awaiting_point] at hexec
  cases hst : (s.point p).st with
  | undefined | idle | calling | faulted | stopping | settling =>
    rw [hst] at hexec
    exact hexec
  | authorized =>
    intro a ha
    rw [hst] at hexec
    rw [hexec]
    simp [State.awaiting_movePoint, State.movePoint_drop hst ha]
  | delivering | paused =>
    have hmove := State.movePoint_delivery (s := s) (p := p) (f := fun x => x.enterStopping .stopRequest)
      (by simp [hst, PtState.counting]) rfl rfl
    rw [hst] at hexec
    simp only [State.awaiting_movePoint, hmove] at hexec
    exact hexec

/-! ## STOP ALL and ESTOPn -/

/-- What a change of the link's ESTOP flag leaves of the stop of every point. -/
theorem StoppedAll.flagEstop {s t : State} (h : StoppedAll s t) : StoppedAll s t.flagEstop :=
  ⟨h.points, ⟨h.prices.products, h.prices.flag, h.prices.set⟩, (congrArg State.flagEstop h.rest).trans rfl⟩

/-- Settles O22: both stop every point in one event, and ESTOPn sets its flag beside. -/
theorem stopAllAndEstop : Obligations.StopAllAndEstop := by
  unfold Obligations.StopAllAndEstop
  refine ⟨fun s htakes => ⟨s.stopEveryPoint, ?_, s.stopEveryPoint_stoppedAll, s.stopEveryPoint_flags⟩,
    fun s hop hhigh => ⟨(s.setEstopPin false).stopEveryPoint.flagEstop, ?_,
      (s.setEstopPin false).stopEveryPoint_stoppedAll.flagEstop, ?_⟩, fun s hop hlow => ?_,
    fun s => ⟨fun hlow => ?_, fun hhigh => ?_⟩⟩
  · have hexec : exec (.stopAll []) s = .next (stopAllRequest (s.awaiting Kind.stopAll [])) :=
      request_owner htakes parseNone_nil
    rw [hexec, stopAllRequest, State.awaiting_stopEveryPoint, State.awaiting_doneWith]
    rfl
  · have hop' : (s.setEstopPin false).operating = true := hop
    show execEstopnAsserted s = _
    rw [execEstopnAsserted, if_pos hhigh, State.whenOperating, if_pos hop']
  · rw [State.flagEstop, State.modLink, (s.setEstopPin false).stopEveryPoint_flags]
    rfl
  · have hop' : (s.setEstopPin true).operating = true := hop
    show execEstopnReleased s = _
    rw [execEstopnReleased, if_neg (by simp [hlow]), State.whenOperating, if_pos hop']
    rfl
  · show execEstopnAsserted s = _
    rw [execEstopnAsserted, if_neg (by simp [hlow])]
  · show execEstopnReleased s = _
    rw [execEstopnReleased, if_pos hhigh]

/-! ## READ POINT -/

theorem FaultSet.mask_eq (f : FaultSet) : f.mask =
    (if f.creep then 1 else 0) + (if f.reverse then 2 else 0) + (if f.pulser then 4 else 0) := by
  simp only [FaultSet.mask, maskOf, Nat.mul_add, mul_ite, Nat.mul_zero, Nat.mul_one, Nat.add_assoc, Nat.reduceMul]
  rfl

theorem SaleFlags.mask_eq (f : SaleFlags) : f.mask = (if f.overrun then 1 else 0) +
    (if f.reverseSeen then 2 else 0) + (if f.flowAfterStop then 4 else 0) := by
  simp only [SaleFlags.mask, maskOf, Nat.mul_add, mul_ite, Nat.mul_zero, Nat.mul_one, Nat.add_assoc, Nat.reduceMul]
  rfl

/-- The presence bits of four items (R176). -/
theorem maskOf_four (a b c d : Bool) : maskOf [a, b, c, d] =
    (if a then 1 else 0) + (if b then 2 else 0) + (if c then 4 else 0) + (if d then 8 else 0) := by
  simp only [maskOf, Nat.mul_add, mul_ite, Nat.mul_zero, Nat.mul_one, Nat.add_assoc, Nat.reduceMul]
  rfl

theorem Point.shownAuth_eq (x : Point) : x.shownAuth = if x.st.holdsAuth then x.auth else none := by
  unfold Point.shownAuth
  cases hst : x.st <;> simp [PtState.holdsAuth]

theorem Point.shownReason_eq (x : Point) :
    x.shownReason = if x.st = .stopping ∨ x.st = .settling then x.endReason else none := by
  unfold Point.shownReason
  cases hst : x.st <;> simp

theorem presetBytes_eq (vs ms : Nat) (q : Preset) : presetBytes vs ms q = [byteOf q.kind.code] ++
    decimalField false (if q.kind = .volume then vs else ms) 8 q.amount ++ decimalField false vs 8 q.target := by
  unfold presetBytes unsignedField
  cases hkind : q.kind <;> simp

theorem exec_readPoint {s : State} {p : PointNo} (h : s.takes [byteOf p.val]) :
    exec (.readPoint [byteOf p.val]) s = .next (s.answeredTo 1 .ok Kind.readPoint
      (pointBytes s.tally.vs s.tally.ms p (s.point p))) :=
  request_owner h (parsePoint_byteOf p)

/-- The reply of a defined point, with its optional items (R25, Table 11-9). -/
theorem pointBytes_of_defined {x : Point} (h : x.st ≠ .undefined) (vs ms : Nat) (p : PointNo) :
    pointBytes vs ms p x = [byteOf p.val, byteOf x.st.code] ++
      ([byteOf (maskOf [x.shownAuth.isSome, (x.shownAuth.bind (·.preset)).isSome,
          (x.shownAuth.bind (·.tag)).isSome, x.shownReason.isSome])] ++
       unsignedField vs 8 x.liveVolume ++ unsignedField ms 8 x.liveMoney ++
       [byteOf x.faults.mask] ++ bytes16 x.meter.creep ++
       optionalBytes x.shownAuth (fun a => byteOf a.product.val :: unsignedField a.priceScale 6 a.price) ++
       optionalBytes (x.shownAuth.bind (·.preset)) (presetBytes vs ms) ++
       optionalBytes (x.shownAuth.bind (·.tag)) bytes32 ++
       optionalBytes x.shownReason (fun r => [byteOf r.code])) := by
  rw [pointBytes, if_neg h]

/-- Settles O23: the reply is laid out from the point as it stands. -/
theorem readPointShowsThePoint : Obligations.ReadPointShowsThePoint := by
  unfold Obligations.ReadPointShowsThePoint
  refine ⟨fun st => by cases st <;> rfl, fun e => by cases e <;> rfl, FaultSet.mask_eq, SaleFlags.mask_eq,
    fun s p htakes => ⟨fun hst => ?_, fun hst => ?_⟩⟩
  · rw [exec_readPoint htakes, pointBytes, if_pos hst, hst]
    rfl
  · rw [exec_readPoint htakes, pointBytes_of_defined hst, maskOf_four, Point.shownAuth_eq, Point.shownReason_eq,
      funext (presetBytes_eq s.tally.vs s.tally.ms)]
    simp only [unsignedField, bytes16, List.append_assoc, List.cons_append, List.nil_append]

/-! ## CLEAR FAULT and CLEAR CREEP -/

theorem exec_clearFault {s : State} {p : PointNo} (h : s.takes [byteOf p.val]) :
    exec (.clearFault [byteOf p.val]) s =
      .next (clearFaultRequest p (s.awaiting Kind.clearFault [byteOf p.val])) :=
  request_owner h (parsePoint_byteOf p)

theorem exec_clearCreep {s : State} {p : PointNo} (h : s.takes [byteOf p.val]) :
    exec (.clearCreep [byteOf p.val]) s =
      .next (clearCreepRequest p (s.awaiting Kind.clearCreep [byteOf p.val])) :=
  request_owner h (parsePoint_byteOf p)

/-- Settles O24: neither request moves a point of a delivering set. -/
theorem clearFaultAndClearCreep : Obligations.ClearFaultAndClearCreep := by
  unfold Obligations.ClearFaultAndClearCreep
  intro s p htakes
  refine ⟨fun hst => ?_, fun hst hu => ?_, fun hu => ?_, fun hu => ⟨?_, ?_⟩⟩
  · have hmove := s.movePoint_quiet p Point.clearFault
      (.inl (Point.delivers_none (by simp [hst]) (by simp [hst]) (by simp [hst]) (by simp [hst])))
    rw [exec_clearFault htakes]
    simp only [clearFaultRequest, awaiting_onDefined, hst, State.awaiting_point, State.awaiting_movePoint, hmove]
    rfl
  · rw [exec_clearFault htakes]
    simp [clearFaultRequest, awaiting_onDefined, hst, hu]
  · have hmove := s.movePoint_quiet p Point.clearCreep (.inr rfl)
    rw [exec_clearCreep htakes]
    simp only [clearCreepRequest, awaiting_onDefined, if_neg hu, State.awaiting_movePoint, hmove]
    rfl
  · rw [exec_clearFault htakes]
    simp [clearFaultRequest, awaiting_onDefined, hu]
  · rw [exec_clearCreep htakes]
    simp [clearCreepRequest, awaiting_onDefined, hu]

/-! ## Faults and marks -/

/-- A kind joins the fault set (Section 1.6). -/
theorem FaultSet.insert_eq (f : FaultSet) (k : FaultKind) : f.insert k =
    ⟨f.creep || decide (k = .creep), f.reverse || decide (k = .reverse), f.pulser || decide (k = .pulser)⟩ := by
  cases k <;> simp [FaultSet.insert]

/-- The slow-down status after a comparison with the mark (R67). -/
theorem Point.checkSlowDown_of_preset {x : Point} {a : AuthRecord} {d : PointDef} {q : Preset}
    (ha : x.auth = some a) (hd : x.defn = some d) (hq : a.preset = some q) :
    x.checkSlowDown = { x with
      slowDown := x.slowDown || (!x.slowDown && decide (q.target ≤ x.liveVolume + d.margin))
      flags := { x.flags with
        slowdown := x.flags.slowdown || (!x.slowDown && decide (q.target ≤ x.liveVolume + d.margin)) } } := by
  simp only [Point.checkSlowDown, Point.presetMarks, ha, hd, hq, Option.map_some]
  split
  · next h => simp [h]
  · next h =>
    simp only [Bool.not_eq_true] at h
    rw [h, Bool.or_false, Bool.or_false, ← ha, ← hd]

theorem Point.presetMarks_of_preset {x : Point} {a : AuthRecord} {d : PointDef} {q : Preset}
    (ha : x.auth = some a) (hd : x.defn = some d) (hq : a.preset = some q) :
    x.presetMarks = some (q.target, d.margin, d.tolerance) := by
  simp [Point.presetMarks, ha, hd, hq]

/-- Settles O25: the effects as the rules list them. -/
theorem stoppingFaultsAndMarks : Obligations.StoppingFaultsAndMarks := by
  unfold Obligations.StoppingFaultsAndMarks
  refine ⟨fun x reason d hd => ?_, fun x k => ?_, fun x a d ha hd => ⟨fun hnone => ?_, fun hdel hpau => ?_,
    fun q hq hst => ?_⟩⟩
  · simp [Point.enterStopping, Point.settleStart, hd, Config.stopLimitSeconds]
  · dsimp only
    rw [← FaultSet.insert_eq]
    unfold Point.reportFault
    cases x.st <;> rfl
  · have hmarks : x.presetMarks = none := by simp [Point.presetMarks, ha, hd, hnone]
    have hslow : x.checkSlowDown = x := by simp [Point.checkSlowDown, hmarks]
    unfold Point.compareMarks
    split <;> simp [hslow, Point.checkTarget, hmarks]
  · unfold Point.compareMarks
    cases hst : x.st <;> simp_all
  · have hcompare : x.compareMarks = x.checkSlowDown.checkTarget := by
      rcases hst with e | e <;> simp [Point.compareMarks, e]
    have hmarks : x.checkSlowDown.presetMarks = some (q.target, d.margin, d.tolerance) := by
      rw [Point.checkSlowDown_of_preset ha hd hq]
      exact Point.presetMarks_of_preset ha hd hq
    have hvolume : x.checkSlowDown.liveVolume = x.liveVolume := by
      rw [Point.checkSlowDown_of_preset ha hd hq]
    rw [hcompare, Point.checkTarget, hmarks, hvolume, Point.checkSlowDown_of_preset ha hd hq]

/-! ## Timers -/

theorem exec_authorizationTimerExpiry {s : State} (hop : s.operating = true) (p : PointNo) :
    exec (.authorizationTimerExpiry p) s = .next (s.movePoint p Point.authorizationExpiry) := by
  show Host.Outcome.next (s.whenOperating _) = _
  rw [State.whenOperating, if_pos hop]

theorem exec_noFlowTimerExpiry {s : State} (hop : s.operating = true) (p : PointNo) :
    exec (.noFlowTimerExpiry p) s = .next (s.movePoint p Point.noFlowExpiry) := by
  show Host.Outcome.next (s.whenOperating _) = _
  rw [State.whenOperating, if_pos hop]

/-- A transition that does nothing. -/
theorem State.movePoint_id {s : State} {p : PointNo} {f : Point → Point} (h : f (s.point p) = s.point p) :
    s.movePoint p f = s := by
  rw [s.movePoint_quiet p f (.inr (by rw [h])), h]
  simp [State.setPoint, State.point]

/-- Settles O26: each expiry asks for its state and its running timer. -/
theorem authorizationAndNoFlowExpiry : Obligations.AuthorizationAndNoFlowExpiry := by
  unfold Obligations.AuthorizationAndNoFlowExpiry
  intro s p hop
  rw [exec_authorizationTimerExpiry hop, exec_noFlowTimerExpiry hop]
  refine ⟨fun hst hruns a ha => ?_, fun hidle => ?_, fun hst hruns => ?_, fun hidle => ?_⟩
  · have hexpiry : (s.point p).authorizationExpiry = (s.point p).lapse := by
      simp [Point.authorizationExpiry, hst, hruns]
    rw [s.movePoint_left p _ a.product (Point.delivers_of (.inl hst) ha) (by rw [hexpiry]; simp [Point.delivers,
      Point.lapse, Point.dropTo]), hexpiry]
    rfl
  · rw [State.movePoint_id]
    rw [Point.authorizationExpiry, if_neg]
    rintro ⟨hst, hruns⟩
    exact hidle.elim (fun h => h hst) (fun h => by simp [h] at hruns)
  · have hexpiry : (s.point p).noFlowExpiry = (s.point p).enterStopping .noFlow := by
      simp [Point.noFlowExpiry, hst, hruns]
    rw [State.movePoint_delivery (by simp [hst, PtState.counting]) (by rw [hexpiry]; rfl) (by rw [hexpiry]; rfl),
      hexpiry]
  · rw [State.movePoint_id]
    rw [Point.noFlowExpiry, if_neg]
    rintro ⟨hst, hruns⟩
    exact hidle.elim (fun h => h hst) (fun h => by simp [h] at hruns)

theorem exec_settleTimerExpiry {s : State} (hop : s.operating = true) (p : PointNo) :
    exec (.settleTimerExpiry p) s = .next (if (s.point p).settleRuns then s.settlePoint p id else s) := by
  show Host.Outcome.next (s.whenOperating _) = _
  rw [State.whenOperating, if_pos hop]

theorem exec_stopLimitTimerExpiry {s : State} (hop : s.operating = true) (p : PointNo) :
    exec (.stopLimitTimerExpiry p) s =
      .next (if (s.point p).stopLimitRuns then s.settlePoint p Point.flowAfterStop else s) := by
  show Host.Outcome.next (s.whenOperating _) = _
  rw [State.whenOperating, if_pos hop]

/-- The settlement of a STOPPING point: the freeze, the report, the posting behind the others, and the choice
(R19, R20, R132, R133). -/
theorem State.settlePoint_eq {s : State} {p : PointNo} {f : Point → Point} {a : AuthRecord} {sale : FrozenSale}
    (hst : (s.point p).st = .stopping) (ha : (s.point p).auth = some a)
    (hfrozen : ((f (s.point p)).enterSettling p).frozen = some sale) :
    s.settlePoint p f = State.choose { (s.setPoint p ((f (s.point p)).enterSettling p)).reportLeft a.product with
      dcu := { s.dcu with postings := s.dcu.postings ++ [sale.posting] } } := by
  have hmove := s.movePoint_left p (fun x => (f x).enterSettling p) a.product
    (Point.delivers_of (.inr (.inr (.inr hst))) ha) (by simp [Point.delivers, Point.enterSettling])
  have hsale : ((s.movePoint p (fun x => (f x).enterSettling p)).point p).frozen = some sale := by
    rw [State.movePoint_point, if_pos rfl, hfrozen]
  rw [State.settlePoint, State.submit, hsale]
  dsimp only
  rw [hmove, State.modDcu, State.reportLeft_dcu]
  rfl

/-- Settles O27: a running timer settles the point with the sale as its values stand. -/
theorem settlingFreezesAndSubmits : Obligations.SettlingFreezesAndSubmits := by
  unfold Obligations.SettlingFreezesAndSubmits
  refine ⟨fun s p hop => ⟨fun hidle => ?_, fun hidle => ?_⟩, fun s p a e hop hst ha he => ⟨fun hruns => ?_, fun hruns => ?_⟩⟩
  · have hno : ¬ (s.point p).settleRuns = true := by
      simp only [Point.settleRuns, Bool.and_eq_true, decide_eq_true_eq]
      rintro ⟨hst, hruns⟩
      exact hidle.elim (fun h => h hst) (fun h => by simp [h] at hruns)
    rw [exec_settleTimerExpiry hop, if_neg hno]
  · have hno : ¬ (s.point p).stopLimitRuns = true := by
      simp only [Point.stopLimitRuns, Bool.and_eq_true, decide_eq_true_eq]
      rintro ⟨hst, hruns⟩
      exact hidle.elim (fun h => h hst) (fun h => by simp [h] at hruns)
    rw [exec_stopLimitTimerExpiry hop, if_neg hno]
  · have hyes : (s.point p).settleRuns = true := by simp [Point.settleRuns, hst, hruns]
    refine ⟨_, (exec_settleTimerExpiry hop p).trans (by rw [if_pos hyes]), ?_⟩
    rw [State.settlePoint_eq (f := id) hst ha (sale := (s.point p).saleOf p a) (by simp [Point.enterSettling, ha])]
    simp [Point.enterSettling, Point.saleOf, FrozenSale.posting, ha, he]
  · have hyes : (s.point p).stopLimitRuns = true := by simp [Point.stopLimitRuns, hst, hruns]
    refine ⟨_, (exec_stopLimitTimerExpiry hop p).trans (by rw [if_pos hyes]), ?_⟩
    rw [State.settlePoint_eq (f := Point.flowAfterStop) hst ha (sale := (s.point p).flowAfterStop.saleOf p a)
      (by simp [Point.enterSettling, Point.flowAfterStop, ha])]
    simp [Point.enterSettling, Point.flowAfterStop, Point.saleOf, FrozenSale.posting, ha, he]

/-! ## PFAILn -/

theorem State.setPfail_of_operating {s : State} (hop : s.operating = true) (high : Bool) :
    s.setPfail high = { s with
      pins := { s.pins with pfailn := high }, rcu := { s.rcu with mainPowerHigh := high } } := by
  have hop' : (s.modPins (fun n => { n with pfailn := high })).operating = true := hop
  rw [State.setPfail, State.whenOperating, if_pos hop']
  rfl

/-- Settles O28: the status is one of the conditions of an open valve. -/
theorem powerFailMovesOnlyTheStatus : Obligations.PowerFailMovesOnlyTheStatus := by
  unfold Obligations.PowerFailMovesOnlyTheStatus
  intro s hop
  have hfall : exec .pfailnFall s = .next (s.setPfail false) := rfl
  have hrise : exec .pfailnRise s = .next (s.setPfail true) := rfl
  have hopens : ∀ high p, (s.setPfail high).valveOpen p = (high && decide ((s.point p).st = .delivering)) := by
    intro high p
    rw [State.setPfail_of_operating hop]
    show (s.operating && high && decide ((s.point p).st = .delivering)) = _
    rw [hop, Bool.true_and]
  refine ⟨by rw [hfall, State.setPfail_of_operating hop], by rw [hrise, State.setPfail_of_operating hop],
    fun t p ht => ?_, fun t p ht => ?_⟩
  · rw [hfall] at ht
    cases ht
    simp [State.mv, State.sv, hopens]
  · rw [hrise] at ht
    cases ht
    have hslow : ((s.setPfail true).point p).slowDown = (s.point p).slowDown := by
      rw [State.setPfail_of_operating hop]
      rfl
    simp [State.mv, State.sv, hopens, hslow]

end Sys2Proof.Machine

/-! # Proofs: pulses (Chapter 2) -/

namespace Sys2Proof.Machine

/-! ## A change of the meter pins as an event -/

theorem exec_changeOfThePair {s : State} (hop : s.operating = true) (p : PointNo) (a b : Bool) :
    exec (.changeOfThePair p a b) s = .next ((s.pinsAt p a b).movePoint p
      (fun x => x.takeChange ((s.pinsAt p a b).rates x) ⟨a, b⟩)) := by
  have hop' : (s.setMeterPins p ⟨a, b⟩).operating = true := hop
  show Host.Outcome.next ((s.setMeterPins p ⟨a, b⟩).whenOperating _) = _
  rw [State.whenOperating, if_pos hop']
  rfl

theorem exec_changeOfThePair_of_not_operating {s : State} (hop : s.operating = false) (p : PointNo) (a b : Bool) :
    exec (.changeOfThePair p a b) s = .next (s.pinsAt p a b) := by
  have hop' : (s.setMeterPins p ⟨a, b⟩).operating = false := hop
  show Host.Outcome.next ((s.setMeterPins p ⟨a, b⟩).whenOperating _) = _
  simp only [State.whenOperating, hop', Bool.false_eq_true, if_false]
  rfl

/-- A change that leaves the point in the delivering set in which it stood (R49). -/
theorem exec_change_quiet {s : State} {p : PointNo} {a b : Bool} {y : Point} (hop : s.operating = true)
    (hy : (s.point p).takeChange (s.rates (s.point p)) ⟨a, b⟩ = y)
    (hquiet : (s.point p).delivers = none ∨ y.delivers = (s.point p).delivers) :
    exec (.changeOfThePair p a b) s = .next ((s.pinsAt p a b).setPoint p y) := by
  subst hy
  have hmove := (s.pinsAt p a b).movePoint_quiet p
    (fun x => x.takeChange ((s.pinsAt p a b).rates x) ⟨a, b⟩) hquiet
  rw [exec_changeOfThePair hop, hmove]
  rfl

/-- A change that takes the point out of its delivering set (R49). -/
theorem exec_change_left {s : State} {p : PointNo} {a b : Bool} {y : Point} {k : ProductNo}
    (hop : s.operating = true) (hy : (s.point p).takeChange (s.rates (s.point p)) ⟨a, b⟩ = y)
    (hset : (s.point p).delivers = some k) (hleft : y.delivers ≠ some k) :
    exec (.changeOfThePair p a b) s = .next (((s.pinsAt p a b).setPoint p y).reportLeft k) := by
  subst hy
  have hmove := (s.pinsAt p a b).movePoint_left p
    (fun x => x.takeChange ((s.pinsAt p a b).rates x) ⟨a, b⟩) k hset hleft
  rw [exec_changeOfThePair hop, hmove]
  rfl

/-- The pair is decoded, becomes the last phase state, and is then applied (R27). -/
theorem Point.takeChange_eq {x : Point} {d : PointDef} {old new : PhasePair} (hd : x.defn = some d)
    (hold : x.meter.lastPhase = some old) (hne : new ≠ old) (e : Rates) :
    x.takeChange e new = (x.sawPair new).applyChange e (decodeChange d.mode old new) := by
  unfold Point.takeChange
  split
  · next d' old' hd' hold' =>
    rw [hd] at hd'
    rw [hold] at hold'
    cases hd'
    cases hold'
    exact if_neg hne
  · next hno => exact absurd hold (hno d old hd)

theorem ChangeTaken.takeChange {s : State} {p : PointNo} {a b : Bool} {d : PointDef} {change : Change}
    (h : ChangeTaken s p a b d change) (e : Rates) :
    (s.point p).takeChange e ⟨a, b⟩ = ((s.point p).sawPair ⟨a, b⟩).applyChange e change := by
  obtain ⟨old, hold, hne, rfl⟩ := h.decoded
  exact Point.takeChange_eq h.defined hold hne e

/-! ## The decoding of a change -/

/-- Settles O29: the tables are read off the four levels, and a change that counts nothing applies nothing. -/
theorem pulseModesDecodeByTheirTables : Obligations.PulseModesDecodeByTheirTables := by
  unfold Obligations.PulseModesDecodeByTheirTables
  refine ⟨?_, fun s p a b d h => ?_, fun s p a b d h hd hp hs => ?_, fun s p a b hidle => ?_⟩
  · rintro ⟨oldA, oldB⟩ ⟨newA, newB⟩
    revert oldA oldB newA newB
    decide
  · exact exec_change_quiet h.operating (h.takeChange _) (.inr rfl)
  · refine exec_change_quiet h.operating ((h.takeChange _).trans ?_) (.inr rfl)
    have hno : ((s.point p).sawPair ⟨a, b⟩).st.counting = false := by
      show (s.point p).st.counting = false
      cases hst : (s.point p).st <;> simp_all [PtState.counting]
    simp [Point.applyChange, hno]
  · cases hop : s.operating with
    | false => exact exec_changeOfThePair_of_not_operating hop p a b
    | true =>
      have hsame : (s.point p).takeChange (s.rates (s.point p)) ⟨a, b⟩ = s.point p := by
        rcases hidle with h | h | h
        · simp [hop] at h
        · simp [Point.takeChange, h]
        · unfold Point.takeChange
          split
          · next hold =>
            rw [h] at hold
            cases hold
            exact if_pos rfl
          · rfl
      rw [exec_change_quiet hop hsame (.inr rfl)]
      simp [State.setPoint, State.point, State.pinsAt]

/-! ## A delivery goes on through every change -/

theorem Point.checkSlowDown_st (x : Point) : x.checkSlowDown.st = x.st := by
  obtain ⟨_, _, e⟩ := x.checkSlowDown_eq
  rw [e]

theorem Point.recount_st (x : Point) (e : Rates) (net : Nat) : (x.recount e net).st = x.st := by
  obtain ⟨_, he⟩ := Point.updateOverrun_eq { x with
    meter := { x.meter with net := net }, liveVolume := x.volumeAt e net
    liveMoney := x.moneyAt e (x.volumeAt e net) }
  exact (congrArg Point.st he).trans rfl

theorem Point.restartSettle_st (x : Point) : x.restartSettle.st = x.st := by
  unfold Point.restartSettle
  split <;> rfl

theorem Point.restartNoFlow_st (x : Point) : x.restartNoFlow.st = x.st := by
  unfold Point.restartNoFlow
  split <;> rfl

theorem Point.countReverse_st (x : Point) : x.countReverse.st = x.st := by
  obtain ⟨_, _, _, e⟩ := x.countReverse_eq
  rw [e]

theorem Point.compareMarks_counting {x : Point} (h : x.st.counting = true) :
    x.compareMarks.st.counting = true := by
  have hmarks : x.checkSlowDown.checkTarget.st.counting = true := by
    have hslow : x.checkSlowDown.st.counting = true := by rw [Point.checkSlowDown_st]; exact h
    unfold Point.checkTarget
    split
    · split
      · rfl
      · exact hslow
    · exact hslow
  unfold Point.compareMarks
  split <;> assumption

theorem Point.forwardPulse_counting {x : Point} (h : x.st.counting = true) (e : Rates) :
    (x.forwardPulse e).st.counting = true := by
  unfold Point.forwardPulse
  split
  · refine Point.compareMarks_counting ?_
    rw [Point.restartSettle_st, Point.restartNoFlow_st, Point.recount_st]
    exact h
  · unfold Point.discardPulse
    split
    · rfl
    · rfl
    · rw [Point.restartSettle_st]; exact h

theorem Point.reportFault_counting {x : Point} (h : x.st.counting = true) (k : FaultKind) :
    (x.reportFault k).st.counting = true ∧ (x.reportFault k).auth = x.auth := by
  unfold Point.reportFault
  cases hst : x.st <;> simp [hst, PtState.counting] at h ⊢ <;> simp [Point.enterStopping]

theorem Point.lowerNet_counting {x : Point} (h : x.st.counting = true) (e : Rates) :
    (x.lowerNet e).st.counting = true := by
  unfold Point.lowerNet
  split
  · refine Point.compareMarks_counting ?_
    rw [Point.recount_st]
    exact h
  · exact h

theorem Point.reversePulse_counting {x : Point} (h : x.st.counting = true) (e : Rates) :
    (x.reversePulse e).st.counting = true ∧ (x.reversePulse e).auth = x.auth := by
  have hlower : (x.countReverse.lowerNet e).restartSettle.st.counting = true := by
    rw [Point.restartSettle_st]
    refine Point.lowerNet_counting ?_ e
    rw [Point.countReverse_st]
    exact h
  have hrecords : (x.countReverse.lowerNet e).restartSettle.records = x.records := by
    rw [Point.restartSettle_records, Point.lowerNet_records, Point.countReverse_records]
  have hauth := congrArg Prod.snd hrecords
  unfold Point.reversePulse
  dsimp only
  split
  · obtain ⟨hst, hsame⟩ := Point.reportFault_counting hlower .reverse
    exact ⟨hst, hsame.trans hauth⟩
  · exact ⟨hlower, hauth⟩

theorem Point.phaseError_counting {x : Point} (h : x.st.counting = true) :
    x.phaseError.st.counting = true ∧ x.phaseError.auth = x.auth := by
  unfold Point.phaseError
  dsimp only
  split
  · exact Point.reportFault_counting (x := { x with meter := { x.meter with
      phaseErrors := min Config.count8Max (x.meter.phaseErrors + 1) } }) h .pulser
  · exact ⟨h, rfl⟩

/-- A change of the pins never takes a delivery out of its set (R28, R49). -/
theorem Point.applyChange_counting {x : Point} (h : x.st.counting = true) (e : Rates) (c : Change) :
    (x.applyChange e c).st.counting = true ∧ (x.applyChange e c).auth = x.auth := by
  cases c with
  | forward =>
    simp only [Point.applyChange, if_pos h]
    exact ⟨Point.forwardPulse_counting h e, congrArg Prod.snd (x.forwardPulse_records e)⟩
  | reverse =>
    simp only [Point.applyChange, if_pos h]
    exact Point.reversePulse_counting h e
  | phaseError =>
    simp only [Point.applyChange, if_pos h]
    exact Point.phaseError_counting h
  | neither => exact ⟨h, rfl⟩

theorem counting_of_delivery {st : PtState} (h : st = .delivering ∨ st = .paused ∨ st = .stopping) :
    st.counting = true := by
  rcases h with e | e | e <;> simp [e, PtState.counting]

/-- A change that finds a delivery in progress changes its point alone (R28, R49). -/
theorem exec_change_of_counting {s : State} {p : PointNo} {a b : Bool} {d : PointDef} {change : Change} {y : Point}
    (h : ChangeTaken s p a b d change) (hst : (s.point p).st.counting = true)
    (hy : ((s.point p).sawPair ⟨a, b⟩).applyChange (s.rates (s.point p)) change = y) :
    exec (.changeOfThePair p a b) s = .next ((s.pinsAt p a b).setPoint p y) := by
  have hst' : ((s.point p).sawPair ⟨a, b⟩).st.counting = true := hst
  obtain ⟨hcounting, hauth⟩ := Point.applyChange_counting hst' (s.rates (s.point p)) change
  rw [hy] at hcounting hauth
  exact exec_change_quiet h.operating ((h.takeChange _).trans hy) (.inr (Point.delivers_congr hst hcounting hauth))

/-! ## What a pulse counts -/

section
variable {x : Point} {q : AuthRecord} {d : PointDef}

/-- The live values and OVERRUN of a new net count (R42, R59, R69). -/
theorem Point.recount_eq (hauth : x.auth = some q) (hdefn : x.defn = some d) (e : Rates) (net : Nat) :
    x.recount e net = x.countedTo q d net (x.volumeAt e net) (x.moneyAt e (x.volumeAt e net)) := by
  unfold Point.recount Point.countedTo
  cases hpreset : q.preset <;>
    simp [Point.updateOverrun, Point.presetMarks, hauth, hdefn, hpreset]

theorem Point.restartSettle_eq (hdefn : x.defn = some d) : x.restartSettle = x.settleAgain d := by
  unfold Point.restartSettle Point.settleAgain
  cases hst : x.st <;> simp [Point.settleStart, hdefn]

theorem Point.restartNoFlow_eq (hdefn : x.defn = some d) : x.restartNoFlow = x.noFlowAgain d := by
  unfold Point.restartNoFlow Point.noFlowAgain
  cases hst : x.st <;> simp [Point.noFlowStart, hdefn]

theorem Point.volumeAt_eq (hdefn : x.defn = some d) (e : Rates) (net : Nat) :
    x.volumeAt e net = net * 1000 * 10 ^ e.vs / d.kFactor := by
  simp [Point.volumeAt, hdefn, liveVolumeOf]

end

/-- The rates of a delivery are the site's scales and its product's rounding digit (R59). -/
theorem Delivering.moneyAt {s : State} {p : PointNo} {q : AuthRecord} {r : Product} (h : Delivering s p q r)
    {x : Point} (hx : x.auth = some q) (volume : Nat) :
    x.moneyAt (s.rates (s.point p)) volume = s.chargeOf q r volume := by
  simp [Point.moneyAt, hx, State.rates, h.auth, h.product, State.chargeOf]

/-- Settles O30: a pulse whose values fit is counted, any other is discarded. -/
theorem forwardPulseCounts : Obligations.ForwardPulseCounts := by
  unfold Obligations.ForwardPulseCounts
  intro s p a b d q r h hdel x net volume money becomes
  have hst := counting_of_delivery hdel.state
  have hst' : x.st.counting = true := hst
  have hdefn : x.defn = some d := h.defined
  have hauth : x.auth = some q := hdel.auth
  have hvolume : x.volumeAt (s.rates (s.point p)) net = volume := Point.volumeAt_eq hdefn _ net
  have hmoney : x.moneyAt (s.rates (s.point p)) volume = money := hdel.moneyAt hauth volume
  have hfits : x.fitsLimit (s.rates (s.point p)) = true ↔ volume < 10 ^ 8 ∧ money < 10 ^ 8 := by
    rw [Point.fitsLimit]
    show (decide (x.volumeAt _ net < Config.liveLimit) &&
      decide (x.moneyAt _ (x.volumeAt _ net) < Config.liveLimit)) = true ↔ _
    rw [hvolume, hmoney, Bool.and_eq_true, decide_eq_true_eq, decide_eq_true_eq]
    rfl
  have hexec : ∀ y, x.forwardPulse (s.rates (s.point p)) = y → becomes y := fun y hy =>
    exec_change_of_counting h hst (by rw [← hy]; exact if_pos hst')
  refine ⟨fun hv hm => hexec _ ?_, fun hlimit => ⟨fun hne => hexec _ ?_, fun he => hexec _ ?_⟩⟩
  · have hrecount : x.recount (s.rates (s.point p)) net = x.countedTo q d net volume money := by
      rw [Point.recount_eq hauth hdefn, hvolume, hmoney]
    rw [Point.forwardPulse, if_pos (hfits.mpr ⟨hv, hm⟩)]
    show (x.recount _ net).restartNoFlow.restartSettle.compareMarks = _
    have hdefn' : ((x.countedTo q d net volume money).noFlowAgain d).defn = some d := by
      unfold Point.noFlowAgain
      split <;> exact hdefn
    rw [hrecount, Point.restartNoFlow_eq (x := x.countedTo q d net volume money) hdefn, Point.restartSettle_eq hdefn']
  all_goals
    have hno : ¬ x.fitsLimit (s.rates (s.point p)) = true := by
      rw [hfits]
      omega
    rw [Point.forwardPulse, if_neg hno, Point.discardPulse]
  · have hstate : x.st = .delivering ∨ x.st = .paused := by
      rcases hdel.state with e | e | e
      · exact .inl e
      · exact .inr e
      · exact absurd e hne
    rcases hstate with e | e <;> rw [e]
  · have he : x.st = .stopping := he
    rw [he]
    exact Point.restartSettle_eq hdefn

/-! ## Reverse pulses and phase errors -/

/-- The reverse count and the marks of its first pulse (R36). -/
theorem Point.countReverse_eq_marks (x : Point) : x.countReverse = { x with
    saleFlags := { x.saleFlags with reverseSeen := x.saleFlags.reverseSeen || decide (x.meter.reverse = 0) }
    flags := { x.flags with reverse := x.flags.reverse || decide (x.meter.reverse = 0) }
    meter := { x.meter with reverse := min 65535 (x.meter.reverse + 1) } } := by
  unfold Point.countReverse
  dsimp only
  split
  · next h => simp [h, Config.count16Max]
  · next h => simp [h, Config.count16Max]

theorem Point.compareMarks_meter (x : Point) : x.compareMarks.meter = x.meter := by
  have hmarks : x.checkSlowDown.checkTarget.meter = x.meter := by
    obtain ⟨_, _, e⟩ := x.checkSlowDown_eq
    unfold Point.checkTarget
    split
    · split
      · rw [e]
        rfl
      · rw [e]
    · rw [e]
  unfold Point.compareMarks
  split
  · exact hmarks
  · exact hmarks
  · rfl

theorem Point.settleAgain_meter (x : Point) (d : PointDef) : (x.settleAgain d).meter = x.meter := by
  unfold Point.settleAgain
  split <;> rfl

/-- A limit is passed by the pulse that takes the count from it, below the count's own bound (R36, R37). -/
theorem passedLimit_iff (limit before bound : Nat) :
    passedLimit (some limit) before (min bound (before + 1)) = true ↔ limit = before ∧ before < bound := by
  simp only [passedLimit, Option.some.injEq, Bool.and_eq_true, decide_eq_true_eq]
  omega

/-- Settles O31: the count, the net count with its values, the timer, and the limit, one after the other. -/
theorem reversePulsesAndPhaseErrorsCount : Obligations.ReversePulsesAndPhaseErrorsCount := by
  unfold Obligations.ReversePulsesAndPhaseErrorsCount
  refine ⟨?_, ?_⟩
  · intro s p a b d q r h hdel x first counted net volume lowered y
    have hst := counting_of_delivery hdel.state
    have hst' : x.st.counting = true := hst
    have hdefn : x.defn = some d := h.defined
    have hauth : counted.auth = some q := hdel.auth
    have hcount : x.countReverse = counted := x.countReverse_eq_marks
    have hvolume : counted.volumeAt (s.rates (s.point p)) net = volume := Point.volumeAt_eq (x := counted) hdefn _ net
    have hlower : counted.lowerNet (s.rates (s.point p)) = lowered := by
      have hnet : counted.meter.net = x.meter.net := rfl
      unfold Point.lowerNet
      by_cases hzero : x.meter.net = 0
      · rw [if_neg (by omega)]
        exact (if_pos hzero).symm
      · rw [if_pos (by omega), Point.recount_eq hauth hdefn]
        show Point.compareMarks (counted.countedTo q d net (counted.volumeAt _ net)
          (counted.moneyAt _ (counted.volumeAt _ net))) = _
        rw [hvolume, hdel.moneyAt hauth volume]
        exact (if_neg hzero).symm
    have hlowered : lowered.defn = some d := by
      have hrecords := congrArg Prod.fst (counted.lowerNet_records (s.rates (s.point p)))
      rw [hlower] at hrecords
      exact hrecords.trans hdefn
    have hmeter : y.meter.reverse = min 65535 (x.meter.reverse + 1) := by
      show ((lowered.settleAgain d).meter).reverse = _
      rw [Point.settleAgain_meter]
      show (if x.meter.net = 0 then counted else _).meter.reverse = _
      split
      · rfl
      · rw [Point.compareMarks_meter]
        rfl
    refine exec_change_of_counting h hst ?_
    show (if x.st.counting then x.reversePulse _ else _) = _
    rw [if_pos hst', Point.reversePulse, hcount, hlower, Point.restartSettle_eq hlowered]
    show (if passedLimit x.reverseLimit x.meter.reverse y.meter.reverse then y.reportFault .reverse else y) = _
    rw [hmeter, Point.reverseLimit, hdefn, Option.map_some]
    simp only [passedLimit_iff]
  · intro s p a b d h hstate x y
    have hst := counting_of_delivery hstate
    have hst' : x.st.counting = true := hst
    have hdefn : x.defn = some d := h.defined
    refine exec_change_of_counting h hst ?_
    show (if x.st.counting then x.phaseError else _) = _
    rw [if_pos hst', Point.phaseError]
    show (if passedLimit x.phaseLimit x.meter.phaseErrors (min 255 (x.meter.phaseErrors + 1)) then
      y.reportFault .pulser else y) = _
    rw [Point.phaseLimit, hdefn, Option.map_some]
    simp only [passedLimit_iff]

/-! ## Stray pulses -/

/-- A pulse outside a delivery, below the creep limit and at it (R39, R40). -/
theorem Point.strayPulse_eq {x : Point} {d : PointDef} (hdefn : x.defn = some d) : x.strayPulse =
    if d.creepLimit ≠ 0 ∧ d.creepLimit ≤ min 65535 (x.meter.creep + 1) then
      Point.reportFault { x with
        flags := { x.flags with creep := x.flags.creep || decide (x.meter.creep = 0) }
        meter := { x.meter with creep := min 65535 (x.meter.creep + 1) } } .creep
    else { x with
      flags := { x.flags with creep := x.flags.creep || decide (x.meter.creep = 0) }
      meter := { x.meter with creep := min 65535 (x.meter.creep + 1) } } := by
  simp only [Point.strayPulse, hdefn]
  rfl

/-- Settles O32: only a fault of an AUTHORIZED point takes it out of a delivering set. -/
theorem strayPulsesCountAsCreep : Obligations.StrayPulsesCountAsCreep := by
  unfold Obligations.StrayPulsesCountAsCreep
  intro s p a b d change h hchange hd hp hs x count y
  have hdefn : x.defn = some d := h.defined
  have hno : x.st.counting = false := by
    show (s.point p).st.counting = false
    cases hst : (s.point p).st <;> simp_all [PtState.counting]
  have hstray : ∀ z, x.strayPulse = z → (s.point p).takeChange (s.rates (s.point p)) ⟨a, b⟩ = z := by
    rintro z rfl
    rw [h.takeChange]
    show x.applyChange _ change = _
    rcases hchange with rfl | rfl <;> simp [Point.applyChange, hno]
  refine ⟨fun hbelow => ?_, fun hlimit hreached => ⟨fun hst => ?_, fun q hst hauth => ?_⟩⟩
  · refine exec_change_quiet h.operating (hstray _ ?_) (.inr rfl)
    rw [Point.strayPulse_eq hdefn, if_neg]
    rintro ⟨hne, hle⟩
    exact hbelow.elim hne (fun hlt => absurd hle (Nat.not_le.mpr hlt))
  · refine exec_change_quiet h.operating (hstray _ ?_) (.inl (Point.delivers_none hst hd hp hs))
    rw [Point.strayPulse_eq hdefn, if_pos ⟨hlimit, hreached⟩]
  · refine exec_change_left h.operating (hstray _ ?_) (Point.delivers_of (.inl hst) hauth) ?_
    · rw [Point.strayPulse_eq hdefn, if_pos ⟨hlimit, hreached⟩]
    · have hy : y.st = .authorized := hst
      simp [Point.reportFault, hy, Point.delivers, Point.dropTo]

end Sys2Proof.Machine

/-! # Proofs: the layouts of requests and replies (Chapter 11) -/

namespace Sys2Proof.Machine

/-! ## Fields of one byte -/

theorem byteOf_toNat {n : Nat} (h : n < 256) : (byteOf n).toNat = n := by
  rw [byteOf, BitVec.toNat_ofNat]
  exact Nat.mod_eq_of_lt h

theorem readFin_byteOf {n : Nat} (hn : n ≤ 256) (i : Fin n) (rest : List Byte) :
    readFin n (byteOf i.val :: rest) = some (i, rest) := by
  have hi : (byteOf i.val).toNat = i.val := byteOf_toNat (by omega)
  simp [readFin, hi]

theorem readPoint_byteOf (p : PointNo) (rest : List Byte) : readPoint (byteOf p.val :: rest) = some (p, rest) :=
  readFin_byteOf (by decide) p rest

theorem readProduct_byteOf (k : ProductNo) (rest : List Byte) :
    readProduct (byteOf k.val :: rest) = some (k, rest) := readFin_byteOf (by decide) k rest

theorem readReg_byteOf (r : RegNo) (rest : List Byte) : readReg (byteOf r.val :: rest) = some (r, rest) :=
  readFin_byteOf (by decide) r rest

theorem readRange_byteOf {lo hi n : Nat} (hlo : lo ≤ n) (hhi : n ≤ hi) (h : n < 256) (rest : List Byte) :
    readRange lo hi (byteOf n :: rest) = some (n, rest) := by
  rw [readRange, byteOf_toNat h, if_pos ⟨hlo, hhi⟩]

/-! ## Decimal value fields -/

/-- The last byte of a packed field is read last. -/
theorem readBcd_succ (n acc : Nat) (bs : List Byte) :
    readBcd (n + 1) acc bs = (readBcd n acc bs).bind (fun x => readBcd 1 x.1 x.2) := by
  induction n generalizing acc bs with
  | zero => rfl
  | succ n ih =>
    cases bs with
    | nil => rfl
    | cons b rest =>
      rw [readBcd, readBcd]
      split
      · exact ih _ rest
      · rfl

/-- A byte of packed BCD carries two digits. -/
theorem readBcd_digits (acc m : Nat) (rest : List Byte) :
    readBcd 1 acc (byteOf (m / 10 % 10 * 16 + m % 10) :: rest) =
      some (acc * 100 + m / 10 % 10 * 10 + m % 10, rest) := by
  rw [readBcd, byteOf_toNat (by omega)]
  have hhi : (m / 10 % 10 * 16 + m % 10) / 16 = m / 10 % 10 := by omega
  have hlo : (m / 10 % 10 * 16 + m % 10) % 16 = m % 10 := by omega
  rw [hhi, hlo, if_pos (by omega)]
  rfl

/-- Packed BCD reads back (R177). -/
theorem readBcd_bcdBytes (n acc m : Nat) (h : m < 100 ^ n) (rest : List Byte) :
    readBcd n acc (bcdBytes n m ++ rest) = some (acc * 100 ^ n + m, rest) := by
  induction n generalizing m rest with
  | zero =>
    have hm : m = 0 := by simpa using h
    simp [readBcd, bcdBytes, hm]
  | succ n ih =>
    have hm : m / 100 < 100 ^ n := by
      rw [pow_succ] at h
      exact Nat.div_lt_of_lt_mul (by omega)
    rw [bcdBytes, List.append_assoc, readBcd_succ, ih (m / 100) hm, Option.bind_some, List.cons_append,
      List.nil_append, readBcd_digits]
    have hvalue : (acc * 100 ^ n + m / 100) * 100 + m / 10 % 10 * 10 + m % 10 = acc * 100 ^ (n + 1) + m := by
      rw [pow_succ, ← Nat.mul_assoc]
      generalize acc * 100 ^ n = x
      omega
    rw [hvalue]

/-- A decimal value field reads back (R177, R178). -/
theorem readDecimal_decimalField (neg : Bool) {scale digits magnitude : Nat} (rest : List Byte) (hone : 1 ≤ digits)
    (htwenty : digits ≤ 20) (hsix : scale ≤ 6) (hscale : scale ≤ digits) (hfits : magnitude < 10 ^ digits) :
    readDecimal (decimalField neg scale digits magnitude ++ rest) = some (⟨neg, scale, digits, magnitude⟩, rest) := by
  have hhead : (byteOf ((if neg then 128 else 0) + scale * 16)).toNat = (if neg then 128 else 0) + scale * 16 :=
    byteOf_toNat (by split <;> omega)
  have hpacked : magnitude < 100 ^ ((digits + 1) / 2) := by
    have hten : (100 : Nat) ^ ((digits + 1) / 2) = 10 ^ (2 * ((digits + 1) / 2)) := by
      rw [pow_mul]
      norm_num
    rw [hten]
    exact hfits.trans_le (Nat.pow_le_pow_right (by decide) (by omega))
  have hread : ((if neg then 128 else 0) + scale * 16) / 16 % 8 = scale := by split <;> omega
  have hspare : ((if neg then 128 else 0) + scale * 16) % 16 = 0 := by split <;> omega
  have hsign : decide (128 ≤ (if neg then 128 else 0) + scale * 16) = neg := by
    cases neg
    · simp only [Bool.false_eq_true, if_false, decide_eq_false_iff_not]
      omega
    · simp
  simp only [decimalField, List.cons_append, readDecimal, hhead, byteOf_toNat (show digits < 256 by omega), hread,
    hspare, hsign, readBcd_bcdBytes _ _ _ hpacked, Nat.zero_mul, Nat.zero_add, Option.bind_eq_bind, Option.bind_some,
    if_pos hfits]
  rw [if_neg (by omega), if_neg (by omega)]
  rfl

/-- A decimal field of the form that its place calls for (R178). -/
theorem readUnsigned_decimalField {scale digits maxScale magnitude : Nat} (rest : List Byte) (hone : 1 ≤ digits)
    (htwenty : digits ≤ 20) (hmax : maxScale ≤ 6) (hscale : scale ≤ maxScale) (hdigits : scale ≤ digits)
    (hfits : magnitude < 10 ^ digits) :
    readUnsigned digits maxScale (decimalField false scale digits magnitude ++ rest) =
      some (⟨false, scale, digits, magnitude⟩, rest) := by
  simp only [readUnsigned, readDecimal_decimalField false rest hone htwenty (hscale.trans hmax) hdigits hfits,
    Option.bind_eq_bind, Option.bind_some]
  rw [if_pos (by simp [hscale])]
  rfl

/-! ## Tags and numbers -/

/-- A host tag reads back (R176, R179). -/
theorem readTag_bytes32 (tag : BitVec 32) (rest : List Byte) : readTag (bytes32 tag ++ rest) = some (tag, rest) := by
  have hjoin : tag.extractLsb' 24 8 ++ tag.extractLsb' 16 8 ++ tag.extractLsb' 8 8 ++ tag.extractLsb' 0 8 = tag := by
    rw [BitVec.extractLsb'_append_extractLsb'_eq_extractLsb' (start₂ := 24) (start₁ := 16) rfl,
      BitVec.extractLsb'_append_extractLsb'_eq_extractLsb' (start₂ := 16) (start₁ := 8) rfl,
      BitVec.extractLsb'_append_extractLsb'_eq_extractLsb' (start₂ := 8) (start₁ := 0) rfl]
    exact BitVec.extractLsb'_eq_self
  simp only [bytes32, List.cons_append, List.nil_append, readTag, hjoin]

theorem readNat16_bytes16 {n : Nat} (h : n ≤ 65535) : readNat16 (bytes16 n) = some (n, []) := by
  have hhigh : (byteOf (n / 256)).toNat = n / 256 := byteOf_toNat (by omega)
  have hlow : (byteOf n).toNat = n % 256 := by rw [byteOf, BitVec.toNat_ofNat]
  simp only [bytes16, readNat16, hhigh, hlow]
  rw [Nat.div_add_mod']

/-! ## Payloads -/

theorem readPresetKind_code (kind : PresetKind) (rest : List Byte) :
    readPresetKind (byteOf kind.code :: rest) = some (kind, rest) := by
  cases kind <;> rfl

/-- The preset of AUTHORIZE reads back. -/
theorem readPreset_fields (kind : PresetKind) {amount scale : Nat} (rest : List Byte) (hfits : amount < 10 ^ 8)
    (hscale : scale ≤ 3) : readPreset (byteOf kind.code :: (decimalField false scale 8 amount ++ rest)) =
      some (⟨kind, amount, scale⟩, rest) := by
  have hamount : readAmount (decimalField false scale 8 amount ++ rest) = some (⟨false, scale, 8, amount⟩, rest) :=
    readUnsigned_decimalField rest (by decide) (by decide) (by decide) hscale (by omega) hfits
  simp [readPreset, readPresetKind_code, hamount]

/-- The price of a product reads back. -/
theorem readPrice_field {price scale : Nat} (rest : List Byte) (hfits : price < 10 ^ 6) (hscale : scale ≤ 4) :
    readPrice (decimalField false scale 6 price ++ rest) = some (⟨false, scale, 6, price⟩, rest) :=
  readUnsigned_decimalField rest (by decide) (by decide) (by decide) hscale (by omega) hfits

theorem parseAuthorize_of_preset (p : PointNo) (k : ProductNo) (kind : PresetKind) {amount scale : Nat}
    (tag : BitVec 32) (hfits : amount < 10 ^ 8) (hscale : scale ≤ 3) :
    parseAuthorize ([byteOf p.val, byteOf k.val, 3, byteOf kind.code] ++ decimalField false scale 8 amount ++
      bytes32 tag) = some ⟨p, k, some ⟨kind, amount, scale⟩, some tag⟩ := by
  have hpresence : ∀ rest, readPresence 0xFC (3 :: rest) = some (3, rest) := fun _ => rfl
  have htag := readTag_bytes32 tag []
  rw [List.append_nil] at htag
  simp only [parseAuthorize, List.cons_append, List.nil_append, readPoint_byteOf, readProduct_byteOf, hpresence,
    Option.bind_eq_bind, Option.bind_some, readIf, show Nat.testBit 3 0 = true from rfl,
    show Nat.testBit 3 1 = true from rfl, if_true, readPreset_fields kind _ hfits hscale, Option.map_some, htag]
  rfl

theorem parseAuthorize_of_tag (p : PointNo) (k : ProductNo) (tag : BitVec 32) :
    parseAuthorize ([byteOf p.val, byteOf k.val, 2] ++ bytes32 tag) = some ⟨p, k, none, some tag⟩ := by
  have hpresence : ∀ rest, readPresence 0xFC (2 :: rest) = some (2, rest) := fun _ => rfl
  have htag := readTag_bytes32 tag []
  rw [List.append_nil] at htag
  simp only [parseAuthorize, List.cons_append, List.nil_append, readPoint_byteOf, readProduct_byteOf, hpresence,
    Option.bind_eq_bind, Option.bind_some, readIf, show Nat.testBit 2 0 = false from rfl,
    show Nat.testBit 2 1 = true from rfl, if_true, Bool.false_eq_true, if_false, Option.map_some, htag]
  rfl

theorem parseAuthorize_bare (p : PointNo) (k : ProductNo) :
    parseAuthorize [byteOf p.val, byteOf k.val, 0] = some ⟨p, k, none, none⟩ := by
  simp only [parseAuthorize, readPoint_byteOf, readProduct_byteOf, Option.bind_eq_bind, Option.bind_some]
  rfl

theorem parseSetPrice_fields (k : ProductNo) {price scale : Nat} (hfits : price < 10 ^ 6) (hscale : scale ≤ 4) :
    parseSetPrice (byteOf k.val :: decimalField false scale 6 price) = some ⟨k, ⟨false, scale, 6, price⟩⟩ := by
  have hprice := readPrice_field [] hfits hscale
  rw [List.append_nil] at hprice
  simp only [parseSetPrice, readProduct_byteOf, Option.bind_eq_bind, Option.bind_some, hprice]
  rfl

theorem parseSetProduct_fields (k : ProductNo) {priceScale rounding price scale : Nat} (hpriceScale : priceScale ≤ 4)
    (hrounding : rounding ≤ 9) (hfits : price < 10 ^ 6) (hscale : scale ≤ 4) :
    parseSetProduct ([byteOf k.val, byteOf priceScale, byteOf rounding] ++ decimalField false scale 6 price) =
      some ⟨k, priceScale, rounding, ⟨false, scale, 6, price⟩⟩ := by
  have hprice := readPrice_field [] hfits hscale
  rw [List.append_nil] at hprice
  simp only [parseSetProduct, List.cons_append, List.nil_append, readProduct_byteOf, Option.bind_eq_bind,
    Option.bind_some, readRounding, readRange_byteOf (Nat.zero_le _) hpriceScale (by omega),
    readRange_byteOf (Nat.zero_le _) hrounding (by omega), hprice]
  rfl

theorem parseLoad_fields (d : RegNo) (neg : Bool) {scale digits magnitude rounding : Nat} (hone : 1 ≤ digits)
    (htwenty : digits ≤ 20) (hsix : scale ≤ 6) (hscale : scale ≤ digits) (hfits : magnitude < 10 ^ digits)
    (hrounding : rounding ≤ 9) :
    parseLoad (byteOf d.val :: decimalField neg scale digits magnitude ++ [1, byteOf rounding]) =
      some (.load d (if neg then -(magnitude : Int) else magnitude) scale (some rounding)) := by
  have hpresence : ∀ rest, readPresence 0xFE (1 :: rest) = some (1, rest) := fun _ => rfl
  simp only [parseLoad, List.cons_append, readReg_byteOf, Option.bind_eq_bind, Option.bind_some,
    readDecimal_decimalField neg [1, byteOf rounding] hone htwenty hsix hscale hfits, readEffectiveRounding,
    hpresence, readIf, show Nat.testBit 1 0 = true from rfl, if_true, readRounding,
    readRange_byteOf (Nat.zero_le _) hrounding (by omega), Option.map_some]
  rfl

theorem parseArith_divide (d s1 s2 : RegNo) :
    parseArith .divide [byteOf d.val, byteOf s1.val, byteOf s2.val, 0] = some (.divide d s1 s2 none) := by
  simp only [parseArith, readReg_byteOf, Option.bind_eq_bind, Option.bind_some]
  rfl

theorem parseClearSale_bytes16 {n : Nat} (hone : 1 ≤ n) (h : n ≤ 65535) : parseClearSale (bytes16 n) = some n := by
  simp only [parseClearSale, readNat16_bytes16 h, Option.bind_eq_bind, Option.bind_some]
  show (if n = 0 then none else some n) = some n
  rw [if_neg (by omega)]

/-- Settles O36: each field reads back and leaves the rest of the payload to the next. -/
theorem payloadsReadBack : Obligations.PayloadsReadBack := by
  unfold Obligations.PayloadsReadBack
  exact ⟨fun neg scale digits magnitude rest => readDecimal_decimalField neg rest,
    fun p k kind amount scale tag hfits hscale => ⟨parseAuthorize_of_preset p k kind tag hfits hscale,
      parseAuthorize_of_tag p k tag, parseAuthorize_bare p k⟩,
    fun k priceScale rounding price scale hpriceScale hrounding hfits hscale =>
      ⟨parseSetProduct_fields k hpriceScale hrounding hfits hscale, parseSetPrice_fields k hfits hscale⟩,
    fun d s1 s2 neg scale digits magnitude rounding hone htwenty hsix hscale hfits hrounding =>
      ⟨parseLoad_fields d neg hone htwenty hsix hscale hfits hrounding, parseArith_divide d s1 s2⟩,
    fun n => parseClearSale_bytes16⟩

/-! ## SET PRODUCT and SET PRICE -/

theorem exec_setProduct {s : State} {payload : List Byte} {q : SetProductReq} (h : s.takes payload)
    (hq : parseSetProduct payload = some q) :
    exec (.setProduct payload) s = .next (setProductRequest q (s.awaiting Kind.setProduct payload)) :=
  request_owner h hq

theorem exec_setPrice {s : State} {payload : List Byte} {q : SetPriceReq} (h : s.takes payload)
    (hq : parseSetPrice payload = some q) :
    exec (.setPrice payload) s = .next (setPriceRequest q (s.awaiting Kind.setPrice payload)) :=
  request_owner h hq

/-- A point stands in a holding set by its state and its authorization (R49). -/
theorem Point.holding_iff (x : Point) (k : ProductNo) :
    x.holding = some k ↔ x.st.holdsAuth = true ∧ ∃ a, x.auth = some a ∧ a.product = k := by
  unfold Point.holding
  cases x.st <;> simp [PtState.holdsAuth]

theorem State.holdingEmpty_false_iff (s : State) (k : ProductNo) : s.holdingEmpty k = false ↔
    ∃ p a, (s.point p).st.holdsAuth = true ∧ (s.point p).auth = some a ∧ a.product = k := by
  rw [← Bool.not_eq_true, s.holdingEmpty_iff k]
  push Not
  simp only [Point.holding_iff, exists_and_left]

/-- A report that activates nothing (R55). -/
theorem State.activate_of_not_staged {s : State} {k : ProductNo} (h : s.isStaged k = false) : s.activate k = s := by
  unfold State.isStaged at h
  unfold State.activate
  split
  · next r hr =>
    rw [hr] at h
    have hnone : r.staged = none := by simpa using h
    rw [hnone]
  · rfl

/-- Settles O37: the checks of the two requests, and a report to the Product Table. -/
theorem pricesSetStageAndActivate : Obligations.PricesSetStageAndActivate := by
  unfold Obligations.PricesSetStageAndActivate
  refine ⟨fun s payload q htakes hparse => ?_, fun s payload q htakes hparse => ?_, fun s k => ?_⟩
  · rw [exec_setProduct htakes hparse]
    intro held
    have hheld : held ↔ s.holdingEmpty q.product = false := (s.holdingEmpty_false_iff q.product).symm
    refine ⟨fun h => ?_, fun h hscale => ?_, fun h hscale => ?_⟩
    · simp [setProductRequest, hheld.mp h]
    · have hempty : s.holdingEmpty q.product = true := by simpa [hheld] using h
      simp [setProductRequest, hempty, hscale]
    · have hempty : s.holdingEmpty q.product = true := by simpa [hheld] using h
      simp only [setProductRequest, State.awaiting_holdingEmpty, hempty, hscale, Bool.true_eq_false, if_false, ne_eq,
        not_true, State.awaiting_setProduct, State.awaiting_ok, productBytes, optionalBytes, unsignedField,
        List.append_nil]
      rfl
  · rw [exec_setPrice htakes hparse]
    refine ⟨fun hnone => by simp [setPriceRequest, hnone], fun r hr => ⟨fun hscale => ?_, fun hscale hempty => ?_,
      fun hscale hset => ?_⟩⟩
    · simp [setPriceRequest, hr, hscale]
    · have hempty := (s.deliveringEmpty_iff q.product).mpr hempty
      simp [setPriceRequest, hr, hscale, hempty, setPriceReply, productBytes, optionalBytes, unsignedField,
        byteOfBool]
      rfl
    · have hfull : s.deliveringEmpty q.product = false := by
        rw [← Bool.not_eq_true, s.deliveringEmpty_iff]
        push Not
        exact hset
      simp [setPriceRequest, hr, hscale, hfull, setPriceReply, productBytes, optionalBytes, unsignedField,
        byteOfBool]
      rfl
  · refine ⟨fun hset => ?_, fun hunstaged => ?_, fun r price hempty hr hstaged => ?_⟩
    · have hfull : s.deliveringEmpty k = false := by
        rw [← Bool.not_eq_true, s.deliveringEmpty_iff]
        push Not
        exact hset
      simp [State.reportLeft, hfull]
    · rw [State.reportLeft, State.activate_of_not_staged hunstaged, ite_self]
    · have hempty := (s.deliveringEmpty_iff k).mpr hempty
      have hisStaged : s.isStaged k = true := by simp [State.isStaged, hr, hstaged]
      have hreport : s.reportLeft k = s.activate k := by simp [State.reportLeft, hempty]
      have hactive : (s.activate k).link.flags.priceActive = true := by
        rw [State.activate_priceActive, hisStaged, Bool.or_true]
      refine ⟨s.activate k, hreport, ?_, fun l hl => ?_, hactive, fun l => ?_, ?_⟩
      · rw [State.activate_product, if_pos rfl, hr]
        simp [Product.withStaged, hstaged]
      · rw [State.activate_product, if_neg hl]
      · rw [State.activate_activated, hisStaged, Bool.and_true]
      · have hflags := s.activate_flags k
        rw [hactive] at hflags
        conv_lhs => rw [State.activate_rest, hflags]

/-! ## COLLECT SALE -/

theorem exec_collectSale {s : State} {payload : List Byte} {named : Option PointNo} (h : s.takes payload)
    (hq : parseCollectSale payload = some named) :
    exec (.collectSale payload) s = .next (collectSaleRequest named (s.awaiting Kind.collectSale payload)) :=
  request_owner h hq

/-- The oldest record, or the oldest of the named point (R139). -/
theorem SaleQueue.oldest_of_records {q : SaleQueue} {named : Option PointNo} {before behind : List SaleRecord}
    {r : SaleRecord} (hrecords : q.records = before ++ r :: behind)
    (hbefore : ∀ e, e ∈ before → ∃ p, named = some p ∧ e.sale.point ≠ p)
    (hr : ∀ p, named = some p → r.sale.point = p) : q.oldest named = some r := by
  cases named with
  | none =>
    have hnil : before = [] := List.eq_nil_iff_forall_not_mem.mpr fun e he => by
      obtain ⟨p, hp, -⟩ := hbefore e he
      cases hp
    simp [SaleQueue.oldest, hrecords, hnil]
  | some p =>
    have hothers : before.find? (fun e => decide (e.sale.point = p)) = none := by
      rw [List.find?_eq_none]
      intro e he
      obtain ⟨_, hp, hne⟩ := hbefore e he
      cases hp
      simpa using hne
    simp [SaleQueue.oldest, hrecords, List.find?_append, hothers, hr p rfl]

theorem SaleQueue.oldest_none {q : SaleQueue} {named : Option PointNo}
    (h : ∀ e, e ∈ q.records → ∃ p, named = some p ∧ e.sale.point ≠ p) : q.oldest named = none := by
  cases named with
  | none =>
    have hnil : q.records = [] := List.eq_nil_iff_forall_not_mem.mpr fun e he => by
      obtain ⟨p, hp, -⟩ := h e he
      cases hp
    simp [SaleQueue.oldest, hnil]
  | some p =>
    rw [SaleQueue.oldest, List.find?_eq_none]
    intro e he
    obtain ⟨_, hp, hne⟩ := h e he
    cases hp
    simpa using hne

theorem maskOf_two (a b : Bool) : maskOf [a, b] = (if a then 1 else 0) + (if b then 2 else 0) := by
  cases a <;> cases b <;> rfl

/-- Settles O38: the record found is laid out, and nothing else moves. -/
theorem collectSaleCopiesTheOldest : Obligations.CollectSaleCopiesTheOldest := by
  unfold Obligations.CollectSaleCopiesTheOldest
  intro s payload named htakes hparse
  rw [exec_collectSale htakes hparse]
  refine ⟨fun before r behind hrecords hbefore hr => ?_, fun hnone => ?_⟩
  · have holdest := SaleQueue.oldest_of_records hrecords hbefore hr
    have hpreset := funext (presetBytes_eq s.tally.vs s.tally.ms)
    simp only [collectSaleRequest, State.awaiting_sales, holdest, State.awaiting_ok, State.awaiting_tally, saleBytes,
      maskOf_two, hpreset, unsignedField, bytes16, List.append_assoc, List.cons_append, List.nil_append]
  · have holdest := SaleQueue.oldest_none hnone
    simp only [collectSaleRequest, State.awaiting_sales, holdest, State.awaiting_refuse]

end Sys2Proof.Machine

/-! # Proofs: the decimal unit takes, refuses and chooses its work (Chapters 5 and 7) -/

namespace Sys2Proof.Machine

/-! ## Acceptance -/

/-- A decimal-unit request that is taken comes to the unit (R79, R156). -/
theorem exec_jobRow {c : Instr} {kind : Byte} {payload : List Byte} {req : JobReq} {s : State}
    (hrow : c.request? = some (kind, payload)) (hjob : c.jobReq? = some req) (h : s.takes payload) :
    exec c s = .next (jobRequest kind req (s.awaiting kind payload)) := by
  cases c <;> cases hrow
  case setSite | declare | load | move | add | subtract | multiply | divide | rescale | compare | sumList
      | readRegister | hold | releaseHold => exact request_owner h hjob
  all_goals cases hjob

theorem isTotal_eq_true_iff (r : RegNo) : isTotal r = true ↔ r.val < 8 := by simp [isTotal]

theorem isTotal_or_isShift_iff (r : RegNo) : (isTotal r || isShift r) = true ↔ r.val < 20 := by
  simp only [isTotal, isShift, Bool.or_eq_true, Bool.and_eq_true, decide_eq_true_eq]
  omega

/-- The check of SET SITE's scale part (R87). -/
theorem State.siteIdle_iff (s : State) : s.siteIdle = true ↔ (∀ p, (s.point p).st = .undefined) ∧
    (∀ r : RegNo, r.val < 20 → (s.reg r).value = 0) ∧ s.sales.records = [] := by
  have hregs : ∀ r : RegNo, (20 ≤ r.val ∨ (s.reg r).value = 0) ↔ (r.val < 20 → (s.reg r).value = 0) :=
    fun r => by omega
  have hpoints : ∀ p, p ∈ allPoints := by decide
  simp only [State.siteIdle, allRegs, Bool.and_eq_true, List.all_eq_true, hpoints, List.mem_finRange, true_imp_iff,
    Bool.or_eq_true, decide_eq_true_eq, hregs, List.isEmpty_iff, and_assoc]

theorem jobRequest_of_refused {kind : Byte} {req : JobReq} {s : State} {e : Status}
    (h : jobRefusal req s = some e) : jobRequest kind req s = s.refuse e kind := by rw [jobRequest, h]

theorem jobRequest_of_accepted {kind : Byte} {req : JobReq} {s : State} (h : jobRefusal req s = none) :
    jobRequest kind req s = s.acceptJob req := by rw [jobRequest, h]

/-- An admitted request fails none of the unit's own checks (R80, R86, R87, R92). -/
theorem jobRefusal_of_admitted {req : JobReq} {s : State} (h : req.admitted s) : jobRefusal req s = none := by
  unfold jobRefusal
  split
  · next r digits scale _ =>
    obtain ⟨hr, hscale, hheld⟩ := h
    rw [if_neg (by rw [isTotal_or_isShift_iff]; omega), if_neg (by omega), if_neg hheld]
  · rw [if_pos (s.siteIdle_iff.2 h)]
  · next hdeclare hsite =>
    have hdest : ∀ d, req.destination = some d → 8 ≤ d.val := by
      cases req with
      | declare r digits scale rounding => exact absurd rfl (hdeclare r digits scale rounding)
      | setSite scales gc =>
        cases scales with
        | none => exact h
        | some v => exact absurd rfl (hsite v gc)
      | _ => exact h
    split
    · next d hd =>
      have := hdest d hd
      rw [if_neg (by rw [isTotal_eq_true_iff]; omega)]
    · rfl

/-! ## Operand sets -/

theorem mem_distinct (r : RegNo) (rs : List RegNo) : r ∈ distinct rs ↔ r ∈ rs := by
  induction rs with
  | nil => rfl
  | cons a rest ih =>
    unfold distinct
    split
    · next ha =>
      rw [ih, List.mem_cons]
      exact ⟨.inr, fun h => h.elim (fun e => e ▸ ha) id⟩
    · rw [List.mem_cons, List.mem_cons, ih]

theorem distinct_nodup (rs : List RegNo) : (distinct rs).Nodup := by
  induction rs with
  | nil => exact List.nodup_nil
  | cons a rest ih =>
    unfold distinct
    split
    · exact ih
    · next ha => exact List.nodup_cons.2 ⟨by rwa [mem_distinct], ih⟩

theorem JobReq.operands_nodup (req : JobReq) : req.operands.Nodup := by
  unfold JobReq.operands
  cases req with
  | setSite | hold | releaseHold => exact List.nodup_nil
  | declare | load | readRegister => exact List.nodup_singleton _
  | _ => exact distinct_nodup _

/-- Settles O40: an admitted request passes the unit's checks, and its operand set holds its destination and
sources each once. -/
theorem acceptedRequestBecomesTheHostJob : Obligations.AcceptedRequestBecomesTheHostJob := by
  unfold Obligations.AcceptedRequestBecomesTheHostJob
  refine ⟨fun c kind payload req s hrow hjob h hadm => ?_, JobReq.operands_nodup, ?_⟩
  · rw [exec_jobRow hrow hjob h, jobRequest_of_accepted (s := s.awaiting kind payload) (jobRefusal_of_admitted hadm)]
    rfl
  · simp [JobReq.operands, mem_distinct]

/-! ## Refusal -/

/-- A request that the unit refuses is answered with the status of the check (R80, R156). -/
theorem exec_jobRow_refused {c : Instr} {kind : Byte} {payload : List Byte} {req : JobReq} {s : State} {e : Status}
    (hrow : c.request? = some (kind, payload)) (hjob : c.jobReq? = some req) (h : s.takes payload)
    (he : jobRefusal req s = some e) : exec c s = .next (s.answeredTo payload.length e kind []) := by
  rw [exec_jobRow hrow hjob h, jobRequest_of_refused (s := s.awaiting kind payload) he]
  rfl

theorem jobRefusal_declare (r : RegNo) (digits scale rounding : Nat) (s : State) :
    jobRefusal (.declare r digits scale rounding) s =
      if r.val < 20 then some .protectedReg else if digits < scale then some .badField
      else if r ∈ s.dcu.held then some .held else none := by
  simp only [jobRefusal, isTotal_or_isShift_iff]

/-- No TOTAL register is a destination (R80). -/
theorem jobRefusal_total {req : JobReq} {d : RegNo} (s : State) (hd : req.destination = some d) (h : d.val < 8) :
    jobRefusal req s = some .protectedReg := by
  have ht := (isTotal_eq_true_iff d).2 h
  cases req <;> cases hd <;> exact if_pos ht

/-- Settles O41: the checks of a request, in their order. -/
theorem unitRefusesByItsChecks : Obligations.UnitRefusesByItsChecks := by
  unfold Obligations.UnitRefusesByItsChecks
  intro c kind payload req s hrow hjob h refused
  have hrefused : ∀ e, jobRefusal req s = some e → refused e := fun e => exec_jobRow_refused hrow hjob h
  refine ⟨?_, fun d hd hlt => hrefused _ (jobRefusal_total s hd hlt), ?_⟩
  · rintro r digits scale rounding rfl
    have hcheck := jobRefusal_declare r digits scale rounding s
    split
    · next hr => exact hrefused _ (hcheck.trans (if_pos hr))
    · next hr =>
      rw [if_neg hr] at hcheck
      split
      · next hscale => exact hrefused _ (hcheck.trans (if_pos hscale))
      · next hscale =>
        rw [if_neg hscale] at hcheck
        exact fun hheld => hrefused _ (hcheck.trans (if_pos hheld))
  · rintro scales gc rfl hbusy
    refine hrefused _ (if_neg ?_)
    rw [State.siteIdle_iff]
    rintro ⟨hpoints, hregs, hsales⟩
    rcases hbusy with ⟨p, hp⟩ | ⟨r, hr, hv⟩ | hq
    · exact hp (hpoints p)
    · exact hv (hregs r hr)
    · exact hq hsales

/-! ## The choice -/

theorem Dcu.mem_operandSet (d : Dcu) (r : RegNo) : r ∈ d.operandSet ↔ ∃ j, d.job = some j ∧ r ∈ j.operandSet := by
  unfold Dcu.operandSet
  cases d.job with
  | none => simp
  | some j => simp

theorem Dcu.eligible_iff (d : Dcu) (q : Posting) : d.eligible q = true ↔
    q.taken = false ∧ ∀ r, r ∈ q.targets → r ∉ d.held ∧ ∀ j, d.job = some j → r ∉ j.operandSet := by
  simp only [Dcu.eligible, Bool.and_eq_true, Bool.not_eq_true', List.all_eq_true, decide_eq_true_eq,
    Dcu.mem_operandSet, not_exists, not_and]

theorem State.choose_eq_chooseFree {s : State} (hr : s.rcu.running = true) (hu : s.dcu.unit = .free) :
    s.choose = s.chooseFree := by simp [State.choose, hr, hu]

/-- The mark falls on the one posting of its point (R116). -/
theorem markTaken_split {before behind : List Posting} {q : Posting}
    (h : ((before ++ q :: behind).map (·.point)).Nodup) :
    markTaken q.point (before ++ q :: behind) = before ++ { q with taken := true } :: behind := by
  have hkeep : ∀ l : List Posting, (∀ e, e ∈ l → e.point ≠ q.point) → markTaken q.point l = l := fun l hl =>
    (List.map_congr_left fun e he => if_neg (hl e he)).trans (List.map_id l)
  rw [List.map_append, List.map_cons, List.nodup_append, List.nodup_cons] at h
  obtain ⟨-, ⟨hbehind, -⟩, hbefore⟩ := h
  unfold markTaken
  rw [List.map_append, List.map_cons, if_pos rfl]
  congr 1
  · exact hkeep before fun e he => hbefore _ (List.mem_map_of_mem he) _ List.mem_cons_self
  · congr 1
    exact hkeep behind fun e he heq => hbehind (heq ▸ List.mem_map_of_mem (f := (·.point)) he)

/-- A unit in FREE takes the oldest eligible posting (R118). -/
theorem State.choose_oldest {s : State} (hr : s.rcu.running = true) (hu : s.dcu.unit = .free)
    {before behind : List Posting} {q : Posting} (hqueue : s.dcu.postings = before ++ q :: behind)
    (hapart : (s.dcu.postings.map (·.point)).Nodup) (hbefore : ∀ e, e ∈ before → s.dcu.eligible e = false)
    (hq : s.dcu.eligible q = true) : s.choose = { s with dcu := { s.dcu with
      unit := .posting, postings := before ++ { q with taken := true } :: behind } } := by
  have hfind : s.dcu.postings.find? s.dcu.eligible = some q := by
    rw [hqueue, List.find?_append, List.find?_cons_of_pos hq,
      List.find?_eq_none.2 fun e he => by simp [hbefore e he]]
    rfl
  rw [s.choose_eq_chooseFree hr hu, State.chooseFree, hfind]
  rw [hqueue] at hapart
  simp only [State.modDcu, hqueue, markTaken_split hapart]

/-- With no posting eligible, a unit in FREE turns to the host job (R118). -/
theorem State.choose_of_no_eligible {s : State} (hr : s.rcu.running = true) (hu : s.dcu.unit = .free)
    (h : ∀ q, q ∈ s.dcu.postings → s.dcu.eligible q = false) :
    s.choose = s.dcu.job.elim s s.takeJob := by
  have hfind : s.dcu.postings.find? s.dcu.eligible = none := List.find?_eq_none.2 fun e he => by simp [h e he]
  simp only [s.choose_eq_chooseFree hr hu, State.chooseFree, hfind]
  cases s.dcu.job with
  | none => rfl
  | some j => rfl

/-- Settles O42: the queue first, then the job in its phase. -/
theorem unitTakesOldestEligibleElseHostJob : Obligations.UnitTakesOldestEligibleElseHostJob := by
  unfold Obligations.UnitTakesOldestEligibleElseHostJob
  refine ⟨fun s q => s.dcu.eligible_iff q, fun s h => ?_, fun s hr hu => ⟨?_, fun h => ?_⟩⟩
  · unfold State.choose
    rcases h with h | h
    · simp [h]
    · simp [h]
  · intro before q behind hqueue hapart hbefore hq
    exact State.choose_oldest hr hu hqueue hapart hbefore hq
  · rw [State.choose_of_no_eligible hr hu h]
    refine ⟨fun j hj hphase => ?_, fun j values hj hphase hcontext => ?_, fun hj => ?_⟩
    · simp only [hj, Option.elim_some, State.takeJob, hphase]
      rfl
    · simp only [hj, Option.elim_some, State.takeJob, hphase, State.modDcu, hcontext, Option.getD_some]
    · rw [hj]
      rfl

end Sys2Proof.Machine

/-! # Proofs: the completion, the suspension and the hold of host jobs (Chapters 6 and 7) -/

namespace Sys2Proof.Machine

theorem State.whenOperating_of_operating {s : State} (h : s.operating = true) (f : State → State) :
    s.whenOperating f = f s := if_pos h

/-! ## The job at work -/

theorem Working.activeJob {s : State} {j : HostJob} (h : Working s j) : s.activeJob = some j := by
  unfold State.activeJob
  rw [h.unit, h.job]
  exact if_pos h.active

/-- An operand value is what its register holds (R93). -/
theorem Working.operand {s : State} {j : HostJob} (h : Working s j) : s.operand j = s.reg := by
  funext r
  unfold State.operand
  split
  · next o ho =>
    have hmem := List.mem_of_find?_eq_some ho
    have hreg := List.find?_some ho
    rw [h.values] at hmem
    obtain ⟨r', -, rfl⟩ := List.mem_map.1 hmem
    exact congrArg s.reg (of_decide_eq_true hreg)
  · rfl

theorem Working.exec_completion {s : State} {j : HostJob} (h : Working s j) :
    exec .hostJobCompletion s = .next (s.completeJob j) := by
  show Host.Outcome.next (s.whenOperating _) = _
  rw [State.whenOperating_of_operating h.operating, h.activeJob]

/-- The job at work completes with this reply over this state. -/
theorem Working.completes {s t : State} {j : HostJob} (h : Working s j) {kind : Byte} {reply : List Byte}
    (he : s.applyJob j = t.ok kind reply) :
    exec .hostJobCompletion s = .next ((t.completedWith kind reply).endStretch).choose := by
  rw [h.exec_completion, State.completeJob, he]
  rfl

theorem Working.completes_finishStore {s : State} {j : HostJob} (h : Working s j) {kind : Byte} {d : RegNo}
    {result : Int × ResultFlags} (he : s.applyJob j = s.finishStore kind j d result) :
    exec .hostJobCompletion s =
      .next (((s.setReg d { s.reg d with value := result.1 }).completedWith kind
        ([byteOf result.2.mask, byteOf j.suspensions] ++
          decimalField (decide (result.1 < 0)) (s.reg d).scale (s.reg d).digits
            result.1.natAbs)).endStretch).choose :=
  h.completes he

/-- A job that stores an exact result takes it from the registers (R93, R94). -/
theorem Working.applyJob_exact {s : State} {j : HostJob} (h : Working s j) {kind : Byte} {d : RegNo} {x : Exact}
    {rounding : Option Nat} (he : j.req.exact? s.reg = some (kind, d, x, rounding)) :
    s.applyJob j = s.storeExact kind j d x rounding := by
  unfold State.applyJob
  rw [h.operand]
  cases hreq : j.req <;> rw [hreq] at he <;> cases he <;> rfl

theorem decide_sign_ne (a b : Int) : (decide (a < 0) != decide (b < 0)) = decide (a < 0 ↔ ¬ b < 0) := by
  by_cases ha : a < 0 <;> by_cases hb : b < 0 <;> simp [ha, hb]

/-- Settles O43: the result goes through the storing step, and the quotient through its own. -/
theorem completionStoresTheResult : Obligations.CompletionStoresTheResult := by
  unfold Obligations.CompletionStoresTheResult
  intro s j h stores
  refine ⟨fun kind d x rounding he => h.completes_finishStore (h.applyJob_exact he), ?_⟩
  intro d s1 s2 rounding hreq hne
  refine h.completes_finishStore ?_
  unfold State.applyJob
  rw [h.operand]
  simp only [hreq, if_neg hne, divideStep, decide_sign_ne, effectiveRounding]

theorem maskOf_five (a b c d e : Bool) : maskOf [a, b, c, d, e] = (if a then 1 else 0) + (if b then 2 else 0) +
    (if c then 4 else 0) + (if d then 8 else 0) + (if e then 16 else 0) := by
  simp only [maskOf, mul_add, mul_ite, mul_zero, Nat.reduceMul, add_zero, add_assoc]

/-- Settles O44: the division by zero writes no register. -/
theorem divideByZeroLeavesTheDestination : Obligations.DivideByZeroLeavesTheDestination := by
  unfold Obligations.DivideByZeroLeavesTheDestination
  intro s j d s1 s2 rounding h hreq hzero
  refine h.completes ?_
  unfold State.applyJob
  rw [h.operand]
  simp only [hreq, if_pos hzero, State.divideByZero, resultBytes, valueField, ResultFlags.mask, maskOf_five,
    ResultFlags.describe]
  simp

/-! ## Compare -/

theorem TallyReg.rat_eq_aligned (x : TallyReg) {w : Nat} (h : x.scale ≤ w) :
    x.rat = (alignTo x.value x.scale w : ℚ) / 10 ^ w := (alignTo_rat x.value h).symm

theorem aligned_lt_iff {x y : TallyReg} :
    alignTo x.value x.scale (max x.scale y.scale) < alignTo y.value y.scale (max x.scale y.scale) ↔ x.rat < y.rat := by
  rw [x.rat_eq_aligned (le_max_left _ y.scale), y.rat_eq_aligned (le_max_right x.scale _),
    div_lt_div_iff_of_pos_right (by positivity), Int.cast_lt]

theorem aligned_eq_iff {x y : TallyReg} :
    alignTo x.value x.scale (max x.scale y.scale) = alignTo y.value y.scale (max x.scale y.scale) ↔ x.rat = y.rat := by
  rw [x.rat_eq_aligned (le_max_left _ y.scale), y.rat_eq_aligned (le_max_right x.scale _),
    div_left_inj' (by positivity), Int.cast_inj]

/-- COMPARE's flags are the order of the two numbers (R106). -/
theorem compareFlags_mask (x y : TallyReg) : byteOf (compareFlags x y).mask =
    if x.rat < y.rat then 1 else if x.rat = y.rat then 2 else 0 := by
  simp only [compareFlags, aligned_lt_iff, aligned_eq_iff, ResultFlags.mask, maskOf_five]
  by_cases hlt : x.rat < y.rat
  · simp [hlt, hlt.ne, byteOf]
  · by_cases heq : x.rat = y.rat
    · simp [heq, byteOf]
    · simp [hlt, heq, byteOf]

/-- Settles O45: both values are aligned to one scale, where their order is the order of their numbers. -/
theorem compareReportsTheOrder : Obligations.CompareReportsTheOrder := by
  unfold Obligations.CompareReportsTheOrder
  intro s j s1 s2 h hreq
  refine h.completes ?_
  unfold State.applyJob
  rw [h.operand]
  simp only [hreq, compareFlags_mask]

/-! ## The other jobs -/

theorem classCode_eq (r : RegNo) : classCode r = if r.val < 8 then 0 else if r.val < 20 then 1 else 2 := by
  unfold classCode
  by_cases ht : r.val < 8
  · simp [isTotal, ht]
  · simp [isTotal, isShift, ht, Nat.le_of_not_lt ht]

/-- The flags of a value that nothing was lost from (R82). -/
theorem describe_mask (v : Int) : (ResultFlags.describe v false false false).mask =
    (if v < 0 then 1 else 0) + (if v = 0 then 2 else 0) := by
  simp only [ResultFlags.mask, maskOf_five, ResultFlags.describe]
  simp

/-- The registers after SET SITE's scales (R77, R88). -/
theorem State.applySite_reg (s : State) (vs ms : Nat) (gc : Option Bool) (r : RegNo) :
    (s.applySite (some (vs, ms)) gc).reg r =
      if r.val < 20 then ⟨16, if r.val % 2 = 0 then vs else ms, 5, 0⟩ else s.reg r :=
  regsOf_get _ r

theorem State.applySite_eq (s : State) (scales : Option (Nat × Nat)) (gc : Option Bool) :
    s.applySite scales gc = { s with
      tally := (s.applySite scales gc).tally
      link := { s.link with generalCallEnable := gc.getD s.link.generalCallEnable } } := by
  cases scales with
  | none => rfl
  | some v => rfl

section
variable {s : State} {j : HostJob} (h : Working s j)
include h

theorem Working.completes_readRegister {r : RegNo} (hreq : j.req = .readRegister r) :
    exec .hostJobCompletion s = .next ((s.completedWith Kind.readRegister
      (registerBytes r (s.reg r) (ResultFlags.describe (s.reg r).value false false false)
        j.suspensions)).endStretch).choose := by
  refine h.completes ?_
  unfold State.applyJob
  rw [h.operand, hreq]

theorem Working.completes_declare {r : RegNo} {digits scale rounding : Nat}
    (hreq : j.req = .declare r digits scale rounding) : exec .hostJobCompletion s =
      .next (((s.setReg r ⟨digits, scale, rounding, 0⟩).completedWith Kind.declare
        (registerBytes r ⟨digits, scale, rounding, 0⟩ (ResultFlags.describe 0 false false false)
          j.suspensions)).endStretch).choose := by
  refine h.completes ?_
  unfold State.applyJob
  rw [hreq]

theorem Working.completes_setSite {scales : Option (Nat × Nat)} {gc : Option Bool}
    (hreq : j.req = .setSite scales gc) : exec .hostJobCompletion s =
      .next (((s.applySite scales gc).completedWith Kind.setSite
        [byteOf (s.applySite scales gc).tally.vs, byteOf (s.applySite scales gc).tally.ms,
          byteOfBool (s.applySite scales gc).link.generalCallEnable]).endStretch).choose := by
  refine h.completes ?_
  unfold State.applyJob
  rw [hreq]

theorem Working.completes_hold {rs : List RegNo} {seconds : Nat} (hreq : j.req = .hold rs seconds) :
    exec .hostJobCompletion s =
      .next (((({ s with dcu := { s.dcu with held := heldSet rs, holdTimer := some seconds } } :
        State).completedWith Kind.hold
          (registerList (heldSet rs) ++ [byteOf seconds, byteOf j.suspensions])).endStretch).choose) := by
  refine h.completes ?_
  unfold State.applyJob
  rw [hreq]
  rfl

theorem Working.completes_releaseHold (hreq : j.req = .releaseHold) : exec .hostJobCompletion s =
    .next (((({ s with dcu := { s.dcu with held := [], holdTimer := none } } :
      State).completedWith Kind.releaseHold (registerList s.dcu.held)).endStretch).choose) := by
  refine h.completes ?_
  unfold State.applyJob
  rw [hreq]
  rfl

end

/-- Settles O46: the effect and the reply of each job that stores no result. -/
theorem otherJobsComplete : Obligations.OtherJobsComplete := by
  unfold Obligations.OtherJobsComplete
  refine ⟨fun s j r h => ⟨fun hreq => ?_, fun digits scale rounding hreq => ?_⟩, fun s j h =>
    ⟨fun scales gc hreq => ?_, fun rs seconds hreq => ?_, fun hreq => h.completes_releaseHold hreq⟩⟩
  · rw [h.completes_readRegister hreq]
    simp only [registerBytes, classCode_eq, describe_mask, valueField]
  · rw [h.completes_declare hreq]
    simp only [registerBytes, classCode_eq, describe_mask, valueField]
    rfl
  · refine ⟨s.applySite scales gc, ?_, ?_, s.applySite_eq scales gc, h.completes_setSite hreq⟩
    · rintro rfl
      rfl
    · rintro vs ms rfl
      exact ⟨rfl, rfl, s.applySite_reg vs ms gc⟩
  · exact ⟨heldSet rs, mem_heldSet rs, heldSet_pairwise rs, h.completes_hold hreq⟩

/-! ## Suspension and the hold timer -/

theorem exec_holdTimerExpiry {s : State} (h : s.operating = true) :
    exec .holdTimerExpiry s = .next (if s.dcu.holdTimer.isSome then s.expireHold else s) :=
  congrArg Host.Outcome.next (State.whenOperating_of_operating h _)

theorem Working.exec_suspension {s : State} {j : HostJob} (h : Working s j) :
    exec .suspension s = .next (if s.suspendable j then s.suspendJob j else s) := by
  show Host.Outcome.next (s.whenOperating _) = _
  rw [State.whenOperating_of_operating h.operating, h.activeJob]

/-- The jobs of one digit step (R115). -/
theorem Working.oneStep_iff {s : State} {j : HostJob} (h : Working s j) : s.oneStep j = true ↔
    (∃ rs n, j.req = .hold rs n) ∨ j.req = .releaseHold ∨ (∃ v gc, j.req = .setSite v gc) ∨
      ∃ d s1 s2 n, j.req = .divide d s1 s2 n ∧ (s.reg s1).value = 0 := by
  unfold State.oneStep
  rw [h.operand]
  cases j.req <;> simp

/-- A boundary suspends the job for an eligible posting, unless the step was its only one (R115, R119). -/
theorem Working.suspendable_iff {s : State} {j : HostJob} (h : Working s j) : s.suspendable j = true ↔
    (∃ q, q ∈ s.dcu.postings ∧ s.dcu.eligible q = true) ∧
    ¬ ((∃ rs n, j.req = .hold rs n) ∨ j.req = .releaseHold ∨ (∃ v gc, j.req = .setSite v gc) ∨
      ∃ d s1 s2 n, j.req = .divide d s1 s2 n ∧ (s.reg s1).value = 0) := by
  rw [← h.oneStep_iff]
  simp only [State.suspendable, Bool.and_eq_true, List.any_eq_true, Bool.not_eq_true', Bool.not_eq_true]

/-- Settles O47: the timer's expiry, and the boundary at which a job is set aside or goes on. -/
theorem holdExpiryAndSuspension : Obligations.HoldExpiryAndSuspension := by
  unfold Obligations.HoldExpiryAndSuspension
  refine ⟨fun s h => ⟨fun htimer => ?_, fun htimer => ?_⟩, fun s j h => ?_⟩
  · rw [exec_holdTimerExpiry h, if_pos htimer]
    rfl
  · rw [exec_holdTimerExpiry h, htimer]
    rfl
  · intro oneStep
    refine ⟨fun hq hsteps => ?_, fun hstay => ?_⟩
    · rw [h.exec_suspension, if_pos (h.suspendable_iff.2 ⟨hq, hsteps⟩)]
      rfl
    · rw [h.exec_suspension, if_neg]
      rw [h.suspendable_iff]
      rintro ⟨⟨q, hq, heligible⟩, hsteps⟩
      rcases hstay with hnone | hone
      · exact Bool.false_ne_true ((hnone q hq).symm.trans heligible)
      · exact hsteps hone

end Sys2Proof.Machine

/-! # Proofs: the commit of a posting (Chapter 7) -/

namespace Sys2Proof.Machine

/-! ## The four sums -/

theorem State.writeReg_reg (s : State) (r r' : RegNo) (v : Int) :
    (s.writeReg r v).reg r' = if r' = r then (s.reg r).withValue v else s.reg r' :=
  s.reg_setReg_ite r r' _

/-- Register writes keep the site scales (R77). -/
theorem runSteps_writes_scales (ws : List RegWrite) (s : State) :
    (runSteps (ws.map (fun w s => s.writeReg w.reg w.value)) s).tally = { s.tally with
      regs := (runSteps (ws.map (fun w s => s.writeReg w.reg w.value)) s).tally.regs } :=
  runSteps_keeps (P := fun t => t.tally = { s.tally with regs := t.tally.regs }) rfl (fun f hf t ht => by
    obtain ⟨w, -, rfl⟩ := List.mem_map.1 hf
    exact congrArg (fun u : Tally => { u with regs := t.tally.regs.set w.reg ((t.reg w.reg).withValue w.value) }) ht)

/-- Of register writes to distinct registers, each stands at the end (R122, R123). -/
theorem runSteps_writes_reg_of_mem {ws : List RegWrite} (s : State) (hapart : (ws.map (·.reg)).Nodup) {w : RegWrite}
    (hw : w ∈ ws) : (runSteps (ws.map (fun w s => s.writeReg w.reg w.value)) s).reg w.reg =
      (s.reg w.reg).withValue w.value := by
  induction ws generalizing s with
  | nil => cases hw
  | cons a rest ih =>
    rw [List.map_cons, List.nodup_cons] at hapart
    obtain ⟨ha, hrest⟩ := hapart
    rw [List.map_cons, runSteps_cons]
    rcases List.mem_cons.1 hw with rfl | hw
    · rw [runSteps_writes_reg_of_ne rest _ (fun v hv e => ha (List.mem_map.2 ⟨v, hv, e⟩)), State.writeReg_reg,
        if_pos rfl]
    · rw [ih _ hrest hw, State.writeReg_reg, if_neg (fun e => ha (List.mem_map.2 ⟨w, hw, e⟩))]

/-- The four targets of a posting are distinct (Table 5-1). -/
theorem Posting.targets_nodup (q : Posting) : q.targets.Nodup := by
  have hp := q.point.isLt
  simp [Posting.targets, volumeTotal, moneyTotal, volumeShift, moneyShift]
  omega

/-- The tally store after the register writes of a commit (R89, R122). -/
theorem State.commitWrites_reg (s : State) (q : Posting) (f : FrozenSale) (r : RegNo) :
    (runSteps ((s.commitRecord q f).writes.map (fun w s => s.writeReg w.reg w.value)) s).reg r =
      if r = volumeTotal q.point ∨ r = volumeShift q.product then
        { s.reg r with value := (postingSum (s.reg r).value q.volume).1 }
      else if r = moneyTotal q.point ∨ r = moneyShift q.product then
        { s.reg r with value := (postingSum (s.reg r).value q.money).1 }
      else s.reg r := by
  have hapart : ((s.commitRecord q f).writes.map (·.reg)).Nodup := s.commitRecord_regs q f ▸ q.targets_nodup
  have hwrite := fun w => runSteps_writes_reg_of_mem s hapart (w := w)
  simp only [State.commitRecord, State.postingSums, List.map_cons, List.map_nil, List.mem_cons, List.not_mem_nil,
    or_false] at hwrite
  have hdistinct : moneyTotal q.point ≠ volumeTotal q.point ∧ moneyTotal q.point ≠ volumeShift q.product ∧
      moneyShift q.product ≠ volumeTotal q.point ∧ moneyShift q.product ≠ volumeShift q.product := by
    have := q.targets_nodup
    simp only [Posting.targets, List.nodup_cons, List.mem_cons, List.not_mem_nil, or_false, not_or] at this
    tauto
  obtain ⟨h1, h2, h3, h4⟩ := hdistinct
  by_cases hv : r = volumeTotal q.point ∨ r = volumeShift q.product
  · rw [if_pos hv]
    rcases hv with rfl | rfl
    · exact hwrite _ (.inl rfl)
    · exact hwrite _ (.inr (.inr (.inl rfl)))
  · rw [if_neg hv]
    by_cases hm : r = moneyTotal q.point ∨ r = moneyShift q.product
    · rw [if_pos hm]
      rcases hm with rfl | rfl
      · exact hwrite _ (.inr (.inl rfl))
      · exact hwrite _ (.inr (.inr (.inr rfl)))
    · rw [if_neg hm]
      refine runSteps_writes_reg_of_ne _ s fun w hw e => ?_
      have hr : r ∈ q.targets := e ▸ s.commitRecord_regs q f ▸ List.mem_map_of_mem hw
      simp only [Posting.targets, List.mem_cons, List.not_mem_nil, or_false] at hr
      tauto

/-- ROLLOVER is noted when any of the four sums passed 16 digits (R90). -/
theorem State.commitRecord_rollover (s : State) (q : Posting) (f : FrozenSale) : (s.commitRecord q f).rollover =
    ((postingSum (s.reg (volumeTotal q.point)).value q.volume).2 ||
      (postingSum (s.reg (moneyTotal q.point)).value q.money).2 ||
      (postingSum (s.reg (volumeShift q.product)).value q.volume).2 ||
      (postingSum (s.reg (moneyShift q.product)).value q.money).2) := by
  simp [State.commitRecord, State.postingSums, Bool.or_assoc]

/-! ## The sale record -/

theorem SaleQueue.append_of_new {q : SaleQueue} {r : SaleRecord} (h : ∀ e, e ∈ q.records → e.number ≠ r.number) :
    q.append r = { q with records := q.records ++ [r] } := by
  unfold SaleQueue.append
  rw [if_neg]
  simpa using h

theorem succNumber_eq {n : Nat} (h : n ≤ 65535) : succNumber n = if n = 65535 then 1 else n + 1 := by
  unfold succNumber Config.saleNumberMax
  split <;> split <;> omega

theorem FaultSet.isEmpty_iff (f : FaultSet) : f.isEmpty = true ↔ f = ⟨false, false, false⟩ := by
  obtain ⟨creep, reverse, pulser⟩ := f
  simp [FaultSet.isEmpty, and_assoc]

theorem Point.leaveSettling_of_settling {x : Point} (h : x.st = .settling) : x.leaveSettling = { x with
    st := if x.faults = ⟨false, false, false⟩ then .idle else .faulted
    auth := none
    frozen := none
    flags := { x.flags with sale := true } } := by
  unfold Point.leaveSettling
  rw [h]
  simp only [FaultSet.isEmpty_iff]

/-! ## The event -/

/-- The state of a commit before the unit chooses (R123). -/
def State.committed (s : State) (q : Posting) (f : FrozenSale) : State :=
  ((s.beginCommit (s.commitRecord q f)).completeCommit (s.commitRecord q f)).modDcu (fun d => { d with unit := .free })

theorem State.commitPosting_choose (s : State) (q : Posting) (f : FrozenSale) :
    s.commitPosting q f = (s.committed q f).choose := rfl

theorem State.committed_reg (s : State) (q : Posting) (f : FrozenSale) (r : RegNo) : (s.committed q f).reg r =
    if r = volumeTotal q.point ∨ r = volumeShift q.product then
      { s.reg r with value := (postingSum (s.reg r).value q.volume).1 }
    else if r = moneyTotal q.point ∨ r = moneyShift q.product then
      { s.reg r with value := (postingSum (s.reg r).value q.money).1 }
    else s.reg r := by
  rw [← s.commitWrites_reg q f r]
  unfold State.committed
  rw [State.completeCommit_eq]
  rfl

/-- The commit of a point in SETTLING under a number that no record holds (R123, R136, R137). -/
theorem State.committed_eq {s : State} {q : Posting} {f : FrozenSale} (hst : (s.point q.point).st = .settling)
    (hnew : ∀ e, e ∈ s.sales.records → e.number ≠ s.sales.assign) : s.committed q f = { s with
      tally := { s.tally with regs := (s.committed q f).tally.regs }
      sales := ⟨s.sales.records ++ [⟨s.sales.assign, f⟩], succNumber s.sales.assign⟩
      points := s.points.set q.point { s.point q.point with
        st := if (s.point q.point).faults = ⟨false, false, false⟩ then .idle else .faulted
        auth := none
        frozen := none
        flags := { (s.point q.point).flags with sale := true } }
      dcu := { s.dcu with
        unit := .free, journal := none
        postings := s.dcu.postings.filter (fun e => decide (e.point ≠ q.point)) }
      link := { s.link with flags := { s.link.flags with
        rollover := s.link.flags.rollover || (s.commitRecord q f).rollover } } } := by
  have hrecord : SaleQueue.append { s.sales with nextSale := succNumber s.sales.assign } ⟨s.sales.assign, f⟩ =
      ⟨s.sales.records ++ [⟨s.sales.assign, f⟩], succNumber s.sales.assign⟩ := SaleQueue.append_of_new hnew
  unfold State.committed
  rw [State.completeCommit_eq, ← Point.leaveSettling_of_settling hst]
  apply State.eq_of_fields
  case h6 => exact runSteps_writes_scales _ _
  case h8 => exact hrecord
  all_goals rfl

/-- The sale that the unit commits is that of its one TAKEN posting (R116, R123). -/
theorem State.takenSale_eq {s : State} {q : Posting} {f : FrozenSale} (hq : q ∈ s.dcu.postings)
    (htaken : q.taken = true) (hone : ∀ e, e ∈ s.dcu.postings → e.taken = true → e = q)
    (hf : (s.point q.point).frozen = some f) : s.takenSale = some (q, f) := by
  obtain ⟨e, he⟩ := Option.isSome_iff_exists.1
    (List.find?_isSome.2 ⟨q, hq, htaken⟩ : (s.dcu.postings.find? (·.taken)).isSome = true)
  obtain rfl := hone e (List.mem_of_find?_eq_some he) (List.find?_some he)
  unfold State.takenSale
  simp only [he, hf, Option.map_some]

theorem exec_postingCommit {s : State} (h : s.operating = true) {q : Posting} {f : FrozenSale}
    (hq : s.takenSale = some (q, f)) : exec .postingCommit s = .next (s.commitPosting q f) := by
  show Host.Outcome.next (s.whenOperating _) = _
  rw [State.whenOperating_of_operating h, hq]

/-- Settles O48: the journal's writes fall on distinct registers, and the number assigned is free. -/
theorem commitIsOneEvent : Obligations.CommitIsOneEvent := by
  unfold Obligations.CommitIsOneEvent
  intro s q f ho h hq htaken hone hf sum
  have hst : (s.point q.point).st = .settling := (h.postings.points.points _).frozen.mp (by simp [hf])
  obtain ⟨skipped, hlt, hassign, hpassed, hnew⟩ := s.sales.assign_spec h.eight h.next
  have hrange : s.sales.assign ≤ 65535 := hassign ▸ (numberAfter_range h.next hlt).2
  refine ⟨s.sales.assign, s.committed q f, exec_postingCommit ho (s.takenSale_eq hq htaken hone hf),
    ⟨skipped, hassign, hnew, hpassed⟩, s.committed_reg q f, ?_⟩
  conv_lhs => rw [State.committed_eq hst hnew]
  rw [succNumber_eq hrange, s.commitRecord_rollover q f]
  simp only [Bool.or_assoc, sum]

end Sys2Proof.Machine

/-! # Proofs: the laws at reset -/

namespace Sys2Proof.Machine

theorem State.reset_point (p : PointNo) : State.reset.point p = Point.cold :=
  Vector.getElem_replicate p.isLt

theorem State.reset_product (k : ProductNo) : State.reset.product k = none :=
  Vector.getElem_replicate k.isLt

theorem State.reset_reg (r : RegNo) :
    State.reset.reg r = if r.val < 20 then TallyReg.account 2 else TallyReg.general := Tally.cold_reg r

theorem timersRun_cold : TimersRun Point.cold :=
  ⟨fun h => (by cases h), fun h => (by cases h), by decide, by decide⟩

theorem tallyLaw_reset : TallyLaw State.reset where
  scales := by decide
  registers r := by
    rw [State.reset_reg]
    split
    · next hr =>
      have hscale : (if r.val % 2 = 0 then 2 else 2) = 2 := ite_self 2
      exact hscale ▸ registerLaw_account r (vs := 2) (ms := 2) (by decide) (by decide)
    · next hr => exact registerLaw_of_general (by omega) (by decide) (by decide) (by decide) (by decide)
  job _ hj := by cases hj
  journal _ hc := by cases hc

theorem pointsLaw_reset : PointsLaw State.reset where
  powered _ := ⟨rfl, rfl⟩
  points p := State.reset_point p ▸ pointLaw_cold p
  timers _ p := State.reset_point p ▸ timersRun_cold
  stopped h := by cases h

theorem State.reset_not_settling (p : PointNo) : (State.reset.point p).st ≠ .settling := by
  rw [State.reset_point]
  decide

theorem postingLaw_reset : PostingLaw State.reset where
  points := pointsLaw_reset
  trusted _ := rfl
  journal _ := rfl
  once := List.nodup_nil
  settling _ p _ := iff_of_false (fun ⟨_, hq, _⟩ => List.not_mem_nil hq) (State.reset_not_settling p)
  copies _ hq := absurd hq List.not_mem_nil
  pointOfJournal _ _ hc := by cases hc

theorem salesLaw_reset : SalesLaw State.reset where
  postings := postingLaw_reset
  eight := Nat.zero_le 8
  two _ := Nat.zero_le 2
  room _ _ _ _ := Nat.zero_le 1
  numbers := List.nodup_nil
  range _ hr := absurd hr List.not_mem_nil
  next := by decide
  journal _ hc := by cases hc

theorem stagedLaw_reset : StagedLaw State.reset where
  powered _ := ⟨rfl, rfl⟩
  staged _ k h := by
    rw [State.isStaged, State.reset_product] at h
    cases h

theorem unitLaw_reset : UnitLaw State.reset where
  postings := postingLaw_reset
  slot := by simp [PendingExactlyWithJob, State.reset, Link.reset, Dcu.cold]
  idle h := by cases h
  posting := iff_of_false (fun h => (by cases h)) (fun ⟨_, hq, _⟩ => List.not_mem_nil hq)
  oneTaken _ _ hq := absurd hq List.not_mem_nil
  host := iff_of_false (fun h => (by cases h)) (fun ⟨_, hj, _⟩ => (by cases hj))
  active _ hj := by cases hj
  suspended _ hj := by cases hj
  apart _ _ hj := by cases hj
  heldOnce := List.Pairwise.nil
  heldEight := Nat.zero_le 8
  heldApart _ hq := absurd hq List.not_mem_nil
  holdTimer := by decide
  holdJob _ hj := by cases hj

theorem chargeLaw_reset : ChargeLaw State.reset where
  powered _ := ⟨rfl, rfl⟩
  slot := unitLaw_reset.slot
  idle _ := rfl
  site _ hj := by cases hj
  defined p := (pointsLaw_reset.points p).defined
  auth p := (pointsLaw_reset.points p).auth
  products k r h := by
    rw [State.reset_product] at h
    cases h
  trusted _ := rfl
  volume _ p d h := by
    rw [State.reset_point] at h
    cases h
  priced _ p a h := by
    rw [State.reset_point] at h
    cases h
  money _ p a _ h := by
    rw [State.reset_point] at h
    cases h
  frozen p f h := by
    rw [State.reset_point] at h
    cases h

/-- Settles O54: every block stands at its cold default, with no posting, job, journal or record. -/
theorem lawsHoldAtReset : Obligations.LawsHoldAtReset := by
  unfold Obligations.LawsHoldAtReset
  refine ⟨tallyLaw_reset, pointsLaw_reset, postingLaw_reset, salesLaw_reset, stagedLaw_reset, unitLaw_reset,
    chargeLaw_reset, rfl, rfl, rfl, fun p => ?_⟩
  rw [State.reset_point]
  rfl

end Sys2Proof.Machine

/-! # Proofs: losses of power and cold starts (Chapter 10) -/

namespace Sys2Proof.Machine

/-! ## The events, where they fall -/

theorem State.cutCommit_none (s : State) : s.cutCommit none = s := rfl

section
variable {s : State}

/-- A loss of main power leaves the first step of what the cut leaves (R167). -/
theorem exec_mainPowerLoss (h : s.pins.vdd = true) (cut : CommitCut) : exec (.mainPowerLoss cut) s =
    .next ((if s.operating then s.cutCommit cut else s).firstStep.modPins (fun n => { n with vdd := false })) :=
  congrArg Host.Outcome.next (if_pos h)

theorem exec_mainPowerLoss_unpowered (h : s.pins.vdd = false) (cut : CommitCut) :
    exec (.mainPowerLoss cut) s = .next s := congrArg Host.Outcome.next (if_neg (by simp [h]))

/-- RESETn low on a powered part leaves the first step of what the cut leaves (R168). -/
theorem exec_resetnAsserted (hvdd : s.pins.vdd = true) (h : s.pins.resetn = true) (cut : CommitCut) :
    exec (.resetnAsserted cut) s =
      .next ((if s.operating then s.cutCommit cut else s).firstStep.modPins (fun n => { n with resetn := false })) := by
  refine congrArg Host.Outcome.next ((if_pos h).trans ((if_pos hvdd).trans ?_))
  split
  · rw [State.cutCommit_modPins, State.firstStep_modPins]
  · rw [State.firstStep_modPins]

theorem exec_resetnAsserted_unpowered (hvdd : s.pins.vdd = false) (h : s.pins.resetn = true) (cut : CommitCut) :
    exec (.resetnAsserted cut) s = .next (s.modPins (fun n => { n with resetn := false })) :=
  congrArg Host.Outcome.next ((if_pos h).trans (if_neg (by simp [show _ = false from hvdd])))

theorem exec_resetnAsserted_low (h : s.pins.resetn = false) (cut : CommitCut) :
    exec (.resetnAsserted cut) s = .next s := congrArg Host.Outcome.next (if_neg (by simp [h]))

/-- The return of main power with RESETn high starts the part from its first step (R165, R168). -/
theorem exec_mainPowerReturn (hvdd : s.pins.vdd = false) (h : s.pins.resetn = true) (held : Bool) (env : StartEnv) :
    exec (.mainPowerReturn held env) s =
      .next (({ s with
        pins := { s.pins with vdd := true, straps := env.straps }
        rcu := { s.rcu with checkGood := s.rcu.checkGood && held } } : State).firstStep.testAndRun env.upTo) :=
  congrArg Host.Outcome.next ((if_neg (by simp [hvdd])).trans (if_pos h))

theorem exec_mainPowerReturn_powered (h : s.pins.vdd = true) (held : Bool) (env : StartEnv) :
    exec (.mainPowerReturn held env) s = .next s := congrArg Host.Outcome.next (if_pos h)

/-- RESETn high takes a powered part on from its second step (R168). -/
theorem exec_resetnReleased (hvdd : s.pins.vdd = true) (h : s.pins.resetn = false) (env : StartEnv) :
    exec (.resetnReleased env) s =
      .next (({ s with pins := { s.pins with resetn := true, straps := env.straps } } : State).testAndRun env.upTo) :=
  congrArg Host.Outcome.next ((if_neg (by simp [h])).trans (if_pos hvdd))

theorem exec_resetnReleased_unpowered (hvdd : s.pins.vdd = false) (h : s.pins.resetn = false) (env : StartEnv) :
    exec (.resetnReleased env) s =
      .next { s with pins := { s.pins with resetn := true, straps := env.straps } } :=
  congrArg Host.Outcome.next ((if_neg (by simp [h])).trans (if_neg (by
    simp [show _ = false from hvdd])))

theorem exec_resetnReleased_high (h : s.pins.resetn = true) (env : StartEnv) :
    exec (.resetnReleased env) s = .next s := congrArg Host.Outcome.next (if_pos h)

end

/-- Settles O49: with no commit cut, what the event leaves is the first step. -/
theorem lossOfPowerClearsVolatileState : Obligations.LossOfPowerClearsVolatileState := by
  unfold Obligations.LossOfPowerClearsVolatileState
  refine ⟨fun s => ?_, fun s cut held env => ⟨fun h => exec_mainPowerLoss_unpowered h cut,
    fun h => exec_mainPowerReturn_powered h held env, fun h => exec_resetnAsserted_low h cut,
    fun h => exec_resetnReleased_high h env, fun hvdd h => exec_resetnAsserted_unpowered hvdd h cut,
    fun hvdd h => exec_resetnReleased_unpowered hvdd h env⟩⟩
  intro first
  have hfirst : s.firstStep = first := s.firstStep_eq
  have hcut : (if s.operating then s.cutCommit none else s) = s := by rw [State.cutCommit_none, ite_self]
  refine ⟨fun hvdd => ?_, fun hvdd h => ?_⟩
  · rw [exec_mainPowerLoss hvdd, hcut, hfirst]
    rfl
  · rw [exec_resetnAsserted hvdd h, hcut, hfirst]
    rfl

/-! ## Cold starts -/

theorem State.choose_cold {s : State} (h : s.dcu = Dcu.cold) : s.choose = s := by
  unfold State.choose State.chooseFree
  rw [h]
  exact ite_self s

theorem Point.cold_sample (pair : PhasePair) (up : Bool) :
    Point.cold.sample pair up = { Point.cold with handleUp := up } := rfl

theorem State.coldStarted_point (s : State) (lost : Bool) (p : PointNo) :
    (s.coldStarted lost).point p = { Point.cold with handleUp := s.pins.hs[p] } :=
  Vector.getElem_ofFn (f := fun q : PointNo => ({ Point.cold with handleUp := s.pins.hs[q] } : Point)) p.isLt

/-- A start at its cold defaults comes to RUNNING there (R170, R172). -/
theorem State.coldDefaults_finalStep (s : State) (mark : Bool) :
    ((s.coldDefaults mark).setCheck true).finalStep = s.coldStarted (s.link.flags.retainLost || mark) := by
  have hpoints : ((s.coldDefaults mark).setCheck true).finalStep.points =
      (s.coldStarted (s.link.flags.retainLost || mark)).points := by
    refine State.points_eq fun p => ?_
    have hcold : ((s.coldDefaults mark).setCheck true).point p = Point.cold := s.coldDefaults_point mark p
    rw [State.finalStep_point, hcold, Point.cold_sample]
    exact (s.coldStarted_point _ p).symm
  rw [State.finalStep_eq, State.choose_cold rfl, hpoints]
  rfl

/-- The cold path run to its end (R170, R172). -/
theorem State.testAndRun_cold {s : State} (h : s.rcu.checkGood = false) : s.testAndRun none = s.coldStarted true := by
  have hrun : s.testAndRun none = (runSteps coldPath s).finalStep := by
    unfold State.testAndRun
    rw [h]
    rfl
  rw [hrun, runSteps_coldPath, State.coldDefaults_finalStep, Bool.or_true]
  rfl

theorem mem_allPoints (p : PointNo) : p ∈ allPoints := by
  revert p
  decide

theorem State.allUndefined_iff (s : State) :
    allPoints.all (fun p => decide ((s.point p).st = .undefined)) = true ↔ ∀ p, (s.point p).st = .undefined := by
  simp only [List.all_eq_true, mem_allPoints, true_imp_iff, decide_eq_true_eq]

section
variable {s : State}

theorem exec_clearRetained_taken (h : s.takes []) (env : StartEnv) : exec (.clearRetained [] env) s =
    .next (clearRetainedRequest env (s.awaiting Kind.clearRetained [])) := request_owner h rfl

/-- CLEAR RETAINED with every point UNDEFINED takes the cold path from its first step (R175). -/
theorem exec_clearRetained (h : s.takes []) (hundefined : ∀ p, (s.point p).st = .undefined) (env : StartEnv) :
    exec (.clearRetained [] env) s =
      .next ((({ s.awaiting Kind.clearRetained [] with
        pins := { s.pins with straps := env.straps } } : State).firstStep.setCheck false).runPath clearPath env.upTo) :=
  (exec_clearRetained_taken h env).trans (congrArg Host.Outcome.next (if_pos (s.allUndefined_iff.2 hundefined)))

theorem exec_clearRetained_defined (h : s.takes []) {p : PointNo} (hp : (s.point p).st ≠ .undefined)
    (env : StartEnv) :
    exec (.clearRetained [] env) s = .next (s.answeredTo 0 .wrongState Kind.clearRetained []) :=
  (exec_clearRetained_taken h env).trans (congrArg Host.Outcome.next
    ((if_neg fun hall => hp (s.allUndefined_iff.1 hall p)).trans rfl))

end

/-- Settles O50: the cold path and that of CLEAR RETAINED end at the same defaults but for the mark. -/
theorem coldStartComesToTheDefaults : Obligations.ColdStartComesToTheDefaults := by
  unfold Obligations.ColdStartComesToTheDefaults
  refine ⟨fun s env held hvdd hresetn hup hbad => ?_, fun s env hvdd hresetn _ hup hbad => ?_,
    fun s env h => ⟨fun hundefined hup => ?_, fun ⟨p, hp⟩ => ?_⟩⟩
  · have hcheck : (s.rcu.checkGood && held) = false := by
      rcases hbad with h | h <;> simp [h]
    rw [exec_mainPowerReturn hvdd hresetn, hup, State.testAndRun_cold hcheck]
    rfl
  · rw [exec_resetnReleased hvdd hresetn, hup]
    exact congrArg Host.Outcome.next (State.testAndRun_cold hbad)
  · rw [exec_clearRetained h hundefined, hup, State.runPath, runSteps_clearPath, State.coldDefaults_finalStep]
    rfl
  · exact exec_clearRetained_defined h hp env

end Sys2Proof.Machine

/-! # Proofs: warm starts (Chapter 10) -/

namespace Sys2Proof.Machine

/-! ## The first choice of a start -/

/-- The oldest posting of a queue is TAKEN (R118). -/
def takeFirst : List Posting → List Posting
  | [] => []
  | q :: rest => { q with taken := true } :: rest

theorem takeFirst_eq_nil_iff (qs : List Posting) : takeFirst qs = [] ↔ qs = [] := by
  cases qs <;> simp [takeFirst]

theorem takeFirst_untaken (qs : List Posting) : (takeFirst qs).map Posting.untaken = qs.map Posting.untaken := by
  cases qs <;> rfl

theorem map_untaken_of_none {qs : List Posting} (h : ∀ q, q ∈ qs → q.taken = false) : qs.map Posting.untaken = qs := by
  refine (List.map_congr_left (g := id) fun q hq => ?_).trans (List.map_id qs)
  rw [id_eq, Posting.untaken, ← h q hq]

theorem takeFirst_taken {qs : List Posting} (h : ∀ q, q ∈ qs → q.taken = false) {i : Nat} {q : Posting}
    (hq : (takeFirst qs)[i]? = some q) : q.taken = decide (i = 0) := by
  cases qs with
  | nil => cases hq
  | cons a rest =>
    cases i with
    | zero =>
      cases hq
      rfl
    | succ i => exact h q (List.mem_cons_of_mem a (List.mem_of_getElem? hq))

/-- With no job, nothing held and nothing TAKEN, the unit takes the oldest posting, if there is one (R118). -/
theorem State.choose_fresh {s : State} (hr : s.rcu.running = true) (hu : s.dcu.unit = .free)
    (hjob : s.dcu.job = none) (hheld : s.dcu.held = []) (huntaken : ∀ q, q ∈ s.dcu.postings → q.taken = false)
    (hapart : (s.dcu.postings.map (·.point)).Nodup) : s.choose = { s with dcu := { s.dcu with
      unit := if s.dcu.postings = [] then .free else .posting, postings := takeFirst s.dcu.postings } } := by
  have heligible : ∀ q, q ∈ s.dcu.postings → s.dcu.eligible q = true := fun q hq =>
    (s.dcu.eligible_iff q).2 ⟨huntaken q hq, by simp [hheld, hjob]⟩
  cases hqs : s.dcu.postings with
  | nil =>
    rw [State.choose_of_no_eligible hr hu (by simp [hqs]), hjob, if_pos rfl, ← hu]
    show s = { s with dcu := { s.dcu with postings := [] } }
    rw [← hqs]
  | cons q rest =>
    exact State.choose_oldest hr hu (before := []) hqs hapart (by simp) (heligible q (by simp [hqs]))

/-! ## The warm path on an EMPTY journal -/

theorem Dcu.firstStep_firstStep (d : Dcu) : d.firstStep.firstStep = d.firstStep := by
  simp only [Dcu.firstStep, List.map_map, Function.comp_def]

theorem State.firstStep_firstStep (s : State) : s.firstStep.firstStep = s.firstStep := by
  have hpoints : (s.points.map Point.firstStep).map Point.firstStep = s.points.map Point.firstStep := by
    rw [Vector.map_map]
    rfl
  rw [State.firstStep_eq, State.firstStep_eq]
  simp only [Dcu.firstStep_firstStep, hpoints]
  rfl

theorem State.warmJournal_of_empty {s : State} (h : s.dcu.journal = none) : s.warmJournal = s := by
  unfold State.warmJournal
  rw [h]

/-- What the warm path changes, from an EMPTY journal (R171). -/
theorem runSteps_warmPath_eq {s : State} (h : s.dcu.journal = none) : runSteps warmPath s = { s with
    points := (runSteps warmPath s).points
    products := (runSteps warmPath s).products
    dcu := { s.dcu with
      postings := s.dcu.postings ++ allPoints.filterMap (fun p => (s.point p).powerPosting p) }
    link := { s.link with flags := { s.link.flags with
      priceActive := (runSteps warmPath s).link.flags.priceActive
      activated := (runSteps warmPath s).link.flags.activated } } } := by
  rw [runSteps_warmPath, State.warmJournal_of_empty h]
  have hprices := State.warmPrices_rest s.warmAllPoints
  have hsettled := State.warmAllPoints_rest s
  generalize s.warmAllPoints.warmPrices = w at hprices ⊢
  generalize s.warmAllPoints = v at hprices hsettled
  have hpoints : w.points = v.points := by rw [hprices]
  rw [hpoints]
  conv_lhs => rw [hprices, hsettled]

/-- Every staged price has become current (R171). -/
theorem runSteps_warmPath_activated {s : State} (h : s.dcu.journal = none) :
    Activated (fun _ => true) s (runSteps warmPath s) := by
  have hquiet : ∀ p k, (s.warmAllPoints.point p).delivers ≠ some k := fun p k => by
    rw [State.warmAllPoints_point, Point.warmed_delivers]
    simp
  have hlink : s.warmAllPoints.link = s.link := by rw [State.warmAllPoints_rest]
  have hproduct : ∀ k, s.warmAllPoints.product k = s.product k := fun k => by
    rw [State.warmAllPoints_rest]
    rfl
  have hstaged : ∀ k, s.warmAllPoints.isStaged k = s.isStaged k := fun k => by
    rw [State.warmAllPoints_rest]
    rfl
  obtain ⟨hproducts, hflag, hset⟩ := State.warmPrices_activated s.warmAllPoints hquiet
  simp only [hlink, hproduct, hstaged] at hproducts hflag hset
  rw [runSteps_warmPath, State.warmJournal_of_empty h]
  exact ⟨hproducts, hflag, hset⟩

/-! ## Comes to RUNNING -/

/-- The volatile state of the decimal unit at the first step (R131, R169). -/
structure Dcu.AtFirstStep (d : Dcu) : Prop where
  unit : d.unit = .free
  job : d.job = none
  held : d.held = []
  untaken : ∀ q, q ∈ d.postings → q.taken = false

theorem State.atFirstStep {s : State} (h : s.firstStep = s) : s.dcu.AtFirstStep := by
  have hd : s.dcu.firstStep = s.dcu := congrArg State.dcu h
  refine ⟨?_, ?_, ?_, fun q hq => ?_⟩ <;> rw [← hd] at *
  · rfl
  · rfl
  · rfl
  · obtain ⟨e, -, rfl⟩ := List.mem_map.1 hq
    rfl

theorem powerPosting_point {x : Point} {p : PointNo} {q : Posting} (h : x.powerPosting p = some q) :
    x.st.counting = true ∧ q.point = p ∧ q.taken = false := by
  unfold Point.powerPosting at h
  split at h
  · next hc =>
    obtain ⟨a, -, rfl⟩ := Option.map_eq_some_iff.1 h
    exact ⟨hc, rfl, rfl⟩
  · cases h

/-- The postings that warm step 2 submits (R133, R171). -/
def State.powerPostings (s : State) : List Posting := allPoints.filterMap (fun p => (s.point p).powerPosting p)

theorem State.mem_powerPostings {s : State} {q : Posting} (h : q ∈ s.powerPostings) :
    (s.point q.point).st.counting = true ∧ q.taken = false := by
  obtain ⟨p, -, hq⟩ := List.mem_filterMap.1 h
  obtain ⟨hc, rfl, ht⟩ := powerPosting_point hq
  exact ⟨hc, ht⟩

/-- Each is of a point of its own. -/
theorem State.powerPostings_apart (s : State) : (s.powerPostings.map (·.point)).Nodup := by
  have hpoints : ∀ ps : List PointNo, (ps.filterMap (fun p => (s.point p).powerPosting p)).map (·.point) =
      ps.filter (fun p => ((s.point p).powerPosting p).isSome) := by
    intro ps
    induction ps with
    | nil => rfl
    | cons p rest ih =>
      cases hp : (s.point p).powerPosting p with
      | none => simp [hp, ih]
      | some q => simp [hp, ih, (powerPosting_point hp).2.1]
  rw [State.powerPostings, hpoints]
  exact List.Nodup.filter _ (by decide)

/-- A queue whose points are in SETTLING shares no point with what warm step 2 submits (R133, R171). -/
theorem State.warmPostings_apart {s : State} (honce : (s.dcu.postings.map (·.point)).Nodup)
    (hsettling : ∀ q, q ∈ s.dcu.postings → (s.point q.point).st = .settling) :
    ((s.dcu.postings ++ s.powerPostings).map (·.point)).Nodup := by
  rw [List.map_append, List.nodup_append]
  refine ⟨honce, s.powerPostings_apart, fun p hp p' hp' e => ?_⟩
  obtain ⟨q, hq, rfl⟩ := List.mem_map.1 hp
  obtain ⟨q', hq', rfl⟩ := List.mem_map.1 hp'
  have hcounting := (State.mem_powerPostings hq').1
  rw [← e, hsettling q hq] at hcounting
  cases hcounting

theorem State.testAndRun_good {s : State} (h : s.rcu.checkGood = true) :
    s.testAndRun none = (runSteps warmPath s).finalStep := by
  unfold State.testAndRun
  rw [h]
  rfl

/-- The state of a start that has taken the warm path on an EMPTY journal (R171, R172). -/
theorem State.testAndRun_warm {s : State} (hgood : s.rcu.checkGood = true) (hjournal : s.dcu.journal = none)
    (hfirst : s.firstStep = s) (honce : (s.dcu.postings.map (·.point)).Nodup)
    (hsettling : ∀ q, q ∈ s.dcu.postings → (s.point q.point).st = .settling) :
    s.testAndRun none = { s with
      points := (s.testAndRun none).points
      products := (runSteps warmPath s).products
      dcu := { s.dcu with
        unit := if s.dcu.postings ++ s.powerPostings = [] then .free else .posting
        postings := takeFirst (s.dcu.postings ++ s.powerPostings) }
      rcu := ⟨true, s.rcu.checkGood, false, s.pins.pfailn⟩
      link := { s.link with
        busAddress := 0x2C + s.pins.straps.setWidth 7
        flags := { s.link.flags with
          restarted := true
          retainLost := s.link.flags.retainLost || s.rcu.retainLostMark
          priceActive := (runSteps warmPath s).link.flags.priceActive
          activated := (runSteps warmPath s).link.flags.activated } } } := by
  obtain ⟨hunit, hjob, hheld, huntaken⟩ := State.atFirstStep hfirst
  have hnone : ∀ q, q ∈ s.dcu.postings ++ s.powerPostings → q.taken = false := fun q hq =>
    (List.mem_append.1 hq).elim (huntaken q) (fun h => (State.mem_powerPostings h).2)
  have hpath : runSteps warmPath s = { s with
      points := (runSteps warmPath s).points
      products := (runSteps warmPath s).products
      dcu := { s.dcu with postings := s.dcu.postings ++ s.powerPostings }
      link := { s.link with flags := { s.link.flags with
        priceActive := (runSteps warmPath s).link.flags.priceActive
        activated := (runSteps warmPath s).link.flags.activated } } } := runSteps_warmPath_eq hjournal
  have hapart := State.warmPostings_apart honce hsettling
  rw [State.testAndRun_good hgood]
  generalize runSteps warmPath s = w at *
  have hfinal := w.finalStep_eq
  generalize w.finalStep = t at *
  have hdcu : w.dcu = { s.dcu with postings := s.dcu.postings ++ s.powerPostings } := by rw [hpath]
  rw [State.choose_fresh rfl (by rw [hdcu]; exact hunit) (by rw [hdcu]; exact hjob) (by rw [hdcu]; exact hheld)
    (by rw [hdcu]; exact hnone) (by rw [hdcu]; exact hapart)] at hfinal
  simp only [hdcu] at hfinal
  conv_lhs => rw [hfinal, hpath]

/-- The points of a start that has taken the warm path (R171, R172). -/
theorem State.testAndRun_good_point {s : State} (h : s.rcu.checkGood = true) (p : PointNo) :
    (s.testAndRun none).point p =
      ((s.warmJournal.point p).warmed p).atRunning ⟨s.pins.pa[p], s.pins.pb[p]⟩ s.pins.hs[p] := by
  have hpins : (runSteps warmPath s).pins = s.pins :=
    runSteps_keeps (P := fun t => t.pins = s.pins) rfl (fun f hf t ht => (warmPath_same hf t).1.pins.trans ht)
  rw [State.testAndRun_good h, State.finalStep_point, runSteps_warmPath_point, State.pinPair, hpins]
  rfl

/-- A start from its first step, on a good check word and an EMPTY journal, comes to RUNNING (R171, R172). -/
theorem State.warmStarted {s : State} (hgood : s.rcu.checkGood = true) (hjournal : s.dcu.journal = none)
    (hfirst : s.firstStep = s) (honce : (s.dcu.postings.map (·.point)).Nodup)
    (hsettling : ∀ q, q ∈ s.dcu.postings → (s.point q.point).st = .settling) : WarmStarted s (s.testAndRun none) := by
  obtain ⟨-, -, -, huntaken⟩ := State.atFirstStep hfirst
  have hnone : ∀ q, q ∈ s.dcu.postings ++ s.powerPostings → q.taken = false := fun q hq =>
    (List.mem_append.1 hq).elim (huntaken q) (fun h => (State.mem_powerPostings h).2)
  have hpoint := State.testAndRun_good_point hgood
  rw [State.warmJournal_of_empty hjournal] at hpoint
  obtain ⟨hproducts, hflag, hset⟩ := runSteps_warmPath_activated hjournal
  have ht := State.testAndRun_warm hgood hjournal hfirst honce hsettling
  generalize s.testAndRun none = t at *
  generalize runSteps warmPath s = w at *
  have hpostings : t.dcu.postings = takeFirst (s.dcu.postings ++ s.powerPostings) := by rw [ht]
  refine ⟨hpoint, fun k => ?_, ?_, fun i q hq => ?_, ?_, ?_, ?_, ?_, ?_, fun k => ?_, ?_⟩
  · rw [ht]
    exact hproducts k
  · rw [hpostings]
    exact (takeFirst_untaken _).trans (map_untaken_of_none hnone)
  · exact takeFirst_taken hnone (hpostings ▸ hq)
  · simp only [hpostings, takeFirst_eq_nil_iff]
    rw [ht]
  · rw [ht]
  · rw [ht]
  · rw [ht]
  · rw [ht]
    simp only [hflag, Bool.true_and]
  · rw [ht]
    exact hset k
  · apply State.eq_of_fields <;> rw [ht]

/-! ## RESTART -/

theorem PtState.counting_iff (st : PtState) :
    st.counting = true ↔ st = .delivering ∨ st = .paused ∨ st = .stopping := by
  cases st <;> simp [PtState.counting]

theorem State.anyCounting_iff (s : State) : allPoints.any (fun p => (s.point p).st.counting) = true ↔
    ∃ p, (s.point p).st = .delivering ∨ (s.point p).st = .paused ∨ (s.point p).st = .stopping := by
  simp only [List.any_eq_true, mem_allPoints, true_and, PtState.counting_iff]

section
variable {s : State}

theorem exec_restart_taken (h : s.takes []) (cut : CommitCut) (env : StartEnv) : exec (.restart [] cut env) s =
    .next (restartRequest cut env (s.awaiting Kind.restart [])) := request_owner h rfl

/-- RESTART with no delivery in progress starts the part from its first step (R174). -/
theorem exec_restart (h : s.takes []) (hidle : ∀ p, (s.point p).st ≠ .delivering ∧ (s.point p).st ≠ .paused ∧
    (s.point p).st ≠ .stopping) (cut : CommitCut) (env : StartEnv) : exec (.restart [] cut env) s =
      .next ((((s.awaiting Kind.restart []).cutCommit cut).setStraps env.straps).firstStep.testAndRun env.upTo) := by
  refine (exec_restart_taken h cut env).trans (congrArg Host.Outcome.next (if_neg ?_))
  rw [State.anyCounting_iff]
  rintro ⟨p, hp⟩
  obtain ⟨h1, h2, h3⟩ := hidle p
  exact hp.elim h1 (fun hp => hp.elim h2 h3)

theorem exec_restart_busy (h : s.takes []) (hbusy : ∃ p, (s.point p).st = .delivering ∨ (s.point p).st = .paused ∨
    (s.point p).st = .stopping) (cut : CommitCut) (env : StartEnv) :
    exec (.restart [] cut env) s = .next (s.answeredTo 0 .wrongState Kind.restart []) :=
  (exec_restart_taken h cut env).trans (congrArg Host.Outcome.next ((if_pos (s.anyCounting_iff.2 hbusy)).trans rfl))

end

/-- The postings of the first step are those it found, untaken, and of the same points (R131, R169). -/
theorem PostingLaw.firstStep_settling {s : State} (h : PostingLaw s) (hjournal : s.dcu.journal = none)
    (hgood : s.rcu.checkGood = true) : (s.firstStep.dcu.postings.map (·.point)).Nodup ∧
      ∀ q, q ∈ s.firstStep.dcu.postings → (s.firstStep.point q.point).st = .settling := by
  refine ⟨map_point_of_untaken (firstStep_untaken s) ▸ h.once, fun q hq => ?_⟩
  obtain ⟨e, he, rfl⟩ := List.mem_map.1 hq
  rw [State.firstStep_point]
  exact (h.settling hgood e.point (fun ⟨c, hc, _⟩ => by rw [hjournal] at hc; cases hc)).1 ⟨e, he, rfl⟩

/-- A start from the first step of a lawful state whose pins and link alone have moved (R168, R174). -/
theorem PostingLaw.warmStarted {s : State} (h : PostingLaw s) (hjournal : s.dcu.journal = none)
    (hgood : s.rcu.checkGood = true) (pins : Pins) (link : Link) :
    WarmStarted ({ s with pins := pins, link := link } : State).firstStep
      (({ s with pins := pins, link := link } : State).firstStep.testAndRun none) := by
  obtain ⟨honce, hsettling⟩ := h.firstStep_settling hjournal hgood
  exact State.warmStarted hgood hjournal (State.firstStep_firstStep _) honce hsettling

/-- Settles O51: the warm path on an EMPTY journal, at each of the starts that can take it. -/
theorem warmStartSettlesAndLapses : Obligations.WarmStartSettlesAndLapses := by
  unfold Obligations.WarmStartSettlesAndLapses
  refine ⟨fun s env h hjournal hgood hup => ⟨fun hvdd hresetn => ?_, fun hvdd hresetn hfirst => ?_, fun ht hidle => ?_⟩,
    fun s cut env h hbusy => exec_restart_busy h hbusy cut env⟩
  · refine ⟨_, exec_mainPowerReturn hvdd hresetn true env, ?_⟩
    rw [hup, Bool.and_true]
    exact h.warmStarted hjournal hgood _ s.link
  · refine ⟨_, exec_resetnReleased hvdd hresetn env, ?_⟩
    rw [hup]
    have hfirst' : ({ s with pins := { s.pins with resetn := true, straps := env.straps } } : State).firstStep =
        { s with pins := { s.pins with resetn := true, straps := env.straps } } :=
      congrArg (fun t : State => { t with pins := { s.pins with resetn := true, straps := env.straps } }) hfirst
    have := h.warmStarted hjournal hgood { s.pins with resetn := true, straps := env.straps } s.link
    rw [hfirst'] at this
    exact this
  · refine ⟨_, exec_restart ht hidle none env, ?_⟩
    rw [hup]
    exact h.warmStarted hjournal hgood _ _

end Sys2Proof.Machine

/-! # Proofs: a commit that is cut, and taken up at the next start (Chapters 7 and 10) -/

namespace Sys2Proof.Machine

/-! ## Register writes made again -/

theorem runSteps_writes_format (ws : List RegWrite) (s : State) (r : RegNo) :
    ∃ v, (runSteps (ws.map (fun w s => s.writeReg w.reg w.value)) s).reg r = (s.reg r).withValue v :=
  runSteps_keeps (P := fun t => ∃ v, t.reg r = (s.reg r).withValue v) ⟨(s.reg r).value, rfl⟩ (fun f hf t ht => by
    obtain ⟨w, -, rfl⟩ := List.mem_map.1 hf
    obtain ⟨v, hv⟩ := ht
    show ∃ v, (t.writeReg w.reg w.value).reg r = _
    rw [State.writeReg_reg]
    split
    · next e => exact ⟨w.value, by rw [← e, hv]; rfl⟩
    · exact ⟨v, hv⟩)

/-- The writes of a commit, begun and then made from the start, leave what they leave made once (R124). -/
theorem runSteps_writes_again {ws : List RegWrite} (hapart : (ws.map (·.reg)).Nodup) {n : Nat} {s v : State}
    (hv : v.tally = (runSteps ((ws.take n).map (fun w s => s.writeReg w.reg w.value)) s).tally) :
    (runSteps (ws.map (fun w s => s.writeReg w.reg w.value)) v).tally =
      (runSteps (ws.map (fun w s => s.writeReg w.reg w.value)) s).tally := by
  have hreg : ∀ r, v.reg r = (runSteps ((ws.take n).map (fun w s => s.writeReg w.reg w.value)) s).reg r := fun r =>
    congrArg (fun t : Tally => t.regs[r]) hv
  have hregs : (runSteps (ws.map (fun w s => s.writeReg w.reg w.value)) v).tally.regs =
      (runSteps (ws.map (fun w s => s.writeReg w.reg w.value)) s).tally.regs := by
    refine State.regs_eq fun r => ?_
    by_cases hr : ∃ w, w ∈ ws ∧ w.reg = r
    · obtain ⟨w, hw, rfl⟩ := hr
      obtain ⟨x, hx⟩ := runSteps_writes_format (ws.take n) s w.reg
      rw [runSteps_writes_reg_of_mem v hapart hw, runSteps_writes_reg_of_mem s hapart hw, hreg, hx]
      rfl
    · have hne : ∀ w, w ∈ ws → w.reg ≠ r := fun w hw e => hr ⟨w, hw, e⟩
      rw [runSteps_writes_reg_of_ne ws v hne, runSteps_writes_reg_of_ne ws s hne, hreg,
        runSteps_writes_reg_of_ne _ s fun w hw => hne w (List.mem_of_mem_take hw)]
  rw [runSteps_writes_scales ws v, runSteps_writes_scales ws s, hregs, hv, runSteps_writes_scales (ws.take n) s]

/-! ## The writes of a commit up to a cut -/

/-- The first n of the writes of a commit of four registers (R123, R124). -/
theorem runSteps_commitSteps_take {c : CommitRecord} (hfour : c.writes.length = 4) (n : Nat) (s : State) :
    runSteps ((commitSteps c).take n) s = { s with
      tally := (runSteps ((c.writes.take n).map (fun w s => s.writeReg w.reg w.value)) s).tally
      sales := if n ≤ 4 then s.sales else if n = 5 then { s.sales with nextSale := c.nextSale }
        else SaleQueue.append { s.sales with nextSale := c.nextSale } c.record
      points := if n < 7 then s.points else s.points.set c.point (s.point c.point).leaveSettling
      dcu := if n < 8 then s.dcu else s.dcu.removePosting c.point } := by
  unfold commitSteps
  rw [List.take_append, runSteps_append, ← List.map_take, runSteps_writes_rest, List.length_map, hfour]
  generalize (runSteps ((c.writes.take n).map (fun w s => s.writeReg w.reg w.value)) s).tally = tally
  rcases Nat.lt_or_ge n 5 with h | h
  · rw [Nat.sub_eq_zero_of_le (by omega), if_pos (by omega), if_pos (by omega), if_pos (by omega)]
    rfl
  obtain ⟨k, rfl⟩ := Nat.exists_eq_add_of_le h
  rw [show 5 + k - 4 = k + 1 by omega]
  match k with
  | 0 => rfl
  | 1 => rfl
  | 2 => rfl
  | k + 3 =>
    rw [if_neg (show ¬ 5 + (k + 3) ≤ 4 by omega), if_neg (show ¬ 5 + (k + 3) = 5 by omega),
      if_neg (show ¬ 5 + (k + 3) < 7 by omega), if_neg (show ¬ 5 + (k + 3) < 8 by omega)]
    cases k <;> rfl

/-! ## The start that follows -/

theorem State.warmJournal_warmJournal (s : State) : s.warmJournal.warmJournal = s.warmJournal :=
  State.warmJournal_of_empty s.warmJournal_journal

/-- The warm path goes on from its first step (R171). -/
theorem runSteps_warmPath_warmJournal (s : State) : runSteps warmPath s.warmJournal = runSteps warmPath s := by
  rw [runSteps_warmPath, runSteps_warmPath, State.warmJournal_warmJournal]

/-- What the completion of the journal leaves, the start leaves, but for its points, prices and choice. -/
structure TakenUp (s t : State) : Prop where
  journal : t.dcu.journal = none
  tally : t.tally = s.tally
  sales : t.sales = s.sales
  rollover : t.link.flags.rollover = s.link.flags.rollover
  postings : t.dcu.postings.map Posting.untaken = (s.dcu.postings ++ s.powerPostings).map Posting.untaken

theorem State.testAndRun_takenUp {s : State} (h : s.rcu.checkGood = true) :
    TakenUp s.warmJournal (s.testAndRun none) := by
  rw [State.testAndRun_good h, ← runSteps_warmPath_warmJournal]
  have hjournal := s.warmJournal_journal
  generalize s.warmJournal = v at *
  have hpath : runSteps warmPath v = { v with
      points := (runSteps warmPath v).points
      products := (runSteps warmPath v).products
      dcu := { v.dcu with postings := v.dcu.postings ++ v.powerPostings }
      link := { v.link with flags := { v.link.flags with
        priceActive := (runSteps warmPath v).link.flags.priceActive
        activated := (runSteps warmPath v).link.flags.activated } } } := runSteps_warmPath_eq hjournal
  generalize runSteps warmPath v = w at *
  have hfinal := w.finalStep_eq
  generalize w.finalStep = t at *
  refine ⟨?_, ?_, ?_, ?_, ?_⟩
  · rw [hfinal, State.choose_journal, hpath]
    exact hjournal
  · rw [hfinal, State.choose_rest, hpath]
  · rw [hfinal, State.choose_rest, hpath]
  · rw [hfinal, State.choose_rest, hpath]
  · rw [hfinal, State.choose_untaken, hpath]

/-! ## The journal completed after a cut -/

theorem SaleQueue.append_append (q : SaleQueue) (r : SaleRecord) : (q.append r).append r = q.append r := by
  by_cases h : q.records.any (fun x => decide (x.number = r.number)) = true
  · have hkeep : q.append r = q := if_pos h
    rw [hkeep, hkeep]
  · have hadd : q.append r = { q with records := q.records ++ [r] } := if_neg h
    rw [hadd]
    exact if_pos (by simp)

theorem SaleQueue.append_nextSale (q : SaleQueue) (r : SaleRecord) (n : Nat) :
    { q.append r with nextSale := n } = SaleQueue.append { q with nextSale := n } r := by
  unfold SaleQueue.append
  split
  · rfl
  · rfl

/-- A completion after any first part of the writes leaves the tally store and the queue of the whole (R124). -/
theorem State.completeCommit_again {c : CommitRecord} (hfour : c.writes.length = 4)
    (hapart : (c.writes.map (·.reg)).Nodup) {n : Nat} {b v : State}
    (htally : v.tally = (runSteps ((commitSteps c).take n) b).tally)
    (hsales : v.sales = (runSteps ((commitSteps c).take n) b).sales) :
    (v.completeCommit c).tally = (b.completeCommit c).tally ∧
    (v.completeCommit c).sales = (b.completeCommit c).sales := by
  rw [runSteps_commitSteps_take hfour] at htally hsales
  rw [v.completeCommit_eq, b.completeCommit_eq]
  refine ⟨runSteps_writes_again hapart htally, ?_⟩
  show SaleQueue.append { v.sales with nextSale := c.nextSale } c.record = _
  rw [hsales]
  dsimp only
  split
  · rfl
  split
  · rfl
  · rw [SaleQueue.append_nextSale, SaleQueue.append_append]

/-- A point whose commit was cut, and completed by the start that follows, shows SALE if the cut found it in
SETTLING still (R124, R169, R171). -/
theorem Point.leaveSettling_after_cut {x : Point} (h : x.st = .settling) (n : Nat) :
    let y := (if n < 7 then x else x.leaveSettling).firstStep.leaveSettling
    y.st = x.leaveSettling.st ∧ (y.st = .idle ∨ y.st = .faulted) ∧ y.auth = none ∧ y.frozen = none ∧
      y.flags.sale = decide (n < 7) := by
  have hleft := Point.leaveSettling_of_settling h
  have hrest : x.leaveSettling.st = .idle ∨ x.leaveSettling.st = .faulted := Point.leaveSettling_st (.inl h)
  by_cases hn : n < 7
  · rw [if_pos hn, Point.leaveSettling_of_settling (x := x.firstStep) h, hleft]
    rw [hleft] at hrest
    exact ⟨rfl, hrest, rfl, rfl, (decide_eq_true hn).symm⟩
  · have hkeep : x.leaveSettling.firstStep.leaveSettling = x.leaveSettling.firstStep := by
      generalize x.leaveSettling = y at hrest
      unfold Point.leaveSettling Point.firstStep
      rcases hrest with e | e <;> simp only [e]
    rw [if_neg hn, hkeep]
    refine ⟨rfl, hrest, ?_, ?_, (decide_eq_false hn).symm⟩ <;> rw [hleft] <;> rfl

/-! ## The start after a cut -/

/-- The first step of what a cut leaves, the pins and the link apart (R124, R167, R174). -/
def State.afterCut (s : State) (cut : CommitCut) (pins : Pins) (link : Link) : State :=
  ({ s.cutCommit cut with pins := pins, link := link } : State).firstStep

/-- A whole commit record in the journal is completed by the next start (R124, R171). -/
structure CommitCompleted (s : State) (q : Posting) (f : FrozenSale) (made : Nat) (t : State) : Prop where
  journal : t.dcu.journal = none
  tally : t.tally = (s.commitPosting q f).tally
  sales : t.sales = (s.commitPosting q f).sales
  rollover : t.link.flags.rollover = (s.commitRecord q f).rollover
  st : (t.point q.point).st = ((s.commitPosting q f).point q.point).st
  auth : (t.point q.point).auth = none
  frozen : (t.point q.point).frozen = none
  sale : (t.point q.point).flags.sale = decide (made < 7)
  gone : ∀ e, e ∈ t.dcu.postings → e.point ≠ q.point

section
variable {s : State} {q : Posting} {f : FrozenSale} (hsale : s.takenSale = some (q, f)) (made : Nat)
include hsale

theorem State.cutCommit_some : s.cutCommit (some made) =
    runSteps ((commitSteps (s.commitRecord q f)).take made) (s.beginCommit (s.commitRecord q f)) := by
  unfold State.cutCommit
  rw [hsale]

theorem State.cutCommit_journal : (s.cutCommit (some made)).dcu.journal = some (s.commitRecord q f) := by
  rw [State.cutCommit_some hsale, runSteps_commitSteps_take rfl]
  dsimp only
  split <;> rfl

theorem State.cutCommit_point_posted : (s.cutCommit (some made)).point q.point =
    if made < 7 then s.point q.point else (s.point q.point).leaveSettling := by
  rw [State.cutCommit_some hsale, runSteps_commitSteps_take rfl]
  unfold State.point
  dsimp only
  split
  · rfl
  · exact s.point_setPoint q.point _

theorem State.afterCut_warmJournal (pins : Pins) (link : Link) : (s.afterCut (some made) pins link).warmJournal =
    (s.afterCut (some made) pins link).completeCommit (s.commitRecord q f) := by
  have hjournal : (s.afterCut (some made) pins link).dcu.journal = _ := State.cutCommit_journal hsale made
  unfold State.warmJournal
  rw [hjournal]

theorem State.afterCut_completed (pins : Pins) (link : Link) :
    (s.afterCut (some made) pins link).warmJournal.tally = (s.commitPosting q f).tally ∧
    (s.afterCut (some made) pins link).warmJournal.sales = (s.commitPosting q f).sales := by
  have hapart : ((s.commitRecord q f).writes.map (·.reg)).Nodup := s.commitRecord_regs q f ▸ q.targets_nodup
  have hcut := State.cutCommit_some hsale made
  obtain ⟨htally, hsales⟩ := State.completeCommit_again rfl hapart (n := made)
    (b := s.beginCommit (s.commitRecord q f)) (v := s.afterCut (some made) pins link)
    (congrArg State.tally hcut :) (congrArg State.sales hcut :)
  rw [State.afterCut_warmJournal hsale, htally, hsales, State.commitPosting_choose, State.choose_tally,
    State.choose_sales]
  exact ⟨rfl, rfl⟩

omit hsale in
theorem State.commitRecord_point : (s.commitRecord q f).point = q.point := rfl

theorem State.afterCut_warmJournal_point (pins : Pins) (link : Link) :
    (s.afterCut (some made) pins link).warmJournal.point q.point =
      (if made < 7 then s.point q.point else (s.point q.point).leaveSettling).firstStep.leaveSettling := by
  rw [State.afterCut_warmJournal hsale, State.completeCommit_point,
    State.commitRecord_point, if_pos rfl, ← State.cutCommit_point_posted hsale, State.afterCut,
    State.firstStep_point]
  rfl

end

theorem State.afterCut_checkGood (s : State) (cut : CommitCut) (pins : Pins) (link : Link) :
    (s.afterCut cut pins link).rcu.checkGood = s.rcu.checkGood := by
  show (s.cutCommit cut).rcu.checkGood = _
  rw [State.cutCommit_rest]

theorem State.commitCompleted {s : State} {q : Posting} {f : FrozenSale} (hgood : s.rcu.checkGood = true)
    (hsale : s.takenSale = some (q, f)) (hst : (s.point q.point).st = .settling) (made : Nat) (pins : Pins)
    (link : Link) : CommitCompleted s q f made ((s.afterCut (some made) pins link).testAndRun none) := by
  have hgood' := (s.afterCut_checkGood (some made) pins link).trans hgood
  have hwarm := State.afterCut_warmJournal hsale made pins link
  obtain ⟨htally, hsales⟩ := State.afterCut_completed hsale made pins link
  have hup := State.testAndRun_takenUp hgood'
  obtain ⟨hyst, hyrest, hyauth, hyfrozen, hysale⟩ := Point.leaveSettling_after_cut hst made
  rw [← State.afterCut_warmJournal_point hsale made pins link] at hyst hyrest hyauth hyfrozen hysale
  have hend := State.testAndRun_good_point hgood' q.point
  rw [Point.warmed_of_resting q.point (.inr hyrest)] at hend
  refine ⟨hup.journal, hup.tally.trans htally, hup.sales.trans hsales, ?_, ?_, ?_, ?_, ?_, ?_⟩
  · rw [hup.rollover, hwarm, State.completeCommit_eq]
    exact Bool.false_or _
  · rw [State.commitPosting_point, if_pos rfl, ← hyst, hend]
    rfl
  · rw [hend]
    exact hyauth
  · rw [hend]
    exact hyfrozen
  · rw [hend]
    exact hysale
  · intro e he heq
    obtain ⟨e', he', hpoint'⟩ := mem_of_untaken hup.postings he
    have hsame : e'.point = q.point := (congrArg Posting.point hpoint').trans heq
    rcases List.mem_append.1 he' with hmem | hmem
    · rw [hwarm, State.completeCommit_eq] at hmem
      exact of_decide_eq_true (List.mem_filter.1 hmem).2 hsame
    · have hcounting := (State.mem_powerPostings hmem).1
      rw [hsame] at hcounting
      rcases hyrest with h | h <;> rw [h] at hcounting <;> cases hcounting

/-- With no commit record whole, all of the sale stands as it was (R124, R171). -/
structure CommitUntouched (s : State) (q : Posting) (t : State) : Prop where
  journal : t.dcu.journal = none
  tally : t.tally = s.tally
  sales : t.sales = s.sales
  rollover : t.link.flags.rollover = false
  st : (t.point q.point).st = .settling
  frozen : (t.point q.point).frozen = (s.point q.point).frozen
  sale : (t.point q.point).flags.sale = false
  stays : ∃ e, e ∈ t.dcu.postings ∧ e.point = q.point

theorem State.commitUntouched {s : State} {q : Posting} (hgood : s.rcu.checkGood = true)
    (hjournal : s.dcu.journal = none) (hq : q ∈ s.dcu.postings) (hst : (s.point q.point).st = .settling) (pins : Pins)
    (link : Link) : CommitUntouched s q ((s.afterCut none pins link).testAndRun none) := by
  have hgood' := (s.afterCut_checkGood none pins link).trans hgood
  have hup := State.testAndRun_takenUp hgood'
  have hend := State.testAndRun_good_point hgood' q.point
  have hwarm : (s.afterCut none pins link).warmJournal = s.afterCut none pins link :=
    State.warmJournal_of_empty hjournal
  have hpoint : (s.afterCut none pins link).point q.point = (s.point q.point).firstStep := State.firstStep_point _ _
  rw [hwarm] at hup hend
  rw [hpoint, Point.warmed_of_resting (x := (s.point q.point).firstStep) q.point (.inl hst)] at hend
  refine ⟨hup.journal, hup.tally, hup.sales, hup.rollover, ?_, ?_, ?_, ?_⟩
  · rw [hend]
    exact hst
  · rw [hend]
    rfl
  · rw [hend]
    rfl
  · have hmem : q.untaken ∈ (s.afterCut none pins link).dcu.postings := List.mem_map_of_mem hq
    obtain ⟨e, he, hsame⟩ := mem_of_untaken hup.postings.symm (List.mem_append_left _ hmem)
    exact ⟨e, he, (congrArg Posting.point hsame :)⟩

/-! ## The three ways a commit is cut -/

/-- Steps that commute with a change commute with it in a row. -/
theorem runSteps_commutes {g : State → State} {fs : List (State → State)}
    (h : ∀ f, f ∈ fs → ∀ t, f (g t) = g (f t)) (s : State) : runSteps fs (g s) = g (runSteps fs s) := by
  induction fs generalizing s with
  | nil => rfl
  | cons f fs ih =>
    rw [runSteps_cons, runSteps_cons, h f List.mem_cons_self, ih fun e he => h e (List.mem_cons_of_mem f he)]

/-- The writes of a commit (R123). -/
theorem mem_commitSteps {c : CommitRecord} {f : State → State} (h : f ∈ commitSteps c) :
    (∃ w, w ∈ c.writes ∧ f = fun s => s.writeReg w.reg w.value) ∨
    f = (fun s => s.modSales (fun q => { q with nextSale := c.nextSale })) ∨
    f = (fun s => s.modSales (fun q => q.append c.record)) ∨
    f = (fun s => s.modPoint c.point Point.leaveSettling) ∨
    f = fun s => s.modDcu (fun d => d.removePosting c.point) := by
  simp only [commitSteps, List.mem_append, List.mem_map, List.mem_cons, List.not_mem_nil, or_false] at h
  exact h.imp_left fun ⟨w, hw, e⟩ => ⟨w, hw, e.symm⟩

/-- A cut does not read the link. -/
theorem State.cutCommit_link (s : State) (l : Link) (cut : CommitCut) :
    ({ s with link := l } : State).cutCommit cut = { s.cutCommit cut with link := l } := by
  have hsale : ({ s with link := l } : State).takenSale = s.takenSale := rfl
  unfold State.cutCommit
  rw [hsale]
  split
  · next n q f _ =>
    refine runSteps_commutes (g := fun t => { t with link := l }) (fun e he t => ?_)
      (s.beginCommit (s.commitRecord q f))
    rcases mem_commitSteps (List.mem_of_mem_take he) with ⟨w, -, rfl⟩ | rfl | rfl | rfl | rfl <;> rfl
  · rfl

theorem State.firstStep_withPins (s : State) (pins : Pins) :
    ({ s.firstStep with pins := pins } : State).firstStep = ({ s with pins := pins } : State).firstStep :=
  congrArg (fun t : State => { t with pins := pins }) s.firstStep_firstStep

theorem State.cutCommit_pins (s : State) (cut : CommitCut) : (s.cutCommit cut).pins = s.pins := by
  rw [State.cutCommit_rest]

section
variable {s : State} (cut : CommitCut) {env : StartEnv} (hup : env.upTo = none)
include hup

/-- A loss of main power and its return (R167, R168). -/
theorem exec_loss_return (ho : s.operating = true) : ∃ t pins link, exec (.mainPowerLoss cut) s = .next t ∧
    exec (.mainPowerReturn true env) t = .next ((s.afterCut cut pins link).testAndRun none) := by
  obtain ⟨hvdd, hresetn⟩ := State.powered_of_operating ho
  have hpins : (s.cutCommit cut).pins.resetn = true := by rw [State.cutCommit_pins, hresetn]
  refine ⟨{ (s.cutCommit cut).firstStep with pins := { (s.cutCommit cut).pins with vdd := false } },
    { (s.cutCommit cut).pins with vdd := true, straps := env.straps }, (s.cutCommit cut).link, ?_, ?_⟩
  · rw [exec_mainPowerLoss hvdd, if_pos ho]
    rfl
  · rw [exec_mainPowerReturn (s := { (s.cutCommit cut).firstStep with
      pins := { (s.cutCommit cut).pins with vdd := false } }) rfl hpins, hup, Bool.and_true]
    exact congrArg (fun t : State => Host.Outcome.next (t.testAndRun none)) ((s.cutCommit cut).firstStep_withPins _)

/-- RESETn asserted and released (R168). -/
theorem exec_reset_release (ho : s.operating = true) : ∃ t pins link, exec (.resetnAsserted cut) s = .next t ∧
    exec (.resetnReleased env) t = .next ((s.afterCut cut pins link).testAndRun none) := by
  obtain ⟨hvdd, hresetn⟩ := State.powered_of_operating ho
  have hpins : (s.cutCommit cut).pins.vdd = true := by rw [State.cutCommit_pins, hvdd]
  refine ⟨{ (s.cutCommit cut).firstStep with pins := { (s.cutCommit cut).pins with resetn := false } },
    { (s.cutCommit cut).pins with resetn := true, straps := env.straps }, (s.cutCommit cut).link, ?_, ?_⟩
  · rw [exec_resetnAsserted hvdd hresetn, if_pos ho]
    rfl
  · rw [exec_resetnReleased (s := { (s.cutCommit cut).firstStep with
      pins := { (s.cutCommit cut).pins with resetn := false } }) hpins rfl, hup]
    rfl

/-- RESTART (R174). -/
theorem exec_restart_cut (ht : s.takes []) (hidle : ∀ p, (s.point p).st ≠ .delivering ∧ (s.point p).st ≠ .paused ∧
    (s.point p).st ≠ .stopping) : ∃ pins link, exec (.restart [] cut env) s =
      .next ((s.afterCut cut pins link).testAndRun none) := by
  refine ⟨{ (s.cutCommit cut).pins with straps := env.straps }, (s.awaiting Kind.restart []).link, ?_⟩
  have hcut : (s.awaiting Kind.restart []).cutCommit cut =
      { s.cutCommit cut with link := (s.awaiting Kind.restart []).link } := s.cutCommit_link _ cut
  rw [exec_restart ht hidle, hup, hcut]
  rfl

end

/-- Settles O52: a cut leaves either no record, or a record that the next start completes as the whole commit
would have. -/
theorem commitSurvivesAnyCut : Obligations.CommitSurvivesAnyCut := by
  unfold Obligations.CommitSurvivesAnyCut
  intro s q cut env hunit hsales ho hq htaken hup sum rollover survived
  have hr := State.running_of_operating ho
  have hgood := hsales.postings.trusted hr
  have hjournal := hsales.postings.journal hr
  have hst : (s.point q.point).st = .settling :=
    (hsales.postings.settling hgood q.point (fun ⟨c, hc, _⟩ => by rw [hjournal] at hc; cases hc)).1 ⟨q, hq, rfl⟩
  obtain ⟨f, hf⟩ := Option.isSome_iff_exists.1 ((hsales.postings.points.points q.point).frozen.2 hst)
  have hsale : s.takenSale = some (q, f) :=
    State.takenSale_eq hq htaken (fun e he ht => hunit.oneTaken e q he hq ht htaken) hf
  have hsurvived : ∀ pins link, survived ((s.afterCut cut pins link).testAndRun none) := by
    intro pins link
    refine ⟨?_, ?_, ?_⟩
    · cases cut with
      | none => exact (State.commitUntouched hgood hjournal hq hst pins link).journal
      | some made => exact (State.commitCompleted hgood hsale hst made pins link).journal
    · rintro rfl
      obtain ⟨-, htally, hs, hroll, hst', hfrozen, hflag, hstays⟩ :=
        State.commitUntouched hgood hjournal hq hst pins link
      exact ⟨htally, hs, hroll, hst', hfrozen, hflag, hstays⟩
    · rintro made rfl
      obtain ⟨-, htally, hs, hroll, hst', hauth, hfrozen, hflag, hgone⟩ :=
        State.commitCompleted hgood hsale hst made pins link
      exact ⟨_, exec_postingCommit ho hsale, htally, hs, hroll.trans (s.commitRecord_rollover q f), hst', hauth,
        hfrozen, hflag, hgone⟩
  refine ⟨?_, ?_, fun ht hidle => ?_⟩
  · obtain ⟨t, pins, link, ht, hu⟩ := exec_loss_return cut hup ho
    exact ⟨t, _, ht, hu, hsurvived pins link⟩
  · obtain ⟨t, pins, link, ht, hu⟩ := exec_reset_release cut hup ho
    exact ⟨t, _, ht, hu, hsurvived pins link⟩
  · obtain ⟨pins, link, hu⟩ := exec_restart_cut cut hup ht hidle
    exact ⟨_, hu, hsurvived pins link⟩

end Sys2Proof.Machine

/-! # Proofs: a start that is interrupted, and taken up (Chapter 10) -/

namespace Sys2Proof.Machine

/-! ## The same retained state -/

namespace SameRetained

theorem refl (s : State) : SameRetained s s := ⟨fun _ => rfl, rfl, rfl, rfl, rfl, rfl, rfl⟩

theorem symm {s t : State} (h : SameRetained s t) : SameRetained t s :=
  ⟨fun p => (h.points p).symm, h.products.symm, h.tally.symm, h.postings.symm, h.journal.symm, h.sales.symm,
    h.generalCall.symm⟩

theorem trans {s t u : State} (h : SameRetained s t) (h' : SameRetained t u) : SameRetained s u :=
  ⟨fun p => (h.points p).trans (h'.points p), h.products.trans h'.products, h.tally.trans h'.tally,
    h.postings.trans h'.postings, h.journal.trans h'.journal, h.sales.trans h'.sales,
    h.generalCall.trans h'.generalCall⟩

theorem firstStep (s : State) : SameRetained s.firstStep s where
  points p := by
    rw [State.firstStep_point]
    rfl
  products := rfl
  tally := rfl
  postings := firstStep_untaken s
  journal := rfl
  sales := rfl
  generalCall := rfl

theorem finalStep (s : State) : SameRetained s.finalStep s where
  points p := by
    rw [State.finalStep_point]
    rfl
  products := by rw [State.finalStep_eq, State.choose_rest]
  tally := by rw [State.finalStep_eq, State.choose_rest]
  postings := by
    rw [State.finalStep_eq]
    exact State.choose_untaken _
  journal := by rw [State.finalStep_eq, State.choose_journal]
  sales := by rw [State.finalStep_eq, State.choose_rest]
  generalCall := by rw [State.finalStep_eq, State.choose_rest]

theorem coldStarted (s t : State) (a b : Bool) : SameRetained (s.coldStarted a) (t.coldStarted b) where
  points p := by
    rw [State.coldStarted_point, State.coldStarted_point]
    rfl
  products := rfl
  tally := rfl
  postings := rfl
  journal := rfl
  sales := rfl
  generalCall := rfl

end SameRetained

/-! ## Each step of the warm path reads retained state alone -/

theorem Point.retained_warmed (x : Point) (p : PointNo) : (x.retained.warmed p).retained = (x.warmed p).retained := by
  unfold Point.warmed
  cases hst : x.st <;> simp only [Point.retained, hst]

theorem Point.retained_leaveSettling (x : Point) : x.retained.leaveSettling.retained = x.leaveSettling.retained := by
  unfold Point.leaveSettling
  cases hst : x.st <;> simp only [Point.retained, hst]

theorem runSteps_writes_congr {s t : State} (h : s.tally = t.tally) (ws : List RegWrite) :
    (runSteps (ws.map (fun w s => s.writeReg w.reg w.value)) s).tally =
      (runSteps (ws.map (fun w s => s.writeReg w.reg w.value)) t).tally := by
  induction ws generalizing s t with
  | nil => exact h
  | cons w rest ih =>
    refine ih ?_
    show ({ s.tally with regs := s.tally.regs.set w.reg ((s.tally.regs[w.reg]).withValue w.value) } : Tally) =
      { t.tally with regs := t.tally.regs.set w.reg ((t.tally.regs[w.reg]).withValue w.value) }
    rw [h]

section
variable {s t : State} (h : SameRetained s t)
include h

theorem SameRetained.warmed (p : PointNo) : ((s.point p).warmed p).retained = ((t.point p).warmed p).retained := by
  rw [← Point.retained_warmed, h.points p, Point.retained_warmed]

theorem SameRetained.leaveSettling (p : PointNo) :
    (s.point p).leaveSettling.retained = (t.point p).leaveSettling.retained := by
  rw [← Point.retained_leaveSettling, h.points p, Point.retained_leaveSettling]

theorem SameRetained.powerPosting (p : PointNo) : (s.point p).powerPosting p = (t.point p).powerPosting p :=
  (congrArg (fun x : Point => x.powerPosting p) (h.points p) :)

theorem SameRetained.delivers (p : PointNo) : (s.point p).delivers = (t.point p).delivers :=
  (congrArg Point.delivers (h.points p) :)

theorem SameRetained.completeCommit (c : CommitRecord) : SameRetained (s.completeCommit c) (t.completeCommit c) where
  points p := by
    rw [State.completeCommit_point, State.completeCommit_point]
    split
    · exact h.leaveSettling p
    · exact h.points p
  products := by
    rw [State.completeCommit_eq, State.completeCommit_eq]
    exact h.products
  tally := by
    rw [State.completeCommit_eq, State.completeCommit_eq]
    exact runSteps_writes_congr h.tally c.writes
  postings := by
    rw [State.completeCommit_eq, State.completeCommit_eq]
    have hfilter : ∀ qs : List Posting, (qs.filter (fun q => decide (q.point ≠ c.point))).map Posting.untaken =
        (qs.map Posting.untaken).filter (fun q => decide (q.point ≠ c.point)) := fun qs => by
      rw [List.filter_map]
      rfl
    exact (hfilter _).trans ((congrArg _ h.postings).trans (hfilter _).symm)
  journal := by rw [State.completeCommit_eq, State.completeCommit_eq]
  sales := by
    rw [State.completeCommit_eq, State.completeCommit_eq, h.sales]
  generalCall := by
    rw [State.completeCommit_eq, State.completeCommit_eq]
    exact h.generalCall

theorem SameRetained.warmJournal : SameRetained s.warmJournal t.warmJournal := by
  unfold State.warmJournal
  rw [h.journal]
  cases t.dcu.journal with
  | none => exact h
  | some c => exact h.completeCommit c

theorem SameRetained.warmPoint (p : PointNo) : SameRetained (s.warmPoint p) (t.warmPoint p) where
  points q := by
    rw [State.warmPoint_point, State.warmPoint_point]
    split
    · exact h.warmed p
    · exact h.points q
  products := by
    rw [State.warmPoint_eq, State.warmPoint_eq]
    exact h.products
  tally := by
    rw [State.warmPoint_eq, State.warmPoint_eq]
    exact h.tally
  postings := by
    rw [State.warmPoint_eq, State.warmPoint_eq]
    show (s.dcu.postings ++ _).map _ = (t.dcu.postings ++ _).map _
    rw [List.map_append, List.map_append, h.postings, h.powerPosting]
  journal := by
    rw [State.warmPoint_eq, State.warmPoint_eq]
    exact h.journal
  sales := by
    rw [State.warmPoint_eq, State.warmPoint_eq]
    exact h.sales
  generalCall := by
    rw [State.warmPoint_eq, State.warmPoint_eq]
    exact h.generalCall

theorem SameRetained.product (k : ProductNo) : s.product k = t.product k :=
  congrArg (fun products : Vector (Option Product) 6 => products[k]) h.products

theorem SameRetained.reportLeft_product (k l : ProductNo) :
    (s.reportLeft k).product l = (t.reportLeft k).product l := by
  have hempty : s.deliveringEmpty k = t.deliveringEmpty k := by
    rw [Bool.eq_iff_iff, State.deliveringEmpty_iff, State.deliveringEmpty_iff]
    simp only [h.delivers]
  unfold State.reportLeft
  rw [hempty]
  split
  · rw [State.activate_product, State.activate_product, h.product, h.product]
  · exact h.product l

theorem SameRetained.warmPrice (k : ProductNo) : SameRetained (s.warmPrice k) (t.warmPrice k) where
  points p := by
    rw [State.warmPrice, State.warmPrice, State.reportLeft_point, State.reportLeft_point]
    exact h.points p
  products := State.products_eq (h.reportLeft_product k)
  tally := by
    rw [State.warmPrice, State.warmPrice, State.reportLeft_tally, State.reportLeft_tally]
    exact h.tally
  postings := by
    rw [State.warmPrice, State.warmPrice, State.reportLeft_dcu, State.reportLeft_dcu]
    exact h.postings
  journal := by
    rw [State.warmPrice, State.warmPrice, State.reportLeft_dcu, State.reportLeft_dcu]
    exact h.journal
  sales := by
    rw [State.warmPrice, State.warmPrice, State.reportLeft_sales, State.reportLeft_sales]
    exact h.sales
  generalCall := by
    rw [State.warmPrice, State.warmPrice, State.reportLeft_flags s, State.reportLeft_flags t]
    exact h.generalCall

/-- The warm path leaves the same retained state of the same (R171). -/
theorem SameRetained.runSteps_warmPath : SameRetained (runSteps warmPath s) (runSteps warmPath t) := by
  have hpath : ∀ fs : List (State → State), (∀ f, f ∈ fs → f ∈ warmPath) → ∀ s t : State, SameRetained s t →
      SameRetained (runSteps fs s) (runSteps fs t) := by
    intro fs
    induction fs with
    | nil => exact fun _ _ _ h => h
    | cons f rest ih =>
      intro hmem s t h
      refine ih (fun g hg => hmem g (List.mem_cons_of_mem f hg)) _ _ ?_
      rcases mem_warmPath (hmem f List.mem_cons_self) with rfl | ⟨p, rfl⟩ | ⟨k, rfl⟩
      · exact h.warmJournal
      · exact h.warmPoint p
      · exact h.warmPrice k
  exact hpath warmPath (fun _ hf => hf) s t h

end

/-! ## What the warm path has done it does not do twice -/

/-- A switch of the warm path (R171). -/
inductive WarmStep
  | journal
  | point (p : PointNo)
  | price (k : ProductNo)

def WarmStep.run : WarmStep → State → State
  | .journal => State.warmJournal
  | .point p => State.warmPoint p
  | .price k => State.warmPrice k

def warmSteps : List WarmStep := .journal :: allPoints.map .point ++ allProducts.map .price

theorem warmPath_eq_run : warmPath = warmSteps.map WarmStep.run := rfl

/-- A point with nothing left for warm step 2 (R26, R171). -/
def Point.Rests (x : Point) : Prop := x.st ≠ .calling ∧ x.st ≠ .authorized ∧ x.st.counting = false

/-- A switch has done its work. -/
def WarmStep.Done (s : State) : WarmStep → Prop
  | .journal => s.dcu.journal = none
  | .point p => (s.point p).Rests
  | .price k => (∀ p, (s.point p).Rests) ∧ s.isStaged k = false

theorem Point.rests_warmed (x : Point) (p : PointNo) : (x.warmed p).Rests := by
  unfold Point.warmed Point.Rests
  cases hst : x.st <;> simp [hst, PtState.counting]

theorem Point.Rests.leaveSettling {x : Point} (h : x.Rests) : x.leaveSettling.Rests := by
  by_cases hst : x.st = .settling
  · rcases Point.leaveSettling_st (.inl hst) with e | e <;> simp [Point.Rests, e, PtState.counting]
  · have hkeep : x.leaveSettling = x := by
      unfold Point.leaveSettling
      split
      · next e => exact absurd e hst
      · rfl
    rwa [hkeep]

theorem Point.Rests.delivers {x : Point} (h : x.Rests) : x.delivers = none := by
  obtain ⟨-, hauthorized, hcounting⟩ := h
  unfold Point.delivers
  cases hst : x.st <;> simp [hst, PtState.counting] at hauthorized hcounting ⊢

/-- A point that rests is left as it is by every switch (R171). -/
theorem WarmStep.run_rests {s : State} {p : PointNo} (h : (s.point p).Rests) (w : WarmStep) :
    ((w.run s).point p).Rests := by
  cases w with
  | journal =>
    show (s.warmJournal.point p).Rests
    rcases s.warmJournal_point p with e | ⟨c, -, -, e⟩ <;> rw [e]
    · exact h
    · exact h.leaveSettling
  | point q =>
    show ((s.warmPoint q).point p).Rests
    rw [State.warmPoint_point]
    split
    · exact Point.rests_warmed _ _
    · exact h
  | price k =>
    show ((s.reportLeft k).point p).Rests
    rw [State.reportLeft_point]
    exact h

theorem State.reportLeft_isStaged {s : State} {l : ProductNo} (h : s.isStaged l = false) (k : ProductNo) :
    (s.reportLeft k).isStaged l = false := by
  unfold State.reportLeft
  split
  · rw [State.activate_isStaged, h, Bool.false_and]
  · exact h

/-- With every point at rest a report activates (R53, R55). -/
theorem State.reportLeft_of_rests {s : State} (h : ∀ p, (s.point p).Rests) (k : ProductNo) :
    s.reportLeft k = s.activate k :=
  s.reportLeft_eq_activate k fun p l => by simp [(h p).delivers]

/-- What a switch has done stays done (R173). -/
theorem WarmStep.Done.run {s : State} {w : WarmStep} (h : w.Done s) (v : WarmStep) : w.Done (v.run s) := by
  cases w with
  | journal =>
    cases v with
    | journal => exact s.warmJournal_journal
    | point p =>
      show (s.warmPoint p).dcu.journal = none
      rw [State.warmPoint_eq]
      exact h
    | price k =>
      show (s.reportLeft k).dcu.journal = none
      rw [State.reportLeft_dcu]
      exact h
  | point p => exact v.run_rests h
  | price k =>
    obtain ⟨hrests, hstaged⟩ := h
    refine ⟨fun p => v.run_rests (hrests p), ?_⟩
    cases v with
    | journal =>
      show s.warmJournal.isStaged k = false
      rw [State.warmJournal_rest]
      exact hstaged
    | point p =>
      show (s.warmPoint p).isStaged k = false
      rw [State.warmPoint_eq]
      exact hstaged
    | price l => exact State.reportLeft_isStaged hstaged l

/-- A switch does its work, an activation only when no point is left in a delivery (R53, R171). -/
theorem WarmStep.done_run {s : State} {w : WarmStep} (h : ∀ k, w = .price k → ∀ p, (s.point p).Rests) :
    w.Done (w.run s) := by
  cases w with
  | journal => exact s.warmJournal_journal
  | point p =>
    show ((s.warmPoint p).point p).Rests
    rw [State.warmPoint_point, if_pos rfl]
    exact Point.rests_warmed _ _
  | price k =>
    have hrests := h k rfl
    refine ⟨fun p => WarmStep.run_rests (hrests p) _, ?_⟩
    show (s.reportLeft k).isStaged k = false
    rw [State.reportLeft_of_rests hrests, State.activate_isStaged]
    simp

/-- Done, a switch does nothing (R171, R173). -/
theorem WarmStep.Done.run_eq {s : State} {w : WarmStep} (h : w.Done s) : w.run s = s := by
  cases w with
  | journal => exact State.warmJournal_of_empty h
  | point p =>
    obtain ⟨hcalling, hauthorized, hcounting⟩ := h
    show s.warmPoint p = s
    unfold State.warmPoint
    cases hst : (s.point p).st <;> simp [hst, PtState.counting] at hcalling hauthorized hcounting ⊢
  | price k =>
    obtain ⟨hrests, hstaged⟩ := h
    exact (State.reportLeft_of_rests hrests k).trans (State.activate_of_not_staged hstaged)

/-- The points come before the prices in the warm path (R171). -/
theorem warmSteps_points_first {n : Nat} {k : ProductNo} (h : warmSteps[n]? = some (.price k)) (p : PointNo) :
    .point p ∈ warmSteps.take n := by
  have hfive : 5 ≤ n := by
    rcases n with _ | _ | _ | _ | _ | n
    case succ.succ.succ.succ.succ => omega
    all_goals cases h
  have hpoint : .point p ∈ warmSteps.take 5 := List.mem_cons_of_mem _ (List.mem_map_of_mem (mem_allPoints p))
  exact List.take_subset_take_left warmSteps hfive hpoint

/-- After a first part of the warm path each of its switches is done (R173). -/
theorem warmSteps_take_done (n : Nat) (s : State) :
    ∀ w, w ∈ warmSteps.take n → w.Done (runSteps ((warmSteps.take n).map WarmStep.run) s) := by
  induction n with
  | zero => simp
  | succ n ih =>
    rw [List.take_add_one]
    cases hn : warmSteps[n]? with
    | none => simpa using ih
    | some v =>
      intro w hw
      rw [Option.toList_some, List.map_append, runSteps_append]
      rcases List.mem_append.1 hw with hw | hw
      · exact (ih w hw).run v
      · obtain rfl : w = v := by simpa using hw
        refine WarmStep.done_run fun k hk p => ?_
        exact ih (.point p) (warmSteps_points_first (hn.trans (congrArg some hk)) p)

/-- Steps that do nothing in a state leave it as it is. -/
theorem runSteps_idle {fs : List (State → State)} {s : State} (h : ∀ f, f ∈ fs → f s = s) : runSteps fs s = s := by
  induction fs with
  | nil => rfl
  | cons f rest ih =>
    rw [runSteps_cons, h f List.mem_cons_self, ih fun g hg => h g (List.mem_cons_of_mem f hg)]

/-- The warm path begun, and then taken from its first switch, leaves what it leaves taken once (R173). -/
theorem runSteps_warmPath_take (n : Nat) (s : State) :
    runSteps warmPath (runSteps (warmPath.take n) s) = runSteps warmPath s := by
  have hagain : runSteps (warmPath.take n) (runSteps (warmPath.take n) s) = runSteps (warmPath.take n) s := by
    rw [warmPath_eq_run, ← List.map_take]
    refine runSteps_idle fun f hf => ?_
    obtain ⟨w, hw, rfl⟩ := List.mem_map.1 hf
    exact (warmSteps_take_done n s w hw).run_eq
  conv_lhs => rw [← List.take_append_drop n warmPath, runSteps_append]
  conv_rhs => rw [← List.take_append_drop n warmPath, runSteps_append]
  rw [List.take_append_drop, hagain]

/-! ## The start that takes up -/

theorem State.testAndRun_bad_retained {s : State} (h : s.rcu.checkGood = false) (t : State) (lost : Bool) :
    SameRetained (s.testAndRun none) (t.coldStarted lost) := by
  rw [State.testAndRun_cold h]
  exact .coldStarted s t true lost

theorem State.testAndRun_good_retained {s : State} (h : s.rcu.checkGood = true) :
    SameRetained (s.testAndRun none) (runSteps warmPath s) := by
  rw [State.testAndRun_good h]
  exact .finalStep _

/-- RETAIN-LOST after a start that runs to its end (R170, R172). -/
theorem State.testAndRun_retainLost (s : State) :
    (s.firstStep.testAndRun none).link.flags.retainLost = (!s.rcu.checkGood || s.rcu.retainLostMark) := by
  cases hcheck : s.rcu.checkGood with
  | false =>
    rw [State.testAndRun_cold (s := s.firstStep) hcheck]
    rfl
  | true =>
    have hpath : (runSteps warmPath s.firstStep).rcu = s.firstStep.rcu ∧
        (runSteps warmPath s.firstStep).link.flags.retainLost = s.firstStep.link.flags.retainLost :=
      runSteps_keeps (P := fun t => t.rcu = s.firstStep.rcu ∧
        t.link.flags.retainLost = s.firstStep.link.flags.retainLost) ⟨rfl, rfl⟩ (fun f hf t ⟨hrcu, hlost⟩ =>
          ⟨(warmPath_same hf t).2.trans hrcu, (warmPath_same hf t).1.lost.trans hlost⟩)
    obtain ⟨hrcu, hlost⟩ := hpath
    rw [State.testAndRun_good (s := s.firstStep) hcheck, State.finalStep_eq, State.choose_link, hrcu, hlost]
    rfl

/-- A warm start interrupted at any switch and taken up (R173). -/
theorem State.warm_taken_up {x : State} (h : x.rcu.checkGood = true) (n : Nat) :
    SameRetained ((runSteps (warmPath.take n) x).firstStep.testAndRun none) (runSteps warmPath x).finalStep := by
  have hgood : (runSteps (warmPath.take n) x).rcu.checkGood = true :=
    runSteps_keeps (P := fun t => t.rcu.checkGood = true) h (fun f hf t ht => by
      rw [(warmPath_same (List.mem_of_mem_take hf) t).2]
      exact ht)
  have hagain := (SameRetained.firstStep (runSteps (warmPath.take n) x)).runSteps_warmPath
  rw [runSteps_warmPath_take] at hagain
  exact ((State.testAndRun_good_retained (s := State.firstStep _) hgood).trans hagain).trans
    (SameRetained.finalStep _).symm

/-- The cold defaults have nothing for the warm path to do (R170, R171). -/
theorem runSteps_warmPath_coldDefaults (y : State) (mark : Bool) :
    runSteps warmPath ((y.coldDefaults mark).setCheck true) = (y.coldDefaults mark).setCheck true := by
  have hrests : ∀ p, (((y.coldDefaults mark).setCheck true).point p).Rests := fun p => by
    have hcold : ((y.coldDefaults mark).setCheck true).point p = Point.cold := y.coldDefaults_point mark p
    rw [hcold]
    simp [Point.Rests, Point.cold, PtState.counting]
  have hstaged : ∀ k, ((y.coldDefaults mark).setCheck true).isStaged k = false := fun k => by
    have hnone : ((y.coldDefaults mark).setCheck true).product k = none := Vector.getElem_replicate k.isLt
    rw [State.isStaged, hnone]
  refine runSteps_idle fun f hf => ?_
  rw [warmPath_eq_run] at hf
  obtain ⟨w, -, rfl⟩ := List.mem_map.1 hf
  refine WarmStep.Done.run_eq ?_
  cases w with
  | journal => rfl
  | point p => exact hrests p
  | price k => exact ⟨hrests, hstaged k⟩

/-- A path whose last switch marks the check word good, interrupted at any switch and taken up: before that
switch the cold path is taken again, after it the warm path finds nothing to do (R173, R175). -/
theorem State.cold_taken_up {x y : State} {mark : Bool} {body : List (State → State)} (h : x.rcu.checkGood = false)
    (hbody : ∀ f, f ∈ body → ∀ t : State, t.rcu.checkGood = false → (f t).rcu.checkGood = false)
    (hall : runSteps (body ++ [fun s : State => s.setCheck true]) x = (y.coldDefaults mark).setCheck true) (n : Nat) :
    SameRetained ((runSteps ((body ++ [fun s : State => s.setCheck true]).take n) x).firstStep.testAndRun none)
      (runSteps (body ++ [fun s : State => s.setCheck true]) x).finalStep := by
  rcases Nat.lt_or_ge body.length n with hn | hn
  · rw [List.take_of_length_le (by simpa using hn), hall]
    have hagain := (SameRetained.firstStep ((y.coldDefaults mark).setCheck true)).runSteps_warmPath
    rw [runSteps_warmPath_coldDefaults] at hagain
    have hgood : (((y.coldDefaults mark).setCheck true).firstStep).rcu.checkGood = true := rfl
    exact ((State.testAndRun_good_retained hgood).trans hagain).trans (SameRetained.finalStep _).symm
  · have hbad : (runSteps ((body ++ [fun s : State => s.setCheck true]).take n) x).rcu.checkGood = false := by
      rw [List.take_append_of_le_length hn]
      exact runSteps_keeps (P := fun t => t.rcu.checkGood = false) h
        (fun f hf t ht => hbody f (List.mem_of_mem_take hf) t ht)
    rw [hall, State.coldDefaults_finalStep]
    exact State.testAndRun_bad_retained (s := State.firstStep _) hbad y _

theorem coldPath_taken_up {x : State} (h : x.rcu.checkGood = false) (n : Nat) :
    SameRetained ((runSteps (coldPath.take n) x).firstStep.testAndRun none) (runSteps coldPath x).finalStep := by
  refine State.cold_taken_up (body := (fun s : State => s.setCheck false) :: coldWrites true) h (fun f hf t ht => ?_)
    (runSteps_coldPath x) n
  rcases List.mem_cons.1 hf with rfl | hf
  · rfl
  · exact ((mem_coldWrites hf).same t).2.trans ht

theorem clearPath_taken_up {x : State} (h : x.rcu.checkGood = false) (n : Nat) :
    SameRetained ((runSteps (clearPath.take n) x).firstStep.testAndRun none) (runSteps clearPath x).finalStep :=
  State.cold_taken_up (body := coldWrites false) h (fun _ hf t ht => ((mem_coldWrites hf).same t).2.trans ht)
    (runSteps_clearPath x) n

/-- The path of a start by the check word (R170, R173). -/
theorem startPath_taken_up (x : State) (n : Nat) :
    SameRetained ((x.testAndRun (some n)).firstStep.testAndRun none) (x.testAndRun none) := by
  unfold State.testAndRun State.runPath
  cases h : x.rcu.checkGood with
  | true => exact State.warm_taken_up h n
  | false => exact coldPath_taken_up h n

/-! ## The events -/

/-- A part that has not come to RUNNING, powered and with RESETn high, under these straps. -/
structure InStart (straps : BitVec 2) (t : State) : Prop where
  vdd : t.pins.vdd = true
  resetn : t.pins.resetn = true
  straps : t.pins.straps = straps
  running : t.rcu.running = false

theorem InStart.not_operating {straps : BitVec 2} {t : State} (h : InStart straps t) : t.operating = false := by
  simp [State.operating, h.running]

section
variable {straps : BitVec 2} {t : State} (h : InStart straps t)
include h

/-- Power lost and back finds the pins as they were (R168). -/
theorem InStart.exec_return : exec (.mainPowerReturn true ⟨straps, none⟩)
    { t.firstStep with pins := { t.pins with vdd := false } } = .next (t.firstStep.testAndRun none) := by
  obtain ⟨hvdd, hresetn, rfl, -⟩ := h
  refine (exec_mainPowerReturn (s := { t.firstStep with pins := { t.pins with vdd := false } }) rfl hresetn true
    ⟨_, none⟩).trans (congrArg (fun v : State => Host.Outcome.next (v.testAndRun none)) ?_)
  rw [Bool.and_true, ← hvdd]
  exact t.firstStep_firstStep

/-- RESETn low and back finds the pins as they were (R168). -/
theorem InStart.exec_release : exec (.resetnReleased ⟨straps, none⟩)
    { t.firstStep with pins := { t.pins with resetn := false } } = .next (t.firstStep.testAndRun none) := by
  obtain ⟨hvdd, hresetn, rfl, -⟩ := h
  refine (exec_resetnReleased (s := { t.firstStep with pins := { t.pins with resetn := false } }) hvdd rfl
    ⟨_, none⟩).trans ?_
  rw [← hresetn]
  rfl

end

/-- Interrupted by a loss of main power or by RESETn, the part starts from its first step (R168, R173). -/
theorem InStart.taken_up {straps : BitVec 2} {t whole : State} (h : InStart straps t)
    (hsame : SameRetained (t.firstStep.testAndRun none) whole) :
    (∃ u v, exec (.mainPowerLoss none) t = .next u ∧
      exec (.mainPowerReturn true ⟨straps, none⟩) u = .next v ∧ SameRetained v whole ∧
      v.link.flags.retainLost = (!t.rcu.checkGood || t.rcu.retainLostMark)) ∧
    ∃ u v, exec (.resetnAsserted none) t = .next u ∧
      exec (.resetnReleased ⟨straps, none⟩) u = .next v ∧ SameRetained v whole ∧
      v.link.flags.retainLost = (!t.rcu.checkGood || t.rcu.retainLostMark) := by
  have hidle : (if t.operating then t.cutCommit none else t) = t := if_neg (by simp [h.not_operating])
  refine ⟨⟨_, _, ?_, h.exec_return, hsame, t.testAndRun_retainLost⟩,
    ⟨_, _, ?_, h.exec_release, hsame, t.testAndRun_retainLost⟩⟩
  · rw [exec_mainPowerLoss h.vdd, hidle]
    rfl
  · rw [exec_resetnAsserted h.vdd h.resetn, hidle]
    rfl

theorem InStart.runSteps {straps : BitVec 2} {x : State} (h : InStart straps x) {fs : List (State → State)}
    (hfs : ∀ f, f ∈ fs → ∀ t, SameUntilFinal t (f t)) : InStart straps (runSteps fs x) :=
  runSteps_keeps h fun f hf t ht => by
    obtain ⟨hpins, hrunning, -⟩ := hfs f hf t
    exact ⟨hpins ▸ ht.vdd, hpins ▸ ht.resetn, hpins ▸ ht.straps, hrunning.trans ht.running⟩

theorem coldPath_same {f : State → State} (hf : f ∈ coldPath) (t : State) : SameUntilFinal t (f t) := by
  rcases mem_coldPath hf with rfl | h | rfl
  · exact ⟨rfl, rfl, rfl⟩
  · exact (h.same t).1
  · exact ⟨rfl, rfl, rfl⟩

theorem clearPath_same {f : State → State} (hf : f ∈ clearPath) (t : State) : SameUntilFinal t (f t) := by
  rcases mem_clearPath hf with h | rfl
  · exact (h.same t).1
  · exact ⟨rfl, rfl, rfl⟩

theorem InStart.testAndRun {straps : BitVec 2} {x : State} (h : InStart straps x) (n : Nat) :
    InStart straps (x.testAndRun (some n)) := by
  refine h.runSteps fun f hf t => ?_
  have hf := List.mem_of_mem_take hf
  split at hf
  · exact (warmPath_same hf t).1
  · exact coldPath_same hf t

theorem InStart.clearPath {straps : BitVec 2} {x : State} (h : InStart straps x) (n : Nat) :
    InStart straps (x.runPath clearPath (some n)) :=
  h.runSteps fun _ hf t => clearPath_same (List.mem_of_mem_take hf) t

theorem State.operating_of_takes {s : State} {payload : List Byte} (h : s.takes payload) : s.operating = true := by
  have hwrite := h.1
  unfold State.acceptsWrite at hwrite
  rw [Bool.and_eq_true] at hwrite
  exact hwrite.1

/-- Settles O53: the switches made are not made again by the warm path, and the cold paths end at the same
defaults. -/
theorem interruptedStartIsTakenUp : Obligations.InterruptedStartIsTakenUp := by
  unfold Obligations.InterruptedStartIsTakenUp
  intro s straps switches takenUp
  have hstart : ∀ (start : StartEnv → Instr) (x : State),
      (∀ upTo, exec (start ⟨straps, upTo⟩) s = .next (x.testAndRun upTo)) → InStart straps x → takenUp start :=
    fun start x hexec hx =>
      ⟨_, _, hexec _, hexec _, (hx.testAndRun switches).taken_up (startPath_taken_up x switches)⟩
  refine ⟨fun hvdd hresetn held => ?_, fun hvdd hresetn hfirst => ?_, fun ht hidle => ?_, fun ht hundefined => ?_⟩
  · exact hstart (.mainPowerReturn held) ({ s with
        pins := { s.pins with vdd := true, straps := straps }
        rcu := { s.rcu with checkGood := s.rcu.checkGood && held } } : State).firstStep
      (fun upTo => exec_mainPowerReturn hvdd hresetn held ⟨straps, upTo⟩)
      ⟨rfl, hresetn, rfl, rfl⟩
  · have hrunning : s.rcu.running = false := (congrArg (fun t : State => t.rcu.running) hfirst).symm
    exact hstart .resetnReleased { s with pins := { s.pins with resetn := true, straps := straps } }
      (fun upTo => exec_resetnReleased hvdd hresetn ⟨straps, upTo⟩)
      ⟨hvdd, rfl, rfl, hrunning⟩
  · obtain ⟨hvdd, hresetn⟩ := State.powered_of_operating (State.operating_of_takes ht)
    exact hstart (.restart [] none) ((s.awaiting Kind.restart []).setStraps straps).firstStep
      (fun upTo => exec_restart ht hidle none ⟨straps, upTo⟩)
      ⟨hvdd, hresetn, rfl, rfl⟩
  · obtain ⟨hvdd, hresetn⟩ := State.powered_of_operating (State.operating_of_takes ht)
    refine ⟨_, _, exec_clearRetained ht hundefined _, exec_clearRetained ht hundefined _, InStart.taken_up ?_ ?_⟩
    · exact InStart.clearPath (x := ({ s.awaiting Kind.clearRetained [] with
        pins := { s.pins with straps := straps } } : State).firstStep.setCheck false) ⟨hvdd, hresetn, rfl, rfl⟩ switches
    · exact clearPath_taken_up rfl switches

end Sys2Proof.Machine
